-- ==== Sys2Proof/Word.lean ====
section
/-! DEFINITION. Word.lean: the word types of the bridge and the four-place family used for views and profile buffers. -/

namespace Sys2Proof

/-- A byte of the bus, of DRAM or of a shadow. -/
abbrev Byte := BitVec 8

/-- A reading of the 32-bit microsecond timestamp (R55). -/
abbrev Stamp := BitVec 32

/-- A 16-bit count that wraps (R22, R194). -/
abbrev Count16 := BitVec 16

/-- One value for each of four places: the four views (R1), the four profile buffers of a view (R50). -/
structure Four (α : Type) where
  i0 : α
  i1 : α
  i2 : α
  i3 : α
  deriving DecidableEq, Repr

namespace Four

variable {α : Type}

/-- The same value in all four places. -/
def const (x : α) : Four α := ⟨x, x, x, x⟩

/-- The value in place `i`. -/
def get (f : Four α) (i : Fin 4) : α :=
  match i with
  | 0 => f.i0
  | 1 => f.i1
  | 2 => f.i2
  | 3 => f.i3

/-- `f` with `x` in place `i`. -/
def set (f : Four α) (i : Fin 4) (x : α) : Four α :=
  match i with
  | 0 => { f with i0 := x }
  | 1 => { f with i1 := x }
  | 2 => { f with i2 := x }
  | 3 => { f with i3 := x }

/-- `g` applied in every place. -/
def map (f : Four α) (g : α → α) : Four α := ⟨g f.i0, g f.i1, g f.i2, g f.i3⟩

@[simp] theorem get_const (x : α) (i : Fin 4) : (const x).get i = x := by
  fin_cases i <;> rfl

@[simp] theorem get_set_self (f : Four α) (i : Fin 4) (x : α) : (f.set i x).get i = x := by
  fin_cases i <;> rfl

theorem get_set_ne (f : Four α) (i j : Fin 4) (x : α) (h : j ≠ i) : (f.set i x).get j = f.get j := by
  revert h; fin_cases i <;> fin_cases j <;> simp [get, set]

theorem get_set (f : Four α) (i j : Fin 4) (x : α) :
    (f.set i x).get j = if j = i then x else f.get j := by
  by_cases h : j = i
  · subst h; simp
  · simp [h, get_set_ne]

@[simp] theorem get_map (f : Four α) (g : α → α) (i : Fin 4) : (f.map g).get i = g (f.get i) := by
  fin_cases i <;> rfl

@[ext] theorem ext_get (f g : Four α) (h : ∀ i, f.get i = g.get i) : f = g := by
  cases f; cases g
  have h0 := h 0; have h1 := h 1; have h2 := h 2; have h3 := h 3
  simp [get] at h0 h1 h2 h3
  simp [*]

end Four

end Sys2Proof
end

