-- ==== Sys2Proof/Config.lean ====
section
/-! DEFINITION. Config.lean: the free values of the bridge's surroundings (constants without a body) and the
part's fixed sizes. -/

namespace Sys2Proof

/-- R168: "After power-up the contents of DRAM, the control region included, are undefined until written."
The byte an address holds before anything has been written there (log 8). -/
opaque Config.powerUpByte : Nat → Byte

/-- R168: the bytes of an operation being performed when RESETn is asserted are undefined. The byte left at an
address (second argument) by the assertion numbered by the first argument (log 9). -/
opaque Config.tornByte : Nat → Nat → Byte

/-- How many microseconds the performing of an operation goes on after the controller has taken it, by the number of the
taking. It is finite (R157), and the spec gives no value (log 11). -/
opaque Config.performTime : Nat → Nat

namespace Config

/-- Places of the upstream request queue (R143). -/
def requestPlaces : Nat := 8

/-- Places of the own-write queue (R159). -/
def ownPlaces : Nat := 16

/-- Size of the control region in bytes (R146). -/
def controlSize : Nat := 0x2000

/-- Tile records of a view and entries of a decision map: a grid of 20 columns by 30 rows (R95). -/
def tileCount : Nat := 600

/-- Columns of the largest tile grid (R95). -/
def tileColumns : Nat := 20

/-- The glitch window in microseconds (R59). -/
def glitchWindow : Nat := 500

/-- The stale timeout in microseconds (R63). -/
def staleTime : Nat := 1048576

/-- The longest memory initialization in microseconds (R168). -/
def initBound : Nat := 400

end Config

end Sys2Proof
end

