-- ==== Sys2Proof/Syntax.lean ====
section
/-! DEFINITION. Syntax.lean: the commands of the bridge, one constructor per row of spec/opcode_table.json, and
the operands they carry. -/

namespace Sys2Proof

/-- The straps as sampled at the release of RESETn (R152). -/
structure Straps where
  msize : BitVec 2
  cbase : BitVec 3
  bypass : Bool
  deriving DecidableEq, Repr

/-- The two rotation inputs (R56). -/
inductive RotId where
  | rota
  | rotb
  deriving DecidableEq, Repr

/-- Whether TSREF makes transitions (R204). While it makes none the timestamp is held. -/
inductive TimeReference where
  | running
  | held
  deriving DecidableEq, Repr

/-- A change of level on a rotation input (R56), and what TSREF does when the bridge sees it (R204, log 26). -/
structure LevelChange where
  input : RotId
  tsref : TimeReference
  deriving DecidableEq, Repr

/-- One byte of write data with its byte enable (R142). -/
structure WriteByte where
  data : Byte
  enable : Bool
  deriving DecidableEq, Repr

/-- A WRITE request (R142): byte address, originator tag, and its bytes in ascending address order, four for each
beat. -/
structure WriteRequest where
  address : BitVec 32
  tag : Byte
  bytes : List WriteByte
  deriving DecidableEq, Repr

/-- A READ request (R142): byte address, originator tag, number of beats. -/
structure ReadRequest where
  address : BitVec 32
  tag : Byte
  beats : Nat
  deriving DecidableEq, Repr

/-- A request of the frame-memory bus (R142). -/
inductive Request where
  | write (w : WriteRequest)
  | read (r : ReadRequest)
  deriving DecidableEq, Repr

/-- The commands: the rows of spec/opcode_table.json, in its order. -/
inductive Instr where
  /-- RESET_ASSERT (R154) -/
  | resetAssert
  /-- RESET_RELEASE (R28, R152): the strap pins, and the levels of ROTA and ROTB (R56), at the release -/
  | resetRelease (straps : Straps) (rota rotb : Bool)
  /-- MEMORY_INITIALIZATION_COMPLETE (R168) -/
  | memoryInitializationComplete
  /-- TIMESTAMP_TICK (R55) -/
  | timestampTick
  /-- WRITE (R148) -/
  | write (w : WriteRequest)
  /-- CONTROL_WRITE (R170) -/
  | controlWrite (w : WriteRequest)
  /-- ACKNOWLEDGE (R173) -/
  | acknowledge (w : WriteRequest)
  /-- MASK (R174) -/
  | mask (w : WriteRequest)
  /-- REPORT_OWNER_WRITE (R186) -/
  | reportOwnerWrite (w : WriteRequest)
  /-- READ (R149) -/
  | read (r : ReadRequest)
  /-- PRESENTATION_READ (R131) -/
  | presentationRead (r : ReadRequest)
  /-- UPSTREAM_OPERATION_ISSUE (R161) -/
  | upstreamOperationIssue
  /-- OWN_WRITE_ISSUE (R161) -/
  | ownWriteIssue
  /-- OPERATION_DATA_RETURN (R165) -/
  | operationDataReturn
  /-- READ_RESPONSE (R166) -/
  | readResponse
  /-- CONFIGURE (R12) -/
  | configure
  /-- TRACK (R13) -/
  | track
  /-- PARK (R14) -/
  | park
  /-- RELEASE (R17) -/
  | release
  /-- RELEASE_ALL (R18) -/
  | releaseAll
  /-- REBASE (R16) -/
  | rebase
  /-- TUNE (R19) -/
  | tune
  /-- ZERO (R195) -/
  | zero
  /-- EDGE (R64) -/
  | edge
  /-- BAD_CODE (R181) -/
  | badCode
  /-- SOLVE_START (R71) -/
  | solveStart
  /-- SOLVE_ARITHMETIC_END (R73) -/
  | solveArithmeticEnd
  /-- SOLVE_COMPLETION (R93) -/
  | solveCompletion
  /-- ROTATION_EDGE (R56, R204): the level of an input changes -/
  | rotationEdge (change : LevelChange)
  /-- STALE_TIMEOUT (R63) -/
  | staleTimeout (input : RotId)
  deriving DecidableEq, Repr

end Sys2Proof
end

