-- ==== Sys2Proof/Decode.lean ====
section
/-! DEFINITION. Decode.lean: the command a table word spells. spec/opcode_table.json gives no row any bits, so no
word spells a command (log 19). -/

namespace Sys2Proof

/-- The command that the word `w` of `nbits` bits spells by the bits of spec/opcode_table.json: none, since no row
of the table has bits (log 19). -/
def decodeTableWord (_nbits _w : Nat) : Option Instr := none

end Sys2Proof
end

