-- ==== Sys2Proof/Machine/State.lean ====
section
/-! DEFINITION. Machine/State.lean: every piece of state the spec gives the bridge, as plain data, and its value
right after reset. -/

namespace Sys2Proof.Machine

/-! ## Views, slots, tiles -/

/-- R9. -/
inductive ViewState where
  | unconfigured | parked | tracking | parking
  deriving DecidableEq, Repr

/-- R2, R200. -/
inductive PixelFormat where
  | y8 | yc16
  deriving DecidableEq, Repr

/-- R2: any code but 1 is FRAME. -/
inductive SwapMode where
  | frame | line
  deriving DecidableEq, Repr

/-- The descriptor values in force: geometry, tags, swap mode and rotation selector (R2, R12). Addresses are exact
numbers, since ranges are compared without a wrap (R6). -/
structure Geometry where
  format : PixelFormat
  w : Nat
  h : Nat
  sp : Nat
  pp : Nat
  mx : Nat
  my : Nat
  base : Nat
  slotBases : List Nat
  intakeTag : Byte
  intakeMask : Byte
  displayTag : Byte
  displayMask : Byte
  swap : SwapMode
  rotation : Option RotId
  deriving DecidableEq, Repr

/-- The nine tunables (R2, R76). -/
structure Tunables where
  sry : Nat
  srx : Nat
  ft : Nat
  l : Nat
  cr : Nat
  mt : Nat
  ha : Nat
  wf : Nat
  ln : Nat
  deriving DecidableEq, Repr

/-- R20, R21. -/
inductive SlotState where
  | empty | filling | solving | ready | faulted
  deriving DecidableEq, Repr

/-- A decision map entry: LIVE, or HELD naming another slot of the view (R20). -/
inductive MapEntry where
  | live
  | held (slot : Nat)
  deriving DecidableEq, Repr

/-- Crop offsets in lines and in pairs (R20). -/
structure Offsets where
  oy : Int
  ox : Int
  deriving DecidableEq, Repr

/-- A slot record (R20). The map has 600 entries; the entry of tile (i, j) stands at 20·j + i (log 17). -/
structure Slot where
  base : Nat
  state : SlotState
  sequence : Count16
  startStamp : Nat
  offsets : Option Offsets
  map : List MapEntry
  deriving DecidableEq, Repr

/-- R97. -/
inductive TileState where
  | learning | clean | held | exposed
  deriving DecidableEq, Repr

/-- A tile record (R95). -/
structure Tile where
  state : TileState
  age : Nat
  bm : Nat
  bc : Nat
  source : Option Nat
  deriving DecidableEq, Repr

/-! ## Intake and profile buffers -/

/-- R30. -/
inductive IntakeState where
  | waitStart | inFrame | hunt
  deriving DecidableEq, Repr

/-- An intake record (R29). -/
structure Intake where
  state : IntakeState
  slot : Option Nat
  pointer : Nat
  buffer : Option (Fin 4)
  prevLuma : Option Nat
  midTime : Option Stamp
  deriving DecidableEq, Repr

/-- R50, R51. -/
inductive BufferRole where
  | free | accum | wait | solve | ref
  deriving DecidableEq, Repr

/-- The phase part of a snapshot: period T and phase origin (R48). -/
structure PhasePart where
  period : Nat
  origin : Stamp
  deriving DecidableEq, Repr

/-- A mid-line snapshot (R48). -/
structure Snapshot where
  time : Stamp
  phase : Option PhasePart
  deriving DecidableEq, Repr

/-- The frame a buffer or a solver entry belongs to (R50, R70). -/
structure FrameId where
  view : Fin 4
  slot : Nat
  sequence : Count16
  deriving DecidableEq, Repr

/-- A profile buffer (R50). The sums S and G of tile (i, j) stand at 20·j + i (log 17). -/
structure ProfileBuffer where
  role : BufferRole
  owner : Option FrameId
  rowSums : List Nat
  colSums : List Nat
  tileS : List Nat
  tileG : List Nat
  snapshot : Option Snapshot
  deriving DecidableEq, Repr

/-! ## The view -/

/-- The scan record (R118). -/
structure Scan where
  lastLine : Option Nat
  presented : Option Nat
  recorded : Option Offsets
  deriving DecidableEq, Repr

/-- The seven counters of a view (R194). -/
structure ViewCounters where
  foreign : Count16
  stray : Count16
  fault : Count16
  skip : Count16
  overtake : Count16
  lost : Count16
  holdBreak : Count16
  deriving DecidableEq, Repr

/-- The motion record (R76). -/
structure Motion where
  ay : Int
  ax : Int
  dy : List Int
  dx : List Int
  active : Tunables
  pending : Option Tunables
  countdown : Nat
  deriving DecidableEq, Repr

/-- Everything the bridge keeps for one view. -/
structure View where
  state : ViewState
  geometry : Geometry
  slots : List Slot
  ready : List Nat
  nextSequence : Count16
  startCount : Nat
  intake : Intake
  buffers : Four ProfileBuffer
  motion : Motion
  tiles : List Tile
  seed : Bool
  whiteout : Bool
  scan : Scan
  counters : ViewCounters
  deriving DecidableEq, Repr

/-! ## Rotation inputs -/

/-- R56. -/
inductive EdgeMode where
  | none | rise | fall | both
  deriving DecidableEq, Repr

/-- R58. -/
inductive RotState where
  | off | acquire | locked | stale
  deriving DecidableEq, Repr

/-- R57. -/
inductive Polarity where
  | rising | falling
  deriving DecidableEq, Repr

/-- The record of one rotation input (R57), with its sampled level (R56). -/
structure RotInput where
  level : Bool
  mode : EdgeMode
  state : RotState
  count : Nat
  times : List Stamp
  lastPolarity : Option Polarity
  lastRising : Option Stamp
  period : Option Nat
  origin : Option Stamp
  deriving DecidableEq, Repr

/-! ## Solver -/

/-- A waiting entry, or the entry under solve (R69, R70). -/
structure SolveEntry where
  frame : FrameId
  buffer : Fin 4
  deriving DecidableEq, Repr

/-- The solver record (R69). -/
inductive Solver where
  | idle
  | busy (entry : SolveEntry) (reopened ended : Bool)
  deriving DecidableEq, Repr

/-! ## Control unit -/

/-- R179, R186. -/
inductive Owner where
  | software | bridge
  deriving DecidableEq, Repr

/-- What a command in flight waits for (R182): PARK and REBASE a solve of their view, RELEASE ALL any solve. -/
inductive Wait where
  | park (v : Fin 4)
  | rebase (v : Fin 4)
  | releaseAll
  deriving DecidableEq, Repr

/-- The in-flight command (R179): its index, the 16 bytes as taken, and what it waits for. A command that does not
wait is in flight only inside the step that takes it. -/
structure InFlight where
  index : Nat
  entry : List Byte
  wait : Wait
  deriving DecidableEq, Repr

/-! ## System port and memory sequencer -/

/-- A place of the upstream request queue (R144): the request's number in acceptance order, whether it is a read,
and whether the last beat of a read has been returned. -/
structure PortEntry where
  number : Nat
  isRead : Bool
  answered : Bool
  deriving DecidableEq, Repr

/-- What an upstream operation does (R158). A read fetches `length` bytes and puts `count` of them, from byte
`skip` of its data on, into the places from `place` on of its request's assembly record (R165). -/
inductive OpKind where
  | write (bytes : List WriteByte)
  | read (length skip count place : Nat)
  deriving DecidableEq, Repr

/-- An operation of the upstream stream (R158): its request, its birth (section 8.5), its beat-aligned address,
what it does, the own write its promotion mark names, and whether that own write has been issued for it while it stood at
the head, so that it is issued next (R162). -/
structure UpOp where
  request : Nat
  birth : Nat
  address : Nat
  kind : OpKind
  mark : Option Nat
  promoted : Bool
  deriving DecidableEq, Repr

/-- R159. -/
inductive OwnKind where
  | report | status
  deriving DecidableEq, Repr

/-- An entry of the own-write queue (R159); its birth is also its name in a promotion mark (R162). -/
structure OwnWrite where
  kind : OwnKind
  birth : Nat
  address : Nat
  bytes : List Byte
  passes : Nat
  deriving DecidableEq, Repr

/-- An assembly record (R165): its request, one place for each byte, and how many beats have been handed on. -/
structure Assembly where
  request : Nat
  places : List (Option Byte)
  returned : Nat
  deriving DecidableEq, Repr

/-- A read operation issued to the DRAM whose data has not returned: the data as DRAM held it at the issue
(R157), and where it goes (R165). -/
structure ReturningRead where
  request : Nat
  data : List Byte
  skip : Nat
  count : Nat
  place : Nat
  deriving DecidableEq, Repr

/-- The operation the DRAM controller took last (R157, R168): the bytes it touches, whether it is a read, and how many
microseconds it still takes; at 0 it is no longer being performed (log 11). -/
structure Performing where
  address : Nat
  length : Nat
  isRead : Bool
  left : Nat
  deriving DecidableEq, Repr

/-! ## The whole machine -/

/-- Reset, straps and time. -/
structure Env where
  straps : Straps
  resetAsserted : Bool
  initializing : Bool
  timestamp : Stamp
  deriving DecidableEq, Repr

/-- The blocks of the bridge. -/
structure Bridge where
  rota : RotInput
  rotb : RotInput
  views : Four View
  solver : Solver
  solverQueue : List SolveEntry
  events : BitVec 19
  mask : BitVec 32
  descriptors : Four (List Byte)
  commandShadow : List Byte
  nextIndex : Nat
  inFlight : Option InFlight
  owners : List Owner
  position : Nat
  glitchA : Count16
  glitchB : Count16
  outOfRange : Count16
  requests : List PortEntry
  busWait : List Request
  accepted : Nat
  stream : List UpOp
  ownWrites : List OwnWrite
  births : Nat
  assemblies : List Assembly
  deriving DecidableEq, Repr

/-- The frame DRAM and its controller: bytes written so far (addresses strictly rising), reads whose data is to
return, the operation taken last, and the model's own counter of free values (log 9, log 11). -/
structure Dram where
  cells : List Host.Cell
  returning : List ReturningRead
  performing : Option Performing
  freeCount : Nat
  deriving DecidableEq, Repr

/-- The state of the block. -/
structure State where
  env : Env
  bridge : Bridge
  dram : Dram
  readData : List Byte
  pending : List Instr
  deriving DecidableEq, Repr

/-- Why a step stops with a fault. -/
inductive Fault where
  /-- Raised by the write and read rows when their operand is no request of the bus (R142: beat aligned, 1 to 64
  beats): the bus cannot carry it, and the spec gives it no effect. Safe: the hardware never meets it (log 5). -/
  | malformedRequest
  deriving DecidableEq, Repr

/-- Why a step has no meaning. -/
inductive Refusal where
  /-- Raised by an arm of exec whose command has no meaning yet. Safe. -/
  | notModelled (mnemonic : String)
  deriving DecidableEq, Repr

/-! ## Reset values -/

/-- No descriptor is in force (log 16). -/
def Geometry.unset : Geometry :=
  { format := .y8, w := 0, h := 0, sp := 0, pp := 0, mx := 0, my := 0, base := 0, slotBases := [],
    intakeTag := 0, intakeMask := 0, displayTag := 0, displayMask := 0, swap := .frame, rotation := none }

/-- R94: active tunables of 0. -/
def Tunables.zero : Tunables := ⟨0, 0, 0, 0, 0, 0, 0, 0, 0⟩

/-- R29. -/
def Intake.reset : Intake :=
  { state := .waitStart, slot := none, pointer := 0, buffer := none, prevLuma := none, midTime := none }

/-- R54: FREE, the sums undefined until a frame start. The spec gives neither owner nor snapshot a reset value; the
model's choice is none for both, and empty lists for the sums (log 16). -/
def ProfileBuffer.reset : ProfileBuffer :=
  { role := .free, owner := none, rowSums := [], colSums := [], tileS := [], tileG := [], snapshot := none }

/-- R94. -/
def Motion.reset : Motion :=
  { ay := 0, ax := 0, dy := List.replicate 16 0, dx := List.replicate 16 0,
    active := Tunables.zero, pending := none, countdown := 0 }

/-- R95, R117. -/
def Tile.reset : Tile := { state := .learning, age := 0, bm := 0, bc := 0, source := none }

/-- R118. -/
def Scan.reset : Scan := { lastLine := none, presented := none, recorded := none }

/-- R197. -/
def ViewCounters.zero : ViewCounters := ⟨0, 0, 0, 0, 0, 0, 0⟩

/-- R28. -/
def View.reset : View :=
  { state := .unconfigured, geometry := Geometry.unset, slots := [], ready := [], nextSequence := 0,
    startCount := 0, intake := Intake.reset, buffers := Four.const ProfileBuffer.reset, motion := Motion.reset,
    tiles := List.replicate Config.tileCount Tile.reset, seed := true, whiteout := false, scan := Scan.reset,
    counters := ViewCounters.zero }

/-- R68, at the level the input has. -/
def RotInput.reset (level : Bool) : RotInput :=
  { level := level, mode := .none, state := .off, count := 0, times := [], lastPolarity := none,
    lastRising := none, period := none, origin := none }

/-- The blocks after reset, with the levels of ROTA and ROTB (R28, R54, R68, R94, R117, R141, R154, R169, R185,
R197). -/
def Bridge.reset (rota rotb : Bool) : Bridge :=
  { rota := RotInput.reset rota, rotb := RotInput.reset rotb, views := Four.const View.reset, solver := .idle,
    solverQueue := [], events := 0, mask := 0, descriptors := Four.const (List.replicate 96 0),
    commandShadow := List.replicate 256 0, nextIndex := 0, inFlight := none,
    owners := List.replicate 32 .bridge, position := 0, glitchA := 0, glitchB := 0, outOfRange := 0,
    requests := [], busWait := [], accepted := 0, stream := [], ownWrites := [], births := 0, assemblies := [] }

/-- The environment right after a release of RESETn with these straps (R152, R154, R55, R168). -/
def Env.released (straps : Straps) : Env :=
  { straps := straps, resetAsserted := false, initializing := true, timestamp := 0 }

/-- The machine right after RESETn is released: straps MSIZE 0, CBASE 0, BYPASS low and both rotation inputs low
(log 7), memory initialization running, DRAM never written (log 8), no command waiting. -/
def State.reset : State :=
  { env := Env.released { msize := 0, cbase := 0, bypass := false },
    bridge := Bridge.reset false false,
    dram := { cells := [], returning := [], performing := none, freeCount := 0 },
    readData := [], pending := [] }

end Sys2Proof.Machine
end

