-- ==== Sys2Proof/Machine/Flags.lean ====
section
/-! DEFINITION. Machine/Flags.lean: the pending event set, its mask and ATTN (R172 to R175), and the flags of a
report (R193, R202). -/

namespace Sys2Proof.Machine

/-- The events of R172. -/
inductive Event where
  | frame (v : Fin 4)
  | fault (v : Fin 4)
  | hold (v : Fin 4)
  | lost (v : Fin 4)
  | cmd
  | rota
  | rotb
  deriving DecidableEq, Repr

/-- The bit of an event in the pending event set (R172, R203). -/
def Event.bit : Event → Nat
  | .frame v => 4 * v.val
  | .fault v => 4 * v.val + 1
  | .hold v => 4 * v.val + 2
  | .lost v => 4 * v.val + 3
  | .cmd => 16
  | .rota => 17
  | .rotb => 18

/-- The set holding one event. -/
def Event.word (e : Event) : BitVec 19 := BitVec.ofNat 19 (2 ^ e.bit)

/-- Raising an event sets its bit and leaves the others (R172). -/
def Bridge.raise (br : Bridge) (e : Event) : Bridge := { br with events := br.events ||| e.word }

/-- Raising an event when a condition holds. -/
def Bridge.raiseIf (br : Bridge) (c : Bool) (e : Event) : Bridge := if c then br.raise e else br

/-- A byte in lane `lane` (0 to 3) of a 32-bit word whose other bytes are 0; bit n of a word is bit n of its
little-endian value (R198). -/
def laneWord (lane : Nat) (d : Byte) : BitVec 32 := (d.setWidth 32) <<< (8 * lane)

/-- R173: one enabled byte of the acknowledge word clears the pending bits it holds as 1. -/
def acknowledgeByte (events : BitVec 19) (lane : Nat) (d : Byte) : BitVec 19 :=
  events &&& ~~~((laneWord lane d).setWidth 19)

/-- R174: one enabled byte of the mask word replaces the matching byte of the mask shadow. -/
def maskByte (mask : BitVec 32) (lane : Nat) (d : Byte) : BitVec 32 :=
  (mask &&& ~~~(laneWord lane 0xFF)) ||| laneWord lane d

/-- R175: ATTN is asserted exactly while the pending event set and the mask have a bit in common. -/
def Bridge.attn (br : Bridge) : Bool := (br.events &&& br.mask.setWidth 19) != 0

/-- The ATTN pin of the machine (R175). -/
def State.attn (s : State) : Bool := s.bridge.attn

/-- The flags of a report (R193). -/
structure ReportFlags where
  lowTextureY : Bool := false
  lowTextureX : Bool := false
  predictedY : Bool := false
  predictedX : Bool := false
  noReference : Bool := false
  clampedY : Bool := false
  clampedX : Bool := false
  whiteout : Bool := false
  learning : Bool := false
  unsolved : Bool := false
  parked : Bool := false
  reopened : Bool := false
  deriving DecidableEq, Repr

/-- The flags field of a report (R202): bits 12 to 15 are 0. -/
def ReportFlags.value (f : ReportFlags) : Nat :=
  f.lowTextureY.toNat + 2 * f.lowTextureX.toNat + 4 * f.predictedY.toNat + 8 * f.predictedX.toNat
    + 16 * f.noReference.toNat + 32 * f.clampedY.toNat + 64 * f.clampedX.toNat + 128 * f.whiteout.toNat
    + 256 * f.learning.toNat + 512 * f.unsolved.toNat + 1024 * f.parked.toNat + 2048 * f.reopened.toNat

end Sys2Proof.Machine
end

