-- ==== Sys2Proof/Machine/Ops.lean ====
section
/-! DEFINITION. Machine/Ops.lean: the named operations over DRAM, shadows, views, counters, own writes and
reports that every row is written with. -/

namespace Sys2Proof.Machine

/-! ## Straps (R152, R153) -/

/-- The memory capacity in bytes (R152). -/
def capacity (s : Straps) : Nat :=
  if s.msize = 0 then 64 * 1048576 else if s.msize = 1 then 128 * 1048576 else 256 * 1048576

/-- The control base: CBASE × 32 MiB (R152). -/
def controlBase (s : Straps) : Nat := s.cbase.toNat * (32 * 1048576)

/-- R153: the control region is active when BYPASS is low and the whole region lies below the capacity. -/
def controlActive (s : Straps) : Bool :=
  !s.bypass && decide (controlBase s + Config.controlSize ≤ capacity s)

/-! ## Byte order (R198) -/

/-- The value of bytes stored little-endian. -/
def littleEndian : List Byte → Nat
  | [] => 0
  | b :: bs => b.toNat + 256 * littleEndian bs

/-- `n` bytes holding `x`, little-endian. -/
def bytesOf : Nat → Nat → List Byte
  | 0, _ => []
  | n + 1, x => BitVec.ofNat 8 x :: bytesOf n (x / 256)

/-- The field of `size` bytes at offset `off` of a record. -/
def fieldOf (bs : List Byte) (off size : Nat) : Nat := littleEndian ((bs.drop off).take size)

/-- `xs` with the items from place `off` on replaced by `ys`, as far as `xs` reaches. -/
def overwrite (xs : List Byte) (off : Nat) (ys : List Byte) : List Byte :=
  (xs.take off ++ ys ++ xs.drop (off + ys.length)).take xs.length

/-! ## DRAM (R157, R168)

A list of (address, byte) pairs in strictly rising address order: the bytes that have been written. What an
unlisted address reads as is one definition, `Memory.readByte`: the free value of its power-up content (log 8). -/

/-- The canonical form: addresses strictly rising. -/
def Memory.wf : List Host.Cell → Bool
  | [] => true
  | [_] => true
  | (a, _) :: (b, y) :: m => decide (a < b) && Memory.wf ((b, y) :: m)

/-- The byte written last at an address, if any was. -/
def Memory.find : List Host.Cell → Nat → Option Byte
  | [], _ => none
  | (b, y) :: m, a => if a = b then some y else Memory.find m a

/-- The byte DRAM holds at an address. -/
def Memory.readByte (m : List Host.Cell) (a : Nat) : Byte := (Memory.find m a).getD (Config.powerUpByte a)

/-- Writing one byte. -/
def Memory.writeByte : List Host.Cell → Nat → Byte → List Host.Cell
  | [], a, x => [(a, x)]
  | (b, y) :: m, a, x =>
    if a < b then (a, x) :: (b, y) :: m
    else if a = b then (a, x) :: m
    else (b, y) :: Memory.writeByte m a x

/-- The `n` bytes from an address on. -/
def Memory.readBytes (m : List Host.Cell) (a : Nat) : Nat → List Byte
  | 0 => []
  | n + 1 => Memory.readByte m a :: Memory.readBytes m (a + 1) n

/-- Writing bytes from an address on: each byte whose enable is set (R157). -/
def Memory.writeBytes (m : List Host.Cell) (a : Nat) : List WriteByte → List Host.Cell
  | [] => m
  | w :: ws => Memory.writeBytes (if w.enable then Memory.writeByte m a w.data else m) (a + 1) ws

/-- R168: `n` bytes from an address on take undefined values, those of the assertion numbered `k` (log 9). -/
def Memory.tear (m : List Host.Cell) (k a : Nat) : Nat → List Host.Cell
  | 0 => m
  | n + 1 => Memory.tear (Memory.writeByte m a (Config.tornByte k a)) k (a + 1) n

/-! ## Geometry (R2) -/

/-- Bytes per pixel. -/
def Geometry.bpp (g : Geometry) : Nat :=
  match g.format with
  | .y8 => 1
  | .yc16 => 2

/-- Payload bytes of a source line: W·bpp. -/
def Geometry.lineBytes (g : Geometry) : Nat := g.w * g.bpp

/-- Payload bytes of a frame: W·bpp·H. -/
def Geometry.frameBytes (g : Geometry) : Nat := g.lineBytes * g.h

/-- Presentation width PW = W − 2·MX. -/
def Geometry.pw (g : Geometry) : Nat := g.w - 2 * g.mx

/-- Presentation height PH = H − 2·MY. -/
def Geometry.ph (g : Geometry) : Nat := g.h - 2 * g.my

/-- Tile columns TW = W/64. -/
def Geometry.tw (g : Geometry) : Nat := g.w / 64

/-- Tile rows TH = H/32. -/
def Geometry.th (g : Geometry) : Nat := g.h / 32

/-- The place of tile (i, j) in records, maps and sums (log 17). -/
def tileIndex (i j : Nat) : Nat := Config.tileColumns * j + i

/-- Whether a place belongs to a tile of the view's TW × TH grid (R95). -/
def Geometry.inGrid (g : Geometry) (n : Nat) : Bool :=
  decide (n % Config.tileColumns < g.tw) && decide (n / Config.tileColumns < g.th)

/-- A map with every entry LIVE (R20). -/
def allLive : List MapEntry := List.replicate Config.tileCount .live

/-! ## Arithmetic terms (00_scope.md) -/

/-- a / 16 rounded to the nearest integer, halves away from zero. -/
def round16 (a : Int) : Int := if 0 ≤ a then (a + 8).fdiv 16 else -((-a + 8).fdiv 16)

/-- Clamp to [lo, hi]. -/
def clamp (lo hi a : Int) : Int := if a < lo then lo else if hi < a then hi else a

/-- The current offsets of a view, from its displacement (R76). -/
def Motion.offsets (m : Motion) : Offsets := ⟨round16 m.ay, round16 m.ax⟩

/-! ## Views -/

/-- The bridge with view `v` replaced by `f` of it. -/
def Bridge.modView (br : Bridge) (v : Fin 4) (f : View → View) : Bridge :=
  { br with views := br.views.set v (f (br.views.get v)) }

/-- The view with its counters changed. -/
def View.count (vw : View) (f : ViewCounters → ViewCounters) : View := { vw with counters := f vw.counters }

/-- The view with slot `k`'s record changed. -/
def View.modSlot (vw : View) (k : Nat) (f : Slot → Slot) : View := { vw with slots := vw.slots.modify k f }

/-- The view with buffer `b` changed. -/
def View.modBuffer (vw : View) (b : Fin 4) (f : ProfileBuffer → ProfileBuffer) : View :=
  { vw with buffers := vw.buffers.set b (f (vw.buffers.get b)) }

/-- A buffer given another role (R51). -/
def ProfileBuffer.withRole (r : BufferRole) (p : ProfileBuffer) : ProfileBuffer := { p with role := r }

/-- The lowest-numbered buffer of a view with a role (R50, R52). -/
def View.bufferWith (vw : View) (r : BufferRole) : Option (Fin 4) :=
  [(0 : Fin 4), 1, 2, 3].find? (fun i => (vw.buffers.get i).role == r)

/-- Every buffer with role `r` becomes FREE (R51). -/
def View.freeRole (vw : View) (r : BufferRole) : View :=
  { vw with buffers := vw.buffers.map (fun p => if p.role = r then p.withRole .free else p) }

/-- The sequence of slot `k`. -/
def View.slotSequence (vw : View) (k : Nat) : Count16 := ((vw.slots[k]?).map (·.sequence)).getD 0

/-- The stored offsets of slot `k`, where present (R20). -/
def View.slotOffsets (vw : View) (k : Nat) : Option Offsets := (vw.slots[k]?).bind (·.offsets)

/-- `x` inserted immediately after the last item that satisfies `before`, or at the head if none does. -/
def insertAfterLast (before : Nat → Bool) (x : Nat) : List Nat → List Nat
  | [] => [x]
  | y :: ys =>
    if ys.any before then y :: insertAfterLast before x ys
    else if before y then y :: x :: ys
    else x :: y :: ys

/-- R23: slot `k` joins the ready list after the last slot whose frame started before its own; no slot is on the
list twice. -/
def View.insertReady (vw : View) (k : Nat) : View :=
  let stamp (j : Nat) : Nat := ((vw.slots[j]?).map (·.startStamp)).getD 0
  { vw with ready := insertAfterLast (fun j => decide (stamp j < stamp k)) k (vw.ready.filter (· != k)) }

/-- Whether a map entry is HELD naming slot `k`. -/
def MapEntry.names (k : Nat) (e : MapEntry) : Bool := e == .held k

/-- Whether a map entry is HELD. -/
def MapEntry.isHeld : MapEntry → Bool
  | .live => false
  | .held _ => true

/-- How many map entries of the view satisfy `p`. -/
def View.countEntries (vw : View) (p : MapEntry → Bool) : Nat :=
  (vw.slots.map (fun sl => sl.map.countP p)).sum

/-- Every map entry of the view that satisfies `p` becomes LIVE. -/
def View.liveEntries (vw : View) (p : MapEntry → Bool) : View :=
  { vw with slots := vw.slots.map (fun sl => { sl with map := sl.map.map (fun e => if p e then .live else e) }) }

/-- Breaking holds (R15, R25): the entries that satisfy `p` become LIVE, HOLD_BREAK increases by one for each, and
one HOLD event is raised if there was one, or if `also`. -/
def Bridge.breakHolds (br : Bridge) (v : Fin 4) (p : MapEntry → Bool) (also : Bool) : Bridge :=
  let n := (br.views.get v).countEntries p
  (br.modView v (fun vw =>
    (vw.liveEntries p).count (fun c => { c with holdBreak := c.holdBreak + BitVec.ofNat 16 n }))).raiseIf
      (decide (0 < n) || also) (.hold v)

/-! ## Own writes and reports -/

/-- Free places of the own-write queue (R159). -/
def Bridge.ownFree (br : Bridge) : Nat := Config.ownPlaces - br.ownWrites.length

/-- Placing an own write: it joins the tail with pass count 0 and a birth of its own (R159, R161). -/
def Bridge.placeOwn (br : Bridge) (kind : OwnKind) (address : Nat) (bytes : List Byte) : Bridge :=
  { br with
    ownWrites := br.ownWrites ++ [{ kind := kind, birth := br.births, address := address, bytes := bytes, passes := 0 }]
    births := br.births + 1 }

/-- R190. -/
inductive ReportKind where
  | frame | fault | skip
  deriving DecidableEq, Repr

/-- R190, R202. -/
inductive Reason where
  | none | gap | regression | abandoned | superseded | reopened
  deriving DecidableEq, Repr

/-- R202. -/
def ReportKind.code : ReportKind → Nat
  | .frame => 1
  | .fault => 2
  | .skip => 3

/-- R202. -/
def Reason.code : Reason → Nat
  | .none => 0
  | .gap => 1
  | .regression => 2
  | .abandoned => 3
  | .superseded => 4
  | .reopened => 5

/-- The fields of a report (R190). -/
structure Report where
  kind : ReportKind
  frame : FrameId
  reason : Reason := .none
  flags : ReportFlags := {}
  time : Stamp
  dy : Option Int := none
  dx : Option Int := none
  offsets : Offsets := ⟨0, 0⟩
  ay : Int := 0
  ax : Int := 0
  bin : Option Nat := none
  dusty : Nat := 0
  held : Nat := 0
  exposed : Nat := 0
  deriving DecidableEq, Repr

/-- A signed byte field, two's complement (R198). -/
def signedByte (x : Int) : Byte := BitVec.ofInt 8 x

/-- The 32 bytes of a report (R202). -/
def Report.bytes (r : Report) : List Byte :=
  [BitVec.ofNat 8 r.kind.code, BitVec.ofNat 8 r.frame.view.val, BitVec.ofNat 8 r.frame.slot,
    BitVec.ofNat 8 r.reason.code]
  ++ bytesOf 2 r.frame.sequence.toNat ++ bytesOf 2 r.flags.value ++ bytesOf 4 r.time.toNat
  ++ [(r.dy.map signedByte).getD 0x80, (r.dx.map signedByte).getD 0x80, signedByte r.offsets.oy,
    signedByte r.offsets.ox]
  ++ bytesOf 2 (BitVec.ofInt 16 r.ay).toNat ++ bytesOf 2 (BitVec.ofInt 16 r.ax).toNat
  ++ [(r.bin.map (BitVec.ofNat 8)).getD 0xFF, 0]
  ++ bytesOf 2 r.dusty ++ bytesOf 2 r.held ++ bytesOf 2 r.exposed ++ [0, 0, 0, 0]

/-- Whether the report ring's entry at the position is free for the bridge (R187). -/
def Bridge.reportFree (br : Bridge) : Bool := br.owners[br.position]? == some .bridge

/-- R187, R188: placing a report. A free entry at the position takes it, as one own write of 32 bytes; otherwise it
is lost, LOST of its view increases and the LOST event is raised. -/
def Bridge.report (env : Env) (br : Bridge) (r : Report) : Bridge :=
  if br.reportFree then
    { (br.placeOwn .report (controlBase env.straps + 0x1000 + 32 * br.position) r.bytes) with
      owners := br.owners.set br.position .software
      position := (br.position + 1) % 32 }
  else
    (br.modView r.frame.view (fun vw => vw.count (fun c => { c with lost := c.lost + 1 }))).raise
      (.lost r.frame.view)

/-! ## Solver queue -/

/-- The waiting entry of a view, if any (R70). -/
def Bridge.waiting (br : Bridge) (v : Fin 4) : Option SolveEntry :=
  br.solverQueue.find? (fun e => e.frame.view == v)

/-- The queue without the entries of a view (R70). -/
def Bridge.dropWaiting (br : Bridge) (v : Fin 4) : Bridge :=
  { br with solverQueue := br.solverQueue.filter (fun e => e.frame.view != v) }

/-- Whether a solve of view `v` is in progress (R69). -/
def Bridge.solving (br : Bridge) (v : Fin 4) : Bool :=
  match br.solver with
  | .idle => false
  | .busy e _ _ => e.frame.view == v

/-- Whether any solve is in progress (R69). -/
def Bridge.solverBusy (br : Bridge) : Bool :=
  match br.solver with
  | .idle => false
  | .busy _ _ _ => true

/-- The mid-line time a buffer's snapshot holds. Every completed frame has one (R48); without one, 0 (log 18). -/
def ProfileBuffer.midTime (p : ProfileBuffer) : Stamp := (p.snapshot.map (·.time)).getD 0

/-! ## The unsolved completion (R42, R14) -/

/-- R42: slot `k` of view `v`, holding frame `f` with mid-line time `time`, becomes READY without a solve; `parked`
says whether the view is PARKED or PARKING. A FRAME report is placed and a FRAME event raised. -/
def Bridge.unsolvedCompletion (env : Env) (br : Bridge) (f : FrameId) (time : Stamp) (parked : Bool) : Bridge :=
  let vw := br.views.get f.view
  let o : Offsets := if parked then ⟨0, 0⟩ else vw.motion.offsets
  let br := br.modView f.view (fun vw =>
    (vw.modSlot f.slot (fun sl => { sl with state := .ready, offsets := some o, map := allLive })).insertReady f.slot)
  let br := br.report env
    { kind := .frame, frame := f, time := time, offsets := o, ay := vw.motion.ay, ax := vw.motion.ax,
      flags := { unsolved := !parked, parked := parked } }
  br.raise (.frame f.view)

/-! ## The upstream request queue (R144) -/

/-- Whether the work of a request at the port is done: a write's when no operation of it is left in the stream, a
read's when its last beat has been returned. -/
def Bridge.workDone (br : Bridge) (p : PortEntry) : Bool :=
  if p.isRead then p.answered else !(br.stream.any (fun op => op.request == p.number))

/-- R144: places are freed from the oldest on, as long as the work of the oldest is done. -/
def Bridge.freePlaces (br : Bridge) : Bridge :=
  { br with requests := br.requests.dropWhile br.workDone }

/-- R143: the port takes the request that the bus offers when it is ready, a request place is free and at least
four own-write places are free. -/
def canAccept (env : Env) (br : Bridge) : Bool :=
  !env.resetAsserted && !env.initializing && decide (br.requests.length < Config.requestPlaces)
    && decide (4 ≤ br.ownFree)

end Sys2Proof.Machine
end

