-- ==== Sys2Proof/Machine/Operands.lean ====
section
/-! DEFINITION. Machine/Operands.lean: what a request's operands mean: tags, the window map and the pieces of a
request (chapter 7), payload indexes and runs (chapter 2), the fields of descriptors and command entries
(chapter 11). -/

namespace Sys2Proof.Machine

/-- R2: a tag matches when the request's tag and the descriptor's differ only where the mask is 0. -/
def tagMatches (tag value mask : Byte) : Bool := (tag ^^^ value) &&& mask == 0

/-! ## The window map (R146, R147) -/

/-- The five kinds of address space (R147), each range with its name. -/
inductive Region where
  | slot (v : Fin 4) (k : Nat)
  | window (v : Fin 4)
  | control
  | plain
  | outOfRange
  deriving DecidableEq, Repr

/-- A range of the window map: `size` bytes from `base` on. -/
structure MapRange where
  region : Region
  base : Nat
  size : Nat
  deriving DecidableEq, Repr

/-- Whether an address lies in a range. -/
def MapRange.holds (r : MapRange) (a : Nat) : Bool := decide (r.base ≤ a) && decide (a < r.base + r.size)

/-- Whether two ranges share a byte. -/
def MapRange.meets (r q : MapRange) : Bool :=
  decide (r.base < q.base + q.size) && decide (q.base < r.base + r.size)

/-- The slot ranges and the presentation window a geometry gives view `v` (R2). -/
def Geometry.ranges (g : Geometry) (v : Fin 4) : List MapRange :=
  (g.slotBases.zipIdx.map (fun p => { region := .slot v p.2, base := p.1, size := g.sp * g.h : MapRange }))
    ++ [{ region := .window v, base := g.base, size := g.pp * g.ph }]

/-- The ranges of view `v` in the window map: none while it is UNCONFIGURED. -/
def Bridge.viewRanges (br : Bridge) (v : Fin 4) : List MapRange :=
  if (br.views.get v).state = .unconfigured then [] else (br.views.get v).geometry.ranges v

/-- The range of the control region (R152). -/
def controlRange (s : Straps) : MapRange :=
  { region := .control, base := controlBase s, size := Config.controlSize }

/-- The window map (R146). -/
def windowMap (env : Env) (br : Bridge) : List MapRange :=
  (if controlActive env.straps then [controlRange env.straps] else [])
    ++ br.viewRanges 0 ++ br.viewRanges 1 ++ br.viewRanges 2 ++ br.viewRanges 3

/-- The kind of address space a byte address lies in (R147). -/
def regionOf (straps : Straps) (ranges : List MapRange) (a : Nat) : Region :=
  if capacity straps ≤ a then .outOfRange
  else
    match ranges.find? (fun r => r.holds a) with
    | some r => r.region
    | none => .plain

/-- `xs` cut into the longest stretches on which `key` is constant, in order. -/
def cutBy {α κ : Type} [DecidableEq κ] (key : α → κ) : List α → List (List α)
  | [] => []
  | x :: xs =>
    match cutBy key xs with
    | (y :: g) :: gs => if key x = key y then (x :: y :: g) :: gs else [x] :: (y :: g) :: gs
    | gs => [x] :: gs

/-- The bytes of a write with their addresses, computed without a wrap (R142). -/
def writeCells (w : WriteRequest) : List (Nat × WriteByte) :=
  w.bytes.zipIdx.map (fun p => (w.address.toNat + p.2, p.1))

/-- The addresses of a read, computed without a wrap (R142). -/
def readAddresses (r : ReadRequest) : List Nat :=
  (List.range (4 * r.beats)).map (fun n => r.address.toNat + n)

/-- A piece of a write: the region it lies in and its bytes (R147). -/
structure WritePiece where
  region : Region
  cells : List (Nat × WriteByte)
  deriving DecidableEq, Repr

/-- A piece of a read: the region it lies in and its addresses (R147). -/
structure ReadPiece where
  region : Region
  addresses : List Nat
  deriving DecidableEq, Repr

/-- The pieces of a write in address order (R147). -/
def writePieces (straps : Straps) (ranges : List MapRange) (w : WriteRequest) : List WritePiece :=
  (cutBy (fun c => regionOf straps ranges c.1) (writeCells w)).map (fun g =>
    { region := ((g.head?).map (fun c => regionOf straps ranges c.1)).getD .plain, cells := g })

/-- The pieces of a read in address order (R147). -/
def readPieces (straps : Straps) (ranges : List MapRange) (r : ReadRequest) : List ReadPiece :=
  (cutBy (regionOf straps ranges) (readAddresses r)).map (fun g =>
    { region := ((g.head?).map (regionOf straps ranges)).getD .plain, addresses := g })

/-! ## Payload indexes and runs (R33) -/

/-- The payload index of an address in the slot at `base`; none for padding (R33). -/
def Geometry.payloadIndex (g : Geometry) (base a : Nat) : Option Nat :=
  let y := (a - base) / g.sp
  let b := (a - base) % g.sp
  if b < g.lineBytes then some (y * g.lineBytes + b) else none

/-- The run of a piece: the payload bytes whose enables are set, each with its payload index (R33). -/
def Geometry.run (g : Geometry) (base : Nat) (cells : List (Nat × WriteByte)) : List (Nat × Byte) :=
  cells.filterMap (fun c =>
    if c.2.enable then (g.payloadIndex base c.1).map (fun n => (n, c.2.data)) else none)

/-- The lowest index of a run (R33). -/
def runLow (run : List (Nat × Byte)) : Nat := ((run.head?).map (·.1)).getD 0

/-- The highest index of a run (R33). -/
def runHigh (run : List (Nat × Byte)) : Nat := ((run.getLast?).map (·.1)).getD 0

/-- R33: a run has a hole when some payload byte between its first and its last is not enabled. The payload bytes
of a piece have indexes without a break, so this is when the run has fewer bytes than its span. -/
def runHasHole (run : List (Nat × Byte)) : Bool := decide (run.length < runHigh run + 1 - runLow run)

/-- R34. -/
def isFrameStartRun (run : List (Nat × Byte)) : Bool := decide (runLow run = 0) && !runHasHole run

/-! ## Descriptor fields (R200) -/

/-- A descriptor's fields as plain numbers and codes (R2, R200). -/
structure Descriptor where
  format : Nat
  swap : Nat
  rotation : Nat
  w : Nat
  h : Nat
  sp : Nat
  pp : Nat
  mx : Nat
  my : Nat
  intakeTag : Byte
  intakeMask : Byte
  displayTag : Byte
  displayMask : Byte
  tunables : Tunables
  base : Nat
  slots : List (Nat × Bool)
  deriving DecidableEq, Repr

/-- The tunables of a descriptor shadow, bytes 0x12 to 0x1A (R200). -/
def readTunables (bs : List Byte) : Tunables :=
  { sry := fieldOf bs 0x12 1, srx := fieldOf bs 0x13 1, ft := fieldOf bs 0x14 1, l := fieldOf bs 0x15 1,
    cr := fieldOf bs 0x16 1, mt := fieldOf bs 0x17 1, ha := fieldOf bs 0x18 1, wf := fieldOf bs 0x19 1,
    ln := fieldOf bs 0x1A 1 }

/-- The fields of a descriptor shadow (R200). The LAST flag is bit 0 of its byte (R198). -/
def readDescriptor (bs : List Byte) : Descriptor :=
  { format := fieldOf bs 0x00 1, swap := fieldOf bs 0x01 1, rotation := fieldOf bs 0x02 1,
    w := fieldOf bs 0x04 2, h := fieldOf bs 0x06 2, sp := fieldOf bs 0x08 2, pp := fieldOf bs 0x0A 2,
    mx := fieldOf bs 0x0C 1, my := fieldOf bs 0x0D 1,
    intakeTag := BitVec.ofNat 8 (fieldOf bs 0x0E 1), intakeMask := BitVec.ofNat 8 (fieldOf bs 0x0F 1),
    displayTag := BitVec.ofNat 8 (fieldOf bs 0x10 1), displayMask := BitVec.ofNat 8 (fieldOf bs 0x11 1),
    tunables := readTunables bs, base := fieldOf bs 0x1C 4,
    slots := (List.range 8).map (fun k => (fieldOf bs (0x20 + 8 * k) 4, fieldOf bs (0x24 + 8 * k) 1 % 2 == 1)) }

/-- R3: the slot list runs up to the first entry whose LAST flag is set; none if no entry has it. -/
def slotListUpToLast : List (Nat × Bool) → Option (List Nat)
  | [] => none
  | (a, true) :: _ => some [a]
  | (a, false) :: rest => (slotListUpToLast rest).map (fun l => a :: l)

/-- The bases of the slot list, empty where it has no end. -/
def Descriptor.slotBases (d : Descriptor) : List Nat := (slotListUpToLast d.slots).getD []

/-- The geometry a descriptor gives (R2): a swap code other than 1 is FRAME, a rotation code other than 1 or 2 is
NONE (CONFIGURE refuses those above 2). -/
def Descriptor.geometry (d : Descriptor) : Geometry :=
  { format := if d.format = 2 then .yc16 else .y8
    w := d.w, h := d.h, sp := d.sp, pp := d.pp, mx := d.mx, my := d.my, base := d.base
    slotBases := d.slotBases
    intakeTag := d.intakeTag, intakeMask := d.intakeMask
    displayTag := d.displayTag, displayMask := d.displayMask
    swap := if d.swap = 1 then .line else .frame
    rotation := if d.rotation = 1 then some .rota else if d.rotation = 2 then some .rotb else none }

/-- R8: whether every tunable lies in its range. -/
def Tunables.valid (t : Tunables) : Bool :=
  decide (1 ≤ t.sry ∧ t.sry ≤ 16) && decide (1 ≤ t.srx ∧ t.srx ≤ 16) && decide (1 ≤ t.ft ∧ t.ft ≤ 15)
    && decide (1 ≤ t.cr ∧ t.cr ≤ 15) && decide (1 ≤ t.mt ∧ t.mt ≤ 255) && decide (t.ha ≤ 60)
    && decide (1 ≤ t.wf ∧ t.wf ≤ 16) && decide (1 ≤ t.ln ∧ t.ln ≤ 15)

/-! ## Command entries (R201) -/

/-- The command of an entry's code and target (R181, R201); RELEASE with target 0xFF is RELEASE ALL (R18). -/
inductive CommandKind where
  | configure | track | park | release | releaseAll | rebase | tune | zero | edge | badCode
  deriving DecidableEq, Repr

/-- The byte at an offset of a command entry. -/
def entryByte (entry : List Byte) (off : Nat) : Byte := (entry[off]?).getD 0

/-- The 16 bytes of a command entry in the command shadow (R179). -/
def Bridge.commandEntry (br : Bridge) (i : Nat) : List Byte := (br.commandShadow.drop (16 * i)).take 16

/-- The owner code: 0x01 is BRIDGE, every other value is SOFTWARE (R179, R201). -/
def ownerOf (d : Byte) : Owner := if d = 1 then .bridge else .software

/-- The kind of a command entry (R181). -/
def commandKind (entry : List Byte) : CommandKind :=
  match (entryByte entry 0).toNat with
  | 1 => .configure
  | 2 => .track
  | 3 => .park
  | 4 => if entryByte entry 1 = 0xFF then .releaseAll else .release
  | 5 => .rebase
  | 6 => .tune
  | 7 => .zero
  | 8 => .edge
  | _ => .badCode

/-- The view a target byte names, for targets 0 to 3 (R11). -/
def targetView (entry : List Byte) : Option (Fin 4) :=
  if h : (entryByte entry 1).toNat < 4 then some ⟨(entryByte entry 1).toNat, h⟩ else none

/-- The 16-bit argument (R201). -/
def entryArgument (entry : List Byte) : Nat := fieldOf entry 2 2

end Sys2Proof.Machine
end

