-- ==== Sys2Proof/Machine/Rotation.lean ====
section
/-! DEFINITION. Machine/Rotation.lean: the rotation timer's input records (chapter 3): the restart, the judgement of
edges, the stale timeout, the EDGE command's effect, the mid-line phase part and the phase bin. -/

namespace Sys2Proof.Machine

/-- The record of an input. -/
def Bridge.rot (br : Bridge) : RotId → RotInput
  | .rota => br.rota
  | .rotb => br.rotb

/-- The bridge with the record of an input replaced. -/
def Bridge.setRot (br : Bridge) (i : RotId) (r : RotInput) : Bridge :=
  match i with
  | .rota => { br with rota := r }
  | .rotb => { br with rotb := r }

/-- R57: a restart of acquisition. -/
def RotInput.restart (r : RotInput) : RotInput :=
  { r with count := 0, times := [], lastPolarity := none, lastRising := none, period := none, origin := none }

/-- The microseconds from one reading to a later one, modulo 2^32 (R55). -/
def elapsed (later earlier : Stamp) : Nat := (later - earlier).toNat

/-- R56: the polarity of the change to a level. -/
def polarityOf (level : Bool) : Polarity := if level then .rising else .falling

/-- R56: the edges a mode selects. -/
def EdgeMode.selects : EdgeMode → Polarity → Bool
  | .none, _ => false
  | .rise, p => p == .rising
  | .fall, p => p == .falling
  | .both, _ => true

/-- How far after the accepted edge of time `t` a selected edge lies: the difference of their times (R55, R59), and 0 µs for
an edge at a held time (R204, log 26). -/
def sinceAccepted (tsref : TimeReference) (now t : Stamp) : Nat :=
  match tsref with
  | .running => elapsed now t
  | .held => 0

/-- R59, R204: less than 500 µs after the latest accepted edge; with an edge count of 0 there is none. -/
def RotInput.isGlitch (r : RotInput) (tsref : TimeReference) (now : Stamp) : Bool :=
  match r.times with
  | [] => false
  | t :: _ => decide (0 < r.count) && decide (sinceAccepted tsref now t < Config.glitchWindow)

/-- What every acceptance does: the newest edge time, the last polarity, the last rising time, the count
(R57, R60, R61). -/
def RotInput.enter (r : RotInput) (p : Polarity) (now : Stamp) : RotInput :=
  { r with
    count := min (r.count + 1) 3
    times := (now :: r.times).take 3
    lastPolarity := some p
    lastRising := if p = .rising then some now else r.lastRising }

/-- R60: acceptance in RISE or FALL mode. -/
def RotInput.acceptSingle (r : RotInput) (p : Polarity) (now : Stamp) : RotInput :=
  match r.times with
  | [] => { r.enter p now with state := .acquire }
  | t :: _ =>
    if r.count = 0 then { r.enter p now with state := .acquire }
    else { r.enter p now with state := .locked, period := some (elapsed now t), origin := some now }

/-- R61: acceptance in BOTH mode. From the third accepted edge on, T spans two edges and the origin is the last
rising time. -/
def RotInput.acceptBoth (r : RotInput) (p : Polarity) (now : Stamp) : RotInput :=
  match r.times with
  | _ :: t2 :: _ =>
    if r.count < 2 then { r.enter p now with state := .acquire }
    else
      { r.enter p now with
        state := .locked, period := some (elapsed now t2), origin := (r.enter p now).lastRising }
  | _ => { r.enter p now with state := .acquire }

/-- R60 to R62: an edge that passed the glitch window. In BOTH mode an edge of the last polarity is a polarity
break: acquisition restarts and the edge is its first. -/
def RotInput.accept (r : RotInput) (p : Polarity) (now : Stamp) : RotInput :=
  if r.mode = .both then
    if r.lastPolarity = some p then { r.restart.enter p now with state := .acquire }
    else r.acceptBoth p now
  else r.acceptSingle p now

/-- The glitch counter of an input increases by one (R59). -/
def Bridge.countGlitch (br : Bridge) : RotId → Bridge
  | .rota => { br with glitchA := br.glitchA + 1 }
  | .rotb => { br with glitchB := br.glitchB + 1 }

/-- R56, R59, R204: the level of an input changes. An edge that the mode does not select changes no more than the level;
a selected one is a glitch, or is accepted. -/
def Bridge.rotationEdge (now : Stamp) (br : Bridge) (change : LevelChange) : Bridge :=
  let i := change.input
  let old := br.rot i
  let r := { old with level := !old.level }
  let p := polarityOf r.level
  if !r.mode.selects p then br.setRot i r
  else if r.isGlitch change.tsref now then (br.setRot i r).countGlitch i
  else br.setRot i (r.accept p now)

/-- R63: the stale timeout of an input has expired: an edge has been accepted, and the latest one lies 1,048,576 µs
back or more. -/
def RotInput.timedOut (r : RotInput) (now : Stamp) : Bool :=
  match r.times with
  | [] => false
  | t :: _ => decide (0 < r.count) && decide (Config.staleTime ≤ elapsed now t)

/-- The event of an input (R172). -/
def rotEvent : RotId → Event
  | .rota => .rota
  | .rotb => .rotb

/-- R63: the expiry. From LOCKED the input becomes STALE and its event is raised; otherwise only acquisition
restarts. -/
def Bridge.staleExpiry (br : Bridge) (i : RotId) : Bridge :=
  let r := br.rot i
  if r.state = .locked then (br.setRot i { r.restart with state := .stale }).raise (rotEvent i)
  else br.setRot i r.restart

/-- The expiry, where it is due (R63). -/
def Bridge.expireIfDue (now : Stamp) (br : Bridge) (i : RotId) : Bridge :=
  if (br.rot i).timedOut now then br.staleExpiry i else br

/-- The edge mode of a code (R56). -/
def edgeModeOf : Nat → EdgeMode
  | 0 => .none
  | 1 => .rise
  | 2 => .fall
  | _ => .both

/-- R64: EDGE sets the mode and restarts acquisition; OFF for NONE, ACQUIRE otherwise. -/
def RotInput.setMode (r : RotInput) (m : EdgeMode) : RotInput :=
  { r.restart with mode := m, state := if m = .none then .off else .acquire }

/-- R48, R66: the phase part a snapshot takes: T and the origin of the selected input, if that input is LOCKED. -/
def Bridge.phasePart (br : Bridge) (sel : Option RotId) : Option PhasePart :=
  match sel with
  | none => none
  | some i =>
    let r := br.rot i
    if r.state = .locked then
      match r.period, r.origin with
      | some t, some o => some { period := t, origin := o }
      | _, _ => none
    else none

/-- R67: the phase bin of a snapshot: which sixteenth of the period the mid-line time lies in. -/
def Snapshot.bin (s : Snapshot) : Option Nat :=
  s.phase.map (fun p => 16 * (elapsed s.time p.origin % p.period) / p.period)

end Sys2Proof.Machine
end

