-- ==== Sys2Proof/Machine/Intake.lean ====
section
/-! DEFINITION. Machine/Intake.lean: the intake monitor (chapter 2) and the consequences of a frame start in a slot
(section 1.6). -/

namespace Sys2Proof.Machine

/-! ## Frame statistics (R44 to R47) -/

/-- A luma byte with its line and pixel column (R44). -/
structure Luma where
  y : Nat
  x : Nat
  value : Nat
  deriving DecidableEq, Repr

/-- R44: the luma of a payload byte; a chroma byte of YC16 has none. -/
def Geometry.luma (g : Geometry) (b : Nat × Byte) : Option Luma :=
  let y := b.1 / g.lineBytes
  let o := b.1 % g.lineBytes
  if o % g.bpp = 0 then some { y := y, x := o / g.bpp, value := b.2.toNat } else none

/-- The magnitude of the difference of two luma values. -/
def lumaStep (a b : Nat) : Nat := if a ≤ b then b - a else a - b

/-- R45 to R47: one luma value is added to its row sum, its column-pair sum, and S and G of its tile. G takes the
step from the previous luma, but for the first pixel of a tile column. -/
def ProfileBuffer.addLuma (p : ProfileBuffer) (prev : Option Nat) (l : Luma) : ProfileBuffer :=
  let t := tileIndex (l.x / 64) (l.y / 32)
  let step : Nat := if l.x % 64 = 0 then 0 else (prev.map (fun q => lumaStep q l.value)).getD 0
  { p with
    rowSums := p.rowSums.modify l.y (· + l.value)
    colSums := p.colSums.modify (l.x / 2) (· + l.value)
    tileS := p.tileS.modify t (· + l.value)
    tileG := p.tileG.modify t (· + step) }

/-- The luma values of a run added in order, each one the previous luma of the next (R44, R47). -/
def ProfileBuffer.addRun (p : ProfileBuffer) (prev : Option Nat) : List Luma → ProfileBuffer
  | [] => p
  | l :: ls => ProfileBuffer.addRun (p.addLuma prev l) (some l.value) ls

/-- The previous luma after a run (R29, R47). -/
def lastLuma (prev : Option Nat) (ls : List Luma) : Option Nat :=
  match ls.getLast? with
  | some l => some l.value
  | none => prev

/-- R35 step 4: the sums of a buffer set to zero for a frame, sized by the geometry (R50). -/
def ProfileBuffer.start (g : Geometry) (f : FrameId) : ProfileBuffer :=
  { role := .accum, owner := some f, rowSums := List.replicate g.h 0, colSums := List.replicate (g.w / 2) 0,
    tileS := List.replicate Config.tileCount 0, tileG := List.replicate Config.tileCount 0, snapshot := none }

/-! ## Ends of a frame -/

/-- The intake record between frames (R38, R40): current slot, buffer and mid-line time absent, pointer 0. -/
def Intake.endFrame (n : Intake) (s : IntakeState) : Intake :=
  { n with state := s, slot := none, pointer := 0, buffer := none, midTime := none }

/-- R38, R39: the frame being followed ends with a fault. -/
def Bridge.intakeFault (env : Env) (br : Bridge) (v : Fin 4) (reason : Reason) : Bridge :=
  let vw := br.views.get v
  match vw.intake.slot with
  | none => br.modView v (fun vw => { vw with intake := vw.intake.endFrame .hunt })
  | some k =>
    let br := br.modView v (fun vw =>
      ({ (vw.freeRole .accum).modSlot k (fun sl => { sl with state := .faulted }) with
          intake := vw.intake.endFrame .hunt }).count (fun c => { c with fault := c.fault + 1 }))
    (br.report env
      { kind := .fault, frame := { view := v, slot := k, sequence := vw.slotSequence k }, reason := reason,
        time := env.timestamp }).raise (.fault v)

/-- A waiting entry `e` is dropped with a SKIP report (R27, R41): it leaves the queue, its buffer becomes FREE, SKIP
increases by one. The time is the mid-line time from its buffer (R192). -/
def Bridge.skipWaiting (env : Env) (br : Bridge) (e : SolveEntry) (reason : Reason) : Bridge :=
  let v := e.frame.view
  let time := ((br.views.get v).buffers.get e.buffer).midTime
  let br := (br.dropWaiting v).modView v (fun vw =>
    (vw.modBuffer e.buffer (·.withRole .free)).count (fun c => { c with skip := c.skip + 1 }))
  br.report env { kind := .skip, frame := e.frame, reason := reason, time := time }

/-- R41: a completion with a buffer. The slot becomes SOLVING, the view's older waiting entry is superseded (its slot
becomes EMPTY), and the frame joins the tail of the solver queue. -/
def Bridge.joinSolver (env : Env) (br : Bridge) (f : FrameId) (b : Fin 4) : Bridge :=
  let v := f.view
  let br := br.modView v (fun vw => vw.modSlot f.slot (fun sl => { sl with state := .solving }))
  let br :=
    match br.waiting v with
    | none => br
    | some e =>
      (br.skipWaiting env e .superseded).modView v (fun vw =>
        vw.modSlot e.frame.slot (fun sl => { sl with state := .empty }))
  let br := br.modView v (fun vw => vw.modBuffer b (·.withRole .wait))
  { br with solverQueue := br.solverQueue ++ [{ frame := f, buffer := b }] }

/-- R40: the frame in slot `k` is complete. -/
def Bridge.completeFrame (env : Env) (br : Bridge) (v : Fin 4) (k : Nat) : Bridge :=
  let vw := br.views.get v
  let f : FrameId := { view := v, slot := k, sequence := vw.slotSequence k }
  let br := br.modView v (fun vw => { vw with intake := vw.intake.endFrame .waitStart })
  match vw.intake.buffer with
  | some b => br.joinSolver env f b
  | none => br.unsolvedCompletion env f (vw.intake.midTime.getD 0) (decide (vw.state ≠ .tracking))

/-! ## Accepting a run -/

/-- The payload index of the first byte of line H/2 (R48). -/
def Geometry.midIndex (g : Geometry) : Nat := g.h / 2 * g.lineBytes

/-- R44, R48: what an accepted run does to the view: its luma values into the buffer, the pointer, the previous luma,
and the mid-line snapshot if it holds the first byte of line H/2. -/
def View.takeRun (vw : View) (now : Stamp) (phase : Option PhasePart) (run : List (Nat × Byte)) : View :=
  let g := vw.geometry
  let ls := run.filterMap g.luma
  let mid : Bool := decide (runLow run ≤ g.midIndex) && decide (g.midIndex ≤ runHigh run)
  let vw :=
    match vw.intake.buffer with
    | none => vw
    | some b =>
      vw.modBuffer b (fun p =>
        let p := p.addRun vw.intake.prevLuma ls
        if mid then { p with snapshot := some { time := now, phase := phase } } else p)
  { vw with
    intake :=
      { vw.intake with
        pointer := runHigh run + 1
        prevLuma := lastLuma vw.intake.prevLuma ls
        midTime := if mid then some now else vw.intake.midTime } }

/-- R36, R40: a run is accepted, and the frame completes if the pointer has reached W·bpp·H. -/
def Bridge.acceptRun (env : Env) (br : Bridge) (v : Fin 4) (k : Nat) (run : List (Nat × Byte)) : Bridge :=
  let phase := br.phasePart (br.views.get v).geometry.rotation
  let br := br.modView v (fun vw => vw.takeRun env.timestamp phase run)
  let vw := br.views.get v
  if vw.intake.pointer = vw.geometry.frameBytes then br.completeFrame env v k else br

/-! ## A frame start (section 1.6, R35) -/

/-- R25: the clean sources naming slot `k` are lost. -/
def View.dropSource (vw : View) (k : Nat) : View :=
  { vw with tiles := vw.tiles.map (fun t => if t.source = some k then { t with source := none } else t) }

/-- R27: a frame start in slot `k` and the solver: the slot's waiting entry is removed with a SKIP report, and a
solve of the slot's previous frame becomes reopened. -/
def Bridge.reopenSlot (env : Env) (br : Bridge) (v : Fin 4) (k : Nat) : Bridge :=
  let br :=
    match br.waiting v with
    | none => br
    | some e => if e.frame.slot = k then br.skipWaiting env e .reopened else br
  match br.solver with
  | .idle => br
  | .busy e r n =>
    if e.frame.view = v ∧ e.frame.slot = k then { br with solver := .busy e true n } else { br with solver := .busy e r n }

/-- R22, R26: the slot's own record at a frame start, with its new sequence and start stamp. -/
def View.startSlot (vw : View) (k : Nat) : View :=
  { vw.modSlot k (fun sl =>
      { sl with state := .filling, sequence := vw.nextSequence, startStamp := vw.startCount, offsets := none,
                map := allLive }) with
    ready := vw.ready.filter (· != k)
    nextSequence := vw.nextSequence + 1
    startCount := vw.startCount + 1 }

/-- R26: a frame start in the presented slot is an overtake. -/
def Bridge.overtake (br : Bridge) (v : Fin 4) (k : Nat) : Bridge :=
  if (br.views.get v).scan.presented = some k then
    (br.modView v (fun vw => vw.count (fun c => { c with overtake := c.overtake + 1 }))).raise (.fault v)
  else br

/-- R35 steps 3 and 4: the intake record follows the new frame, with the lowest-numbered FREE buffer if the view is
TRACKING. -/
def View.startIntake (vw : View) (v : Fin 4) (k : Nat) : View :=
  let f : FrameId := { view := v, slot := k, sequence := vw.slotSequence k }
  let b : Option (Fin 4) := if vw.state = .tracking then vw.bufferWith .free else none
  let vw :=
    match b with
    | none => vw
    | some b => vw.modBuffer b (fun _ => ProfileBuffer.start vw.geometry f)
  { vw with
    intake := { state := .inFrame, slot := some k, pointer := 0, buffer := b, prevLuma := none, midTime := none } }

/-- R35: a frame-start run starts a frame in slot `k`. -/
def Bridge.startFrame (env : Env) (br : Bridge) (v : Fin 4) (k : Nat) (run : List (Nat × Byte)) : Bridge :=
  let br := if (br.views.get v).intake.state = .inFrame then br.intakeFault env v .abandoned else br
  let br := br.breakHolds v (MapEntry.names k) false
  let br := br.reopenSlot env v k
  let br := br.modView v (fun vw => (vw.dropSource k).startSlot k)
  let br := br.overtake v k
  let br := br.modView v (fun vw => vw.startIntake v k)
  br.acceptRun env v k run

/-! ## A followed run (R36, R37) -/

/-- R36: a run in the current slot against the payload pointer. -/
def Bridge.judgeRun (env : Env) (br : Bridge) (v : Fin 4) (k : Nat) (run : List (Nat × Byte)) : Bridge :=
  let pointer := (br.views.get v).intake.pointer
  if runLow run < pointer then br.intakeFault env v .regression
  else if pointer < runLow run then br.intakeFault env v .gap
  else if runHasHole run then br.intakeFault env v .gap
  else br.acceptRun env v k run

/-- R35 to R37: a followed run in slot `k` of view `v`. -/
def Bridge.followRun (env : Env) (br : Bridge) (v : Fin 4) (k : Nat) (run : List (Nat × Byte)) : Bridge :=
  if isFrameStartRun run then br.startFrame env v k run
  else if (br.views.get v).intake.state = .inFrame then
    if (br.views.get v).intake.slot = some k then br.judgeRun env v k run
    else br.modView v (fun vw => vw.count (fun c => { c with stray := c.stray + 1 }))
  else br

/-- R32: an intake piece is followed when the tag matches, and counts as FOREIGN otherwise. -/
def Bridge.intakePiece (env : Env) (br : Bridge) (v : Fin 4) (k : Nat) (tag : Byte) (run : List (Nat × Byte)) :
    Bridge :=
  let g := (br.views.get v).geometry
  if tagMatches tag g.intakeTag g.intakeMask then br.followRun env v k run
  else br.modView v (fun vw => vw.count (fun c => { c with foreign := c.foreign + 1 }))

end Sys2Proof.Machine
end

