-- ==== Sys2Proof/Machine/Commands.lean ====
section
/-! DEFINITION. Machine/Commands.lean: CONFIGURE validation (section 1.2), the effects of the view commands
(section 1.3), the completion of a command (R183) and the take of each command (R181). -/

namespace Sys2Proof.Machine

/-! ## CONFIGURE validation (R4 to R8) -/

/-- Whether two of the ranges share a byte (R6). -/
def someMeet : List MapRange → Bool
  | [] => false
  | r :: rs => rs.any (fun q => r.meets q) || someMeet rs

/-- R6: the ranges the OVERLAP check compares for view `v`: its own new ones, the control region, and those of every
other view that is not UNCONFIGURED. -/
def overlapSet (straps : Straps) (br : Bridge) (v : Fin 4) (g : Geometry) : List MapRange :=
  g.ranges v ++ [controlRange straps]
    ++ (([0, 1, 2, 3] : List (Fin 4)).filter (fun u => u != v)).flatMap br.viewRanges

/-- R4: the twelve checks in order, each with its number and whether it fails. -/
def configureChecks (straps : Straps) (br : Bridge) (v : Fin 4) (d : Descriptor) : List (Nat × Bool) :=
  let g := d.geometry
  [ (1, decide (d.format ≠ 1 ∧ d.format ≠ 2)),
    (2, decide (d.w < 256 ∨ 1280 < d.w ∨ d.w % 64 ≠ 0)),
    (3, decide (d.h < 128 ∨ 960 < d.h ∨ d.h % 32 ≠ 0)),
    (4, decide (d.sp % 64 ≠ 0 ∨ d.sp < g.lineBytes ∨ 8192 < d.sp)),
    (5, decide (64 < d.mx ∨ d.mx % 2 ≠ 0 ∨ d.w / 4 < d.mx ∨ 48 < d.my ∨ d.h / 4 < d.my)),
    (6, decide (d.pp % 64 ≠ 0 ∨ d.pp < g.pw * g.bpp ∨ 8192 < d.pp)),
    (7, decide (d.slotBases.length < 2)),
    (8, decide (d.base % 64 ≠ 0) || d.slotBases.any (fun b => decide (b % 64 ≠ 0))),
    (9, someMeet (overlapSet straps br v g)),
    (10, (g.ranges v).any (fun r => decide (capacity straps ≤ r.base + r.size - 1))),
    (11, !d.tunables.valid),
    (12, decide (2 < d.rotation)) ]

/-- R4: the number of the first check that fails, if one does. -/
def configureFailure (straps : Straps) (br : Bridge) (v : Fin 4) (d : Descriptor) : Option Nat :=
  ((configureChecks straps br v d).find? (·.2)).map (·.1)

/-! ## Effects of the view commands -/

/-- The slot records of a new slot list (R20). -/
def newSlots (bases : List Nat) : List Slot :=
  bases.map (fun b =>
    { base := b, state := .empty, sequence := 0, startStamp := 0, offsets := none, map := allLive })

/-- R12: what a successful CONFIGURE makes of its view. The counters stay (R194). -/
def View.configure (vw : View) (d : Descriptor) : View :=
  { vw with
    state := .parked
    geometry := d.geometry
    slots := newSlots d.slotBases
    ready := []
    nextSequence := 0
    startCount := 0
    intake := Intake.reset
    buffers := vw.buffers.map (·.withRole .free)
    motion := { Motion.reset with active := d.tunables }
    tiles := List.replicate Config.tileCount Tile.reset
    seed := true
    whiteout := false
    scan := Scan.reset }

/-- R13, R16, R95, R96: the resets that TRACK and REBASE share: displacement, phase tables, tiles, learn countdown,
seed indication and reference. The baselines, the tunables and the whiteout flag stay. -/
def View.rebaseResets (vw : View) : View :=
  { vw.freeRole .ref with
    motion :=
      { vw.motion with
        ay := 0, ax := 0, dy := List.replicate 16 0, dx := List.replicate 16 0,
        countdown := vw.motion.active.ln }
    tiles := vw.tiles.map (fun t => { t with state := .learning, age := 0, source := none })
    seed := true }

/-- R14, R16: the frame being filled loses its statistics. -/
def View.dropAccum (vw : View) : View :=
  { vw.freeRole .accum with intake := { vw.intake with buffer := none } }

/-- R15: the view's part of reaching PARKED, beside the holds: offsets of READY slots and the recorded offsets
become 0, the whiteout flag is cleared. -/
def View.park (vw : View) : View :=
  { vw with
    state := .parked
    slots := vw.slots.map (fun sl => if sl.state = .ready then { sl with offsets := some ⟨0, 0⟩ } else sl)
    scan := { vw.scan with recorded := vw.scan.recorded.map (fun _ => ⟨0, 0⟩) }
    whiteout := false }

/-- R15: view `v` reaches PARKED: every HELD entry is broken, with a HOLD event if there was one or the whiteout flag
changed. -/
def Bridge.reachParked (br : Bridge) (v : Fin 4) : Bridge :=
  (br.breakHolds v MapEntry.isHeld (br.views.get v).whiteout).modView v View.park

/-- R17: what RELEASE makes of a view. Counters and the other fields keep their values (log 21). -/
def View.release (vw : View) : View :=
  { vw with
    state := .unconfigured
    slots := []
    ready := []
    scan := Scan.reset
    intake := Intake.reset
    buffers := vw.buffers.map (·.withRole .free)
    tiles := vw.tiles.map (fun t => { t with source := none }) }

/-- R18: the release of RELEASE ALL: every configured view is released, and the solver queue is emptied without
reports. -/
def Bridge.releaseAll (br : Bridge) : Bridge :=
  { br with
    views := br.views.map (fun vw => if vw.state = .unconfigured then vw else vw.release)
    solverQueue := [] }

/-! ## Completion (R183) -/

/-- R201: the status codes. -/
inductive Status where
  | done | badState | badDescriptor | badTarget | badCode | badArgument
  deriving DecidableEq, Repr

/-- R201. -/
def Status.code : Status → Byte
  | .done => 1
  | .badState => 2
  | .badDescriptor => 3
  | .badTarget => 4
  | .badCode => 5
  | .badArgument => 6

/-- R183: the 16 bytes a completion writes: the copy taken, with status, detail and owner SOFTWARE. -/
def completedEntry (entry : List Byte) (st : Status) (detail : Nat) : List Byte :=
  ((entry.set 4 st.code).set 5 (BitVec.ofNat 8 detail)).set 15 0

/-- R183: the completion of the command of entry `i`, whose copy is `entry`: one own write of 16 bytes, the shadow
takes the same bytes, CMD is raised, nothing is in flight, and the next index advances. -/
def Bridge.completeCommand (env : Env) (br : Bridge) (i : Nat) (entry : List Byte) (st : Status) (detail : Nat) :
    Bridge :=
  let bytes := completedEntry entry st detail
  let br := br.placeOwn .status (controlBase env.straps + 0x800 + 16 * i) bytes
  { (br.raise .cmd) with
    commandShadow := overwrite br.commandShadow (16 * i) bytes
    inFlight := none
    nextIndex := (br.nextIndex + 1) % 16 }

/-- The command at the next index completes at its take. -/
def Bridge.completeTaken (env : Env) (br : Bridge) (st : Status) (detail : Nat := 0) : Bridge :=
  br.completeCommand env br.nextIndex (br.commandEntry br.nextIndex) st detail

/-- The command at the next index is taken and waits (R182). -/
def Bridge.waitTaken (br : Bridge) (w : Wait) : Bridge :=
  { br with inFlight := some { index := br.nextIndex, entry := br.commandEntry br.nextIndex, wait := w } }

/-- The entry at the next index. -/
def Bridge.nextEntry (br : Bridge) : List Byte := br.commandEntry br.nextIndex

/-! ## The takes (R181) -/

/-- CONFIGURE (R4, R10 to R12). -/
def takeConfigure (env : Env) (br : Bridge) : Bridge :=
  match targetView br.nextEntry with
  | none => br.completeTaken env .badTarget
  | some v =>
    if (br.views.get v).state = .unconfigured ∨ (br.views.get v).state = .parked then
      let d := readDescriptor (br.descriptors.get v)
      match configureFailure env.straps br v d with
      | some n => br.completeTaken env .badDescriptor n
      | none => (br.modView v (fun vw => vw.configure d)).completeTaken env .done
    else br.completeTaken env .badState

/-- TRACK (R13). -/
def takeTrack (env : Env) (br : Bridge) : Bridge :=
  match targetView br.nextEntry with
  | none => br.completeTaken env .badTarget
  | some v =>
    if (br.views.get v).state = .parked then
      (br.modView v (fun vw => { vw.rebaseResets with state := .tracking })).completeTaken env .done
    else br.completeTaken env .badState

/-- R14: PARK's removal of the view's waiting entry, which completes unsolved with flag PARKED. -/
def Bridge.parkWaiting (env : Env) (br : Bridge) (v : Fin 4) : Bridge :=
  match br.waiting v with
  | none => br
  | some e =>
    let time := ((br.views.get v).buffers.get e.buffer).midTime
    ((br.dropWaiting v).modView v (fun vw => vw.modBuffer e.buffer (·.withRole .free))).unsolvedCompletion env
      e.frame time true

/-- PARK (R14, R15, R182). -/
def takePark (env : Env) (br : Bridge) : Bridge :=
  match targetView br.nextEntry with
  | none => br.completeTaken env .badTarget
  | some v =>
    if (br.views.get v).state = .tracking then
      let br := (br.parkWaiting env v).modView v View.dropAccum
      if br.solving v then (br.modView v (fun vw => { vw with state := .parking })).waitTaken (.park v)
      else (br.reachParked v).completeTaken env .done
    else br.completeTaken env .badState

/-- RELEASE of one view (R17). -/
def takeRelease (env : Env) (br : Bridge) : Bridge :=
  match targetView br.nextEntry with
  | none => br.completeTaken env .badTarget
  | some v =>
    if (br.views.get v).state = .parked then (br.modView v View.release).completeTaken env .done
    else br.completeTaken env .badState

/-- RELEASE ALL (R18, R182). -/
def takeReleaseAll (env : Env) (br : Bridge) : Bridge :=
  if br.solverBusy then br.waitTaken .releaseAll else br.releaseAll.completeTaken env .done

/-- REBASE (R16, R182). The frame being filled loses its statistics at the take (R51, log 14); the resets wait for a
solve of the view in progress. -/
def takeRebase (env : Env) (br : Bridge) : Bridge :=
  match targetView br.nextEntry with
  | none => br.completeTaken env .badTarget
  | some v =>
    if (br.views.get v).state = .tracking then
      let br := br.modView v View.dropAccum
      if br.solving v then br.waitTaken (.rebase v)
      else (br.modView v View.rebaseResets).completeTaken env .done
    else br.completeTaken env .badState

/-- TUNE (R19, R72). -/
def takeTune (env : Env) (br : Bridge) : Bridge :=
  match targetView br.nextEntry with
  | none => br.completeTaken env .badTarget
  | some v =>
    if (br.views.get v).state = .parked ∨ (br.views.get v).state = .tracking then
      let t := readTunables (br.descriptors.get v)
      if t.valid then
        (br.modView v (fun vw => { vw with motion := { vw.motion with pending := some t } })).completeTaken env .done
      else br.completeTaken env .badDescriptor 11
    else br.completeTaken env .badState

/-- ZERO (R195). -/
def takeZero (env : Env) (br : Bridge) : Bridge :=
  match targetView br.nextEntry with
  | some v => (br.modView v (fun vw => vw.count (fun _ => ViewCounters.zero))).completeTaken env .done
  | none =>
    if entryByte br.nextEntry 1 = 0xFF then
      ({ br with
          views := br.views.map (fun vw => vw.count (fun _ => ViewCounters.zero))
          glitchA := 0, glitchB := 0, outOfRange := 0 } : Bridge).completeTaken env .done
    else br.completeTaken env .badTarget

/-- The rotation input a target byte names (R64). -/
def targetInput (entry : List Byte) : Option RotId :=
  match (entryByte entry 1).toNat with
  | 0 => some .rota
  | 1 => some .rotb
  | _ => none

/-- EDGE (R64). -/
def takeEdge (env : Env) (br : Bridge) : Bridge :=
  match targetInput br.nextEntry with
  | none => br.completeTaken env .badTarget
  | some i =>
    if 3 < entryArgument br.nextEntry then br.completeTaken env .badArgument
    else
      (br.setRot i ((br.rot i).setMode (edgeModeOf (entryArgument br.nextEntry)))).completeTaken env .done

/-- A code outside 0x01..0x08 (R181). -/
def takeBadCode (env : Env) (br : Bridge) : Bridge := br.completeTaken env .badCode

/-- R180: whether the command at the next index is to be taken: owner BRIDGE, no command in flight, at least three
free own-write places. -/
def takeDue (br : Bridge) : Bool :=
  ownerOf (entryByte br.nextEntry 15) == .bridge && br.inFlight.isNone && decide (3 ≤ br.ownFree)

/-- R181: the take of the command at the next index. -/
def takeNext (env : Env) (br : Bridge) : Bridge :=
  match commandKind br.nextEntry with
  | .configure => takeConfigure env br
  | .track => takeTrack env br
  | .park => takePark env br
  | .release => takeRelease env br
  | .releaseAll => takeReleaseAll env br
  | .rebase => takeRebase env br
  | .tune => takeTune env br
  | .zero => takeZero env br
  | .edge => takeEdge env br
  | .badCode => takeBadCode env br

/-- The take of the command at the next index, where it is due (R180). -/
def takeIfDue (env : Env) (br : Bridge) : Bridge := if takeDue br then takeNext env br else br

end Sys2Proof.Machine
end

