-- ==== Sys2Proof/Machine/Presentation.lean ====
section
/-! DEFINITION. Machine/Presentation.lean: the presentation mapper (chapter 6): adoption, the mapping of a window byte
and the cutting of a window piece into segments. -/

namespace Sys2Proof.Machine

/-- A part of a read: bytes fixed at the acceptance; a run of DRAM bytes to fetch (R133, R165); or the bytes of a control
piece from an address on, served ones with their values, the others to come from one DRAM read (R149, R171). -/
inductive Part where
  | fixed (bytes : List Byte)
  | fetch (address count : Nat)
  | mixed (address : Nat) (places : List (Option Byte))
  deriving DecidableEq, Repr

/-! ## Adoption (R120 to R123) -/

/-- R121, R122: whether a display read of line `line` is an adoption point. -/
def adopts (swap : SwapMode) (last : Option Nat) (line : Nat) : Bool :=
  (decide (line = 0) && last != some 0) || (swap == .line && last != some line)

/-- R123: the tail of the ready list becomes the presented slot, or none if the list is empty, and its stored offsets
are recorded. A READY slot has offsets; without them, none are recorded (log 18). -/
def View.adopt (vw : View) : View :=
  { vw with
    scan :=
      { vw.scan with
        presented := vw.ready.getLast?
        recorded := vw.ready.getLast?.bind vw.slotOffsets } }

/-- The presentation line of an address of the window (R119). -/
def Geometry.windowLine (g : Geometry) (a : Nat) : Nat := (a - g.base) / g.pp

/-- R120: what a display read of line `line` does to the scan record: the adoption test, then the last display
line. -/
def View.displayRead (vw : View) (line : Nat) : View :=
  let vw := if adopts vw.geometry.swap vw.scan.lastLine line then vw.adopt else vw
  { vw with scan := { vw.scan with lastLine := some line } }

/-- R120, R124: the scan record at the acceptance of a read whose window piece begins at `a`. -/
def View.scanRead (vw : View) (tag : Byte) (a : Nat) : View :=
  if tagMatches tag vw.geometry.displayTag vw.geometry.displayMask then vw.displayRead (vw.geometry.windowLine a)
  else vw

/-! ## Mapping a byte (R126 to R129) -/

/-- The segment a window byte belongs to: window padding, fill, or a tile column of a line (R132, R133). -/
inductive Segment where
  | zero (line : Nat)
  | fill (line : Nat)
  | slotRead (line column : Nat)
  deriving DecidableEq, Repr

/-- The recorded offsets, present while a slot is presented (R118); else 0 (log 18). -/
def View.recordedOffsets (vw : View) : Offsets := vw.scan.recorded.getD ⟨0, 0⟩

/-- The source line or pixel of a presentation coordinate: coordinate + margin + shift (R128, R129). -/
def sourceCoordinate (c margin : Nat) (shift : Int) : Nat := ((c : Int) + (margin : Int) + shift).toNat

/-- The segment of the window byte at address `a` (R132). -/
def View.segmentOf (vw : View) (a : Nat) : Segment :=
  let g := vw.geometry
  let line := (a - g.base) / g.pp
  let b := (a - g.base) % g.pp
  if g.pw * g.bpp ≤ b then .zero line
  else if vw.scan.presented.isNone then .fill line
  else .slotRead line (sourceCoordinate (b / g.bpp) g.mx (2 * vw.recordedOffsets.ox) / 64)

/-- The base of slot `k`. -/
def View.slotBase (vw : View) (k : Nat) : Nat := ((vw.slots[k]?).map (·.base)).getD 0

/-- The address in a slot at offsets `o` of the picture byte `b` of presentation line `line` (R128, R129). -/
def View.sourceAddress (vw : View) (k : Nat) (o : Offsets) (line b : Nat) : Nat :=
  let g := vw.geometry
  vw.slotBase k + sourceCoordinate line g.my o.oy * g.sp
    + sourceCoordinate (b / g.bpp) g.mx (2 * o.ox) * g.bpp + b % g.bpp

/-- The decision map entry of slot `k` for the tile that holds source line `y` and pixel `x`. -/
def View.entryAt (vw : View) (k y x : Nat) : MapEntry :=
  ((vw.slots[k]?).map (fun sl => sl.map.getD (tileIndex (x / 64) (y / 32)) .live)).getD .live

/-- R128, R129: the DRAM address a picture byte of slot `k` is read from. The tile is chosen at `k`'s own coordinates;
a HELD tile is read from the slot it names, at that slot's stored offsets. -/
def View.pictureAddress (vw : View) (k line b : Nat) : Nat :=
  let g := vw.geometry
  let o := vw.recordedOffsets
  match vw.entryAt k (sourceCoordinate line g.my o.oy) (sourceCoordinate (b / g.bpp) g.mx (2 * o.ox)) with
  | .live => vw.sourceAddress k o line b
  | .held m => vw.sourceAddress m ((vw.slotOffsets m).getD ⟨0, 0⟩) line b

/-- R127: the fill byte at byte `b` of a line: black. -/
def fillByte (format : PixelFormat) (b : Nat) : Byte :=
  match format with
  | .y8 => 0x00
  | .yc16 => if b % 2 = 0 then 0x00 else 0x80

/-- R133: the part that answers a segment, given by its addresses in the window. -/
def View.segmentPart (vw : View) (addrs : List Nat) : Part :=
  match addrs with
  | [] => .fixed []
  | a :: _ =>
    let g := vw.geometry
    match vw.segmentOf a with
    | .zero _ => .fixed (addrs.map (fun _ => 0x00))
    | .fill _ => .fixed (addrs.map (fun x => fillByte g.format ((x - g.base) % g.pp)))
    | .slotRead line _ =>
      match vw.scan.presented with
      | none => .fixed (addrs.map (fun x => fillByte g.format ((x - g.base) % g.pp)))
      | some k => .fetch (vw.pictureAddress k line ((a - g.base) % g.pp)) addrs.length

/-- R132: a window piece cut into segments, each answered by its part. -/
def View.windowParts (vw : View) (addrs : List Nat) : List Part :=
  (cutBy vw.segmentOf addrs).map vw.segmentPart

end Sys2Proof.Machine
end

