-- ==== Sys2Proof/Machine/Served.lean ====
section
/-! DEFINITION. Machine/Served.lean: the control region's bytes (chapter 9): what an enabled byte of a write does, and
the served bytes answered from live state. -/

namespace Sys2Proof.Machine

/-- R1, R170, R173, R174, R179, R186: what one enabled byte of an accepted write does, by its offset from the control
base. -/
def Bridge.writeControlByte (br : Bridge) (off : Nat) (d : Byte) : Bridge :=
  if 0x4 ≤ off ∧ off < 0x8 then { br with events := acknowledgeByte br.events (off - 0x4) d }
  else if 0x8 ≤ off ∧ off < 0xC then { br with mask := maskByte br.mask (off - 0x8) d }
  else if h : 0x100 ≤ off ∧ off < 0x500 then
    let v : Fin 4 := ⟨(off - 0x100) / 256, by omega⟩
    if (off - 0x100) % 256 < 96 then
      { br with descriptors := br.descriptors.set v ((br.descriptors.get v).set ((off - 0x100) % 256) d) }
    else br
  else if 0x800 ≤ off ∧ off < 0x900 then { br with commandShadow := br.commandShadow.set (off - 0x800) d }
  else if 0x1000 ≤ off ∧ off < 0x1400 ∧ (off - 0x1000) % 32 = 31 then
    { br with owners := br.owners.set ((off - 0x1000) / 32) (ownerOf d) }
  else br

/-- A control piece of a write: its enabled bytes in address order (R170). -/
def Bridge.writeControl (br : Bridge) (base : Nat) (cells : List (Nat × WriteByte)) : Bridge :=
  cells.foldl (fun br c => if c.2.enable then br.writeControlByte (c.1 - base) c.2.data else br) br

/-- R199, R203: the offsets of the served bytes. -/
def isServed (off : Nat) : Bool :=
  decide (off < 0x4) || decide (0xC ≤ off ∧ off < 0x14) || decide (0x40 ≤ off ∧ off < 0x88)

/-- R203: the code of a view state. -/
def ViewState.code : ViewState → Nat
  | .unconfigured => 0
  | .parked => 1
  | .tracking => 2
  | .parking => 3

/-- R203: the code of an intake state. -/
def IntakeState.code : IntakeState → Nat
  | .waitStart => 0
  | .inFrame => 1
  | .hunt => 2

/-- R203: the code of a rotation state. -/
def RotState.code : RotState → Nat
  | .off => 0
  | .acquire => 1
  | .locked => 2
  | .stale => 3

/-- R140: whether the presented slot's map holds a HELD entry. -/
def View.holding (vw : View) : Bool :=
  match vw.scan.presented with
  | none => false
  | some k => ((vw.slots[k]?).map (fun sl => sl.map.any MapEntry.isHeld)).getD false

/-- R96, R177: whether the view's tile records (those of its grid) are LEARNING. -/
def View.isLearning (vw : View) : Bool :=
  vw.tiles.zipIdx.all (fun p => !vw.geometry.inGrid p.2 || p.1.state == .learning)

/-- R177, R203: the view poll byte of a view. -/
def View.pollByte (vw : View) : Byte :=
  if vw.state = .unconfigured then 0
  else
    BitVec.ofNat 8
      (vw.state.code + 4 * vw.intake.state.code + 16 * vw.whiteout.toNat + 32 * vw.holding.toNat
        + 64 * vw.scan.presented.isSome.toNat + 128 * vw.isLearning.toNat)

/-- The counter block of a view, 16 bytes (R203). -/
def ViewCounters.block (c : ViewCounters) : List Byte :=
  bytesOf 2 c.foreign.toNat ++ bytesOf 2 c.stray.toNat ++ bytesOf 2 c.fault.toNat ++ bytesOf 2 c.skip.toNat
    ++ bytesOf 2 c.overtake.toNat ++ bytesOf 2 c.lost.toNat ++ bytesOf 2 c.holdBreak.toNat ++ [0, 0]

/-- The global counter block, 8 bytes (R203). -/
def Bridge.globalBlock (br : Bridge) : List Byte :=
  bytesOf 2 br.glitchA.toNat ++ bytesOf 2 br.glitchB.toNat ++ bytesOf 2 br.outOfRange.toNat ++ [0, 0]

/-- R171, R177, R178, R203: the live value of the served byte at an offset. -/
def Bridge.servedByte (br : Bridge) (off : Nat) : Byte :=
  if off < 0x4 then (bytesOf 4 br.events.toNat).getD off 0
  else if h : 0xC ≤ off ∧ off < 0x10 then (br.views.get ⟨off - 0xC, by omega⟩).pollByte
  else if off = 0x10 then BitVec.ofNat 8 br.rota.state.code
  else if off = 0x11 then BitVec.ofNat 8 br.rotb.state.code
  else if h : 0x40 ≤ off ∧ off < 0x80 then
    (br.views.get ⟨(off - 0x40) / 16, by omega⟩).counters.block.getD ((off - 0x40) % 16) 0
  else if 0x80 ≤ off ∧ off < 0x88 then br.globalBlock.getD (off - 0x80) 0
  else 0

end Sys2Proof.Machine
end

