-- ==== Sys2Proof/Machine/Port.lean ====
section
/-! DEFINITION. Machine/Port.lean: the acceptance of a request by the system port (chapter 7) and the placing of its
operations in the upstream operation stream (section 8.2). -/

namespace Sys2Proof.Machine

/-- How many bytes an operation touches. -/
def OpKind.size : OpKind → Nat
  | .write bytes => bytes.length
  | .read length _ _ _ => length

/-- R162: two operations overlap when their ranges share a byte address. -/
def spansMeet (a n b m : Nat) : Bool := decide (a < b + m) && decide (b < a + n)

/-- R162: the name of the newest queued own write that overlaps a range. -/
def newestOverlap (own : List OwnWrite) (a n : Nat) : Option Nat :=
  ((own.filter (fun o => spansMeet a n o.address o.bytes.length)).getLast?).map (·.birth)

/-- R158, R162: an operation of request `q` joins the tail of the stream, with its promotion mark. -/
def Bridge.joinStream (br : Bridge) (q : Nat) (a : Nat) (kind : OpKind) : Bridge :=
  { br with
    stream := br.stream ++
      [{ request := q, birth := br.births, address := a, kind := kind, mark := newestOverlap br.ownWrites a kind.size,
         promoted := false }]
    births := br.births + 1 }

/-- R144: an accepted request takes a place of the request queue. -/
def Bridge.takePlace (br : Bridge) (isRead : Bool) : Bridge :=
  { br with
    requests := br.requests ++ [{ number := br.accepted, isRead := isRead, answered := false }]
    accepted := br.accepted + 1 }

/-- R151: OUT_OF_RANGE increases by one for a request with an out-of-range piece, while the control region is
active. -/
def Bridge.countOutOfRange (env : Env) (br : Bridge) (regions : List Region) : Bridge :=
  if controlActive env.straps && regions.any (· == .outOfRange) then { br with outOfRange := br.outOfRange + 1 }
  else br

/-! ## Writes (R145, R148) -/

/-- R148: the write operation of a piece; none for an out-of-range piece (R151). -/
def Bridge.joinWritePiece (br : Bridge) (q : Nat) (p : WritePiece) : Bridge :=
  match p.region, p.cells with
  | .outOfRange, _ => br
  | _, [] => br
  | _, (a, w) :: rest => br.joinStream q a (.write (w :: rest.map (·.2)))

/-- R31: whether a piece is one the intake monitor may take: in a slot range, with an enabled payload byte. -/
def Bridge.isIntakePiece (br : Bridge) (p : WritePiece) : Bool :=
  match p.region with
  | .slot v k => !((br.views.get v).geometry.run ((br.views.get v).slotBase k) p.cells).isEmpty
  | _ => false

/-- R145, R170, R32: the effect of a piece on the watching blocks: a control piece updates the shadows, the intake piece
goes to the intake monitor. `first` says whether this is the write's first piece that could be its intake piece. -/
def Bridge.watchPiece (env : Env) (tag : Byte) (br : Bridge) (p : WritePiece) (first : Bool) : Bridge :=
  match p.region with
  | .control => br.writeControl (controlBase env.straps) p.cells
  | .slot v k =>
    if first then
      br.intakePiece env v k tag ((br.views.get v).geometry.run ((br.views.get v).slotBase k) p.cells)
    else br
  | _ => br

/-- R31, R145: the effects of the pieces in address order; the lowest-addressed intake piece is the write's only
one. -/
def Bridge.watchPieces (env : Env) (tag : Byte) (br : Bridge) (taken : Bool) : List WritePiece → Bridge
  | [] => br
  | p :: ps =>
    if br.isIntakePiece p then
      Bridge.watchPieces env tag (br.watchPiece env tag p (!taken)) true ps
    else
      Bridge.watchPieces env tag (br.watchPiece env tag p false) taken ps

/-- R144, R145, R147, R148: the acceptance of a write. The take of a command that the write makes available is part of
it (R145, R184): a write that reaches the command ring lies whole in the control region, so the take comes after its one
piece. -/
def acceptWrite (env : Env) (br : Bridge) (w : WriteRequest) : Bridge :=
  let pieces := writePieces env.straps (windowMap env br) w
  let q := br.accepted
  let br := br.takePlace false
  let br := br.countOutOfRange env (pieces.map (·.region))
  let br := pieces.foldl (fun br p => br.joinWritePiece q p) br
  let br := br.watchPieces env w.tag false pieces
  takeIfDue env br.freePlaces

/-! ## Reads (R145, R149) -/

/-- A byte of a control piece: a served byte's live value, or none for a byte that is read from DRAM (R170, R171). -/
def Bridge.controlPlace (br : Bridge) (base a : Nat) : Option Byte :=
  if isServed (a - base) then some (br.servedByte (a - base)) else none

/-- R149: the parts that answer a piece of a read, with the state as it stands. -/
def Bridge.pieceParts (env : Env) (br : Bridge) (p : ReadPiece) : List Part :=
  match p.addresses with
  | [] => []
  | a :: _ =>
    match p.region with
    | .outOfRange => [.fixed (p.addresses.map (fun _ => 0x00))]
    | .control => [.mixed a (p.addresses.map (br.controlPlace (controlBase env.straps)))]
    | .window v => (br.views.get v).windowParts p.addresses
    | .slot _ _ => [.fetch a p.addresses.length]
    | .plain => [.fetch a p.addresses.length]

/-- R120, R131: the scan state at a window piece of a read. -/
def Bridge.scanPiece (br : Bridge) (tag : Byte) (p : ReadPiece) : Bridge :=
  match p.region, p.addresses with
  | .window v, a :: _ => br.modView v (fun vw => vw.scanRead tag a)
  | _, _ => br

/-- R145: the pieces of a read in address order: scan state, then the parts. -/
def Bridge.answerPieces (env : Env) (tag : Byte) (br : Bridge) : List ReadPiece → Bridge × List Part
  | [] => (br, [])
  | p :: ps =>
    let br1 := br.scanPiece tag p
    let rest := Bridge.answerPieces env tag br1 ps
    (rest.1, br1.pieceParts env p ++ rest.2)

/-- R165: the places of an assembly record at the acceptance. -/
def partPlaces : List Part → List (Option Byte)
  | [] => []
  | .fixed bytes :: ps => bytes.map some ++ partPlaces ps
  | .fetch _ count :: ps => List.replicate count none ++ partPlaces ps
  | .mixed _ places :: ps => places ++ partPlaces ps

/-- R165: the read of the beats that hold the `count` bytes from `a` on, for the places from `place` on. -/
def Bridge.joinRead (br : Bridge) (q a count place : Nat) : Bridge :=
  let start := a / 4 * 4
  let stop := (a + count + 3) / 4 * 4
  br.joinStream q start (.read (stop - start) (a - start) count place)

/-- How many places at the head of a list are filled. -/
def filledAtHead : List (Option Byte) → Nat
  | some _ :: ps => filledAtHead ps + 1
  | _ => 0

/-- R149, R158: the one read operation of a control piece, from its first byte that is not served to its last; none for a
piece that is served whole (R171). -/
def Bridge.joinMixed (br : Bridge) (q a place : Nat) (places : List (Option Byte)) : Bridge :=
  let first := filledAtHead places
  if first = places.length then br
  else br.joinRead q (a + first) (places.length - filledAtHead places.reverse - first) (place + first)

/-- R158, R165: the read operations of the parts, in order; `place` is where the next part begins in the record. -/
def Bridge.joinReads (br : Bridge) (q place : Nat) : List Part → Bridge
  | [] => br
  | .fixed bytes :: ps => Bridge.joinReads br q (place + bytes.length) ps
  | .fetch a count :: ps => Bridge.joinReads (br.joinRead q a count place) q (place + count) ps
  | .mixed a places :: ps => Bridge.joinReads (br.joinMixed q a place places) q (place + places.length) ps

/-- R165: an assembly record is opened for a read. -/
def Bridge.openAssembly (br : Bridge) (q : Nat) (places : List (Option Byte)) : Bridge :=
  { br with assemblies := br.assemblies ++ [{ request := q, places := places, returned := 0 }] }

/-- R144, R145, R149, R165: the acceptance of a read. -/
def acceptRead (env : Env) (br : Bridge) (r : ReadRequest) : Bridge :=
  let pieces := readPieces env.straps (windowMap env br) r
  let q := br.accepted
  let br := br.takePlace true
  let br := br.countOutOfRange env (pieces.map (·.region))
  let answered := br.answerPieces env r.tag pieces
  (answered.1.openAssembly q (partPlaces answered.2)).joinReads q 0 answered.2

/-- The acceptance of a request (R143). -/
def acceptRequest (env : Env) (br : Bridge) : Request → Bridge
  | .write w => acceptWrite env br w
  | .read r => acceptRead env br r

end Sys2Proof.Machine
end

