-- ==== Sys2Proof/Machine/Motion.lean ====
section
/-! DEFINITION. Machine/Motion.lean: the arithmetic of the motion solve (sections 4.3 to 4.6), on exact integers. -/

namespace Sys2Proof.Machine

/-- The gradient of a profile (R78): its item n is profile[n + 1] − profile[n]. -/
def gradient : List Nat → List Int
  | a :: b :: rest => ((b : Int) - (a : Int)) :: gradient (b :: rest)
  | _ => []

/-- The magnitudes of the differences of two lists, added, over their common length. -/
def absDiffSum : List Int → List Int → Nat
  | a :: as, b :: bs => (a - b).natAbs + absDiffSum as bs
  | _, _ => 0

/-- R82: the cost of candidate `s` on an axis of margin `m` with profiles of length `n`: the sum over
y = m + 1 to n − 1 − m of |g_cur[y] − g_ref[y − s]|. Item y of a gradient stands at place y − 1 of its list. -/
def axisCost (m n : Nat) (gcur gref : List Int) (s : Int) : Nat :=
  absDiffSum ((gcur.drop m).take (n - 1 - 2 * m)) (gref.drop ((m : Int) - s).toNat)

/-- R81: the candidates, ascending: the integers in [p − SR, p + SR] and in [−M, M]. -/
def candidates (p : Int) (sr m : Nat) : List Int :=
  let lo := max (p - sr) (-(m : Int))
  let hi := min (p + sr) (m : Int)
  (List.range (hi - lo + 1).toNat).map (fun (n : Nat) => lo + (n : Int))

/-- R83: whether candidate `s` of cost `c` is to be taken before candidate `t` of cost `d`: the lesser cost, then
nearer p, then smaller in size, then lower. -/
def betterCandidate (p : Int) (s : Int) (c : Nat) (t : Int) (d : Nat) : Bool :=
  if c ≠ d then decide (c < d)
  else if (s - p).natAbs ≠ (t - p).natAbs then decide ((s - p).natAbs < (t - p).natAbs)
  else if s.natAbs ≠ t.natAbs then decide (s.natAbs < t.natAbs)
  else decide (s < t)

/-- R83: the best of the candidates with their costs, `best` being the best so far. -/
def chooseCandidate (p : Int) (best : Int × Nat) : List (Int × Nat) → Int × Nat
  | [] => best
  | c :: cs => chooseCandidate p (if betterCandidate p c.1 c.2 best.1 best.2 then c else best) cs

/-- R80: the prediction from the phase table, 0 where there is none. -/
def prediction (table : List Int) (m : Nat) (bcur bref : Option Nat) (selected refValid : Bool) : Int :=
  match bcur, bref with
  | some b, some r =>
    if selected && refValid then clamp (-(m : Int)) m (round16 (table.getD b 0 - table.getD r 0)) else 0
  | _, _ => 0

/-- What the measurement of one axis gives: the step and whether the valley was flat (R83, R84). -/
structure Measured where
  d : Int
  flat : Bool
  deriving DecidableEq, Repr

/-- R81 to R84: the measurement of an axis that is on, against a valid reference. -/
def measureAxis (p : Int) (sr m ft : Nat) (cur ref : List Nat) : Measured :=
  let gcur := gradient cur
  let gref := gradient ref
  let costs := (candidates p sr m).map (fun s => (s, axisCost m cur.length gcur gref s))
  match costs with
  | [] => { d := p, flat := true }
  | c :: cs =>
    let best := chooseCandidate p c cs
    let cmax := (costs.map (·.2)).foldl max 0
    if cmax = 0 ∨ cmax * ft ≤ best.2 * 16 then { d := p, flat := true } else { d := best.1, flat := false }

/-- R86: the displacement after a step, before the clamp. -/
def integrate (a d : Int) (l : Nat) : Int := a + 16 * d - (a * l).tdiv 256

/-- R88: the phase-table entry of bin `b` moves a quarter of the way toward the displacement. -/
def updateTable (table : List Int) (b : Option Nat) (a : Int) : List Int :=
  match b with
  | none => table
  | some b => table.modify b (fun d => d + (a - d).fdiv 4)

/-- The results of one axis (R77 to R88). -/
structure AxisResult where
  step : Option Int
  flat : Bool
  clamped : Bool
  a : Int
  offset : Int
  table : List Int
  deriving DecidableEq, Repr

/-- R77, R79 to R88: one axis of margin `m`. `ref` is the reference profile where it is valid. -/
def solveAxis (m sr ft l : Nat) (a : Int) (table : List Int) (cur : List Nat) (ref : Option (List Nat))
    (bcur bref : Option Nat) (selected : Bool) : AxisResult :=
  if m = 0 then { step := none, flat := false, clamped := false, a := 0, offset := 0, table := table }
  else
    let p := prediction table m bcur bref selected ref.isSome
    let ms : Measured :=
      match ref with
      | none => { d := 0, flat := false }
      | some r => measureAxis p sr m ft cur r
    let raw := integrate a ms.d l
    let a' := clamp (-(16 * (m : Int))) (16 * m) raw
    { step := some ms.d, flat := ms.flat, clamped := decide (a' ≠ raw), a := a', offset := round16 a',
      table := updateTable table bcur a' }

/-- The results of both axes and the current frame's phase bin. -/
structure MotionResult where
  y : AxisResult
  x : AxisResult
  bin : Option Nat
  noReference : Bool
  deriving DecidableEq, Repr

/-- Sections 4.3 to 4.6 for a view, on its SOLVE buffer and, where one is REF, its reference. -/
def solveMotion (g : Geometry) (mo : Motion) (cur : ProfileBuffer) (ref : Option ProfileBuffer) : MotionResult :=
  let bcur := cur.snapshot.bind Snapshot.bin
  let bref := ref.bind (fun r => r.snapshot.bind Snapshot.bin)
  let t := mo.active
  { y := solveAxis g.my t.sry t.ft t.l mo.ay mo.dy cur.rowSums (ref.map (·.rowSums)) bcur bref g.rotation.isSome
    x := solveAxis (g.mx / 2) t.srx t.ft t.l mo.ax mo.dx cur.colSums (ref.map (·.colSums)) bcur bref
      g.rotation.isSome
    bin := bcur
    noReference := ref.isNone }

/-- The motion record after a solve (R86, R88). -/
def Motion.after (mo : Motion) (r : MotionResult) : Motion :=
  { mo with ay := r.y.a, ax := r.x.a, dy := r.y.table, dx := r.x.table }

end Sys2Proof.Machine
end

