-- ==== Sys2Proof/Machine/Tiles.lean ====
section
/-! DEFINITION. Machine/Tiles.lean: the tile step of a solve completion (chapter 5). -/

namespace Sys2Proof.Machine

/-- R99: a tile's mean or contrast, from its sum. -/
def tileValue (sum : Nat) : Nat := sum / 2048

/-- R103: a baseline moves one eighth of the way toward the frame's value `v`, rounding toward minus infinity. -/
def updateBaseline (b v : Nat) : Nat := ((b : Int) + ((16 * v : Int) - b).fdiv 8).toNat

/-- R103: both baselines of a tile. -/
def Tile.updateBaselines (t : Tile) (m c : Nat) : Tile :=
  { t with bm := updateBaseline t.bm m, bc := updateBaseline t.bc c }

/-- R102: dusty when the contrast has dropped and the mean has moved, against the baselines as they stand. -/
def Tile.isDusty (t : Tile) (cr mt m c : Nat) : Bool :=
  decide (c * 256 ≤ t.bc * cr) && decide (16 * mt ≤ ((16 * m : Int) - t.bm).natAbs)

/-- R100, R101: one tile in a learning solve. `seed`: the baselines are set from the frame; `ends`: this solve ends
learning; `source`: the solved slot, unless it was reopened. -/
def Tile.learn (t : Tile) (seed ends : Bool) (source : Option Nat) (m c : Nat) : Tile :=
  let t := if seed then { t with bm := 16 * m, bc := 16 * c } else t.updateBaselines m c
  if ends then { t with state := .clean, age := 0, source := source.orElse (fun _ => t.source) }
  else { t with state := .learning, age := 0 }

/-- R105: a clean tile. -/
def Tile.beClean (t : Tile) (source : Option Nat) (m c : Nat) : Tile :=
  { t.updateBaselines m c with state := .clean, age := 0, source := source.orElse (fun _ => t.source) }

/-- R106: whether a dusty tile of age `age` is HELD. -/
def Tile.mayHold (t : Tile) (ha age : Nat) (whiteout : Bool) : Bool :=
  decide (1 ≤ ha) && decide (age ≤ ha) && !whiteout && t.source.isSome

/-- R106, R107: a dusty tile. -/
def Tile.beDusty (t : Tile) (ha : Nat) (whiteout : Bool) (m c : Nat) : Tile :=
  let age := min (t.age + 1) 255
  let t' := if ha < age then t.updateBaselines m c else t
  { t' with age := age, state := if t.mayHold ha age whiteout then .held else .exposed }

/-- The map entry a tile's decision writes (R97). -/
def Tile.entry (t : Tile) : MapEntry :=
  match t.state, t.source with
  | .held, some k => .held k
  | _, _ => .live

/-- A tile record with its place and its frame values (R99). -/
structure TileCase where
  place : Nat
  tile : Tile
  m : Nat
  c : Nat
  deriving DecidableEq, Repr

/-- The records with their frame values (R99). -/
def tileCases (tiles : List Tile) (s gs : List Nat) : List TileCase :=
  tiles.zipIdx.map (fun p =>
    { place := p.2, tile := p.1, m := tileValue (s.getD p.2 0), c := tileValue (gs.getD p.2 0) })

/-- What the tile step leaves and reports (R98, R115). -/
structure TileResult where
  tiles : List Tile
  map : List MapEntry
  countdown : Nat
  seed : Bool
  whiteout : Bool
  learning : Bool
  dusty : Nat
  held : Nat
  exposed : Nat
  deriving DecidableEq, Repr

/-- R100, R101: the tile step of a learning solve. -/
def learnStep (g : Geometry) (vw : View) (cases : List TileCase) (source : Option Nat) : TileResult :=
  let ends := decide (vw.motion.countdown = 1)
  { tiles := cases.map (fun q => if g.inGrid q.place then q.tile.learn vw.seed ends source q.m q.c else q.tile)
    map := allLive
    countdown := vw.motion.countdown - 1
    seed := false
    whiteout := false
    learning := true
    dusty := 0
    held := 0
    exposed := 0 }

/-- R102 to R107: the tile step after learning. -/
def classifyStep (g : Geometry) (vw : View) (cases : List TileCase) (source : Option Nat) : TileResult :=
  let tu := vw.motion.active
  let isDusty (q : TileCase) : Bool := g.inGrid q.place && q.tile.isDusty tu.cr tu.mt q.m q.c
  let nd := cases.countP isDusty
  let whiteout := decide (g.tw * g.th * tu.wf < nd * 16)
  let decideTile (q : TileCase) : Tile :=
    if isDusty q then q.tile.beDusty tu.ha whiteout q.m q.c
    else if g.inGrid q.place then q.tile.beClean source q.m q.c
    else q.tile
  let isHeld (q : TileCase) : Bool := isDusty q && (decideTile q).state == .held
  { tiles := cases.map decideTile
    map := cases.map (fun q => if isDusty q then (decideTile q).entry else .live)
    countdown := vw.motion.countdown
    seed := vw.seed
    whiteout := whiteout
    learning := false
    dusty := nd
    held := cases.countP isHeld
    exposed := nd - cases.countP isHeld }

/-- R98: the tile step of a view for the tile sums of a buffer. `source` is the solved slot, absent where it was
reopened. -/
def tileStep (vw : View) (p : ProfileBuffer) (source : Option Nat) : TileResult :=
  let cases := tileCases vw.tiles p.tileS p.tileG
  if 0 < vw.motion.countdown then learnStep vw.geometry vw cases source
  else classifyStep vw.geometry vw cases source

/-- The view with the tile step's results stored (R98): records, countdown, seed indication, whiteout flag. -/
def View.withTiles (vw : View) (r : TileResult) : View :=
  { vw with
    tiles := r.tiles, seed := r.seed, whiteout := r.whiteout,
    motion := { vw.motion with countdown := r.countdown } }

end Sys2Proof.Machine
end

