-- ==== Sys2Proof/Machine/Solve.lean ====
section
/-! DEFINITION. Machine/Solve.lean: the start, the end of the arithmetic and the completion of a solve (sections 4.1
and 4.7). -/

namespace Sys2Proof.Machine

/-- R18, R71: whether a RELEASE ALL is in flight. -/
def Bridge.releasingAll (br : Bridge) : Bool :=
  match br.inFlight with
  | some f => f.wait == .releaseAll
  | none => false

/-- R72: pending tunables become active. -/
def Motion.adoptPending (mo : Motion) : Motion :=
  match mo.pending with
  | none => mo
  | some t => { mo with active := t, pending := none }

/-- R71: whether a solve can start: the solver IDLE, the queue not empty, no RELEASE ALL in flight. -/
def canStartSolve (br : Bridge) : Bool := !br.solverBusy && !br.solverQueue.isEmpty && !br.releasingAll

/-- R71, R72: the start of the solve of the head entry, where one can start. -/
def Bridge.startSolve (br : Bridge) : Bridge :=
  if canStartSolve br then
    match br.solverQueue with
    | [] => br
    | e :: rest =>
      ({ br with solverQueue := rest, solver := .busy e false false } : Bridge).modView e.frame.view (fun vw =>
        { vw.modBuffer e.buffer (·.withRole .solve) with motion := vw.motion.adoptPending })
  else br

/-- R73: the arithmetic of the solve in progress has been carried out. -/
def Bridge.endArithmetic (br : Bridge) : Bridge :=
  match br.solver with
  | .idle => br
  | .busy e r _ => { br with solver := .busy e r true }

/-- R73: a solve completes when its arithmetic has ended and at least three own-write places are free. -/
def completionDue (br : Bridge) : Bool :=
  match br.solver with
  | .idle => false
  | .busy _ _ ended => ended && decide (3 ≤ br.ownFree)

/-- The FRAME report of a solve (R92, R191, R193). -/
def solvedReport (f : FrameId) (time : Stamp) (m : MotionResult) (t : TileResult) (reopened : Bool) : Report :=
  { kind := .frame, frame := f, time := time,
    flags :=
      { lowTextureY := m.y.flat, lowTextureX := m.x.flat, predictedY := m.y.flat, predictedX := m.x.flat,
        noReference := m.noReference, clampedY := m.y.clamped, clampedX := m.x.clamped,
        whiteout := t.whiteout, learning := t.learning, reopened := reopened },
    dy := m.y.step, dx := m.x.step, offsets := ⟨m.y.offset, m.x.offset⟩, ay := m.y.a, ax := m.x.a,
    bin := m.bin, dusty := t.dusty, held := t.held, exposed := t.exposed }

/-- R89 to R91: the results of a solve stored in its view: motion, reference, tiles, and the slot unless it was
reopened. -/
def View.storeSolve (vw : View) (e : SolveEntry) (m : MotionResult) (t : TileResult) (reopened : Bool) : View :=
  let vw := { vw with motion := vw.motion.after m }
  let vw := (vw.freeRole .ref).modBuffer e.buffer (·.withRole .ref)
  let vw := vw.withTiles t
  if reopened then vw
  else
    (vw.modSlot e.frame.slot (fun sl =>
      { sl with state := .ready, offsets := some ⟨m.y.offset, m.x.offset⟩, map := t.map })).insertReady e.frame.slot

/-- R93, R182: the command waiting for the solve of view `v` has its effect and completes. -/
def Bridge.finishWaiting (env : Env) (br : Bridge) (v : Fin 4) : Bridge :=
  match br.inFlight with
  | none => br
  | some f =>
    match f.wait with
    | .park u => if u = v then (br.reachParked u).completeCommand env f.index f.entry .done 0 else br
    | .rebase u => if u = v then (br.modView u View.rebaseResets).completeCommand env f.index f.entry .done 0 else br
    | .releaseAll => br.releaseAll.completeCommand env f.index f.entry .done 0

/-- R73, R89 to R93: the completion of the solve in progress, in one action. -/
def Bridge.completeSolve (env : Env) (br : Bridge) : Bridge :=
  match br.solver with
  | .idle => br
  | .busy e reopened _ =>
    let v := e.frame.view
    let vw := br.views.get v
    let cur := vw.buffers.get e.buffer
    let ref := (vw.bufferWith .ref).map vw.buffers.get
    let m := solveMotion vw.geometry vw.motion cur ref
    let t := tileStep vw cur (if reopened then none else some e.frame.slot)
    let br := br.modView v (fun vw => vw.storeSolve e m t reopened)
    let br := br.raiseIf (t.whiteout != vw.whiteout) (.hold v)
    let br := br.report env (solvedReport e.frame cur.midTime m t reopened)
    let br := br.raise (.frame v)
    let br := { br with solver := .idle }
    br.finishWaiting env v

end Sys2Proof.Machine
end

