-- ==== Sys2Proof/Machine/Settle.lean ====
section
/-! DEFINITION. Machine/Settle.lean: what the bridge does at the first moment it can, without an event from outside:
the completion of an ended solve (R73), the take of a command (R180), the acceptance of a request that waits on the
bus (R143). It is done before the next event takes effect (log 2). -/

namespace Sys2Proof.Machine

/-- R143: whether a request waits on the bus and can be accepted. -/
def acceptDue (env : Env) (br : Bridge) : Bool := !br.busWait.isEmpty && canAccept env br

/-- The acceptance of the request the bus has offered longest. -/
def acceptWaiting (env : Env) (br : Bridge) : Bridge :=
  match br.busWait with
  | [] => br
  | r :: rest => acceptRequest env { br with busWait := rest } r

/-- One piece of urgent work, where any is due. When several are due at one moment, the order is this one, unless the
next event is itself one of them (log 2). -/
def urgent (env : Env) (br : Bridge) : Option Bridge :=
  if completionDue br then some (br.completeSolve env)
  else if takeDue br then some (takeNext env br)
  else if acceptDue env br then some (acceptWaiting env br)
  else none

/-- Urgent work, one piece after another, until `stop` holds or none is due; at most `n` pieces. -/
def settleUntil (env : Env) (stop : Bridge → Bool) : Nat → Bridge → Bridge
  | 0, br => br
  | n + 1, br =>
    if stop br then br
    else
      match urgent env br with
      | none => br
      | some br' => settleUntil env stop n br'

/-- A number of pieces of urgent work that is never reached: each acceptance uses up a waiting request, each command
that completes places an own write of 16 at most, a command that waits and a completed solve stop their kind. -/
def settleBound (br : Bridge) : Nat := br.busWait.length + 20

/-- The bridge with all urgent work done. -/
def settleBridge (env : Env) (br : Bridge) : Bridge := settleUntil env (fun _ => false) (settleBound br) br

/-- The machine with all urgent work done. -/
def State.settle (s : State) : State := { s with bridge := settleBridge s.env s.bridge }

/-- The machine with urgent work done up to the moment at which `stop` holds, if it comes. -/
def State.settleTo (s : State) (stop : Bridge → Bool) : State :=
  { s with bridge := settleUntil s.env stop (settleBound s.bridge) s.bridge }

end Sys2Proof.Machine
end

