-- ==== Sys2Proof/WellFormed.lean ====
section
/-! DEFINITION. WellFormed.lean: which operands are requests of the bus (R142). -/

namespace Sys2Proof

/-- R142: a byte address that is a multiple of 4, whole beats, 1 to 64 of them. -/
def WriteRequest.wellFormed (w : WriteRequest) : Bool :=
  w.address.toNat % 4 == 0 && w.bytes.length % 4 == 0 && 4 ≤ w.bytes.length && w.bytes.length ≤ 256

/-- R142: a byte address that is a multiple of 4, 1 to 64 beats. -/
def ReadRequest.wellFormed (r : ReadRequest) : Bool :=
  r.address.toNat % 4 == 0 && 1 ≤ r.beats && r.beats ≤ 64

/-- A request of the bus (R142). -/
def Request.wellFormed : Request → Bool
  | .write w => w.wellFormed
  | .read r => r.wellFormed

/-- A command whose operands exist: only the bus rows carry an operand that could fail to. -/
def Instr.wellFormed : Instr → Bool
  | .resetAssert => true
  | .resetRelease _ _ _ => true
  | .memoryInitializationComplete => true
  | .timestampTick => true
  | .write w => w.wellFormed
  | .controlWrite w => w.wellFormed
  | .acknowledge w => w.wellFormed
  | .mask w => w.wellFormed
  | .reportOwnerWrite w => w.wellFormed
  | .read r => r.wellFormed
  | .presentationRead r => r.wellFormed
  | .upstreamOperationIssue => true
  | .ownWriteIssue => true
  | .operationDataReturn => true
  | .readResponse => true
  | .configure => true
  | .track => true
  | .park => true
  | .release => true
  | .releaseAll => true
  | .rebase => true
  | .tune => true
  | .zero => true
  | .edge => true
  | .badCode => true
  | .solveStart => true
  | .solveArithmeticEnd => true
  | .solveCompletion => true
  | .rotationEdge _ => true
  | .staleTimeout _ => true

end Sys2Proof
end

