-- ==== Sys2Proof/Machine/BusRows.lean ====
section
/-! DEFINITION. Machine/BusRows.lean: the rows of the frame-memory bus: WRITE, CONTROL_WRITE, ACKNOWLEDGE, MASK,
REPORT_OWNER_WRITE, READ and PRESENTATION_READ. The bridge tells requests apart by their addresses alone (R147), so the
rows differ in name and not in what they do with a request (log 4). -/

namespace Sys2Proof.Machine

/-- R143: the bus offers a request. Urgent work comes first; then the port accepts the request, or it waits on the bus
behind those that wait already. While RESETn is asserted the bus is in reset too and keeps no request (R154, log 6). -/
def State.offer (s : State) (r : Request) : State :=
  let s := s.settle
  if s.env.resetAsserted then s
  else if s.bridge.busWait.isEmpty && canAccept s.env s.bridge then
    { s with bridge := acceptRequest s.env s.bridge r }
  else { s with bridge := { s.bridge with busWait := s.bridge.busWait ++ [r] } }

/-- A request offered, or a fault where it is no request of the bus (R142, log 5). -/
def offerRequest (r : Request) (s : State) : Host.Outcome State Fault Refusal :=
  if r.wellFormed then .next (s.offer r) else .fault .malformedRequest

/-- WRITE (R148). -/
def execWrite (w : WriteRequest) (s : State) : Host.Outcome State Fault Refusal := offerRequest (.write w) s

/-- CONTROL_WRITE (R170). -/
def execControlWrite (w : WriteRequest) (s : State) : Host.Outcome State Fault Refusal := offerRequest (.write w) s

/-- ACKNOWLEDGE (R173). -/
def execAcknowledge (w : WriteRequest) (s : State) : Host.Outcome State Fault Refusal := offerRequest (.write w) s

/-- MASK (R174). -/
def execMask (w : WriteRequest) (s : State) : Host.Outcome State Fault Refusal := offerRequest (.write w) s

/-- REPORT_OWNER_WRITE (R186). -/
def execReportOwnerWrite (w : WriteRequest) (s : State) : Host.Outcome State Fault Refusal :=
  offerRequest (.write w) s

/-- READ (R149). -/
def execRead (r : ReadRequest) (s : State) : Host.Outcome State Fault Refusal := offerRequest (.read r) s

/-- PRESENTATION_READ (R131). -/
def execPresentationRead (r : ReadRequest) (s : State) : Host.Outcome State Fault Refusal := offerRequest (.read r) s

end Sys2Proof.Machine
end

