-- ==== Sys2Proof/Machine/Sequencer.lean ====
section
/-! DEFINITION. Machine/Sequencer.lean: the arbiter and what an issue, a return of data and a response do (chapter
8). -/

namespace Sys2Proof.Machine

/-- The two streams the arbiter chooses from (R161). -/
inductive Source where
  | upstream
  | own
  deriving DecidableEq, Repr

/-- R162: whether the operation's promotion mark names an own write that is still queued. -/
def UpOp.promotes (op : UpOp) (own : List OwnWrite) : Bool :=
  match op.mark with
  | none => false
  | some n => own.any (fun o => o.birth == n)

/-- R163: whether an own write is held: an operation of the stream overlaps it and was accepted before it joined. -/
def OwnWrite.isHeld (o : OwnWrite) (stream : List UpOp) : Bool :=
  stream.any (fun op => spansMeet op.address op.kind.size o.address o.bytes.length && decide (op.birth < o.birth))

/-- R161: the arbiter's choice, by its six steps in order; none when nothing waits. An operation whose promotion has been
carried out is issued next (R162), which is step 1's and comes before the later steps (log 27). -/
def arbiter (br : Bridge) : Option Source :=
  match br.stream, br.ownWrites with
  | [], [] => none
  | [], _ :: _ => some .own
  | _ :: _, [] => some .upstream
  | op :: _, o :: _ =>
    if op.promotes br.ownWrites then some .own
    else if op.promoted then some .upstream
    else if o.isHeld br.stream then some .upstream
    else if 8 ≤ br.ownWrites.length then some .own
    else if o.passes = 4 then some .own
    else some .upstream

/-- R161: an issue of an upstream operation raises every pass count below 4 by one. -/
def OwnWrite.pass (o : OwnWrite) : OwnWrite := { o with passes := if o.passes < 4 then o.passes + 1 else o.passes }

/-- R157: the controller takes an operation. The one before it has been performed, and how long this one takes is a free
value (log 11). -/
def Dram.take (d : Dram) (address length : Nat) (isRead : Bool) : Dram :=
  { d with
    performing :=
      some { address := address, length := length, isRead := isRead, left := Config.performTime d.freeCount }
    freeCount := d.freeCount + 1 }

/-- R157: what an upstream operation does to the DRAM when it is issued: a write changes its enabled bytes, a read's
data is that of the writes issued before it (log 11). -/
def Dram.issue (d : Dram) (op : UpOp) : Dram :=
  match op.kind with
  | .write bytes =>
    { d.take op.address bytes.length false with cells := Memory.writeBytes d.cells op.address bytes }
  | .read length skip count place =>
    { d.take op.address length true with
      returning := d.returning ++
        [{ request := op.request, data := Memory.readBytes d.cells op.address length, skip := skip, count := count,
           place := place }] }

/-- R161: the head of the upstream stream is issued; a write whose last operation this is frees its place as R144
gives. -/
def State.issueUpstream (s : State) : State :=
  match s.bridge.stream with
  | [] => s
  | op :: rest =>
    { s with
      bridge := ({ s.bridge with stream := rest, ownWrites := s.bridge.ownWrites.map OwnWrite.pass } : Bridge).freePlaces
      dram := s.dram.issue op }

/-- R157, R164: an own write reaches DRAM whole, every byte enabled. -/
def Dram.issueOwn (d : Dram) (o : OwnWrite) : Dram :=
  { d.take o.address o.bytes.length false with
    cells := Memory.writeBytes d.cells o.address (o.bytes.map (fun b => { data := b, enable := true })) }

/-- R162: the own write named by a birth has been issued: where the head of the stream carries its mark, the promotion of
that operation has been carried out. -/
def promoteHead (birth : Nat) : List UpOp → List UpOp
  | [] => []
  | op :: ops => { op with promoted := op.promoted || op.mark == some birth } :: ops

/-- R161, R162: the head own write is issued; no pass count changes. -/
def State.issueOwn (s : State) : State :=
  match s.bridge.ownWrites with
  | [] => s
  | o :: rest =>
    { s with
      bridge := { s.bridge with ownWrites := rest, stream := promoteHead o.birth s.bridge.stream }
      dram := s.dram.issueOwn o }

/-- `places` with the empty places from `first` on filled with the bytes, one place for each byte. A place that was filled
at acceptance, a served byte's, keeps its value (R165, R171). -/
def fillPlaces (places : List (Option Byte)) (first : Nat) : List Byte → List (Option Byte)
  | [] => places
  | b :: bs => fillPlaces (places.modify first (fun p => some (p.getD b))) (first + 1) bs

/-- R165: the bytes of returned data that a read operation takes, put into its places. -/
def Assembly.fill (a : Assembly) (r : ReturningRead) : Assembly :=
  if a.request = r.request then { a with places := fillPlaces a.places r.place ((r.data.drop r.skip).take r.count) }
  else a

/-- R165: the data of the read operation issued longest ago returns (log 11). -/
def State.returnData (s : State) : State :=
  match s.dram.returning with
  | [] => s
  | r :: rest =>
    { s with
      bridge := { s.bridge with assemblies := s.bridge.assemblies.map (fun a => a.fill r) }
      dram :=
        { s.dram with
          returning := rest
          performing :=
            match s.dram.performing with
            | none => none
            | some p => if p.isRead && rest.isEmpty then none else some p } }

/-- R166: the beats at the head of a record's places that are complete, in order: all four places filled. -/
def completeBeats : List (Option Byte) → List Byte
  | some a :: some b :: some c :: some d :: rest => a :: b :: c :: d :: completeBeats rest
  | _ => []

/-- R144, R150, R166: the completed beats of the oldest unanswered read are returned; after its last beat its record
is closed, its work is done and places are freed (log 12). -/
def State.respond (s : State) : State :=
  match s.bridge.assemblies with
  | [] => s
  | a :: rest =>
    let bytes := completeBeats (a.places.drop (4 * a.returned))
    let returned := a.returned + bytes.length / 4
    if bytes = [] then s
    else if 4 * returned = a.places.length then
      { s with
        readData := bytes
        bridge :=
          ({ s.bridge with
              assemblies := rest
              requests := s.bridge.requests.map (fun p =>
                if p.number = a.request then { p with answered := true } else p) } : Bridge).freePlaces }
    else
      { s with
        readData := bytes
        bridge := { s.bridge with assemblies := { a with returned := returned } :: rest } }

end Sys2Proof.Machine
end

