-- ==== Sys2Proof/Machine/DramRows.lean ====
section
/-! DEFINITION. Machine/DramRows.lean: the rows UPSTREAM_OPERATION_ISSUE, OWN_WRITE_ISSUE, OPERATION_DATA_RETURN and
READ_RESPONSE. -/

namespace Sys2Proof.Machine

/-- UPSTREAM_OPERATION_ISSUE (R161): the head of the upstream stream is issued, when that is the arbiter's choice;
otherwise this event does not happen (log 1). -/
def execUpstreamOperationIssue (s : State) : Host.Outcome State Fault Refusal :=
  if arbiter s.settle.bridge = some .upstream then .next s.settle.issueUpstream else .next s.settle

/-- OWN_WRITE_ISSUE (R161): the head own write is issued, when that is the arbiter's choice; otherwise this event does
not happen (log 1). -/
def execOwnWriteIssue (s : State) : Host.Outcome State Fault Refusal :=
  if arbiter s.settle.bridge = some .own then .next s.settle.issueOwn else .next s.settle

/-- OPERATION_DATA_RETURN (R165). -/
def execOperationDataReturn (s : State) : Host.Outcome State Fault Refusal := .next s.settle.returnData

/-- READ_RESPONSE (R166). -/
def execReadResponse (s : State) : Host.Outcome State Fault Refusal := .next s.settle.respond

end Sys2Proof.Machine
end

