-- ==== Sys2Proof/Machine/ResetRows.lean ====
section
/-! DEFINITION. Machine/ResetRows.lean: the rows RESET_ASSERT, RESET_RELEASE, MEMORY_INITIALIZATION_COMPLETE and
TIMESTAMP_TICK. -/

namespace Sys2Proof.Machine

/-- The operation being performed, if there is one (R157, R168): the one taken last, until its time is over (log 11). -/
def Dram.beingPerformed (d : Dram) : Option Performing := d.performing.filter (fun p => decide (0 < p.left))

/-- R168: at the assertion the bytes of the operation being performed become undefined; issued reads return no data
(R169). The other contents stay. -/
def Dram.assertReset (d : Dram) : Dram :=
  { cells :=
      match d.beingPerformed with
      | none => d.cells
      | some p => Memory.tear d.cells d.freeCount p.address p.length
    returning := []
    performing := none
    freeCount := d.freeCount + 1 }

/-- RESET_ASSERT (R154, R169): acceptance stops, every queue and record is emptied, all state of the bridge takes its
reset value; DRAM keeps its contents but for the operation being performed (R168). No effect while RESETn is already
asserted (log 24). -/
def execResetAssert (s : State) : Host.Outcome State Fault Refusal :=
  if s.env.resetAsserted then .next s
  else
    .next
      { s with
        env := { s.env with resetAsserted := true, initializing := false, timestamp := 0 }
        bridge := Bridge.reset s.bridge.rota.level s.bridge.rotb.level
        dram := s.dram.assertReset
        readData := [] }

/-- RESET_RELEASE (R28, R55, R56, R152, R154, R168): the straps and the levels of ROTA and ROTB are sampled, every
block has its reset state, the timestamp starts from 0 and memory initialization begins. No effect while RESETn is
not asserted (log 24). -/
def execResetRelease (straps : Straps) (rota rotb : Bool) (s : State) : Host.Outcome State Fault Refusal :=
  if s.env.resetAsserted then
    .next { s with env := Env.released straps, bridge := Bridge.reset rota rotb, readData := [] }
  else .next s

/-- MEMORY_INITIALIZATION_COMPLETE (R154, R168): the port becomes ready. No effect when initialization is not
running. -/
def execMemoryInitializationComplete (s : State) : Host.Outcome State Fault Refusal :=
  .next { s with env := { s.env with initializing := false } }

/-- One microsecond of the performing of an operation passes (R157, log 11). -/
def Dram.pass (d : Dram) : Dram := { d with performing := d.performing.map (fun p => { p with left := p.left - 1 }) }

/-- R55, R63, R168: one microsecond passes. A stale timeout that has been reached expires before the count goes on; an
initialization that has not completed completes when 400 µs have passed since the release (log 10). -/
def State.tick (s : State) : State :=
  { s with
    env :=
      { s.env with
        initializing := s.env.initializing && decide (s.env.timestamp.toNat + 1 < Config.initBound)
        timestamp := s.env.timestamp + 1 }
    bridge := (s.bridge.expireIfDue s.env.timestamp .rota).expireIfDue s.env.timestamp .rotb
    dram := s.dram.pass }

/-- TIMESTAMP_TICK (R55). The count stands still while RESETn is asserted: it starts from 0 at the release. -/
def execTimestampTick (s : State) : Host.Outcome State Fault Refusal :=
  if s.env.resetAsserted then .next s else .next s.settle.tick

end Sys2Proof.Machine
end

