-- ==== Sys2Proof/Machine/RingRows.lean ====
section
/-! DEFINITION. Machine/RingRows.lean: the rows of the command ring: the take of the entry at the next index (R180,
R181). -/

namespace Sys2Proof.Machine

/-- Whether the take of a command of this kind is due (R180, R181). -/
def takeDueOf (kind : CommandKind) (br : Bridge) : Bool := takeDue br && commandKind br.nextEntry == kind

/-- The take of a command of one kind. Urgent work is done up to the moment this take is due; if that moment does not
come, the event does not happen (log 1, log 25). -/
def takeRow (kind : CommandKind) (take : Env → Bridge → Bridge) (s : State) : Host.Outcome State Fault Refusal :=
  let s := s.settleTo (takeDueOf kind)
  if takeDueOf kind s.bridge then .next { s with bridge := take s.env s.bridge } else .next s

/-- CONFIGURE (R12). -/
def execConfigure (s : State) : Host.Outcome State Fault Refusal := takeRow .configure takeConfigure s

/-- TRACK (R13). -/
def execTrack (s : State) : Host.Outcome State Fault Refusal := takeRow .track takeTrack s

/-- PARK (R14). -/
def execPark (s : State) : Host.Outcome State Fault Refusal := takeRow .park takePark s

/-- RELEASE (R17). -/
def execRelease (s : State) : Host.Outcome State Fault Refusal := takeRow .release takeRelease s

/-- RELEASE_ALL (R18). -/
def execReleaseAll (s : State) : Host.Outcome State Fault Refusal := takeRow .releaseAll takeReleaseAll s

/-- REBASE (R16). -/
def execRebase (s : State) : Host.Outcome State Fault Refusal := takeRow .rebase takeRebase s

/-- TUNE (R19). -/
def execTune (s : State) : Host.Outcome State Fault Refusal := takeRow .tune takeTune s

/-- ZERO (R195). -/
def execZero (s : State) : Host.Outcome State Fault Refusal := takeRow .zero takeZero s

/-- EDGE (R64). -/
def execEdge (s : State) : Host.Outcome State Fault Refusal := takeRow .edge takeEdge s

/-- BAD_CODE (R181). -/
def execBadCode (s : State) : Host.Outcome State Fault Refusal := takeRow .badCode takeBadCode s

end Sys2Proof.Machine
end

