-- ==== Sys2Proof/Machine/RotationRows.lean ====
section
/-! DEFINITION. Machine/RotationRows.lean: the rows ROTATION_EDGE and STALE_TIMEOUT. -/

namespace Sys2Proof.Machine

/-- ROTATION_EDGE (R56): the sampled level of an input changes. The inputs are sampled from the release of RESETn
on. While TSREF makes no transitions the change comes at the held time (R204). -/
def execRotationEdge (change : LevelChange) (s : State) : Host.Outcome State Fault Refusal :=
  if s.env.resetAsserted then .next s
  else .next { s.settle with bridge := s.settle.bridge.rotationEdge s.env.timestamp change }

/-- STALE_TIMEOUT (R63): the stale timeout of an input expires, where 1,048,576 µs have passed since its latest accepted
edge; otherwise this event does not happen (log 1). -/
def execStaleTimeout (input : RotId) (s : State) : Host.Outcome State Fault Refusal :=
  .next { s.settle with bridge := s.settle.bridge.expireIfDue s.env.timestamp input }

end Sys2Proof.Machine
end

