-- ==== Sys2Proof/Machine/SolveRows.lean ====
section
/-! DEFINITION. Machine/SolveRows.lean: the rows SOLVE_START, SOLVE_ARITHMETIC_END and SOLVE_COMPLETION. -/

namespace Sys2Proof.Machine

/-- SOLVE_START (R71, R75): urgent work is done up to the moment a solve can start; if that moment does not come, the
event does not happen (log 1). That the start then goes before every take and acceptance still due, and never between
two acceptances due at one moment, is the model's choice (log 2, log 15). -/
def execSolveStart (s : State) : Host.Outcome State Fault Refusal :=
  let s := s.settleTo canStartSolve
  .next { s with bridge := s.bridge.startSolve }

/-- SOLVE_ARITHMETIC_END (R73): where a solve is in progress. -/
def execSolveArithmeticEnd (s : State) : Host.Outcome State Fault Refusal :=
  .next { s.settle with bridge := s.settle.bridge.endArithmetic }

/-- SOLVE_COMPLETION (R73, R93): urgent work is done up to the moment a completion is due; if that moment does not
come, the event does not happen (log 1). -/
def execSolveCompletion (s : State) : Host.Outcome State Fault Refusal :=
  let s := s.settleTo completionDue
  if completionDue s.bridge then .next { s with bridge := s.bridge.completeSolve s.env } else .next s

end Sys2Proof.Machine
end

