-- ==== Sys2Proof/Machine/Dispatch.lean ====
section
/-! DEFINITION. Machine/Dispatch.lean: the meaning of each command, one arm per row of spec/opcode_table.json. -/

namespace Sys2Proof.Machine

/-- The command's effect on everything but the queue. -/
def exec (i : Instr) (s : State) : Host.Outcome State Fault Refusal :=
  match i with
  | .resetAssert => Sys2Proof.Machine.execResetAssert s
  | .resetRelease straps rota rotb => Sys2Proof.Machine.execResetRelease straps rota rotb s
  | .memoryInitializationComplete => Sys2Proof.Machine.execMemoryInitializationComplete s
  | .timestampTick => Sys2Proof.Machine.execTimestampTick s
  | .write w => Sys2Proof.Machine.execWrite w s
  | .controlWrite w => Sys2Proof.Machine.execControlWrite w s
  | .acknowledge w => Sys2Proof.Machine.execAcknowledge w s
  | .mask w => Sys2Proof.Machine.execMask w s
  | .reportOwnerWrite w => Sys2Proof.Machine.execReportOwnerWrite w s
  | .read r => Sys2Proof.Machine.execRead r s
  | .presentationRead r => Sys2Proof.Machine.execPresentationRead r s
  | .upstreamOperationIssue => Sys2Proof.Machine.execUpstreamOperationIssue s
  | .ownWriteIssue => Sys2Proof.Machine.execOwnWriteIssue s
  | .operationDataReturn => Sys2Proof.Machine.execOperationDataReturn s
  | .readResponse => Sys2Proof.Machine.execReadResponse s
  | .configure => Sys2Proof.Machine.execConfigure s
  | .track => Sys2Proof.Machine.execTrack s
  | .park => Sys2Proof.Machine.execPark s
  | .release => Sys2Proof.Machine.execRelease s
  | .releaseAll => Sys2Proof.Machine.execReleaseAll s
  | .rebase => Sys2Proof.Machine.execRebase s
  | .tune => Sys2Proof.Machine.execTune s
  | .zero => Sys2Proof.Machine.execZero s
  | .edge => Sys2Proof.Machine.execEdge s
  | .badCode => Sys2Proof.Machine.execBadCode s
  | .solveStart => Sys2Proof.Machine.execSolveStart s
  | .solveArithmeticEnd => Sys2Proof.Machine.execSolveArithmeticEnd s
  | .solveCompletion => Sys2Proof.Machine.execSolveCompletion s
  | .rotationEdge change => Sys2Proof.Machine.execRotationEdge change s
  | .staleTimeout input => Sys2Proof.Machine.execStaleTimeout input s

end Sys2Proof.Machine
end

