-- ==== Sys2Proof/Safety.lean ====
section
/-! DEFINITION. Safety.lean: the properties of states that the statements speak of: no urgent work due, the shape of
the bridge's queues and shadows, the bounds of motion and offsets, the law of held tiles, the silence of a bridge
whose control region is inactive. -/

namespace Sys2Proof

/-- Byte `n` of a write's data where its enable is set (R142). -/
def WriteRequest.enabled (w : WriteRequest) (n : Nat) : Option Byte :=
  (w.bytes[n]?).bind (fun b => if b.enable then some b.data else none)

end Sys2Proof

namespace Sys2Proof.Machine

/-- Nothing of section "first moment" is due: no completion of a solve (R73), no take (R180), no acceptance (R143). -/
def State.quiet (s : State) : Bool :=
  !completionDue s.bridge && !takeDue s.bridge && !acceptDue s.env s.bridge

/-- The bus offers its next request to a port that takes it: no urgent work due, no request waiting before it, and
the three conditions of R143. -/
def State.open (s : State) : Bool := s.quiet && s.bridge.busWait.isEmpty && canAccept s.env s.bridge

/-! ## Shape of queues, rings and shadows -/

/-- The in-flight command is the entry at the next index, with its 16 bytes (R179). -/
def Bridge.inFlightShaped (br : Bridge) : Prop :=
  ∀ f, br.inFlight = some f → f.index = br.nextIndex ∧ f.entry.length = 16

/-- The sizes of the bridge's queues, rings and shadows: R143 (8 request places), R159 and R160 (16 own-write places,
pass counts 0 to 4), R179 (16 command entries), R186 (32 report entries), R1 (96 bytes of descriptor), R70 (one
waiting entry for a view). -/
structure Bridge.Shaped (br : Bridge) : Prop where
  requests : br.requests.length ≤ 8
  ownWrites : br.ownWrites.length ≤ 16
  passes : ∀ o ∈ br.ownWrites, o.passes ≤ 4
  commandShadow : br.commandShadow.length = 256
  nextIndex : br.nextIndex < 16
  inFlight : br.inFlightShaped
  owners : br.owners.length = 32
  position : br.position < 32
  descriptors : ∀ v, (br.descriptors.get v).length = 96
  waiting : (br.solverQueue.map (fun e => e.frame.view)).Nodup

/-- The shape of the whole machine; DRAM keeps its canonical form. -/
structure State.Shaped (s : State) : Prop where
  bridge : s.bridge.Shaped
  memory : Memory.wf s.dram.cells = true

/-! ## Bounds of motion and offsets (R86, R42, R87) -/

/-- `a` lies in −m..m. -/
def within (m : Nat) (a : Int) : Prop := -(m : Int) ≤ a ∧ a ≤ (m : Int)

/-- R42, R87: offsets within ±MY lines and ±MX/2 pairs. -/
def Offsets.Within (o : Offsets) (g : Geometry) : Prop := within g.my o.oy ∧ within (g.mx / 2) o.ox

/-- R76, R86: the displacement within ±16·MY and ±16·(MX/2), the sixteen phase-table entries likewise. -/
structure View.Steady (vw : View) : Prop where
  ay : within (16 * vw.geometry.my) vw.motion.ay
  ax : within (16 * (vw.geometry.mx / 2)) vw.motion.ax
  dyLength : vw.motion.dy.length = 16
  dxLength : vw.motion.dx.length = 16
  dy : ∀ d ∈ vw.motion.dy, within (16 * vw.geometry.my) d
  dx : ∀ d ∈ vw.motion.dx, within (16 * (vw.geometry.mx / 2)) d
  stored : ∀ sl ∈ vw.slots, ∀ o, sl.offsets = some o → o.Within vw.geometry
  recorded : ∀ o, vw.scan.recorded = some o → o.Within vw.geometry

/-- Every view is steady. -/
def Bridge.Steady (br : Bridge) : Prop := ∀ v, (br.views.get v).Steady

/-! ## The law of held tiles (R108, R111) -/

/-- Slot `k` of the view exists and is in state `st`. -/
def View.slotIs (vw : View) (k : Nat) (st : SlotState) : Prop := ∃ sl, vw.slots[k]? = some sl ∧ sl.state = st

/-- The law of R111 for one view, with what keeps it: clean sources name READY slots (R108), maps of slots that are not
READY are all LIVE (R111), the followed slot is FILLING (R21), a buffer only while TRACKING (R40), one record for each
slot of the list (R20). -/
structure View.HoldLaw (vw : View) : Prop where
  held : ∀ n sl m, vw.slots[n]? = some sl → MapEntry.held m ∈ sl.map → m ≠ n ∧ vw.slotIs m .ready
  live : ∀ (n : Nat) sl, vw.slots[n]? = some sl → sl.state ≠ .ready → ∀ e ∈ sl.map, e = MapEntry.live
  source : ∀ t ∈ vw.tiles, ∀ k, t.source = some k → vw.slotIs k .ready
  filling : ∀ k, vw.intake.slot = some k → vw.slotIs k .filling
  buffer : vw.intake.buffer.isSome → vw.state = .tracking
  count : vw.state ≠ .unconfigured → vw.slots.length = vw.geometry.slotBases.length

/-- The law of R111 for the bridge, with what keeps it: a waiting entry's slot is SOLVING and its view TRACKING (R70,
R71), one entry for a view, the slot under solve is SOLVING unless it was reopened (R21, R27) and no waiting entry
names it, a view with a solve in progress is TRACKING or PARKING (R9), a waiting PARK holds its view in PARKING. -/
structure Bridge.HoldLaw (br : Bridge) : Prop where
  views : ∀ v, (br.views.get v).HoldLaw
  waiting : ∀ e ∈ br.solverQueue,
    (br.views.get e.frame.view).slotIs e.frame.slot .solving ∧ (br.views.get e.frame.view).state = .tracking
  single : (br.solverQueue.map (fun e => e.frame.view)).Nodup
  solving : ∀ e n, br.solver = .busy e false n →
    (br.views.get e.frame.view).slotIs e.frame.slot .solving
      ∧ ∀ q ∈ br.solverQueue, q.frame.view = e.frame.view → q.frame.slot ≠ e.frame.slot
  busy : ∀ e r n, br.solver = .busy e r n →
    (br.views.get e.frame.view).state = .tracking ∨ (br.views.get e.frame.view).state = .parking
  parking : ∀ f v, br.inFlight = some f → f.wait = .park v → (br.views.get v).state = .parking

/-! ## A bridge whose control region is inactive (R153) -/

/-- An input that no EDGE command has reached (R68). -/
def RotInput.Untouched (r : RotInput) : Prop := r.mode = .none ∧ r.state = .off ∧ r.count = 0 ∧ r.times = []

/-- R153: nothing is shadowed, taken, configured, counted, reported or raised. -/
structure Bridge.Silent (br : Bridge) : Prop where
  rota : br.rota.Untouched
  rotb : br.rotb.Untouched
  views : ∀ v, (br.views.get v).state = .unconfigured ∧ (br.views.get v).counters = ViewCounters.zero
  descriptors : ∀ v, ∀ x ∈ br.descriptors.get v, x = (0 : Byte)
  owners : ∀ o ∈ br.owners, o = Owner.bridge
  position : br.position = 0
  glitchA : br.glitchA = 0
  glitchB : br.glitchB = 0
  solver : br.solver = .idle
  solverQueue : br.solverQueue = []
  events : br.events = 0
  mask : br.mask = 0
  commandShadow : ∀ x ∈ br.commandShadow, x = (0 : Byte)
  inFlight : br.inFlight = none
  outOfRange : br.outOfRange = 0
  ownWrites : br.ownWrites = []

/-- R153 for the machine: while the control region is inactive, and while RESETn is asserted, the bridge is silent. -/
def State.SilentWhenInactive (s : State) : Prop :=
  controlActive s.env.straps = false ∨ s.env.resetAsserted = true → s.bridge.Silent

/-! ## What the completion of a command leaves (R183) -/

/-- The byte at offset `off` of entry `i` of the command shadow. -/
def Bridge.shadowByte (br : Bridge) (i off : Nat) : Byte := (br.commandShadow[16 * i + off]?).getD 0

/-- R183: the bytes of entry `i`, whose copy is that of `br`, with status, detail and owner replaced. -/
def Bridge.statusByte (br : Bridge) (st : Status) (detail off : Nat) : Byte :=
  if off = 4 then st.code
  else if off = 5 then BitVec.ofNat 8 detail
  else if off = 15 then 0
  else br.shadowByte br.nextIndex off

/-- R183: the bytes of the status write of a command in flight that completes with DONE and detail 0. -/
def InFlight.statusByte (f : InFlight) (off : Nat) : Byte :=
  if off = 4 then 1 else if off = 5 then 0 else if off = 15 then 0 else (f.entry[off]?).getD 0

/-- R183: the command at the next index of `br` has completed in `br'` with a status and a detail: its own write is the
newest and carries the entry with the three fields replaced, the shadow of the entry holds the same bytes and that of
every other entry is as before, CMD is pending, nothing is in flight, the next index has advanced. -/
structure Bridge.Completed (br br' : Bridge) (env : Env) (st : Status) (detail : Nat) : Prop where
  own : ∃ o, br'.ownWrites.getLast? = some o ∧ o.kind = .status
    ∧ o.address = controlBase env.straps + 0x800 + 16 * br.nextIndex ∧ o.passes = 0
    ∧ o.bytes = (List.range 16).map (br.statusByte st detail)
  entry : ∀ off, off < 16 → br'.shadowByte br.nextIndex off = br.statusByte st detail off
  others : ∀ i off, i ≠ br.nextIndex → off < 16 → br'.shadowByte i off = br.shadowByte i off
  cmd : br'.events.getLsbD 16 = true
  inFlight : br'.inFlight = none
  nextIndex : br'.nextIndex = (br.nextIndex + 1) % 16

/-- What a command that completes at its take leaves alone whatever its effect: everything of the machine but views,
rotation inputs, solver queue, counters, the event CMD and the command ring itself. -/
structure State.TakeFrame (s t : State) : Prop where
  env : t.env = s.env
  dram : t.dram = s.dram
  readData : t.readData = s.readData
  pending : t.pending = s.pending
  solver : t.bridge.solver = s.bridge.solver
  mask : t.bridge.mask = s.bridge.mask
  descriptors : t.bridge.descriptors = s.bridge.descriptors
  requests : t.bridge.requests = s.bridge.requests
  busWait : t.bridge.busWait = s.bridge.busWait
  accepted : t.bridge.accepted = s.bridge.accepted
  stream : t.bridge.stream = s.bridge.stream
  assemblies : t.bridge.assemblies = s.bridge.assemblies

/-! ## Words of the statements -/

/-- R2, R8: every tunable in its range; L has no bound but its field. -/
def Tunables.InRange (u : Tunables) : Prop :=
  (1 ≤ u.sry ∧ u.sry ≤ 16) ∧ (1 ≤ u.srx ∧ u.srx ≤ 16) ∧ (1 ≤ u.ft ∧ u.ft ≤ 15) ∧ (1 ≤ u.cr ∧ u.cr ≤ 15)
    ∧ (1 ≤ u.mt ∧ u.mt ≤ 255) ∧ u.ha ≤ 60 ∧ (1 ≤ u.wf ∧ u.wf ≤ 16) ∧ (1 ≤ u.ln ∧ u.ln ≤ 15)

/-- R10: the states in which a view command is allowed. -/
def allowedIn : CommandKind → ViewState → Bool
  | .configure, .unconfigured => true
  | .configure, .parked => true
  | .track, .parked => true
  | .park, .tracking => true
  | .release, .parked => true
  | .rebase, .tracking => true
  | .tune, .parked => true
  | .tune, .tracking => true
  | _, _ => false

/-- The rows of the commands that act on one view, each with the kind of its entry (R181). -/
def viewRows : List (Instr × CommandKind) :=
  [(.configure, .configure), (.track, .track), (.park, .park), (.release, .release), (.rebase, .rebase),
    (.tune, .tune)]

/-- The rows of the command ring, each with the kind of its entry (R181). -/
def ringRows : List (Instr × CommandKind) :=
  viewRows ++ [(.releaseAll, .releaseAll), (.zero, .zero), (.edge, .edge), (.badCode, .badCode)]

/-- The rows before which all urgent work is done (log 2). -/
def settlesFirst : Instr → Bool
  | .timestampTick => true
  | .write _ => true
  | .controlWrite _ => true
  | .acknowledge _ => true
  | .mask _ => true
  | .reportOwnerWrite _ => true
  | .read _ => true
  | .presentationRead _ => true
  | .upstreamOperationIssue => true
  | .ownWriteIssue => true
  | .operationDataReturn => true
  | .readResponse => true
  | .solveArithmeticEnd => true
  | .rotationEdge _ => true
  | .staleTimeout _ => true
  | _ => false

/-- What an accepted request leaves alone: everything but the bridge, and of the bridge the rotation inputs, the mask,
the report position, the own-write queue, the in-flight command, the next index, the glitch counters and the requests
that wait on the bus. -/
structure State.AcceptFrame (s t : State) : Prop where
  env : t.env = s.env
  dram : t.dram = s.dram
  readData : t.readData = s.readData
  pending : t.pending = s.pending
  rota : t.bridge.rota = s.bridge.rota
  rotb : t.bridge.rotb = s.bridge.rotb
  glitchA : t.bridge.glitchA = s.bridge.glitchA
  glitchB : t.bridge.glitchB = s.bridge.glitchB
  inFlight : t.bridge.inFlight = s.bridge.inFlight
  nextIndex : t.bridge.nextIndex = s.bridge.nextIndex
  busWait : t.bridge.busWait = s.bridge.busWait

/-- What a request that neither follows a frame nor touches a shadow leaves alone besides. -/
structure State.PassFrame (s t : State) : Prop extends State.AcceptFrame s t where
  views : t.bridge.views = s.bridge.views
  solver : t.bridge.solver = s.bridge.solver
  solverQueue : t.bridge.solverQueue = s.bridge.solverQueue
  ownWrites : t.bridge.ownWrites = s.bridge.ownWrites
  position : t.bridge.position = s.bridge.position

/-- The shadows and the pending events of two states agree. -/
structure State.ShadowsAgree (s t : State) : Prop where
  events : t.bridge.events = s.bridge.events
  mask : t.bridge.mask = s.bridge.mask
  descriptors : t.bridge.descriptors = s.bridge.descriptors
  commandShadow : t.bridge.commandShadow = s.bridge.commandShadow
  owners : t.bridge.owners = s.bridge.owners

/-- R148, R158: a write has put one operation at the tail of the stream, carrying all its data and enables to its own
addresses, and no other; it opens no assembly record and counts as in range. -/
def State.Forwarded (s t : State) (w : WriteRequest) : Prop :=
  (∃ op, t.bridge.stream = s.bridge.stream ++ [op] ∧ op.address = w.address.toNat ∧ op.kind = .write w.bytes)
    ∧ t.bridge.assemblies = s.bridge.assemblies ∧ t.bridge.outOfRange = s.bridge.outOfRange

/-- A command whose take changes no more than its effect and its completion: the report ring and OUT_OF_RANGE are as
before besides. -/
structure State.PlainTakeFrame (s t : State) : Prop extends State.TakeFrame s t where
  owners : t.bridge.owners = s.bridge.owners
  position : t.bridge.position = s.bridge.position
  outOfRange : t.bridge.outOfRange = s.bridge.outOfRange

/-- The port and the sequencer are as before. -/
structure Bridge.SamePort (br br' : Bridge) : Prop where
  requests : br'.requests = br.requests
  busWait : br'.busWait = br.busWait
  accepted : br'.accepted = br.accepted
  stream : br'.stream = br.stream
  assemblies : br'.assemblies = br.assemblies

/-- The solver, its queue and the place in the command ring are as before. -/
structure Bridge.SameSolver (br br' : Bridge) : Prop where
  solver : br'.solver = br.solver
  solverQueue : br'.solverQueue = br.solverQueue
  inFlight : br'.inFlight = br.inFlight
  nextIndex : br'.nextIndex = br.nextIndex
  outOfRange : br'.outOfRange = br.outOfRange
  position : br'.position = br.position

/-- The operation's mark names an own write that is still queued (R162). -/
def UpOp.Marked (op : UpOp) (own : List OwnWrite) : Prop := ∃ o ∈ own, op.mark = some o.birth

/-- An operation of the stream overlaps the own write and came before it (R163). -/
def OwnWrite.Held (o : OwnWrite) (stream : List UpOp) : Prop :=
  ∃ op ∈ stream, (∃ a, op.address ≤ a ∧ a < op.address + op.kind.size ∧ o.address ≤ a ∧ a < o.address + o.bytes.length)
    ∧ op.birth < o.birth

/-- No buffer of the view has a role. -/
def View.noBuffer (vw : View) (r : BufferRole) : Prop := ∀ b, (vw.buffers.get b).role ≠ r

/-- R13, R16, R95, R96: what TRACK and REBASE make of a view `vw`, whatever its state. -/
structure View.RebaseReset (vw vt : View) : Prop where
  ay : vt.motion.ay = 0
  ax : vt.motion.ax = 0
  dy : vt.motion.dy = List.replicate 16 0
  dx : vt.motion.dx = List.replicate 16 0
  countdown : vt.motion.countdown = vw.motion.active.ln
  active : vt.motion.active = vw.motion.active
  tunables : vt.motion.pending = vw.motion.pending
  tiles : vt.tiles.length = vw.tiles.length ∧ ∀ (n : Nat) t, vt.tiles[n]? = some t →
    t.state = .learning ∧ t.age = 0 ∧ t.source = none
      ∧ ∃ u, vw.tiles[n]? = some u ∧ t.bm = u.bm ∧ t.bc = u.bc
  seed : vt.seed = true
  whiteout : vt.whiteout = vw.whiteout
  reference : vt.noBuffer .ref
  slots : vt.slots = vw.slots
  ready : vt.ready = vw.ready
  scan : vt.scan = vw.scan
  geometry : vt.geometry = vw.geometry
  nextSequence : vt.nextSequence = vw.nextSequence
  startCount : vt.startCount = vw.startCount
  counters : vt.counters = vw.counters

/-- R17: what RELEASE makes of a view `vw`. -/
structure View.Released (vw vt : View) : Prop where
  state : vt.state = .unconfigured
  slots : vt.slots = []
  ready : vt.ready = []
  scan : vt.scan = Scan.reset
  intake : vt.intake = Intake.reset
  buffers : ∀ b, (vt.buffers.get b).role = .free
  tiles : ∀ t ∈ vt.tiles, t.source = none
  counters : vt.counters = vw.counters

/-- R15: what reaching PARKED makes of a view `vw`, beside its holds. -/
structure View.Parked (vw vt : View) : Prop where
  state : vt.state = .parked
  maps : ∀ sl ∈ vt.slots, ∀ e ∈ sl.map, e = MapEntry.live
  offsets : ∀ sl ∈ vt.slots, sl.state = .ready → sl.offsets = some ⟨0, 0⟩
  presented : vt.scan.presented = vw.scan.presented
  lastLine : vt.scan.lastLine = vw.scan.lastLine
  recorded : vt.scan.recorded = vw.scan.recorded.map (fun _ => ⟨0, 0⟩)
  whiteout : vt.whiteout = false
  motion : vt.motion = vw.motion
  tiles : vt.tiles = vw.tiles

/-- The number of map entries of some slots that satisfy `p` (R15, R25). -/
def entriesOf (slots : List Slot) (p : MapEntry → Bool) : Nat := (slots.map (fun sl => sl.map.countP p)).sum

/-! ### The twelve checks of CONFIGURE (R4 to R8) -/

/-- Bytes per pixel of a descriptor's format (R2). -/
def Descriptor.bytesPerPixel (d : Descriptor) : Nat := if d.format = 2 then 2 else 1

/-- The spans, base and size, of the slots of a geometry and of its presentation window (R2, R6). -/
def Geometry.spans (g : Geometry) : List (Nat × Nat) :=
  g.slotBases.map (fun b => (b, g.sp * g.h)) ++ [(g.base, g.pp * (g.h - 2 * g.my))]

/-- The spans that the OVERLAP check compares (R6): those of the new descriptor, the control region, and those of every
other view that is not UNCONFIGURED. -/
def comparedSpans (straps : Straps) (br : Bridge) (v : Fin 4) (d : Descriptor) : List (Nat × Nat) :=
  d.geometry.spans ++ [(controlBase straps, 0x2000)]
    ++ (([0, 1, 2, 3] : List (Fin 4)).filter (fun u => u != v ∧ (br.views.get u).state ≠ .unconfigured)).flatMap
        (fun u => (br.views.get u).geometry.spans)

/-- The table of R4: when the check of each number fails for the descriptor `d` of view `v`. -/
def CheckFails (straps : Straps) (br : Bridge) (v : Fin 4) (d : Descriptor) : Nat → Prop
  | 1 => d.format ≠ 1 ∧ d.format ≠ 2
  | 2 => d.w < 256 ∨ 1280 < d.w ∨ ¬ 64 ∣ d.w
  | 3 => d.h < 128 ∨ 960 < d.h ∨ ¬ 32 ∣ d.h
  | 4 => ¬ 64 ∣ d.sp ∨ d.sp < d.w * d.bytesPerPixel ∨ 8192 < d.sp
  | 5 => 64 < d.mx ∨ ¬ 2 ∣ d.mx ∨ d.w / 4 < d.mx ∨ 48 < d.my ∨ d.h / 4 < d.my
  | 6 => ¬ 64 ∣ d.pp ∨ d.pp < (d.w - 2 * d.mx) * d.bytesPerPixel ∨ 8192 < d.pp
  | 7 => (∀ e ∈ d.slots, e.2 = false) ∨ (d.slots[0]?).map (·.2) = some true
  | 8 => ¬ 64 ∣ d.base ∨ ∃ b ∈ d.slotBases, ¬ 64 ∣ b
  | 9 => ∃ (i j : Nat) (p q : Nat × Nat), i < j ∧ (comparedSpans straps br v d)[i]? = some p
      ∧ (comparedSpans straps br v d)[j]? = some q ∧ p.1 < q.1 + q.2 ∧ q.1 < p.1 + p.2
  | 10 => ∃ p ∈ d.geometry.spans, capacity straps ≤ p.1 + p.2 - 1
  | 11 => ¬ d.tunables.InRange
  | 12 => 2 < d.rotation
  | _ => False

/-- Every view but `v` is as before. -/
def Bridge.OtherViews (br br' : Bridge) (v : Fin 4) : Prop := ∀ u, u ≠ v → br'.views.get u = br.views.get u

/-- The rotation inputs and global counters are as before. -/
structure Bridge.SameTimer (br br' : Bridge) : Prop where
  rota : br'.rota = br.rota
  rotb : br'.rotb = br.rotb
  glitchA : br'.glitchA = br.glitchA
  glitchB : br'.glitchB = br.glitchB

/-- Every event bit but those of `es` is as before. -/
def Bridge.OtherEvents (br br' : Bridge) (es : List Event) : Prop :=
  ∀ n, n < 19 → (∀ e ∈ es, e.bit ≠ n) → br'.events.getLsbD n = br.events.getLsbD n

/-! ### The command that waits for a solve (R93, R182) -/

/-- R183 for a command taken earlier: its own write carries the copy taken with status, detail and owner replaced, the
shadow of its entry holds the same bytes and every other entry is as before, CMD is pending, nothing is in flight, the next
index has advanced. -/
structure Bridge.WaitCompleted (br br' : Bridge) (env : Env) (f : InFlight) : Prop where
  own : ∃ o, br'.ownWrites = br.ownWrites ++ [o] ∧ o.kind = .status ∧ o.passes = 0
    ∧ o.address = controlBase env.straps + 0x800 + 16 * f.index ∧ o.bytes.length = 16
    ∧ ∀ off, off < 16 → o.bytes[off]? = some (f.statusByte off) ∧ br'.shadowByte f.index off = f.statusByte off
  others : ∀ i off, i ≠ f.index → off < 16 → br'.shadowByte i off = br.shadowByte i off
  cmd : br'.events.getLsbD 16 = true
  inFlight : br'.inFlight = none
  nextIndex : br'.nextIndex = (br.nextIndex + 1) % 16

/-- R15: what reaching PARKED leaves of view `v`: its holds broken and counted, a HOLD event if there was one or if the
whiteout flag was set. -/
structure Bridge.ReachedParked (br br' : Bridge) (v : Fin 4) : Prop where
  view : (br.views.get v).Parked (br'.views.get v)
  holdBreak : (br'.views.get v).counters.holdBreak
    = (br.views.get v).counters.holdBreak + BitVec.ofNat 16 (entriesOf (br.views.get v).slots MapEntry.isHeld)
  raised : 0 < entriesOf (br.views.get v).slots MapEntry.isHeld ∨ (br.views.get v).whiteout = true →
    br'.events.getLsbD (Event.hold v).bit = true
  unraised : entriesOf (br.views.get v).slots MapEntry.isHeld = 0 → (br.views.get v).whiteout = false →
    br'.events.getLsbD (Event.hold v).bit = br.events.getLsbD (Event.hold v).bit
  others : br.OtherViews br' v
  events : br.OtherEvents br' [.cmd, .hold v]

/-- R93, R182: what the completion of a solve of view `v` adds to `br`, in which its results are stored, for the command
that waits: PARK and REBASE of that view and RELEASE ALL have their effect and complete, any other goes on waiting. -/
structure Bridge.WaitingServed (br br' : Bridge) (env : Env) (v : Fin 4) : Prop where
  none : br.inFlight = Option.none → br' = br
  other : ∀ f u, br.inFlight = some f → (f.wait = .park u ∨ f.wait = .rebase u) → u ≠ v → br' = br
  park : ∀ f, br.inFlight = some f → f.wait = .park v → br.WaitCompleted br' env f ∧ br.ReachedParked br' v
  rebase : ∀ f, br.inFlight = some f → f.wait = .rebase v → br.WaitCompleted br' env f
    ∧ (br'.views.get v).state = (br.views.get v).state ∧ (br.views.get v).RebaseReset (br'.views.get v)
    ∧ br.OtherViews br' v ∧ br.OtherEvents br' [.cmd]
  releaseAll : ∀ f, br.inFlight = some f → f.wait = .releaseAll → br.WaitCompleted br' env f
    ∧ (∀ u, (br'.views.get u).state = .unconfigured)
    ∧ (∀ u, (br.views.get u).state ≠ .unconfigured → (br.views.get u).Released (br'.views.get u))
    ∧ br'.solverQueue = [] ∧ br.OtherEvents br' [.cmd]
  queue : (∀ f, br.inFlight = some f → f.wait ≠ .releaseAll) → br'.solverQueue = br.solverQueue
  solver : br'.solver = br.solver
  port : br.SamePort br'
  timer : br.SameTimer br'
  mask : br'.mask = br.mask
  descriptors : br'.descriptors = br.descriptors
  owners : br'.owners = br.owners
  position : br'.position = br.position
  outOfRange : br'.outOfRange = br.outOfRange

/-! ### Arithmetic of the solve -/

/-- `o` is a / 16 rounded half away from zero (00_scope.md): the nearest integer, a tie to the larger magnitude. -/
def Rounded (a o : Int) : Prop :=
  2 * (16 * o - a).natAbs ≤ 16 ∧ (2 * (16 * o - a).natAbs = 16 → a.natAbs < (16 * o).natAbs)

/-! ### Statistics of a run (R44 to R48) -/

/-- R44: the luma bytes of a run, with their lines and pixel columns. -/
def Geometry.lumaOf (g : Geometry) (run : List (Nat × Byte)) : List Luma :=
  (run.filter (fun q => q.1 % g.lineBytes % g.bpp = 0)).map (fun q =>
    { y := q.1 / g.lineBytes, x := q.1 % g.lineBytes / g.bpp, value := q.2.toNat })

/-- The values of the luma bytes that satisfy `p`, added. -/
def lumaSum (p : Luma → Bool) (ls : List Luma) : Nat := ((ls.filter p).map (·.value)).sum

/-- R47: the steps from the previous luma to each luma byte that satisfies `p` and does not begin a tile column, added;
`prev` is the previous luma before the first. -/
def stepSum (p : Luma → Bool) (prev : Option Nat) (ls : List Luma) : Nat :=
  (((prev :: ls.map (fun l => some l.value)).zip ls).map (fun c =>
    match c.1 with
    | some q => if p c.2 ∧ c.2.x % 64 ≠ 0 then ((c.2.value : Int) - (q : Int)).natAbs else 0
    | none => 0)).sum

/-- R45 to R47: the sums of buffer `p` with the luma bytes `ls` added, in `p'`. -/
structure ProfileBuffer.RunAdded (p p' : ProfileBuffer) (prev : Option Nat) (ls : List Luma) : Prop where
  role : p'.role = p.role
  owner : p'.owner = p.owner
  rows : ∀ y, p'.rowSums[y]? = (p.rowSums[y]?).map (· + lumaSum (fun l => l.y == y) ls)
  columns : ∀ c, p'.colSums[c]? = (p.colSums[c]?).map (· + lumaSum (fun l => l.x / 2 == c) ls)
  tileS : ∀ n, p'.tileS[n]? = (p.tileS[n]?).map (· + lumaSum (fun l => 20 * (l.y / 32) + l.x / 64 == n) ls)
  tileG : ∀ n, p'.tileG[n]? = (p.tileG[n]?).map (· + stepSum (fun l => 20 * (l.y / 32) + l.x / 64 == n) prev ls)

/-- R48, R66: the phase part a snapshot takes for a view's rotation selector. -/
def Bridge.PhaseTaken (br : Bridge) (selector : Option RotId) (phase : Option PhasePart) : Prop :=
  (∀ i t o, selector = some i → (br.rot i).state = .locked → (br.rot i).period = some t → (br.rot i).origin = some o →
    phase = some ⟨t, o⟩)
  ∧ (selector = none ∨ (∃ i, selector = some i ∧ (br.rot i).state ≠ .locked) → phase = none)

/-- R44 to R48: what an accepted run makes of view `v`, before its frame completes: the pointer behind the run, the
previous luma, at the first byte of line H/2 the mid-line time, and in the frame's buffer, where there is one, the sums and
the snapshot. -/
structure Bridge.RunTaken (br br' : Bridge) (now : Stamp) (v : Fin 4) (run : List (Nat × Byte)) : Prop where
  pointer : (br'.views.get v).intake.pointer = (br.views.get v).intake.pointer + run.length
  prevLuma : (br'.views.get v).intake.prevLuma =
    match ((br.views.get v).geometry.lumaOf run).getLast? with
    | some l => some l.value
    | none => (br.views.get v).intake.prevLuma
  middle : (br.views.get v).geometry.midIndex ∈ run.map (·.1) → (br'.views.get v).intake.midTime = some now
  noMiddle : (br.views.get v).geometry.midIndex ∉ run.map (·.1) →
    (br'.views.get v).intake.midTime = (br.views.get v).intake.midTime
  sums : ∀ b, (br.views.get v).intake.buffer = some b →
    ((br.views.get v).buffers.get b).RunAdded ((br'.views.get v).buffers.get b) (br.views.get v).intake.prevLuma
      ((br.views.get v).geometry.lumaOf run)
  snapshot : ∀ b, (br.views.get v).intake.buffer = some b → (br.views.get v).geometry.midIndex ∈ run.map (·.1) →
    ∃ phase, ((br'.views.get v).buffers.get b).snapshot = some ⟨now, phase⟩
      ∧ br.PhaseTaken (br.views.get v).geometry.rotation phase
  noSnapshot : ∀ b, (br.views.get v).intake.buffer = some b → (br.views.get v).geometry.midIndex ∉ run.map (·.1) →
    ((br'.views.get v).buffers.get b).snapshot = ((br.views.get v).buffers.get b).snapshot
  otherBuffers : ∀ b, (br.views.get v).intake.buffer ≠ some b →
    (br'.views.get v).buffers.get b = (br.views.get v).buffers.get b
  intake : (br'.views.get v).intake.state = (br.views.get v).intake.state
    ∧ (br'.views.get v).intake.slot = (br.views.get v).intake.slot
    ∧ (br'.views.get v).intake.buffer = (br.views.get v).intake.buffer
  view : br'.views.get v =
    { br.views.get v with intake := (br'.views.get v).intake, buffers := (br'.views.get v).buffers }
  others : br.OtherViews br' v
  bridge : br' = { br with views := br'.views }

/-- R14: what PARK makes of the waiting entry of view `v`: it leaves the queue, its slot becomes READY unsolved at offsets 0
with a LIVE map, its FRAME report carries the flag PARKED alone, and FRAME is raised. -/
structure Bridge.WaitingParked (br br' : Bridge) (env : Env) (v : Fin 4) : Prop where
  queue : br'.solverQueue = br.solverQueue.filter (fun e => e.frame.view != v)
  slot : ∀ e, br.waiting v = some e → e.frame.slot < (br.views.get v).slots.length →
    ∃ sl, (br'.views.get v).slots[e.frame.slot]? = some sl ∧ sl.state = .ready ∧ sl.offsets = some ⟨0, 0⟩
      ∧ ∀ x ∈ sl.map, x = MapEntry.live
  ready : ∀ e, br.waiting v = some e → e.frame.slot ∈ (br'.views.get v).ready
  event : ∀ e, br.waiting v = some e → br'.events.getLsbD (Event.frame v).bit = true
  report : ∀ e, br.waiting v = some e → br.reportFree = true →
    ∃ o rest, br'.ownWrites = br.ownWrites ++ o :: rest ∧ o.kind = .report
      ∧ o.address = controlBase env.straps + 0x1000 + 32 * br.position
      ∧ o.bytes.take 8 = [1, BitVec.ofNat 8 v.val, BitVec.ofNat 8 e.frame.slot, 0]
          ++ bytesOf 2 e.frame.sequence.toNat ++ [0, 4]
  lost : ∀ e, br.waiting v = some e → br.reportFree = false →
    (br'.views.get v).counters.lost = (br.views.get v).counters.lost + 1
      ∧ br'.events.getLsbD (Event.lost v).bit = true
  nothing : br.waiting v = none → (br'.views.get v).ready = (br.views.get v).ready
    ∧ br'.events.getLsbD (Event.frame v).bit = br.events.getLsbD (Event.frame v).bit
    ∧ br'.owners = br.owners ∧ (br'.views.get v).counters.lost = (br.views.get v).counters.lost

/-- The slots of view `v` whose maps PARK finds as they were: all but that of the waiting entry (R14, R15). -/
def Bridge.slotsToPark (br : Bridge) (v : Fin 4) : List Slot :=
  match br.waiting v with
  | none => (br.views.get v).slots
  | some e => (br.views.get v).slots.eraseIdx e.frame.slot

/-! ### Served words (R177, R178, R203) -/

/-- R199, R203: the offsets of the served bytes. -/
def Served (off : Nat) : Prop := off < 4 ∨ (0xC ≤ off ∧ off < 0x14) ∨ (0x40 ≤ off ∧ off < 0x88)

/-- The places of a beat that holds two counters, the first in its low half (R198, R203). -/
def counterBeat (lo hi : Count16) : List (Option Byte) :=
  [some (lo.setWidth 8), some ((lo >>> 8).setWidth 8), some (hi.setWidth 8), some ((hi >>> 8).setWidth 8)]

/-- R203: the code of a view state. -/
def viewCode : ViewState → Nat
  | .unconfigured => 0
  | .parked => 1
  | .tracking => 2
  | .parking => 3

/-- R203: the code of an intake state. -/
def intakeCode : IntakeState → Nat
  | .waitStart => 0
  | .inFrame => 1
  | .hunt => 2

/-- R203: the code of a rotation state. -/
def rotCode : RotState → Byte
  | .off => 0
  | .acquire => 1
  | .locked => 2
  | .stale => 3

/-- R177, R203: `x` is the view poll byte of a view. -/
structure View.Polled (vw : View) (x : Byte) : Prop where
  unconfigured : vw.state = .unconfigured → x = 0
  state : vw.state ≠ .unconfigured → x.toNat % 4 = viewCode vw.state
  intake : vw.state ≠ .unconfigured → x.toNat / 4 % 4 = intakeCode vw.intake.state
  whiteout : vw.state ≠ .unconfigured → x.getLsbD 4 = vw.whiteout
  holding : vw.state ≠ .unconfigured → (x.getLsbD 5 = true ↔
    ∃ k sl m, vw.scan.presented = some k ∧ vw.slots[k]? = some sl ∧ MapEntry.held m ∈ sl.map)
  picture : vw.state ≠ .unconfigured → x.getLsbD 6 = vw.scan.presented.isSome
  learning : vw.state ≠ .unconfigured → (x.getLsbD 7 = true ↔
    ∀ (n : Nat) t, vw.tiles[n]? = some t → vw.geometry.inGrid n = true → t.state = .learning)

end Sys2Proof.Machine
end

