-- ==== Sys2Proof/Certificates/Slice0/Obligations.lean ====
section
/-! DEFINITION. Certificates/Slice0/Obligations.lean: the statements about the model, for the provers. -/

open Sys2Proof Sys2Proof.Machine

/-! ## The step and urgent work -/

/-- A step carries out the command at the front of the queue, on the state with the queue's rest. -/
def Obligations.StepRunsFrontCommand : Prop :=
  ∀ (c : Instr) (rest : List Instr) (s : State), s.pending = c :: rest →
    step s = exec c { s with pending := rest }

/-- With no command waiting a step does all urgent work that is due, touches nothing but the bridge, and changes
nothing where no urgent work is due (log 3). -/
def Obligations.IdleStepLeavesNothingDue : Prop :=
  ∀ s : State, s.pending = [] →
    ∃ t, step s = .next t ∧ t.quiet = true ∧ t.env = s.env ∧ t.dram = s.dram ∧ t.readData = s.readData
      ∧ t.pending = [] ∧ (s.quiet = true → t = s)

/-- Urgent work comes before the events of every row but those of reset, of the command ring and of the solve's start and
completion (log 2). -/
def Obligations.UrgentWorkComesFirst : Prop :=
  ∀ (c : Instr) (s : State), settlesFirst c = true → s.env.resetAsserted = false → exec c s = exec c s.settle

/-! ## Reset, initialization, time -/

/-- R154, R168, R169: the assertion of RESETn on a running bridge. The DRAM bytes exempted are those of the operation being
performed (log 9), which is the one the controller took last until its time is over (log 11); that the straps keep their
values until the release is log 24, and that the read data becomes empty is log 12. -/
def Obligations.ResetAssertClearsTheBridge : Prop :=
  ∀ s : State, s.env.resetAsserted = false →
    ∃ t, exec .resetAssert s = .next t
      ∧ t.env.resetAsserted = true ∧ t.env.straps = s.env.straps ∧ t.pending = s.pending
      ∧ t.attn = false ∧ canAccept t.env t.bridge = false
      ∧ t.bridge.requests = [] ∧ t.bridge.busWait = [] ∧ t.bridge.stream = [] ∧ t.bridge.ownWrites = []
      ∧ t.bridge.assemblies = [] ∧ t.readData = [] ∧ t.dram.returning = []
      ∧ (∀ v, (t.bridge.views.get v).state = .unconfigured)
      ∧ ∀ a, (∀ p, s.dram.performing = some p → 0 < p.left → ¬ (p.address ≤ a ∧ a < p.address + p.length)) →
          Memory.readByte t.dram.cells a = Memory.readByte s.dram.cells a

/-- R28, R54, R55, R68, R94, R117, R141, R152, R154, R168, R169, R185, R197: the release of RESETn. -/
def Obligations.ResetReleaseStartsTheBridge : Prop :=
  ∀ (s : State) (straps : Straps) (a b : Bool), s.env.resetAsserted = true →
    ∃ t, exec (.resetRelease straps a b) s = .next t
      ∧ t.env = { straps := straps, resetAsserted := false, initializing := true, timestamp := 0 }
      ∧ t.dram = s.dram ∧ t.pending = s.pending
      ∧ (t.bridge.rota.level = a ∧ t.bridge.rotb.level = b)
      ∧ (∀ i, (t.bridge.rot i).mode = .none ∧ (t.bridge.rot i).state = .off ∧ (t.bridge.rot i).count = 0
          ∧ (t.bridge.rot i).times = [] ∧ (t.bridge.rot i).lastPolarity = none ∧ (t.bridge.rot i).lastRising = none
          ∧ (t.bridge.rot i).period = none ∧ (t.bridge.rot i).origin = none)
      ∧ (∀ v, let vt := t.bridge.views.get v
          vt.state = .unconfigured ∧ vt.slots = [] ∧ vt.ready = [] ∧ vt.nextSequence = 0 ∧ vt.startCount = 0
            ∧ vt.intake.state = .waitStart ∧ vt.intake.slot = none ∧ vt.intake.buffer = none
            ∧ vt.intake.pointer = 0 ∧ vt.intake.prevLuma = none ∧ vt.intake.midTime = none
            ∧ vt.motion.active = ⟨0, 0, 0, 0, 0, 0, 0, 0, 0⟩ ∧ vt.motion.ay = 0 ∧ vt.motion.ax = 0 ∧ vt.motion.countdown = 0
            ∧ vt.motion.pending = none ∧ vt.motion.dy = List.replicate 16 0 ∧ vt.motion.dx = List.replicate 16 0
            ∧ vt.seed = true ∧ vt.whiteout = false ∧ vt.scan.presented = none ∧ vt.scan.lastLine = none
            ∧ vt.scan.recorded = none ∧ vt.tiles.length = 600
            ∧ (∀ x, (vt.buffers.get x).role = .free)
            ∧ (∀ x ∈ vt.tiles, x.state = .learning ∧ x.age = 0 ∧ x.bm = 0 ∧ x.bc = 0 ∧ x.source = none)
            ∧ vt.counters = ViewCounters.zero ∧ (∀ d ∈ t.bridge.descriptors.get v, d = (0 : Byte))
            ∧ (t.bridge.descriptors.get v).length = 96)
      ∧ t.bridge.solver = .idle ∧ t.bridge.solverQueue = [] ∧ t.bridge.events = 0 ∧ t.bridge.mask = 0
      ∧ (∀ d ∈ t.bridge.commandShadow, d = (0 : Byte)) ∧ t.bridge.commandShadow.length = 256
      ∧ t.bridge.nextIndex = 0 ∧ t.bridge.inFlight = none
      ∧ t.bridge.owners.length = 32 ∧ (∀ o ∈ t.bridge.owners, o = Owner.bridge) ∧ t.bridge.position = 0
      ∧ t.bridge.glitchA = 0 ∧ t.bridge.glitchB = 0 ∧ t.bridge.outOfRange = 0
      ∧ t.bridge.requests = [] ∧ t.bridge.busWait = [] ∧ t.bridge.stream = [] ∧ t.bridge.ownWrites = [] ∧ t.bridge.assemblies = []

/-- R154, R168, R143: the completion of memory initialization makes the port ready, and changes nothing else. -/
def Obligations.InitializationOpensThePort : Prop :=
  ∀ s : State,
    ∃ t, exec .memoryInitializationComplete s = .next t
      ∧ t.bridge = s.bridge ∧ t.dram = s.dram ∧ t.readData = s.readData ∧ t.pending = s.pending
      ∧ t.env = { s.env with initializing := false }
      ∧ (s.env.resetAsserted = false → s.bridge.requests.length < 8 → s.bridge.ownWrites.length ≤ 12 →
          canAccept t.env t.bridge = true)

/-- R55: a tick adds one to the timestamp, modulo 2^32. Where a stale timeout has been reached, its expiry comes first
(R63; that it comes before the tick is log 10): acquisition restarts, from LOCKED with the state STALE and the event;
otherwise nothing of the bridge changes. An initialization completes when the count reaches 400 (R168, log 10), and an
operation being performed has one microsecond less to go (log 11). -/
def Obligations.TickCountsAMicrosecond : Prop :=
  ∀ s : State, s.quiet = true → s.env.resetAsserted = false →
    ∃ t, exec .timestampTick s = .next t
      ∧ t.env.timestamp = s.env.timestamp + 1 ∧ t.env.straps = s.env.straps ∧ t.env.resetAsserted = false
      ∧ t.env.initializing = (s.env.initializing && decide (s.env.timestamp.toNat + 1 < 400))
      ∧ t.dram = { s.dram with performing := t.dram.performing }
      ∧ (s.dram.performing = none → t.dram.performing = none)
      ∧ (∀ p, s.dram.performing = some p → t.dram.performing = some { p with left := p.left - 1 })
      ∧ t.readData = s.readData ∧ t.pending = s.pending
      ∧ t.bridge.views = s.bridge.views
      ∧ (∀ i, (s.bridge.rot i).timedOut s.env.timestamp = false → t.bridge.rot i = s.bridge.rot i)
      ∧ (∀ i, (s.bridge.rot i).timedOut s.env.timestamp = true →
          (t.bridge.rot i).count = 0 ∧ (t.bridge.rot i).times = [] ∧ (t.bridge.rot i).lastPolarity = none
            ∧ (t.bridge.rot i).lastRising = none ∧ (t.bridge.rot i).period = none ∧ (t.bridge.rot i).origin = none
            ∧ (t.bridge.rot i).mode = (s.bridge.rot i).mode ∧ (t.bridge.rot i).level = (s.bridge.rot i).level
            ∧ ((s.bridge.rot i).state = .locked →
                (t.bridge.rot i).state = .stale ∧ t.bridge.events.getLsbD (rotEvent i).bit = true)
            ∧ ((s.bridge.rot i).state ≠ .locked → (t.bridge.rot i).state = (s.bridge.rot i).state
                ∧ t.bridge.events.getLsbD (rotEvent i).bit = s.bridge.events.getLsbD (rotEvent i).bit))
      ∧ (∀ i, (s.bridge.rot i).timedOut s.env.timestamp = false →
          t.bridge.events.getLsbD (rotEvent i).bit = s.bridge.events.getLsbD (rotEvent i).bit)
      ∧ s.bridge.OtherEvents t.bridge [.rota, .rotb]
      ∧ ((∀ i, (s.bridge.rot i).timedOut s.env.timestamp = false) → t.bridge = s.bridge)

/-! ## The frame-memory bus -/

/-- R142, R143: what happens to a request the port does not take. An operand that is no request of the bus stops every
bus row with a fault (log 5). A request that the port cannot take waits behind those that wait, without an effect on the
bridge. -/
def Obligations.RequestsNotTakenStopOrWait : Prop :=
  ∀ (s : State) (r : Request) (c : Instr),
    ((∃ w, r = .write w ∧ (c = .write w ∨ c = .controlWrite w ∨ c = .acknowledge w ∨ c = .mask w
        ∨ c = .reportOwnerWrite w)) ∨ ∃ q, r = .read q ∧ (c = .read q ∨ c = .presentationRead q)) →
    (r.wellFormed = false → exec c s = .fault .malformedRequest)
    ∧ (r.wellFormed = true → s.quiet = true → s.env.resetAsserted = false → canAccept s.env s.bridge = false →
        exec c s = .next { s with bridge := { s.bridge with busWait := s.bridge.busWait ++ [r] } })

/-- R148, R158, R162: a write to plain addresses becomes one operation of the stream, and touches no watching block. -/
def Obligations.PlainWriteIsForwarded : Prop :=
  ∀ (s : State) (w : WriteRequest), s.open = true → w.wellFormed = true →
    (∀ n, n < w.bytes.length → regionOf s.env.straps (windowMap s.env s.bridge) (w.address.toNat + n) = .plain) →
    ∃ t op, exec (.write w) s = .next t
      ∧ t.bridge.stream = s.bridge.stream ++ [op]
      ∧ op.request = s.bridge.accepted ∧ op.address = w.address.toNat ∧ op.kind = .write w.bytes
      ∧ op.mark = newestOverlap s.bridge.ownWrites w.address.toNat w.bytes.length
      ∧ s.PassFrame t ∧ s.ShadowsAgree t ∧ t.bridge.assemblies = s.bridge.assemblies
      ∧ t.bridge.outOfRange = s.bridge.outOfRange ∧ t.bridge.accepted = s.bridge.accepted + 1

/-- R149, R158, R165: a read of plain addresses becomes one read operation, and its assembly record waits for every
byte. -/
def Obligations.PlainReadPassesThrough : Prop :=
  ∀ (s : State) (r : ReadRequest), s.open = true → r.wellFormed = true →
    (∀ n, n < 4 * r.beats → regionOf s.env.straps (windowMap s.env s.bridge) (r.address.toNat + n) = .plain) →
    ∃ t op, exec (.read r) s = .next t
      ∧ t.bridge.stream = s.bridge.stream ++ [op]
      ∧ op.request = s.bridge.accepted ∧ op.address = r.address.toNat
      ∧ op.kind = .read (4 * r.beats) 0 (4 * r.beats) 0
      ∧ op.mark = newestOverlap s.bridge.ownWrites r.address.toNat (4 * r.beats)
      ∧ t.bridge.assemblies = s.bridge.assemblies
          ++ [{ request := s.bridge.accepted, places := List.replicate (4 * r.beats) none, returned := 0 }]
      ∧ t.bridge.requests = s.bridge.requests
          ++ [{ number := s.bridge.accepted, isRead := true, answered := false }]
      ∧ s.PassFrame t ∧ s.ShadowsAgree t ∧ t.bridge.outOfRange = s.bridge.outOfRange

/-- R151: a request that lies whole at or above the capacity: a write is discarded, a read is answered with zeros, neither
has a DRAM operation, and OUT_OF_RANGE counts it while the control region is active. -/
def Obligations.OutOfRangeRequestsReachNoDram : Prop :=
  (∀ (s : State) (w : WriteRequest), s.open = true → w.wellFormed = true →
    capacity s.env.straps ≤ w.address.toNat →
    ∃ t, exec (.write w) s = .next t
      ∧ t.bridge.stream = s.bridge.stream
      ∧ t.bridge.outOfRange = s.bridge.outOfRange + (if controlActive s.env.straps then 1 else 0)
      ∧ s.PassFrame t ∧ s.ShadowsAgree t ∧ t.bridge.assemblies = s.bridge.assemblies)
  ∧ (∀ (s : State) (r : ReadRequest), s.open = true → r.wellFormed = true →
    capacity s.env.straps ≤ r.address.toNat →
    ∃ t, exec (.read r) s = .next t
      ∧ t.bridge.stream = s.bridge.stream
      ∧ t.bridge.assemblies = s.bridge.assemblies
          ++ [{ request := s.bridge.accepted, places := List.replicate (4 * r.beats) (some 0), returned := 0 }]
      ∧ t.bridge.outOfRange = s.bridge.outOfRange + (if controlActive s.env.straps then 1 else 0)
      ∧ s.PassFrame t ∧ s.ShadowsAgree t)

/-- R149, R171, R177, R178, R203: a read of one served beat takes its live values at the acceptance, without a DRAM
operation; and in any read of the control region each served byte is filled at the acceptance, and one read operation, from
the first unserved byte to the last, brings the others (that the served beats between them are read with them and dropped is
log 13). -/
def Obligations.ServedReadsGiveLiveState : Prop :=
  (∀ (s : State) (r : ReadRequest) (off : Nat), s.open = true → controlActive s.env.straps = true →
    Served off → off % 4 = 0 → r.address.toNat = controlBase s.env.straps + off → r.beats = 1 →
    ∃ t a, exec (.read r) s = .next t
      ∧ t.bridge.stream = s.bridge.stream
      ∧ t.bridge.assemblies = s.bridge.assemblies ++ [a]
      ∧ a.request = s.bridge.accepted ∧ a.returned = 0 ∧ a.places.length = 4
      ∧ (off = 0 → ∀ n b, n < 4 → b < 8 →
          ∃ x, a.places[n]? = some (some x) ∧ x.getLsbD b = s.bridge.events.getLsbD (8 * n + b))
      ∧ (off = 0xC → ∀ v : Fin 4, ∃ x, a.places[v.val]? = some (some x) ∧ (s.bridge.views.get v).Polled x)
      ∧ (off = 0x10 →
          a.places = [some (rotCode s.bridge.rota.state), some (rotCode s.bridge.rotb.state), some 0, some 0])
      ∧ (∀ v : Fin 4, let c := (s.bridge.views.get v).counters
          (off = 0x40 + 16 * v.val → a.places = counterBeat c.foreign c.stray)
          ∧ (off = 0x44 + 16 * v.val → a.places = counterBeat c.fault c.skip)
          ∧ (off = 0x48 + 16 * v.val → a.places = counterBeat c.overtake c.lost)
          ∧ (off = 0x4C + 16 * v.val → a.places = counterBeat c.holdBreak 0))
      ∧ (off = 0x80 → a.places = counterBeat s.bridge.glitchA s.bridge.glitchB)
      ∧ (off = 0x84 → a.places = counterBeat s.bridge.outOfRange 0)
      ∧ s.PassFrame t ∧ s.ShadowsAgree t ∧ t.bridge.outOfRange = s.bridge.outOfRange)
  ∧ (∀ (s : State) (r : ReadRequest) (off : Nat), s.open = true → controlActive s.env.straps = true →
    r.wellFormed = true → r.address.toNat = controlBase s.env.straps + off → off + 4 * r.beats ≤ 0x2000 →
    ∃ t a, exec (.read r) s = .next t
      ∧ t.bridge.assemblies = s.bridge.assemblies ++ [a]
      ∧ a.request = s.bridge.accepted ∧ a.returned = 0 ∧ a.places.length = 4 * r.beats
      ∧ (∀ n, n < 4 * r.beats → Served (off + n) → a.places[n]? = some (some (s.bridge.servedByte (off + n))))
      ∧ (∀ n, n < 4 * r.beats → ¬ Served (off + n) → a.places[n]? = some none)
      ∧ ((∀ n, n < 4 * r.beats → Served (off + n)) → t.bridge.stream = s.bridge.stream)
      ∧ ((∃ n, n < 4 * r.beats ∧ ¬ Served (off + n)) → ∃ op first length,
          t.bridge.stream = s.bridge.stream ++ [op] ∧ op.request = s.bridge.accepted
            ∧ op.address = r.address.toNat + first ∧ op.kind = .read length 0 length first
            ∧ first % 4 = 0 ∧ length % 4 = 0 ∧ 0 < length ∧ first + length ≤ 4 * r.beats
            ∧ ¬ Served (off + first) ∧ ¬ Served (off + first + length - 1)
            ∧ (∀ n, n < first → Served (off + n))
            ∧ ∀ n, first + length ≤ n → n < 4 * r.beats → Served (off + n))
      ∧ s.PassFrame t ∧ s.ShadowsAgree t ∧ t.bridge.outOfRange = s.bridge.outOfRange)

/-! ## The control region -/

/-- R173: a write to the acknowledge word clears the pending bits it holds as 1 in its enabled bytes, and no other
state; it is forwarded. -/
def Obligations.AcknowledgeClearsPendingBits : Prop :=
  ∀ (s : State) (w : WriteRequest), s.open = true → controlActive s.env.straps = true →
    w.address.toNat = controlBase s.env.straps + 4 → w.bytes.length = 4 →
    ∃ t, exec (.acknowledge w) s = .next t
      ∧ (∀ n, n < 19 → t.bridge.events.getLsbD n =
          (s.bridge.events.getLsbD n && !((w.enabled (n / 8)).map (fun d => d.getLsbD (n % 8))).getD false))
      ∧ s.Forwarded t w ∧ s.PassFrame t
      ∧ t.bridge.mask = s.bridge.mask ∧ t.bridge.descriptors = s.bridge.descriptors
      ∧ t.bridge.commandShadow = s.bridge.commandShadow ∧ t.bridge.owners = s.bridge.owners

/-- R174: each enabled byte of a write to the mask word replaces the matching byte of the mask. -/
def Obligations.MaskWriteReplacesEnabledBytes : Prop :=
  ∀ (s : State) (w : WriteRequest), s.open = true → controlActive s.env.straps = true →
    w.address.toNat = controlBase s.env.straps + 8 → w.bytes.length = 4 →
    ∃ t, exec (.mask w) s = .next t
      ∧ (∀ n, n < 32 → t.bridge.mask.getLsbD n =
          ((w.enabled (n / 8)).map (fun d => d.getLsbD (n % 8))).getD (s.bridge.mask.getLsbD n))
      ∧ s.Forwarded t w ∧ s.PassFrame t
      ∧ t.bridge.events = s.bridge.events ∧ t.bridge.descriptors = s.bridge.descriptors
      ∧ t.bridge.commandShadow = s.bridge.commandShadow ∧ t.bridge.owners = s.bridge.owners

/-- R175: ATTN is asserted exactly while the pending event set and the mask have a bit in common. -/
def Obligations.AttnIsACommonBit : Prop :=
  ∀ s : State, s.attn = true ↔
    ∃ n, n < 19 ∧ s.bridge.events.getLsbD n = true ∧ s.bridge.mask.getLsbD n = true

/-- R186: a write that enables the owner byte of a report entry sets the owner shadow of that entry and no other. -/
def Obligations.ReportOwnerWriteSetsOneOwner : Prop :=
  ∀ (s : State) (w : WriteRequest) (i : Nat), s.open = true → controlActive s.env.straps = true →
    s.bridge.owners.length = 32 → i < 32 →
    w.address.toNat = controlBase s.env.straps + 0x1000 + 32 * i + 28 → w.bytes.length = 4 →
    ∃ t, exec (.reportOwnerWrite w) s = .next t
      ∧ (∀ j, j ≠ i → t.bridge.owners[j]? = s.bridge.owners[j]?)
      ∧ (w.enabled 3 = none → t.bridge.owners[i]? = s.bridge.owners[i]?)
      ∧ (∀ d, w.enabled 3 = some d → t.bridge.owners[i]? = some (if d = 1 then .bridge else .software))
      ∧ s.Forwarded t w ∧ s.PassFrame t
      ∧ t.bridge.events = s.bridge.events ∧ t.bridge.mask = s.bridge.mask
      ∧ t.bridge.descriptors = s.bridge.descriptors ∧ t.bridge.commandShadow = s.bridge.commandShadow

/-- R1: a beat written into a descriptor area updates the matching bytes of that view's shadow where they are among its
first 96, from the enabled bytes, and changes no view. -/
def Obligations.DescriptorWriteUpdatesTheShadow : Prop :=
  ∀ (s : State) (w : WriteRequest) (v : Fin 4) (off : Nat), s.open = true → controlActive s.env.straps = true →
    (∀ u, (s.bridge.descriptors.get u).length = 96) → off < 256 → off % 4 = 0 →
    w.address.toNat = controlBase s.env.straps + 0x100 + 256 * v.val + off → w.bytes.length = 4 →
    ∃ t, exec (.controlWrite w) s = .next t
      ∧ (∀ u, u ≠ v → t.bridge.descriptors.get u = s.bridge.descriptors.get u)
      ∧ (t.bridge.descriptors.get v).length = 96
      ∧ (∀ k, k < 96 → ¬ (off ≤ k ∧ k < off + 4) →
          (t.bridge.descriptors.get v)[k]? = (s.bridge.descriptors.get v)[k]?)
      ∧ (∀ n, n < 4 → off + n < 96 → (t.bridge.descriptors.get v)[off + n]? =
          match w.enabled n with
          | some d => some d
          | none => (s.bridge.descriptors.get v)[off + n]?)
      ∧ s.Forwarded t w ∧ s.PassFrame t
      ∧ t.bridge.events = s.bridge.events ∧ t.bridge.mask = s.bridge.mask
      ∧ t.bridge.commandShadow = s.bridge.commandShadow ∧ t.bridge.owners = s.bridge.owners

/-- R145, R179, R180, R184: a write of one command entry updates its 16 bytes of the command shadow from the enabled bytes;
a take that it makes available is part of its acceptance, and is what the row of that command does (log 25). -/
def Obligations.CommandEntryWriteTakesTheCommand : Prop :=
  ∀ (s : State) (w : WriteRequest) (i : Nat), s.open = true → controlActive s.env.straps = true →
    s.bridge.commandShadow.length = 256 → i < 16 →
    w.address.toNat = controlBase s.env.straps + 0x800 + 16 * i → w.bytes.length = 16 →
    ∃ t b, exec (.controlWrite w) s = .next t
      ∧ (∀ off, off < 16 → b.shadowByte i off = (w.enabled off).getD (s.bridge.shadowByte i off))
      ∧ (∀ j off, j ≠ i → off < 16 → b.shadowByte j off = s.bridge.shadowByte j off)
      ∧ s.Forwarded { s with bridge := b } w ∧ s.PassFrame { s with bridge := b }
      ∧ b.events = s.bridge.events ∧ b.mask = s.bridge.mask
      ∧ b.descriptors = s.bridge.descriptors ∧ b.owners = s.bridge.owners
      ∧ (takeDue b = true ↔ b.shadowByte b.nextIndex 15 = 1 ∧ b.inFlight = none)
      ∧ (takeDue b = false → t = { s with bridge := b })
      ∧ ∀ c k, (c, k) ∈ ringRows → takeDueOf k b = true → exec c { s with bridge := b } = .next t

/-! ## Intake -/

/-- R21, R22, R25, R26, R27, R35, R39: a write that begins a frame in slot `k` of a configured view, whatever its state and
the frame it follows: the slot's own record, the holds that name it, its waiting entry or its solve, the frame that is
abandoned, and the new intake record. -/
def Obligations.FrameStartFillsTheSlot : Prop :=
  ∀ (s : State) (w : WriteRequest) (v : Fin 4) (k : Nat), s.open = true → w.wellFormed = true →
    let vw := s.bridge.views.get v
    let held := entriesOf vw.slots (· = .held k)
    let old := if vw.intake.state = .inFrame then vw.intake.slot else none
    k < vw.slots.length → w.address.toNat = vw.slotBase k → (∀ b ∈ w.bytes, b.enable = true) →
    w.bytes.length ≤ vw.geometry.lineBytes → vw.geometry.lineBytes ≤ vw.geometry.sp →
    w.bytes.length < vw.geometry.frameBytes →
    (∀ n, n < w.bytes.length →
      regionOf s.env.straps (windowMap s.env s.bridge) (w.address.toNat + n) = .slot v k) →
    tagMatches w.tag vw.geometry.intakeTag vw.geometry.intakeMask = true →
    ∃ t sl vt, exec (.write w) s = .next t ∧ t.bridge.views.get v = vt
      ∧ vt.slots[k]? = some sl
      ∧ sl.state = .filling ∧ sl.sequence = vw.nextSequence ∧ sl.startStamp = vw.startCount ∧ sl.offsets = none
      ∧ (∀ e ∈ sl.map, e = MapEntry.live) ∧ sl.base = vw.slotBase k
      ∧ (∀ (j : Nat) x, j ≠ k → vw.slots[j]? = some x → ∃ y, vt.slots[j]? = some y
          ∧ y.state = (if old = some j then .faulted else x.state)
          ∧ y.map = x.map.map (fun e => if e = .held k then .live else e)
          ∧ y.base = x.base ∧ y.sequence = x.sequence ∧ y.startStamp = x.startStamp ∧ y.offsets = x.offsets)
      ∧ vt.nextSequence = vw.nextSequence + 1 ∧ vt.startCount = vw.startCount + 1
      ∧ vt.ready = vw.ready.filter (· != k)
      ∧ vt.tiles = vw.tiles.map (fun x => if x.source = some k then { x with source := none } else x)
      ∧ vt.state = vw.state ∧ vt.geometry = vw.geometry ∧ vt.motion = vw.motion ∧ vt.scan = vw.scan
      ∧ vt.seed = vw.seed ∧ vt.whiteout = vw.whiteout
      ∧ vt.intake.state = .inFrame ∧ vt.intake.slot = some k ∧ vt.intake.pointer = w.bytes.length
      ∧ (vw.state ≠ .tracking → vt.intake.buffer = none)
      ∧ (∀ b, vt.intake.buffer = some b → (vt.buffers.get b).role = .accum
          ∧ (vt.buffers.get b).owner = some ⟨v, k, vw.nextSequence⟩)
      ∧ (vw.state = .tracking → (∀ e, s.bridge.waiting v = some e → e.frame.slot ≠ k) →
          vt.intake.buffer = (if old = none then vw else vw.freeRole .accum).bufferWith .free)
      ∧ vt.counters.holdBreak = vw.counters.holdBreak + BitVec.ofNat 16 held
      ∧ vt.counters.fault = vw.counters.fault + (if old = none then 0 else 1)
      ∧ vt.counters.overtake = vw.counters.overtake + (if vw.scan.presented = some k then 1 else 0)
      ∧ vt.counters.foreign = vw.counters.foreign ∧ vt.counters.stray = vw.counters.stray
      ∧ t.bridge.events.getLsbD (Event.hold v).bit = (s.bridge.events.getLsbD (Event.hold v).bit || decide (0 < held))
      ∧ t.bridge.events.getLsbD (Event.fault v).bit
          = (s.bridge.events.getLsbD (Event.fault v).bit || decide (old ≠ none ∨ vw.scan.presented = some k))
      ∧ s.bridge.OtherEvents t.bridge [.hold v, .fault v, .lost v]
      ∧ (∀ e, s.bridge.waiting v = some e → e.frame.slot = k →
          t.bridge.solverQueue = s.bridge.solverQueue.filter (fun q => q.frame.view != v)
            ∧ vt.counters.skip = vw.counters.skip + 1)
      ∧ ((∀ e, s.bridge.waiting v = some e → e.frame.slot ≠ k) →
          t.bridge.solverQueue = s.bridge.solverQueue ∧ vt.counters.skip = vw.counters.skip)
      ∧ (s.bridge.solver = .idle → t.bridge.solver = .idle)
      ∧ (∀ e r n, s.bridge.solver = .busy e r n →
          t.bridge.solver = .busy e (r || decide (e.frame.view = v ∧ e.frame.slot = k)) n)
      ∧ (∀ j, old = some j → s.bridge.reportFree = true →
          ∃ o rest, t.bridge.ownWrites = s.bridge.ownWrites ++ o :: rest
            ∧ o.bytes.take 6 = [2, BitVec.ofNat 8 v.val, BitVec.ofNat 8 j, 3] ++ bytesOf 2 (vw.slotSequence j).toNat)
      ∧ (∀ e, old = none → s.bridge.waiting v = some e → e.frame.slot = k → s.bridge.reportFree = true →
          ∃ o, t.bridge.ownWrites = s.bridge.ownWrites ++ [o]
            ∧ o.bytes.take 6 = [3, BitVec.ofNat 8 v.val, BitVec.ofNat 8 k, 5] ++ bytesOf 2 e.frame.sequence.toNat)
      ∧ (old = none → (∀ e, s.bridge.waiting v = some e → e.frame.slot ≠ k) →
          t.bridge.ownWrites = s.bridge.ownWrites ∧ vt.counters.lost = vw.counters.lost)
      ∧ t.bridge.mask = s.bridge.mask ∧ t.bridge.descriptors = s.bridge.descriptors
      ∧ t.bridge.commandShadow = s.bridge.commandShadow
      ∧ s.Forwarded t w ∧ s.AcceptFrame t ∧ s.bridge.OtherViews t.bridge v

/-- R36, R38, R44 to R48: a run of the current slot that does not begin at the pointer, or has a hole, ends the frame with a
REGRESSION or a GAP fault; a run that begins there without a hole is accepted, and completes the frame when it reaches the
frame's last byte. R37: a write to a slot of the view that is not a frame start is judged so where its slot is the current
one, and counts as STRAY in another. -/
def Obligations.RunsAreJudgedAgainstThePointer : Prop :=
  (∀ (env : Env) (br : Bridge) (v : Fin 4) (k : Nat) (run : List (Nat × Byte)),
    let vw := br.views.get v
    vw.intake.slot = some k → k < vw.slots.length →
    (runLow run ≠ vw.intake.pointer ∨ runHasHole run = true) →
    let br' := br.judgeRun env v k run
    let vt := br'.views.get v
    vt.slotIs k .faulted ∧ vt.intake.state = .hunt ∧ vt.intake.slot = none ∧ vt.intake.pointer = 0
      ∧ vt.intake.buffer = none ∧ vt.intake.midTime = none ∧ vt.noBuffer .accum
      ∧ vt.counters.fault = vw.counters.fault + 1
      ∧ br'.events.getLsbD (Event.fault v).bit = true
      ∧ (br.reportFree = true → ∃ o, br'.ownWrites = br.ownWrites ++ [o]
          ∧ o.bytes.take 6 = [2, BitVec.ofNat 8 v.val, BitVec.ofNat 8 k,
              if runLow run < vw.intake.pointer then 2 else 1] ++ bytesOf 2 (vw.slotSequence k).toNat)
      ∧ (br.reportFree = false → br'.ownWrites = br.ownWrites ∧ vt.counters.lost = vw.counters.lost + 1
          ∧ br'.events.getLsbD (Event.lost v).bit = true)
      ∧ br.OtherViews br' v ∧ br'.solver = br.solver ∧ br'.solverQueue = br.solverQueue)
  ∧ (∀ (env : Env) (br : Bridge) (v : Fin 4) (k : Nat) (run : List (Nat × Byte)),
    let vw := br.views.get v
    run ≠ [] → run.map (·.1) = List.range' vw.intake.pointer run.length →
    ∃ br', br.RunTaken br' env.timestamp v run
      ∧ (vw.intake.pointer + run.length ≠ vw.geometry.frameBytes → br.judgeRun env v k run = br')
      ∧ (vw.intake.pointer + run.length = vw.geometry.frameBytes →
          br.judgeRun env v k run = br'.completeFrame env v k))
  ∧ (∀ (s : State) (w : WriteRequest) (v : Fin 4) (j k : Nat), s.open = true → w.wellFormed = true →
    let vw := s.bridge.views.get v
    let run := vw.geometry.run (vw.slotBase j) (writeCells w)
    (∀ n, n < w.bytes.length →
      regionOf s.env.straps (windowMap s.env s.bridge) (w.address.toNat + n) = .slot v j) →
    tagMatches w.tag vw.geometry.intakeTag vw.geometry.intakeMask = true →
    vw.intake.state = .inFrame → vw.intake.slot = some k →
    run ≠ [] → (runLow run ≠ 0 ∨ runHasHole run = true) →
    let judged := ({ s.bridge with births := s.bridge.births + 1 } : Bridge).judgeRun s.env v k run
    ∃ t, exec (.write w) s = .next t
      ∧ (j = k → t.bridge.views = judged.views ∧ t.bridge.events = judged.events
          ∧ t.bridge.ownWrites = judged.ownWrites ∧ t.bridge.owners = judged.owners
          ∧ t.bridge.position = judged.position ∧ t.bridge.solver = judged.solver
          ∧ t.bridge.solverQueue = judged.solverQueue)
      ∧ (j ≠ k → t.bridge.views.get v = { vw with counters := { vw.counters with stray := vw.counters.stray + 1 } }
          ∧ s.bridge.OtherViews t.bridge v ∧ t.bridge.events = s.bridge.events
          ∧ t.bridge.ownWrites = s.bridge.ownWrites ∧ t.bridge.owners = s.bridge.owners
          ∧ t.bridge.position = s.bridge.position ∧ t.bridge.solver = s.bridge.solver
          ∧ t.bridge.solverQueue = s.bridge.solverQueue)
      ∧ t.bridge.mask = s.bridge.mask ∧ t.bridge.descriptors = s.bridge.descriptors
      ∧ t.bridge.commandShadow = s.bridge.commandShadow ∧ s.Forwarded t w ∧ s.AcceptFrame t)

/-- R41: a completed frame with a buffer joins the tail of the solver queue; a waiting entry of its view is superseded
and its slot becomes EMPTY. R40, R42: the completion of a frame goes on with its buffer or, where it has none, unsolved: the
slot is READY at the current offsets, at 0 unless the view is TRACKING, with a LIVE map and a FRAME report. -/
def Obligations.CompletionJoinsTheSolverQueue : Prop :=
  (∀ (env : Env) (br : Bridge) (f : FrameId) (b : Fin 4),
    let vw := br.views.get f.view
    let br' := br.joinSolver env f b
    let vt := br'.views.get f.view
    f.slot < vw.slots.length →
    (∀ e, br.waiting f.view = some e → e.frame.slot ≠ f.slot) →
    vt.slotIs f.slot .solving ∧ (vt.buffers.get b).role = .wait
      ∧ br'.solverQueue = br.solverQueue.filter (fun e => e.frame.view != f.view) ++ [{ frame := f, buffer := b }]
      ∧ br'.waiting f.view = some { frame := f, buffer := b }
      ∧ (br.waiting f.view = none → vt.counters.skip = vw.counters.skip ∧ br'.events = br.events)
      ∧ (∀ e, br.waiting f.view = some e →
          vt.counters.skip = vw.counters.skip + 1
            ∧ (e.frame.slot < vw.slots.length → vt.slotIs e.frame.slot .empty)
            ∧ (e.buffer ≠ b → (vt.buffers.get e.buffer).role = .free))
      ∧ br.OtherViews br' f.view)
  ∧ (∀ (env : Env) (br : Bridge) (v : Fin 4) (k : Nat) (b : Fin 4),
    let vw := br.views.get v
    vw.intake.buffer = some b →
    ∃ mid : Bridge, mid = { br with views := mid.views } ∧ br.OtherViews mid v
      ∧ mid.views.get v = { vw with intake := ⟨.waitStart, none, 0, none, vw.intake.prevLuma, none⟩ }
      ∧ br.completeFrame env v k = mid.joinSolver env ⟨v, k, vw.slotSequence k⟩ b)
  ∧ (∀ (env : Env) (br : Bridge) (v : Fin 4) (k : Nat),
    let vw := br.views.get v
    let br' := br.completeFrame env v k
    let vt := br'.views.get v
    vw.intake.buffer = none → k < vw.slots.length →
    (∃ sl o, vt.slots[k]? = some sl ∧ sl.state = .ready ∧ sl.offsets = some o ∧ (∀ e ∈ sl.map, e = MapEntry.live)
      ∧ (vw.state = .tracking → Rounded vw.motion.ay o.oy ∧ Rounded vw.motion.ax o.ox)
      ∧ (vw.state ≠ .tracking → o = ⟨0, 0⟩))
    ∧ (∀ j, j ≠ k → vt.slots[j]? = vw.slots[j]?)
    ∧ k ∈ vt.ready ∧ br'.events.getLsbD (Event.frame v).bit = true
    ∧ vt.intake = ⟨.waitStart, none, 0, none, vw.intake.prevLuma, none⟩
    ∧ vt.motion = vw.motion ∧ vt.tiles = vw.tiles ∧ vt.buffers = vw.buffers ∧ vt.scan = vw.scan
    ∧ (br.reportFree = true → ∃ o, br'.ownWrites = br.ownWrites ++ [o] ∧ o.kind = .report
        ∧ o.address = controlBase env.straps + 0x1000 + 32 * br.position
        ∧ o.bytes.take 8 = [1, BitVec.ofNat 8 v.val, BitVec.ofNat 8 k, 0] ++ bytesOf 2 (vw.slotSequence k).toNat
            ++ [0, if vw.state = .tracking then 2 else 4]
        ∧ (∀ time, vw.intake.midTime = some time → (o.bytes.drop 8).take 4 = bytesOf 4 time.toNat)
        ∧ (o.bytes.drop 12).take 2 = [0x80, 0x80])
    ∧ (br.reportFree = false → br'.ownWrites = br.ownWrites ∧ vt.counters.lost = vw.counters.lost + 1
        ∧ br'.events.getLsbD (Event.lost v).bit = true)
    ∧ br.OtherEvents br' [.frame v, .lost v] ∧ br.OtherViews br' v
    ∧ br'.solver = br.solver ∧ br'.solverQueue = br.solverQueue)

/-- R23: inserting a READY slot keeps the ready list in the order of frame starts, holds the slot once, and holds the
others as before. -/
def Obligations.ReadyListStaysInStartOrder : Prop :=
  ∀ (vw : View) (k : Nat),
    let stamp := fun j => ((vw.slots[j]?).map (·.startStamp)).getD 0
    vw.ready.Pairwise (fun a b => stamp a < stamp b) → (∀ j ∈ vw.ready, j ≠ k → stamp j ≠ stamp k) →
    (vw.insertReady k).ready.Pairwise (fun a b => stamp a < stamp b)
      ∧ k ∈ (vw.insertReady k).ready
      ∧ (vw.insertReady k).ready.filter (· != k) = vw.ready.filter (· != k)

/-! ## Presentation -/

/-- R124, R126, R127, R120: a presentation read of picture bytes while no slot is presented and none is READY is fill,
without a DRAM operation. -/
def Obligations.PresentationReadGivesFill : Prop :=
  ∀ (s : State) (r : ReadRequest) (v : Fin 4), s.open = true → r.wellFormed = true → r.beats = 1 →
    let vw := s.bridge.views.get v
    let g := vw.geometry
    let o := r.address.toNat - g.base
    (∀ n, n < 4 → regionOf s.env.straps (windowMap s.env s.bridge) (r.address.toNat + n) = .window v) →
    g.base ≤ r.address.toNat → g.pw * g.bpp ≤ g.pp → o % g.pp + 4 ≤ g.pw * g.bpp →
    vw.scan.presented = none → vw.ready = [] →
    ∃ t a, exec (.presentationRead r) s = .next t
      ∧ t.bridge.stream = s.bridge.stream ∧ t.bridge.assemblies = s.bridge.assemblies ++ [a]
      ∧ a.places = (List.range 4).map (fun n =>
          some (if g.format = .yc16 ∧ (o % g.pp + n) % 2 = 1 then (0x80 : Byte) else 0x00))
      ∧ (t.bridge.views.get v).scan.presented = none
      ∧ (t.bridge.views.get v).scan.lastLine =
          (if tagMatches r.tag g.displayTag g.displayMask then some (o / g.pp) else vw.scan.lastLine)
      ∧ (t.bridge.views.get v).slots = vw.slots ∧ (t.bridge.views.get v).ready = []
      ∧ s.AcceptFrame t ∧ s.ShadowsAgree t ∧ s.bridge.OtherViews t.bridge v

/-- R120, R124, R128, R129, R132, R133, R165: a read of picture bytes within one tile column of the slot presented after its
adoption test: one read operation of the beats that hold the bytes from line v + MY + Oy and pixel u + MX + 2·Ox on, of the
presented slot at the recorded offsets where the tile is LIVE, of the slot it names at that slot's stored offsets where it
is HELD. The scan state changes by the adoption test of a display read alone. -/
def Obligations.PresentationReadMapsTiles : Prop :=
  ∀ (s : State) (r : ReadRequest) (v : Fin 4) (k y x m ym xm : Nat) (o om : Offsets), s.open = true →
    r.wellFormed = true → r.beats = 1 →
    let g := (s.bridge.views.get v).geometry
    let line := (r.address.toNat - g.base) / g.pp
    let b := (r.address.toNat - g.base) % g.pp
    let vw := if tagMatches r.tag g.displayTag g.displayMask then (s.bridge.views.get v).displayRead line
      else s.bridge.views.get v
    (∀ n, n < 4 → regionOf s.env.straps (windowMap s.env s.bridge) (r.address.toNat + n) = .window v) →
    g.base ≤ r.address.toNat → g.pw * g.bpp ≤ g.pp → b + 4 ≤ g.pw * g.bpp →
    vw.scan.presented = some k → vw.scan.recorded = some o →
    (y : Int) = line + g.my + o.oy → (x : Int) = (b / g.bpp : Nat) + g.mx + 2 * o.ox →
    (x + ((b + 3) / g.bpp - b / g.bpp)) / 64 = x / 64 →
    (vw.entryAt k y x = .live ∧ m = k ∧ om = o ∨ vw.entryAt k y x = .held m ∧ vw.slotOffsets m = some om) →
    (ym : Int) = line + g.my + om.oy → (xm : Int) = (b / g.bpp : Nat) + g.mx + 2 * om.ox →
    ∃ t op a length skip, exec (.presentationRead r) s = .next t
      ∧ t.bridge.stream = s.bridge.stream ++ [op] ∧ op.kind = .read length skip 4 0
      ∧ op.address + skip = vw.slotBase m + ym * g.sp + xm * g.bpp + b % g.bpp
      ∧ op.address % 4 = 0 ∧ length % 4 = 0 ∧ skip < 4 ∧ skip + 4 ≤ length ∧ length < skip + 8
      ∧ t.bridge.assemblies = s.bridge.assemblies ++ [a] ∧ a.places = List.replicate 4 none
      ∧ t.bridge.views.get v = vw ∧ s.bridge.OtherViews t.bridge v ∧ s.AcceptFrame t ∧ s.ShadowsAgree t
      ∧ t.bridge.solver = s.bridge.solver ∧ t.bridge.solverQueue = s.bridge.solverQueue
      ∧ t.bridge.ownWrites = s.bridge.ownWrites ∧ t.bridge.position = s.bridge.position
      ∧ t.bridge.outOfRange = s.bridge.outOfRange

/-- R121 to R123: at an adoption point the tail of the ready list is presented at its stored offsets. -/
def Obligations.AdoptionTakesTheTail : Prop :=
  ∀ (vw : View) (line : Nat),
    let vt := vw.displayRead line
    vt.scan.lastLine = some line
      ∧ ((line = 0 ∧ vw.scan.lastLine ≠ some 0) ∨ (vw.geometry.swap = .line ∧ vw.scan.lastLine ≠ some line) →
          vt.scan.presented = vw.ready.getLast?
            ∧ vt.scan.recorded = vw.ready.getLast?.bind (fun k => (vw.slots[k]?).bind (·.offsets)))
      ∧ (¬ ((line = 0 ∧ vw.scan.lastLine ≠ some 0) ∨ (vw.geometry.swap = .line ∧ vw.scan.lastLine ≠ some line)) →
          vt.scan.presented = vw.scan.presented ∧ vt.scan.recorded = vw.scan.recorded)
      ∧ vt.ready = vw.ready ∧ vt.slots = vw.slots ∧ vt.counters = vw.counters

/-- R130: with offsets within the margins, every slot byte a picture byte is mapped to lies on a source line and a source
pixel of the frame. -/
def Obligations.PictureBytesStayInThePayload : Prop :=
  ∀ (vw : View) (o : Offsets) (line b : Nat), o.Within vw.geometry →
    2 * vw.geometry.mx ≤ vw.geometry.w → 2 * vw.geometry.my ≤ vw.geometry.h → vw.geometry.mx % 2 = 0 →
    line < vw.geometry.ph → b < vw.geometry.pw * vw.geometry.bpp →
    sourceCoordinate line vw.geometry.my o.oy < vw.geometry.h
      ∧ sourceCoordinate (b / vw.geometry.bpp) vw.geometry.mx (2 * o.ox) < vw.geometry.w
      ∧ ((sourceCoordinate line vw.geometry.my o.oy : Nat) : Int) = line + vw.geometry.my + o.oy
      ∧ ((sourceCoordinate (b / vw.geometry.bpp) vw.geometry.mx (2 * o.ox) : Nat) : Int)
          = ((b / vw.geometry.bpp : Nat) : Int) + vw.geometry.mx + 2 * o.ox

/-! ## The memory sequencer -/

/-- R161, R162, R163: the arbiter's choice, step by step; an operation whose promotion has been carried out goes next (log
27). -/
def Obligations.ArbiterFollowsItsSteps : Prop :=
  ∀ br : Bridge, (∀ op ∈ br.stream, 0 < op.kind.size) → (∀ o ∈ br.ownWrites, 0 < o.bytes.length) →
    (br.stream = [] → br.ownWrites = [] → arbiter br = none)
    ∧ (br.stream ≠ [] → br.ownWrites = [] → arbiter br = some .upstream)
    ∧ (br.stream = [] → br.ownWrites ≠ [] → arbiter br = some .own)
    ∧ (∀ op ops o os, br.stream = op :: ops → br.ownWrites = o :: os →
        (op.Marked br.ownWrites → arbiter br = some .own)
        ∧ (¬ op.Marked br.ownWrites → op.promoted = true → arbiter br = some .upstream)
        ∧ (¬ op.Marked br.ownWrites → o.Held br.stream → arbiter br = some .upstream)
        ∧ (¬ op.Marked br.ownWrites → op.promoted = false → ¬ o.Held br.stream → 8 ≤ br.ownWrites.length →
            arbiter br = some .own)
        ∧ (¬ op.Marked br.ownWrites → op.promoted = false → ¬ o.Held br.stream → o.passes = 4 →
            arbiter br = some .own)
        ∧ (¬ op.Marked br.ownWrites → ¬ o.Held br.stream → br.ownWrites.length < 8 → o.passes ≠ 4 →
            arbiter br = some .upstream))

/-- R157, R161: the issue of an upstream operation. A write changes the enabled bytes it carries and no others; a read
takes the bytes as DRAM holds them and changes none. Each raises every pass count below 4 by one. -/
def Obligations.UpstreamIssueReachesDram : Prop :=
  ∀ (s : State) (op : UpOp) (rest : List UpOp), s.quiet = true →
    s.bridge.stream = op :: rest → arbiter s.bridge = some .upstream →
    ∃ t, exec .upstreamOperationIssue s = .next t
      ∧ t.bridge.stream = rest
      ∧ t.bridge.ownWrites = s.bridge.ownWrites.map (fun o =>
          { o with passes := if o.passes < 4 then o.passes + 1 else o.passes })
      ∧ t.bridge.assemblies = s.bridge.assemblies ∧ t.bridge.views = s.bridge.views ∧ s.ShadowsAgree t
      ∧ s.bridge.SameSolver t.bridge ∧ s.bridge.SameTimer t.bridge
      ∧ t.env = s.env ∧ t.readData = s.readData ∧ t.pending = s.pending
      ∧ (∀ bytes, op.kind = .write bytes →
          (∀ n x, bytes[n]? = some x → x.enable = true →
            Memory.readByte t.dram.cells (op.address + n) = x.data)
          ∧ (∀ a, (∀ n x, bytes[n]? = some x → x.enable = true → a ≠ op.address + n) →
              Memory.readByte t.dram.cells a = Memory.readByte s.dram.cells a)
          ∧ t.dram.returning = s.dram.returning
          ∧ ∃ n, t.dram.performing = some ⟨op.address, bytes.length, false, n⟩)
      ∧ (∀ length skip count place, op.kind = .read length skip count place →
          t.dram.cells = s.dram.cells ∧ (∃ n, t.dram.performing = some ⟨op.address, length, true, n⟩)
          ∧ ∃ q, t.dram.returning = s.dram.returning ++ [q]
            ∧ q.request = op.request ∧ q.skip = skip ∧ q.count = count ∧ q.place = place ∧ q.data.length = length
            ∧ ∀ n, n < length → q.data[n]? = some (Memory.readByte s.dram.cells (op.address + n)))

/-- R159, R161, R164: the issue of the head own write puts all its bytes at its address, changes no other byte and no
pass count; the operation at the head of the stream whose mark names it is then promoted (R162). -/
def Obligations.OwnWriteReachesDramWhole : Prop :=
  ∀ (s : State) (o : OwnWrite) (rest : List OwnWrite), s.quiet = true →
    s.bridge.ownWrites = o :: rest → arbiter s.bridge = some .own →
    ∃ t, exec .ownWriteIssue s = .next t
      ∧ (∀ n x, o.bytes[n]? = some x → Memory.readByte t.dram.cells (o.address + n) = x)
      ∧ (∀ a, ¬ (o.address ≤ a ∧ a < o.address + o.bytes.length) →
          Memory.readByte t.dram.cells a = Memory.readByte s.dram.cells a)
      ∧ t.bridge = { s.bridge with ownWrites := rest, stream := t.bridge.stream }
      ∧ (s.bridge.stream = [] → t.bridge.stream = [])
      ∧ (∀ op ops, s.bridge.stream = op :: ops →
          t.bridge.stream = { op with promoted := op.promoted || decide (op.mark = some o.birth) } :: ops)
      ∧ (∃ n, t.dram.performing = some ⟨o.address, o.bytes.length, false, n⟩)
      ∧ t.dram.returning = s.dram.returning ∧ t.env = s.env ∧ t.readData = s.readData ∧ t.pending = s.pending

/-- R165, R171: returned data fills the empty places of its read's assembly record, in order, and no others; a place filled
at the acceptance keeps its value. -/
def Obligations.ReturnedDataFillsItsPlaces : Prop :=
  ∀ (s : State) (q : ReturningRead) (rest : List ReturningRead), s.quiet = true → s.dram.returning = q :: rest →
    q.skip + q.count ≤ q.data.length →
    ∃ t, exec .operationDataReturn s = .next t
      ∧ t.dram.returning = rest ∧ t.dram.cells = s.dram.cells
      ∧ t.bridge.assemblies.length = s.bridge.assemblies.length
      ∧ (∀ (i : Nat) a b, s.bridge.assemblies[i]? = some a → t.bridge.assemblies[i]? = some b →
          b.request = a.request ∧ b.returned = a.returned ∧ b.places.length = a.places.length
            ∧ (a.request ≠ q.request → b = a)
            ∧ (a.request = q.request →
                (∀ n, n < q.count → a.places[q.place + n]? = some none →
                  b.places[q.place + n]? = some (q.data[q.skip + n]?))
                ∧ (∀ (n : Nat) x, a.places[n]? = some (some x) → b.places[n]? = some (some x))
                ∧ (∀ n, (n < q.place ∨ q.place + q.count ≤ n) → b.places[n]? = a.places[n]?)))
      ∧ t.bridge.views = s.bridge.views ∧ t.bridge.stream = s.bridge.stream
      ∧ t.bridge.ownWrites = s.bridge.ownWrites ∧ t.bridge.requests = s.bridge.requests
      ∧ s.bridge.SameSolver t.bridge ∧ s.bridge.SameTimer t.bridge ∧ s.ShadowsAgree t ∧ t.env = s.env
      ∧ t.readData = s.readData ∧ t.pending = s.pending

/-- R150, R166: the response of the oldest unanswered read. When every remaining place is filled its remaining beats are
returned and its record is closed; when its next beats are complete and a later one is not, those are returned and the
record goes on (that one response returns them all is log 12); while its next beat is not complete, no beat of any read is
returned. -/
def Obligations.ResponsesKeepAcceptanceOrder : Prop :=
  ∀ (s : State) (a : Assembly) (rest : List Assembly), s.quiet = true → s.bridge.assemblies = a :: rest →
    a.places.length % 4 = 0 → 4 * a.returned < a.places.length →
    (∀ bytes : List Byte, a.places.drop (4 * a.returned) = bytes.map some →
      ∃ t, exec .readResponse s = .next t ∧ t.readData = bytes ∧ t.bridge.assemblies = rest
        ∧ t.dram = s.dram ∧ t.bridge.views = s.bridge.views ∧ t.bridge.stream = s.bridge.stream
        ∧ t.bridge.ownWrites = s.bridge.ownWrites ∧ s.bridge.SameSolver t.bridge ∧ s.bridge.SameTimer t.bridge
        ∧ s.ShadowsAgree t ∧ t.env = s.env ∧ t.pending = s.pending)
    ∧ (∀ (bytes : List Byte) (later : List (Option Byte)),
        a.places.drop (4 * a.returned) = bytes.map some ++ later → bytes ≠ [] → bytes.length % 4 = 0 →
        (∃ n, n < 4 ∧ later[n]? = some none) →
        exec .readResponse s = .next { s with
          readData := bytes
          bridge := { s.bridge with
            assemblies := { a with returned := a.returned + bytes.length / 4 } :: rest } })
    ∧ ((∃ n, n < 4 ∧ a.places[4 * a.returned + n]? = some none) → exec .readResponse s = .next s)

/-! ## The command ring -/

/-- R181, R183: a code outside 0x01..0x08 completes with BAD_CODE and changes nothing but the ring. -/
def Obligations.BadCodeIsRefused : Prop :=
  ∀ s : State, s.Shaped → takeDueOf .badCode s.bridge = true →
    ∃ t, exec .badCode s = .next t ∧ s.bridge.Completed t.bridge s.env .badCode 0 ∧ s.PlainTakeFrame t
      ∧ t.bridge.views = s.bridge.views ∧ s.bridge.SameTimer t.bridge
      ∧ t.bridge.solverQueue = s.bridge.solverQueue ∧ s.bridge.OtherEvents t.bridge [.cmd]
      ∧ t.bridge.ownWrites.length = s.bridge.ownWrites.length + 1

/-- R10, R11, R181: a command whose target byte it does not have completes with BAD_TARGET, a view command that the state
of its view does not allow with BAD_STATE; neither changes anything but the ring. -/
def Obligations.BadTargetAndBadStateAreRefused : Prop :=
  ∀ (s : State) (c : Instr) (kind : CommandKind) (st : Status), s.Shaped → takeDueOf kind s.bridge = true →
    let target := (s.bridge.shadowByte s.bridge.nextIndex 1).toNat
    ((st = .badTarget ∧ (c, kind) ∈ viewRows ∧ 4 ≤ target)
      ∨ (st = .badTarget ∧ (c, kind) = (.edge, .edge) ∧ 2 ≤ target)
      ∨ (st = .badTarget ∧ (c, kind) = (.zero, .zero) ∧ 4 ≤ target ∧ target < 255)
      ∨ (st = .badState ∧ (c, kind) ∈ viewRows
          ∧ ∃ v : Fin 4, target = v.val ∧ allowedIn kind (s.bridge.views.get v).state = false)) →
    ∃ t, exec c s = .next t ∧ s.bridge.Completed t.bridge s.env st 0 ∧ s.PlainTakeFrame t
      ∧ t.bridge.views = s.bridge.views ∧ s.bridge.SameTimer t.bridge
      ∧ t.bridge.solverQueue = s.bridge.solverQueue ∧ s.bridge.OtherEvents t.bridge [.cmd]

/-- R4 to R8: a CONFIGURE whose check number n is the first of the table's twelve to fail completes with BAD_DESCRIPTOR and
detail n, and changes nothing but the ring. -/
def Obligations.ConfigureNamesTheFirstFailingCheck : Prop :=
  ∀ (s : State) (v : Fin 4) (n : Nat), s.Shaped → takeDueOf .configure s.bridge = true →
    (s.bridge.shadowByte s.bridge.nextIndex 1).toNat = v.val →
    allowedIn .configure (s.bridge.views.get v).state = true →
    let d := readDescriptor (s.bridge.descriptors.get v)
    CheckFails s.env.straps s.bridge v d n → (∀ m, m < n → ¬ CheckFails s.env.straps s.bridge v d m) →
    ∃ t, exec .configure s = .next t ∧ s.bridge.Completed t.bridge s.env .badDescriptor n ∧ s.PlainTakeFrame t
      ∧ t.bridge.views = s.bridge.views ∧ s.bridge.SameTimer t.bridge
      ∧ t.bridge.solverQueue = s.bridge.solverQueue ∧ s.bridge.OtherEvents t.bridge [.cmd]

/-- R4 to R8, R12, R20, R29: a CONFIGURE whose twelve checks pass. -/
def Obligations.ConfigureSetsUpTheView : Prop :=
  ∀ (s : State) (v : Fin 4), s.Shaped → takeDueOf .configure s.bridge = true →
    (s.bridge.shadowByte s.bridge.nextIndex 1).toNat = v.val →
    allowedIn .configure (s.bridge.views.get v).state = true →
    let d := readDescriptor (s.bridge.descriptors.get v)
    (∀ n, ¬ CheckFails s.env.straps s.bridge v d n) →
    ∃ t, exec .configure s = .next t ∧ s.bridge.Completed t.bridge s.env .done 0 ∧ s.PlainTakeFrame t
      ∧ (let vt := t.bridge.views.get v
         vt.state = .parked ∧ vt.geometry = d.geometry
          ∧ vt.slots.map (·.base) = d.slotBases
          ∧ (∀ sl ∈ vt.slots, sl.state = .empty ∧ sl.sequence = 0 ∧ sl.startStamp = 0 ∧ sl.offsets = none
              ∧ ∀ e ∈ sl.map, e = MapEntry.live)
          ∧ vt.ready = [] ∧ vt.nextSequence = 0 ∧ vt.startCount = 0 ∧ vt.intake = Intake.reset
          ∧ (∀ b, (vt.buffers.get b).role = .free)
          ∧ vt.motion.ay = 0 ∧ vt.motion.ax = 0 ∧ vt.motion.dy = List.replicate 16 0
          ∧ vt.motion.dx = List.replicate 16 0 ∧ vt.motion.countdown = 0
          ∧ vt.motion.active = d.tunables ∧ vt.motion.pending = none
          ∧ (∀ x ∈ vt.tiles, x.state = .learning ∧ x.age = 0 ∧ x.bm = 0 ∧ x.bc = 0 ∧ x.source = none)
          ∧ vt.seed = true ∧ vt.whiteout = false ∧ vt.scan.lastLine = none ∧ vt.scan.presented = none
          ∧ vt.counters = (s.bridge.views.get v).counters)
      ∧ s.bridge.OtherViews t.bridge v ∧ s.bridge.SameTimer t.bridge
      ∧ t.bridge.solverQueue = s.bridge.solverQueue ∧ s.bridge.OtherEvents t.bridge [.cmd]

/-- R13, R96: TRACK of a PARKED view. -/
def Obligations.TrackStartsTracking : Prop :=
  ∀ (s : State) (v : Fin 4), s.Shaped → takeDueOf .track s.bridge = true →
    (s.bridge.shadowByte s.bridge.nextIndex 1).toNat = v.val → (s.bridge.views.get v).state = .parked →
    ∃ t, exec .track s = .next t ∧ s.bridge.Completed t.bridge s.env .done 0 ∧ s.PlainTakeFrame t
      ∧ (t.bridge.views.get v).state = .tracking
      ∧ (s.bridge.views.get v).RebaseReset (t.bridge.views.get v)
      ∧ (t.bridge.views.get v).intake = (s.bridge.views.get v).intake
      ∧ s.bridge.OtherViews t.bridge v ∧ s.bridge.SameTimer t.bridge
      ∧ t.bridge.solverQueue = s.bridge.solverQueue ∧ s.bridge.OtherEvents t.bridge [.cmd]

/-- R14, R15: PARK of a TRACKING view with no solve in progress reaches PARKED and completes at once, its waiting entry
removed, its holds broken and counted; with a solve of the view in progress the view becomes PARKING and the command stays
in flight. -/
def Obligations.ParkStopsTracking : Prop :=
  ∀ (s : State) (v : Fin 4), s.Shaped → takeDueOf .park s.bridge = true →
    (s.bridge.shadowByte s.bridge.nextIndex 1).toNat = v.val → (s.bridge.views.get v).state = .tracking →
    let vw := s.bridge.views.get v
    let held := entriesOf (s.bridge.slotsToPark v) MapEntry.isHeld
    (s.bridge.solving v = false →
      ∃ t, exec .park s = .next t ∧ s.bridge.Completed t.bridge s.env .done 0 ∧ s.TakeFrame t
        ∧ vw.Parked (t.bridge.views.get v) ∧ s.bridge.WaitingParked t.bridge s.env v
        ∧ (t.bridge.views.get v).intake.buffer = none ∧ (t.bridge.views.get v).noBuffer .accum
        ∧ (t.bridge.views.get v).counters.holdBreak = vw.counters.holdBreak + BitVec.ofNat 16 held
        ∧ t.bridge.events.getLsbD (Event.hold v).bit
            = (s.bridge.events.getLsbD (Event.hold v).bit || decide (0 < held) || vw.whiteout)
        ∧ s.bridge.OtherEvents t.bridge [.cmd, .hold v, .frame v, .lost v]
        ∧ s.bridge.OtherViews t.bridge v ∧ s.bridge.SameTimer t.bridge
        ∧ t.bridge.outOfRange = s.bridge.outOfRange)
    ∧ (s.bridge.solving v = true →
      ∃ t, exec .park s = .next t ∧ s.TakeFrame t
        ∧ (t.bridge.views.get v).state = .parking ∧ s.bridge.WaitingParked t.bridge s.env v
        ∧ t.bridge.inFlight = some ⟨s.bridge.nextIndex, s.bridge.commandEntry s.bridge.nextIndex, .park v⟩
        ∧ t.bridge.nextIndex = s.bridge.nextIndex ∧ t.bridge.commandShadow = s.bridge.commandShadow
        ∧ (t.bridge.views.get v).intake.buffer = none ∧ (t.bridge.views.get v).noBuffer .accum
        ∧ (t.bridge.views.get v).counters.holdBreak = vw.counters.holdBreak
        ∧ s.bridge.OtherEvents t.bridge [.frame v, .lost v]
        ∧ s.bridge.OtherViews t.bridge v ∧ s.bridge.SameTimer t.bridge
        ∧ t.bridge.outOfRange = s.bridge.outOfRange)

/-- R17: RELEASE of a PARKED view. -/
def Obligations.ReleaseGivesUpTheView : Prop :=
  ∀ (s : State) (v : Fin 4), s.Shaped → takeDueOf .release s.bridge = true →
    (s.bridge.shadowByte s.bridge.nextIndex 1).toNat = v.val → (s.bridge.views.get v).state = .parked →
    ∃ t, exec .release s = .next t ∧ s.bridge.Completed t.bridge s.env .done 0 ∧ s.PlainTakeFrame t
      ∧ (s.bridge.views.get v).Released (t.bridge.views.get v) ∧ t.bridge.viewRanges v = []
      ∧ s.bridge.OtherViews t.bridge v ∧ s.bridge.SameTimer t.bridge
      ∧ t.bridge.solverQueue = s.bridge.solverQueue ∧ s.bridge.OtherEvents t.bridge [.cmd]

/-- R18, R182: RELEASE with target 0xFF releases every configured view and empties the solver queue, at once or, with a
solve in progress, at its completion. -/
def Obligations.ReleaseAllReleasesEveryView : Prop :=
  ∀ s : State, s.Shaped → takeDueOf .releaseAll s.bridge = true →
    (s.bridge.solverBusy = false →
      ∃ t, exec .releaseAll s = .next t ∧ s.bridge.Completed t.bridge s.env .done 0 ∧ s.PlainTakeFrame t
        ∧ (∀ v, (t.bridge.views.get v).state = .unconfigured)
        ∧ (∀ v, (s.bridge.views.get v).state ≠ .unconfigured →
            (s.bridge.views.get v).Released (t.bridge.views.get v))
        ∧ t.bridge.solverQueue = [] ∧ s.bridge.SameTimer t.bridge ∧ s.bridge.OtherEvents t.bridge [.cmd])
    ∧ (s.bridge.solverBusy = true →
      ∃ t, exec .releaseAll s = .next t
        ∧ t.bridge = { s.bridge with inFlight := some ⟨s.bridge.nextIndex, s.bridge.commandEntry s.bridge.nextIndex, .releaseAll⟩ }
        ∧ t.env = s.env ∧ t.dram = s.dram ∧ t.readData = s.readData ∧ t.pending = s.pending)

/-- R16, R51, R96, R182: REBASE of a TRACKING view: the frame being filled loses its statistics at the take (that its buffer
becomes FREE there, not with the resets, is log 14); the resets of TRACK are applied at once, or the command stays in flight
while the view's solve is in progress (its completion is stated with the solve's). -/
def Obligations.RebaseRestartsLearning : Prop :=
  ∀ (s : State) (v : Fin 4), s.Shaped → takeDueOf .rebase s.bridge = true →
    (s.bridge.shadowByte s.bridge.nextIndex 1).toNat = v.val → (s.bridge.views.get v).state = .tracking →
    (s.bridge.solving v = false →
      ∃ t, exec .rebase s = .next t ∧ s.bridge.Completed t.bridge s.env .done 0 ∧ s.PlainTakeFrame t
        ∧ (t.bridge.views.get v).state = .tracking
        ∧ (s.bridge.views.get v).RebaseReset (t.bridge.views.get v)
        ∧ (t.bridge.views.get v).noBuffer .accum ∧ (t.bridge.views.get v).intake.buffer = none
        ∧ t.bridge.solverQueue = s.bridge.solverQueue ∧ s.bridge.OtherViews t.bridge v
        ∧ s.bridge.SameTimer t.bridge ∧ s.bridge.OtherEvents t.bridge [.cmd])
    ∧ (s.bridge.solving v = true →
      ∃ t, exec .rebase s = .next t ∧ s.PlainTakeFrame t
        ∧ t.bridge.inFlight = some ⟨s.bridge.nextIndex, s.bridge.commandEntry s.bridge.nextIndex, .rebase v⟩
        ∧ t.bridge.nextIndex = s.bridge.nextIndex ∧ (t.bridge.views.get v).state = .tracking
        ∧ (t.bridge.views.get v).motion = (s.bridge.views.get v).motion
        ∧ (t.bridge.views.get v).tiles = (s.bridge.views.get v).tiles
        ∧ (t.bridge.views.get v).intake.buffer = none ∧ (t.bridge.views.get v).noBuffer .accum
        ∧ t.bridge.commandShadow = s.bridge.commandShadow ∧ t.bridge.ownWrites = s.bridge.ownWrites
        ∧ t.bridge.solverQueue = s.bridge.solverQueue ∧ s.bridge.SameTimer t.bridge
        ∧ t.bridge.events = s.bridge.events ∧ s.bridge.OtherViews t.bridge v)

/-- R19: TUNE of a PARKED or TRACKING view: tunables in range become pending and nothing else of the view changes; a
tunable out of range completes with BAD_DESCRIPTOR and detail 11. -/
def Obligations.TuneStoresPendingTunables : Prop :=
  ∀ (s : State) (v : Fin 4), s.Shaped → takeDueOf .tune s.bridge = true →
    (s.bridge.shadowByte s.bridge.nextIndex 1).toNat = v.val →
    ((s.bridge.views.get v).state = .parked ∨ (s.bridge.views.get v).state = .tracking) →
    let u := readTunables (s.bridge.descriptors.get v)
    ∃ t, exec .tune s = .next t ∧ s.PlainTakeFrame t
      ∧ (u.InRange → s.bridge.Completed t.bridge s.env .done 0
          ∧ t.bridge.views.get v = { s.bridge.views.get v with
              motion := { (s.bridge.views.get v).motion with pending := some u } })
      ∧ (¬ u.InRange → s.bridge.Completed t.bridge s.env .badDescriptor 11
          ∧ t.bridge.views.get v = s.bridge.views.get v)
      ∧ s.bridge.OtherViews t.bridge v ∧ s.bridge.SameTimer t.bridge
      ∧ t.bridge.solverQueue = s.bridge.solverQueue ∧ s.bridge.OtherEvents t.bridge [.cmd]

/-- R195: ZERO clears the counters its target selects, and changes nothing else but the ring; a target of 4..0xFE is
refused with BAD_TARGET. -/
def Obligations.ZeroClearsCounters : Prop :=
  ∀ s : State, s.Shaped → takeDueOf .zero s.bridge = true →
    let target := (s.bridge.shadowByte s.bridge.nextIndex 1).toNat
    ∃ t, exec .zero s = .next t ∧ s.TakeFrame t
      ∧ t.bridge.rota = s.bridge.rota ∧ t.bridge.rotb = s.bridge.rotb
      ∧ t.bridge.solverQueue = s.bridge.solverQueue ∧ t.bridge.owners = s.bridge.owners
      ∧ t.bridge.position = s.bridge.position ∧ s.bridge.OtherEvents t.bridge [.cmd]
      ∧ t.bridge.ownWrites.length = s.bridge.ownWrites.length + 1
      ∧ (∀ v, (target = v.val ∨ target = 255) →
          t.bridge.views.get v = { s.bridge.views.get v with counters := ViewCounters.zero })
      ∧ (∀ v, target ≠ v.val → target ≠ 255 → t.bridge.views.get v = s.bridge.views.get v)
      ∧ (target = 255 → t.bridge.glitchA = 0 ∧ t.bridge.glitchB = 0 ∧ t.bridge.outOfRange = 0)
      ∧ (target ≠ 255 → t.bridge.glitchA = s.bridge.glitchA ∧ t.bridge.glitchB = s.bridge.glitchB
          ∧ t.bridge.outOfRange = s.bridge.outOfRange)
      ∧ (target < 4 ∨ target = 255 → s.bridge.Completed t.bridge s.env .done 0)
      ∧ (4 ≤ target → target < 255 → s.bridge.Completed t.bridge s.env .badTarget 0)

/-- R64: EDGE sets the mode of its input and restarts acquisition, whatever the states of views, input and solver; it is
refused with BAD_TARGET, then with BAD_ARGUMENT, without a change. -/
def Obligations.EdgeSetsTheMode : Prop :=
  ∀ s : State, s.Shaped → takeDueOf .edge s.bridge = true →
    let target := (s.bridge.shadowByte s.bridge.nextIndex 1).toNat
    let argument := (s.bridge.shadowByte s.bridge.nextIndex 2).toNat
      + 256 * (s.bridge.shadowByte s.bridge.nextIndex 3).toNat
    ∃ t, exec .edge s = .next t ∧ s.TakeFrame t
      ∧ t.bridge.views = s.bridge.views ∧ t.bridge.solverQueue = s.bridge.solverQueue
      ∧ t.bridge.glitchA = s.bridge.glitchA ∧ t.bridge.glitchB = s.bridge.glitchB
      ∧ t.bridge.outOfRange = s.bridge.outOfRange ∧ t.bridge.owners = s.bridge.owners
      ∧ t.bridge.position = s.bridge.position ∧ s.bridge.OtherEvents t.bridge [.cmd]
      ∧ t.bridge.ownWrites.length = s.bridge.ownWrites.length + 1
      ∧ (2 ≤ target → s.bridge.Completed t.bridge s.env .badTarget 0)
      ∧ (target < 2 → 3 < argument → s.bridge.Completed t.bridge s.env .badArgument 0)
      ∧ (target < 2 → argument ≤ 3 → s.bridge.Completed t.bridge s.env .done 0)
      ∧ (∀ i, ((target = 0 ∧ i = .rota) ∨ (target = 1 ∧ i = .rotb)) ∧ argument ≤ 3 →
          (t.bridge.rot i).mode = (match argument with
            | 0 => .none
            | 1 => .rise
            | 2 => .fall
            | _ => .both)
          ∧ (t.bridge.rot i).state = (if argument = 0 then .off else .acquire)
          ∧ (t.bridge.rot i).count = 0 ∧ (t.bridge.rot i).times = [] ∧ (t.bridge.rot i).lastPolarity = none
          ∧ (t.bridge.rot i).lastRising = none ∧ (t.bridge.rot i).period = none ∧ (t.bridge.rot i).origin = none
          ∧ (t.bridge.rot i).level = (s.bridge.rot i).level)
      ∧ (∀ i, ¬ (((target = 0 ∧ i = .rota) ∨ (target = 1 ∧ i = .rotb)) ∧ argument ≤ 3) →
          t.bridge.rot i = s.bridge.rot i)

/-! ## The frame solver -/

/-- R71, R72: a solve starts on the head entry when the solver is IDLE and no RELEASE ALL is in flight, whatever else is due
(log 15); its buffer becomes
SOLVE, the view's pending tunables become active. Otherwise no solve starts (log 1). -/
def Obligations.SolveStartTakesTheHead : Prop :=
  ∀ s : State,
    (∀ e rest, s.bridge.solver = .idle → s.bridge.solverQueue = e :: rest → s.bridge.releasingAll = false →
      ∃ t, exec .solveStart s = .next t
        ∧ t.bridge.solver = .busy e false false ∧ t.bridge.solverQueue = rest
        ∧ (let vw := s.bridge.views.get e.frame.view
           let vt := t.bridge.views.get e.frame.view
           (vt.buffers.get e.buffer).role = .solve
            ∧ vt.motion.active = (vw.motion.pending).getD vw.motion.active ∧ vt.motion.pending = none
            ∧ vt.motion.ay = vw.motion.ay ∧ vt.motion.ax = vw.motion.ax ∧ vt.motion.countdown = vw.motion.countdown
            ∧ vt.slots = vw.slots ∧ vt.tiles = vw.tiles ∧ vt.ready = vw.ready)
        ∧ s.bridge.OtherViews t.bridge e.frame.view ∧ s.ShadowsAgree t
        ∧ t.bridge.ownWrites = s.bridge.ownWrites ∧ s.bridge.SamePort t.bridge ∧ s.bridge.SameTimer t.bridge
        ∧ t.bridge.inFlight = s.bridge.inFlight ∧ t.bridge.outOfRange = s.bridge.outOfRange
        ∧ t.env = s.env ∧ t.dram = s.dram ∧ t.readData = s.readData ∧ t.pending = s.pending)
    ∧ (s.quiet = true →
        (s.bridge.solver ≠ .idle ∨ s.bridge.solverQueue = [] ∨ s.bridge.releasingAll = true) →
        exec .solveStart s = .next s)

/-- R73: the end of the arithmetic of the solve in progress sets the ended indication and nothing else. With the solver
IDLE the event does not happen (log 1). -/
def Obligations.ArithmeticEndIsNoted : Prop :=
  ∀ s : State, s.quiet = true →
    (∀ e r n, s.bridge.solver = .busy e r n →
      exec .solveArithmeticEnd s = .next { s with bridge := { s.bridge with solver := .busy e r true } })
    ∧ (s.bridge.solver = .idle → exec .solveArithmeticEnd s = .next s)

/-- R73, R89, R90, R92, R93, R182: the completion of a solve whose slot was not reopened: its results (in `b`), then the
effect of the command that waits for it, if one does. -/
def Obligations.SolveCompletionMakesReady : Prop :=
  ∀ (s : State) (e : SolveEntry), s.Shaped → s.bridge.solver = .busy e false true → s.bridge.ownWrites.length ≤ 13 →
    e.frame.slot < (s.bridge.views.get e.frame.view).slots.length →
    let vw := s.bridge.views.get e.frame.view
    let cur := vw.buffers.get e.buffer
    let m := solveMotion vw.geometry vw.motion cur ((vw.bufferWith .ref).map vw.buffers.get)
    let r := tileStep vw cur (some e.frame.slot)
    ∃ t b sl, exec .solveCompletion s = .next t
      ∧ b.solver = .idle ∧ b.solverQueue = s.bridge.solverQueue
      ∧ (let vt := b.views.get e.frame.view
         vt.slots[e.frame.slot]? = some sl ∧ sl.state = .ready
          ∧ sl.offsets = some ⟨m.y.offset, m.x.offset⟩ ∧ sl.map = r.map ∧ e.frame.slot ∈ vt.ready
          ∧ (∀ k, k ≠ e.frame.slot → vt.slots[k]? = vw.slots[k]?)
          ∧ vt.motion.ay = m.y.a ∧ vt.motion.ax = m.x.a ∧ vt.motion.dy = m.y.table ∧ vt.motion.dx = m.x.table
          ∧ vt.motion.countdown = r.countdown ∧ vt.tiles = r.tiles ∧ vt.seed = r.seed ∧ vt.whiteout = r.whiteout
          ∧ (∀ i, (vt.buffers.get i).role = .ref ↔ i = e.buffer)
          ∧ vt.intake = vw.intake ∧ vt.scan = vw.scan ∧ vt.state = vw.state)
      ∧ b.events.getLsbD (Event.frame e.frame.view).bit = true
      ∧ (r.whiteout ≠ vw.whiteout → b.events.getLsbD (Event.hold e.frame.view).bit = true)
      ∧ (r.whiteout = vw.whiteout → b.events.getLsbD (Event.hold e.frame.view).bit
          = s.bridge.events.getLsbD (Event.hold e.frame.view).bit)
      ∧ (s.bridge.reportFree = true → ∃ o, b.ownWrites = s.bridge.ownWrites ++ [o] ∧ o.kind = .report
          ∧ o.address = controlBase s.env.straps + 0x1000 + 32 * s.bridge.position
          ∧ o.bytes.take 4 = [1, BitVec.ofNat 8 e.frame.view.val, BitVec.ofNat 8 e.frame.slot, 0])
      ∧ (s.bridge.reportFree = false → b.ownWrites = s.bridge.ownWrites)
      ∧ s.bridge.OtherViews b e.frame.view ∧ s.bridge.SameTimer b ∧ s.bridge.SamePort b
      ∧ b.mask = s.bridge.mask ∧ b.descriptors = s.bridge.descriptors
      ∧ b.commandShadow = s.bridge.commandShadow ∧ b.nextIndex = s.bridge.nextIndex
      ∧ b.inFlight = s.bridge.inFlight ∧ b.outOfRange = s.bridge.outOfRange
      ∧ s.bridge.OtherEvents b [.frame e.frame.view, .hold e.frame.view, .lost e.frame.view]
      ∧ b.WaitingServed t.bridge s.env e.frame.view
      ∧ t.env = s.env ∧ t.dram = s.dram ∧ t.readData = s.readData ∧ t.pending = s.pending

/-- R91, R93, R182: the completion of a solve whose slot was reopened: the slots and the ready list are as before, motion and
reference go on (in `b`); then the effect of the command that waits for it, if one does. -/
def Obligations.ReopenedCompletionLeavesTheSlot : Prop :=
  ∀ (s : State) (e : SolveEntry), s.Shaped → s.bridge.solver = .busy e true true → s.bridge.ownWrites.length ≤ 13 →
    let vw := s.bridge.views.get e.frame.view
    let cur := vw.buffers.get e.buffer
    let m := solveMotion vw.geometry vw.motion cur ((vw.bufferWith .ref).map vw.buffers.get)
    let r := tileStep vw cur none
    ∃ t b, exec .solveCompletion s = .next t
      ∧ b.solver = .idle
      ∧ (let vt := b.views.get e.frame.view
         vt.slots = vw.slots ∧ vt.ready = vw.ready ∧ vt.state = vw.state
          ∧ vt.motion.ay = m.y.a ∧ vt.motion.ax = m.x.a ∧ vt.motion.dy = m.y.table ∧ vt.motion.dx = m.x.table
          ∧ vt.tiles = r.tiles ∧ vt.motion.countdown = r.countdown ∧ vt.seed = r.seed ∧ vt.whiteout = r.whiteout
          ∧ (∀ i, (vt.buffers.get i).role = .ref ↔ i = e.buffer))
      ∧ b.events.getLsbD (Event.frame e.frame.view).bit = true
      ∧ s.bridge.OtherViews b e.frame.view ∧ s.bridge.SameTimer b ∧ s.bridge.SamePort b
      ∧ b.solverQueue = s.bridge.solverQueue ∧ b.commandShadow = s.bridge.commandShadow
      ∧ b.inFlight = s.bridge.inFlight
      ∧ b.WaitingServed t.bridge s.env e.frame.view
      ∧ t.env = s.env ∧ t.dram = s.dram ∧ t.readData = s.readData ∧ t.pending = s.pending

/-- R83, R84: the measured step of an axis. Unless the valley is flat the step is a candidate of least cost, and among
those the nearest p, then the smaller in size, then the lower; where the valley is flat the step is p. -/
def Obligations.MeasuredStepIsTheBestCandidate : Prop :=
  ∀ (p : Int) (sr m ft : Nat) (cur ref : List Nat),
    let cost := axisCost m cur.length (gradient cur) (gradient ref)
    let ss := candidates p sr m
    let r := measureAxis p sr m ft cur ref
    ss ≠ [] →
    (r.flat = true ↔ (∀ s ∈ ss, cost s = 0) ∨ ∃ lo ∈ ss, ∃ hi ∈ ss, (∀ s ∈ ss, cost lo ≤ cost s ∧ cost s ≤ cost hi)
        ∧ cost hi * ft ≤ cost lo * 16)
    ∧ (r.flat = true → r.d = p)
    ∧ (r.flat = false → r.d ∈ ss ∧ ∀ s ∈ ss, s ≠ r.d →
        cost r.d < cost s ∨ (cost r.d = cost s ∧
          ((r.d - p).natAbs < (s - p).natAbs ∨ ((r.d - p).natAbs = (s - p).natAbs ∧
            (r.d.natAbs < s.natAbs ∨ (r.d.natAbs = s.natAbs ∧ r.d < s))))))

/-- R67, R77, R80, R82, R85 to R88: an axis that is on measures against its prediction, integrates its step, less the leak,
clamped to ±16·M; its offset is the displacement / 16 rounded half away from zero, and the table entry of the frame's bin
moves a quarter of the way; an axis that is off stays 0. With it the prediction, the phase bin and the cost it rests on. -/
def Obligations.AxisIntegratesItsStep : Prop :=
  (∀ (m sr ft l : Nat) (a : Int) (table : List Int) (cur : List Nat) (ref : Option (List Nat)) (bcur bref : Option Nat)
    (selected : Bool),
    let r := solveAxis m sr ft l a table cur ref bcur bref selected
    (m = 0 → r.step = none ∧ r.a = 0 ∧ r.offset = 0 ∧ r.table = table ∧ r.flat = false ∧ r.clamped = false)
    ∧ (0 < m → ∃ d, r.step = some d ∧ (ref = none → d = 0 ∧ r.flat = false)
        ∧ (∀ rows, ref = some rows →
            let q := measureAxis (prediction table m bcur bref selected true) sr m ft cur rows
            d = q.d ∧ r.flat = q.flat)
        ∧ (let raw := a + 16 * d - (a * l).tdiv 256
           (within (16 * m) raw → r.a = raw ∧ r.clamped = false)
            ∧ (raw < -(16 * (m : Int)) → r.a = -(16 * (m : Int)) ∧ r.clamped = true)
            ∧ (16 * (m : Int) < raw → r.a = 16 * (m : Int) ∧ r.clamped = true))
        ∧ within (16 * m) r.a ∧ within m r.offset ∧ Rounded r.a r.offset
        ∧ r.table.length = table.length
        ∧ (∀ n, bcur ≠ some n → r.table[n]? = table[n]?)
        ∧ (∀ n x, bcur = some n → table[n]? = some x →
            ∃ y, r.table[n]? = some y ∧ 4 * (y - x) ≤ r.a - x ∧ r.a - x < 4 * (y - x) + 4)))
  ∧ (∀ (table : List Int) (m : Nat) (bcur bref : Option Nat) (selected valid : Bool),
    let p := prediction table m bcur bref selected valid
    (bcur = none ∨ bref = none ∨ selected = false ∨ valid = false → p = 0)
    ∧ (∀ c r, bcur = some c → bref = some r → selected = true → valid = true →
        ∃ q, Rounded (table.getD c 0 - table.getD r 0) q ∧ (within m q → p = q)
          ∧ (q < -(m : Int) → p = -(m : Int)) ∧ ((m : Int) < q → p = m)))
  ∧ (∀ sn : Snapshot, (sn.phase = none → sn.bin = none)
    ∧ ∀ ph, sn.phase = some ph → 0 < ph.period →
        ∃ n, sn.bin = some n ∧ n < 16 ∧ n * ph.period ≤ 16 * ((sn.time - ph.origin).toNat % ph.period)
          ∧ 16 * ((sn.time - ph.origin).toNat % ph.period) < (n + 1) * ph.period)
  ∧ (∀ (m : Nat) (cur ref : List Nat) (s : Int), cur.length = ref.length → within m s →
    axisCost m cur.length (Machine.gradient cur) (Machine.gradient ref) s
      = (Finset.Ico (m + 1) (cur.length - m)).sum (fun y =>
          (((cur.getD y 0 : Int) - cur.getD (y - 1) 0)
            - ((ref.getD ((y : Int) - s).toNat 0 : Int) - ref.getD ((y : Int) - s - 1).toNat 0)).natAbs))

/-! ## Tiles -/

/-- R102: a tile of the grid is dusty in a frame after learning exactly when its contrast has dropped and its mean has
moved, against the baselines before the step. A dusty tile is HELD or EXPOSED, a clean one CLEAN. -/
def Obligations.DustNeedsBothTests : Prop :=
  ∀ (vw : View) (p : ProfileBuffer) (source : Option Nat) (n : Nat) (x y : Tile), vw.motion.countdown = 0 →
    vw.tiles[n]? = some x → vw.geometry.inGrid n = true →
    (tileStep vw p source).tiles[n]? = some y →
    let m := p.tileS.getD n 0 / 2048
    let c := p.tileG.getD n 0 / 2048
    ((y.state = .held ∨ y.state = .exposed) ↔
        c * 256 ≤ x.bc * vw.motion.active.cr
          ∧ 16 * vw.motion.active.mt ≤ ((16 * (m : Int)) - (x.bm : Int)).natAbs)
    ∧ (y.state = .clean ∨ y.state = .held ∨ y.state = .exposed)

/-- R100 to R107, R109: what the tile step makes of a view: after learning, a tile that is clean, one that is dusty, the map
entry of each and the whiteout; while learning, the baselines and the countdown. -/
def Obligations.TileDecisionsFollowTheRules : Prop :=
  ∀ (vw : View) (p : ProfileBuffer) (source : Option Nat),
    let r := tileStep vw p source
    (∀ (n : Nat) x y en, vw.motion.countdown = 0 → vw.tiles[n]? = some x → vw.geometry.inGrid n = true →
      r.tiles[n]? = some y → r.map[n]? = some en →
      let m := p.tileS.getD n 0 / 2048
      let c := p.tileG.getD n 0 / 2048
      let ha := vw.motion.active.ha
      (y.state = .clean → y.age = 0 ∧ (y.bm : Int) = x.bm + ((16 * (m : Int)) - x.bm).fdiv 8
          ∧ (y.bc : Int) = x.bc + ((16 * (c : Int)) - x.bc).fdiv 8
          ∧ y.source = (match source with
            | some k => some k
            | none => x.source))
      ∧ (y.state ≠ .clean → y.age = min (x.age + 1) 255 ∧ y.source = x.source
          ∧ (y.state = .held ↔ 1 ≤ ha ∧ y.age ≤ ha ∧ r.whiteout = false ∧ x.source.isSome)
          ∧ (y.age ≤ ha → y.bm = x.bm ∧ y.bc = x.bc)
          ∧ (ha < y.age → (y.bm : Int) = x.bm + ((16 * (m : Int)) - x.bm).fdiv 8
              ∧ (y.bc : Int) = x.bc + ((16 * (c : Int)) - x.bc).fdiv 8))
      ∧ (y.state = .held → ∃ k, x.source = some k ∧ en = .held k)
      ∧ (y.state ≠ .held → en = .live))
    ∧ (∀ (n : Nat) x, vw.tiles[n]? = some x → vw.geometry.inGrid n = false →
        r.tiles[n]? = some x ∧ ∀ en, r.map[n]? = some en → en = .live)
    ∧ (vw.motion.countdown = 0 →
        let dusty := r.tiles.zipIdx.countP (fun q =>
          vw.geometry.inGrid q.2 && (q.1.state == .held || q.1.state == .exposed))
        r.dusty = dusty ∧ (r.whiteout = true ↔ vw.geometry.tw * vw.geometry.th * vw.motion.active.wf < 16 * dusty)
          ∧ r.dusty = r.held + r.exposed ∧ r.learning = false ∧ r.seed = vw.seed ∧ r.countdown = 0)
    ∧ (0 < vw.motion.countdown →
        r.countdown = vw.motion.countdown - 1 ∧ (∀ en ∈ r.map, en = MapEntry.live) ∧ r.map.length = 600
          ∧ r.whiteout = false ∧ r.seed = false ∧ r.learning = true ∧ r.dusty = 0 ∧ r.held = 0 ∧ r.exposed = 0
          ∧ ∀ (n : Nat) x y, vw.tiles[n]? = some x → vw.geometry.inGrid n = true → r.tiles[n]? = some y →
              let m := p.tileS.getD n 0 / 2048
              let c := p.tileG.getD n 0 / 2048
              y.age = 0
                ∧ (vw.seed = true → y.bm = 16 * m ∧ y.bc = 16 * c)
                ∧ (vw.seed = false → (y.bm : Int) = x.bm + ((16 * (m : Int)) - x.bm).fdiv 8
                    ∧ (y.bc : Int) = x.bc + ((16 * (c : Int)) - x.bc).fdiv 8)
                ∧ (vw.motion.countdown = 1 → y.state = .clean ∧ y.source = (match source with
                    | some k => some k
                    | none => x.source))
                ∧ (vw.motion.countdown ≠ 1 → y.state = .learning ∧ y.source = x.source))

/-! ## Rotation timing -/

/-- R56, R59, R60, R204: an edge in NONE, RISE or FALL mode. At a held time every selected edge after the first is a glitch,
whatever the time of the latest accepted one (log 26). -/
def Obligations.EdgesInSingleModesAreJudged : Prop :=
  ∀ (s : State) (i : RotId) (tsref : TimeReference), s.quiet = true → s.env.resetAsserted = false → (s.bridge.rot i).mode ≠ .both →
    let r := s.bridge.rot i
    let up := !r.level
    let selected := (r.mode = .rise ∧ up = true) ∨ (r.mode = .fall ∧ up = false)
    let glitch := ∃ t rest, r.times = t :: rest ∧ 0 < r.count
      ∧ (tsref = .held ∨ (s.env.timestamp - t).toNat < 500)
    ∃ t, exec (.rotationEdge ⟨i, tsref⟩) s = .next t
      ∧ (t.bridge.rot i).level = up ∧ (t.bridge.rot i).mode = r.mode
      ∧ (¬ selected → t.bridge.rot i = { r with level := up } ∧ s.bridge.glitchA = t.bridge.glitchA
          ∧ s.bridge.glitchB = t.bridge.glitchB)
      ∧ (selected → glitch → t.bridge.rot i = { r with level := up }
          ∧ t.bridge.glitchA = s.bridge.glitchA + (if i = .rota then 1 else 0)
          ∧ t.bridge.glitchB = s.bridge.glitchB + (if i = .rotb then 1 else 0))
      ∧ (selected → ¬ glitch →
          (t.bridge.rot i).count = min (r.count + 1) 3
            ∧ (t.bridge.rot i).times = (s.env.timestamp :: r.times).take 3
            ∧ t.bridge.glitchA = s.bridge.glitchA ∧ t.bridge.glitchB = s.bridge.glitchB
            ∧ (r.count = 0 → (t.bridge.rot i).state = .acquire)
            ∧ (∀ u rest, r.times = u :: rest → 0 < r.count → (t.bridge.rot i).state = .locked
                ∧ (t.bridge.rot i).period = some (s.env.timestamp - u).toNat
                ∧ (t.bridge.rot i).origin = some s.env.timestamp))
      ∧ (∀ j, j ≠ i → t.bridge.rot j = s.bridge.rot j)
      ∧ t.bridge.views = s.bridge.views ∧ t.bridge.ownWrites = s.bridge.ownWrites ∧ s.bridge.SamePort t.bridge
      ∧ s.bridge.SameSolver t.bridge ∧ s.ShadowsAgree t ∧ t.env = s.env ∧ t.dram = s.dram
      ∧ t.readData = s.readData ∧ t.pending = s.pending

/-- R56, R59, R61, R62, R204: an edge in BOTH mode: within the glitch window, or at a held time (log 26), it counts a glitch and
changes the level alone; past it it alternates, or breaks the polarity. -/
def Obligations.EdgesInBothModeAlternate : Prop :=
  ∀ (s : State) (i : RotId) (tsref : TimeReference), s.quiet = true → s.env.resetAsserted = false → (s.bridge.rot i).mode = .both →
    let r := s.bridge.rot i
    let p : Polarity := if r.level then .falling else .rising
    let glitch := ∃ u rest, r.times = u :: rest ∧ 0 < r.count
      ∧ (tsref = .held ∨ (s.env.timestamp - u).toNat < 500)
    ∃ t, exec (.rotationEdge ⟨i, tsref⟩) s = .next t
      ∧ (t.bridge.rot i).level = !r.level ∧ (t.bridge.rot i).mode = r.mode
      ∧ (glitch → t.bridge.rot i = { r with level := !r.level }
          ∧ t.bridge.glitchA = s.bridge.glitchA + (if i = .rota then 1 else 0)
          ∧ t.bridge.glitchB = s.bridge.glitchB + (if i = .rotb then 1 else 0))
      ∧ (¬ glitch → t.bridge.glitchA = s.bridge.glitchA ∧ t.bridge.glitchB = s.bridge.glitchB
          ∧ (t.bridge.rot i).lastPolarity = some p)
      ∧ (¬ glitch → r.lastPolarity = some p →
          (t.bridge.rot i).state = .acquire ∧ (t.bridge.rot i).count = 1
            ∧ (t.bridge.rot i).times = [s.env.timestamp] ∧ (t.bridge.rot i).period = none
            ∧ (t.bridge.rot i).origin = none
            ∧ (t.bridge.rot i).lastRising = (if p = .rising then some s.env.timestamp else none))
      ∧ (¬ glitch → r.lastPolarity ≠ some p →
          (t.bridge.rot i).count = min (r.count + 1) 3
            ∧ (t.bridge.rot i).times = (s.env.timestamp :: r.times).take 3
            ∧ (t.bridge.rot i).lastRising = (if p = .rising then some s.env.timestamp else r.lastRising)
            ∧ (r.count < 2 → (t.bridge.rot i).state = .acquire)
            ∧ (∀ u1 u2 rest, r.times = u1 :: u2 :: rest → 2 ≤ r.count →
                (t.bridge.rot i).state = .locked
                  ∧ (t.bridge.rot i).period = some (s.env.timestamp - u2).toNat
                  ∧ (t.bridge.rot i).origin = (t.bridge.rot i).lastRising))
      ∧ (∀ j, j ≠ i → t.bridge.rot j = s.bridge.rot j)
      ∧ t.bridge.views = s.bridge.views ∧ t.bridge.ownWrites = s.bridge.ownWrites ∧ s.bridge.SamePort t.bridge
      ∧ s.bridge.SameSolver t.bridge ∧ s.ShadowsAgree t ∧ t.env = s.env ∧ t.dram = s.dram
      ∧ t.readData = s.readData ∧ t.pending = s.pending

/-- R63: the stale timeout. -/
def Obligations.StaleTimeoutRestartsAcquisition : Prop :=
  ∀ (s : State) (i : RotId), s.quiet = true →
    let r := s.bridge.rot i
    let due := ∃ u rest, r.times = u :: rest ∧ 0 < r.count ∧ 1048576 ≤ (s.env.timestamp - u).toNat
    (¬ due → exec (.staleTimeout i) s = .next s)
    ∧ (due → ∃ t, exec (.staleTimeout i) s = .next t
        ∧ (t.bridge.rot i).count = 0 ∧ (t.bridge.rot i).times = [] ∧ (t.bridge.rot i).period = none
        ∧ (t.bridge.rot i).origin = none ∧ (t.bridge.rot i).lastPolarity = none
        ∧ (t.bridge.rot i).lastRising = none ∧ (t.bridge.rot i).mode = r.mode ∧ (t.bridge.rot i).level = r.level
        ∧ (r.state = .locked → (t.bridge.rot i).state = .stale
            ∧ t.bridge.events.getLsbD (if i = .rota then 17 else 18) = true)
        ∧ (r.state ≠ .locked → (t.bridge.rot i).state = r.state ∧ t.bridge.events = s.bridge.events)
        ∧ (∀ j, j ≠ i → t.bridge.rot j = s.bridge.rot j)
        ∧ t.bridge.views = s.bridge.views ∧ t.bridge.mask = s.bridge.mask ∧ t.bridge.ownWrites = s.bridge.ownWrites
        ∧ t.bridge.glitchA = s.bridge.glitchA ∧ t.bridge.glitchB = s.bridge.glitchB
        ∧ t.bridge.descriptors = s.bridge.descriptors ∧ t.bridge.commandShadow = s.bridge.commandShadow
        ∧ t.bridge.owners = s.bridge.owners ∧ s.bridge.SamePort t.bridge ∧ s.bridge.SameSolver t.bridge
        ∧ s.bridge.OtherEvents t.bridge [rotEvent i] ∧ t.env = s.env ∧ t.dram = s.dram
        ∧ t.readData = s.readData ∧ t.pending = s.pending)

/-! ## Reports -/

/-- R187, R188: the placing of a report. -/
def Obligations.ReportIsPlacedOrLost : Prop :=
  ∀ (env : Env) (br : Bridge) (r : Report), br.position < 32 → br.owners.length = 32 →
    let br' := br.report env r
    (br.owners[br.position]? = some .bridge →
      (∃ o, br'.ownWrites = br.ownWrites ++ [o] ∧ o.kind = .report ∧ o.passes = 0
        ∧ o.address = controlBase env.straps + 0x1000 + 32 * br.position ∧ o.bytes = r.bytes ∧ o.bytes.length = 32
        ∧ o.bytes[31]? = some 0)
      ∧ br'.owners[br.position]? = some .software
      ∧ (∀ j, j ≠ br.position → br'.owners[j]? = br.owners[j]?)
      ∧ br'.position = (br.position + 1) % 32 ∧ br'.views = br.views ∧ br'.events = br.events)
    ∧ (br.owners[br.position]? = some .software →
      br'.ownWrites = br.ownWrites ∧ br'.owners = br.owners ∧ br'.position = br.position
      ∧ (br'.views.get r.frame.view).counters.lost = (br.views.get r.frame.view).counters.lost + 1
      ∧ br'.events.getLsbD (Event.lost r.frame.view).bit = true
      ∧ br.OtherEvents br' [.lost r.frame.view] ∧ br.OtherViews br' r.frame.view)

/-! ## Invariants -/

/-- The four invariants hold right after reset; the last, R153's, after a release with every straps, for the region may be
active or not (State.reset's straps, log 7, make it active). -/
def Obligations.ResetKeepsTheInvariants : Prop :=
  State.reset.Shaped ∧ State.reset.bridge.Steady ∧ State.reset.bridge.HoldLaw ∧ State.reset.SilentWhenInactive
    ∧ ∀ (s : State) (straps : Straps) (a b : Bool), s.env.resetAsserted = true →
        ∃ t, exec (.resetRelease straps a b) s = .next t ∧ t.env.straps = straps ∧ t.SilentWhenInactive

/-- R1, R70, R143, R159, R160, R179, R186: every step keeps the sizes of queues, rings and shadows and the canonical form
of DRAM. -/
def Obligations.StepsKeepTheShape : Prop := ∀ s t : State, s.Shaped → step s = .next t → t.Shaped

/-- R86, R76, R42, R87: every step keeps displacements, phase tables and offsets within the margins. -/
def Obligations.StepsKeepMotionInBounds : Prop :=
  ∀ s t : State, s.bridge.Steady → step s = .next t → t.bridge.Steady

/-- R108, R111: after every step each HELD entry names another slot of its view, and that slot is READY. -/
def Obligations.StepsKeepTheHoldLaw : Prop :=
  ∀ s t : State, s.bridge.HoldLaw → step s = .next t → t.bridge.HoldLaw

/-- R153: every step keeps a bridge whose control region is inactive, or whose RESETn is asserted, silent. -/
def Obligations.StepsKeepAnInactiveBridgeSilent : Prop :=
  ∀ s t : State, s.SilentWhenInactive → step s = .next t → t.SilentWhenInactive
end

