-- ==== Sys2Proof/Laws/State.lean ====
section
/-! SUPPORT. Laws/State.lean: what each shared operation of the bridge leaves in each field, one lemma per field, for
simp. -/

namespace Sys2Proof.Machine

namespace Laws

/-! ### raise -/

@[simp] theorem raise_rota (br : Bridge) (e : Event) : (br.raise e).rota = br.rota := rfl
@[simp] theorem raise_rotb (br : Bridge) (e : Event) : (br.raise e).rotb = br.rotb := rfl
@[simp] theorem raise_views (br : Bridge) (e : Event) : (br.raise e).views = br.views := rfl
@[simp] theorem raise_solver (br : Bridge) (e : Event) : (br.raise e).solver = br.solver := rfl
@[simp] theorem raise_solverQueue (br : Bridge) (e : Event) : (br.raise e).solverQueue = br.solverQueue := rfl
@[simp] theorem raise_events (br : Bridge) (e : Event) :
    (br.raise e).events = br.events ||| e.word := rfl
@[simp] theorem raise_mask (br : Bridge) (e : Event) : (br.raise e).mask = br.mask := rfl
@[simp] theorem raise_descriptors (br : Bridge) (e : Event) : (br.raise e).descriptors = br.descriptors := rfl
@[simp] theorem raise_commandShadow (br : Bridge) (e : Event) :
    (br.raise e).commandShadow = br.commandShadow := rfl
@[simp] theorem raise_nextIndex (br : Bridge) (e : Event) : (br.raise e).nextIndex = br.nextIndex := rfl
@[simp] theorem raise_inFlight (br : Bridge) (e : Event) : (br.raise e).inFlight = br.inFlight := rfl
@[simp] theorem raise_owners (br : Bridge) (e : Event) : (br.raise e).owners = br.owners := rfl
@[simp] theorem raise_position (br : Bridge) (e : Event) : (br.raise e).position = br.position := rfl
@[simp] theorem raise_glitchA (br : Bridge) (e : Event) : (br.raise e).glitchA = br.glitchA := rfl
@[simp] theorem raise_glitchB (br : Bridge) (e : Event) : (br.raise e).glitchB = br.glitchB := rfl
@[simp] theorem raise_outOfRange (br : Bridge) (e : Event) : (br.raise e).outOfRange = br.outOfRange := rfl
@[simp] theorem raise_requests (br : Bridge) (e : Event) : (br.raise e).requests = br.requests := rfl
@[simp] theorem raise_busWait (br : Bridge) (e : Event) : (br.raise e).busWait = br.busWait := rfl
@[simp] theorem raise_accepted (br : Bridge) (e : Event) : (br.raise e).accepted = br.accepted := rfl
@[simp] theorem raise_stream (br : Bridge) (e : Event) : (br.raise e).stream = br.stream := rfl
@[simp] theorem raise_ownWrites (br : Bridge) (e : Event) : (br.raise e).ownWrites = br.ownWrites := rfl
@[simp] theorem raise_births (br : Bridge) (e : Event) : (br.raise e).births = br.births := rfl
@[simp] theorem raise_assemblies (br : Bridge) (e : Event) : (br.raise e).assemblies = br.assemblies := rfl

/-! ### raiseIf -/

@[simp] theorem raiseIf_rota (br : Bridge) (c : Bool) (e : Event) :
    (br.raiseIf c e).rota = br.rota := by cases c <;> rfl
@[simp] theorem raiseIf_rotb (br : Bridge) (c : Bool) (e : Event) :
    (br.raiseIf c e).rotb = br.rotb := by cases c <;> rfl
@[simp] theorem raiseIf_views (br : Bridge) (c : Bool) (e : Event) :
    (br.raiseIf c e).views = br.views := by cases c <;> rfl
@[simp] theorem raiseIf_solver (br : Bridge) (c : Bool) (e : Event) :
    (br.raiseIf c e).solver = br.solver := by cases c <;> rfl
@[simp] theorem raiseIf_solverQueue (br : Bridge) (c : Bool) (e : Event) :
    (br.raiseIf c e).solverQueue = br.solverQueue := by cases c <;> rfl
@[simp] theorem raiseIf_mask (br : Bridge) (c : Bool) (e : Event) :
    (br.raiseIf c e).mask = br.mask := by cases c <;> rfl
@[simp] theorem raiseIf_descriptors (br : Bridge) (c : Bool) (e : Event) :
    (br.raiseIf c e).descriptors = br.descriptors := by cases c <;> rfl
@[simp] theorem raiseIf_commandShadow (br : Bridge) (c : Bool) (e : Event) :
    (br.raiseIf c e).commandShadow = br.commandShadow := by cases c <;> rfl
@[simp] theorem raiseIf_nextIndex (br : Bridge) (c : Bool) (e : Event) :
    (br.raiseIf c e).nextIndex = br.nextIndex := by cases c <;> rfl
@[simp] theorem raiseIf_inFlight (br : Bridge) (c : Bool) (e : Event) :
    (br.raiseIf c e).inFlight = br.inFlight := by cases c <;> rfl
@[simp] theorem raiseIf_owners (br : Bridge) (c : Bool) (e : Event) :
    (br.raiseIf c e).owners = br.owners := by cases c <;> rfl
@[simp] theorem raiseIf_position (br : Bridge) (c : Bool) (e : Event) :
    (br.raiseIf c e).position = br.position := by cases c <;> rfl
@[simp] theorem raiseIf_glitchA (br : Bridge) (c : Bool) (e : Event) :
    (br.raiseIf c e).glitchA = br.glitchA := by cases c <;> rfl
@[simp] theorem raiseIf_glitchB (br : Bridge) (c : Bool) (e : Event) :
    (br.raiseIf c e).glitchB = br.glitchB := by cases c <;> rfl
@[simp] theorem raiseIf_outOfRange (br : Bridge) (c : Bool) (e : Event) :
    (br.raiseIf c e).outOfRange = br.outOfRange := by cases c <;> rfl
@[simp] theorem raiseIf_requests (br : Bridge) (c : Bool) (e : Event) :
    (br.raiseIf c e).requests = br.requests := by cases c <;> rfl
@[simp] theorem raiseIf_busWait (br : Bridge) (c : Bool) (e : Event) :
    (br.raiseIf c e).busWait = br.busWait := by cases c <;> rfl
@[simp] theorem raiseIf_accepted (br : Bridge) (c : Bool) (e : Event) :
    (br.raiseIf c e).accepted = br.accepted := by cases c <;> rfl
@[simp] theorem raiseIf_stream (br : Bridge) (c : Bool) (e : Event) :
    (br.raiseIf c e).stream = br.stream := by cases c <;> rfl
@[simp] theorem raiseIf_ownWrites (br : Bridge) (c : Bool) (e : Event) :
    (br.raiseIf c e).ownWrites = br.ownWrites := by cases c <;> rfl
@[simp] theorem raiseIf_births (br : Bridge) (c : Bool) (e : Event) :
    (br.raiseIf c e).births = br.births := by cases c <;> rfl
@[simp] theorem raiseIf_assemblies (br : Bridge) (c : Bool) (e : Event) :
    (br.raiseIf c e).assemblies = br.assemblies := by cases c <;> rfl

/-! ### modView -/

@[simp] theorem modView_rota (br : Bridge) (v : Fin 4) (f : View → View) :
    (br.modView v f).rota = br.rota := rfl
@[simp] theorem modView_rotb (br : Bridge) (v : Fin 4) (f : View → View) :
    (br.modView v f).rotb = br.rotb := rfl
@[simp] theorem modView_views (br : Bridge) (v : Fin 4) (f : View → View) :
    (br.modView v f).views = br.views.set v (f (br.views.get v)) := rfl
@[simp] theorem modView_solver (br : Bridge) (v : Fin 4) (f : View → View) :
    (br.modView v f).solver = br.solver := rfl
@[simp] theorem modView_solverQueue (br : Bridge) (v : Fin 4) (f : View → View) :
    (br.modView v f).solverQueue = br.solverQueue := rfl
@[simp] theorem modView_events (br : Bridge) (v : Fin 4) (f : View → View) :
    (br.modView v f).events = br.events := rfl
@[simp] theorem modView_mask (br : Bridge) (v : Fin 4) (f : View → View) :
    (br.modView v f).mask = br.mask := rfl
@[simp] theorem modView_descriptors (br : Bridge) (v : Fin 4) (f : View → View) :
    (br.modView v f).descriptors = br.descriptors := rfl
@[simp] theorem modView_commandShadow (br : Bridge) (v : Fin 4) (f : View → View) :
    (br.modView v f).commandShadow = br.commandShadow := rfl
@[simp] theorem modView_nextIndex (br : Bridge) (v : Fin 4) (f : View → View) :
    (br.modView v f).nextIndex = br.nextIndex := rfl
@[simp] theorem modView_inFlight (br : Bridge) (v : Fin 4) (f : View → View) :
    (br.modView v f).inFlight = br.inFlight := rfl
@[simp] theorem modView_owners (br : Bridge) (v : Fin 4) (f : View → View) :
    (br.modView v f).owners = br.owners := rfl
@[simp] theorem modView_position (br : Bridge) (v : Fin 4) (f : View → View) :
    (br.modView v f).position = br.position := rfl
@[simp] theorem modView_glitchA (br : Bridge) (v : Fin 4) (f : View → View) :
    (br.modView v f).glitchA = br.glitchA := rfl
@[simp] theorem modView_glitchB (br : Bridge) (v : Fin 4) (f : View → View) :
    (br.modView v f).glitchB = br.glitchB := rfl
@[simp] theorem modView_outOfRange (br : Bridge) (v : Fin 4) (f : View → View) :
    (br.modView v f).outOfRange = br.outOfRange := rfl
@[simp] theorem modView_requests (br : Bridge) (v : Fin 4) (f : View → View) :
    (br.modView v f).requests = br.requests := rfl
@[simp] theorem modView_busWait (br : Bridge) (v : Fin 4) (f : View → View) :
    (br.modView v f).busWait = br.busWait := rfl
@[simp] theorem modView_accepted (br : Bridge) (v : Fin 4) (f : View → View) :
    (br.modView v f).accepted = br.accepted := rfl
@[simp] theorem modView_stream (br : Bridge) (v : Fin 4) (f : View → View) :
    (br.modView v f).stream = br.stream := rfl
@[simp] theorem modView_ownWrites (br : Bridge) (v : Fin 4) (f : View → View) :
    (br.modView v f).ownWrites = br.ownWrites := rfl
@[simp] theorem modView_births (br : Bridge) (v : Fin 4) (f : View → View) :
    (br.modView v f).births = br.births := rfl
@[simp] theorem modView_assemblies (br : Bridge) (v : Fin 4) (f : View → View) :
    (br.modView v f).assemblies = br.assemblies := rfl

/-! ### placeOwn -/

@[simp] theorem placeOwn_rota (br : Bridge) (k : OwnKind) (a : Nat) (bs : List Byte) :
    (br.placeOwn k a bs).rota = br.rota := rfl
@[simp] theorem placeOwn_rotb (br : Bridge) (k : OwnKind) (a : Nat) (bs : List Byte) :
    (br.placeOwn k a bs).rotb = br.rotb := rfl
@[simp] theorem placeOwn_views (br : Bridge) (k : OwnKind) (a : Nat) (bs : List Byte) :
    (br.placeOwn k a bs).views = br.views := rfl
@[simp] theorem placeOwn_solver (br : Bridge) (k : OwnKind) (a : Nat) (bs : List Byte) :
    (br.placeOwn k a bs).solver = br.solver := rfl
@[simp] theorem placeOwn_solverQueue (br : Bridge) (k : OwnKind) (a : Nat) (bs : List Byte) :
    (br.placeOwn k a bs).solverQueue = br.solverQueue := rfl
@[simp] theorem placeOwn_events (br : Bridge) (k : OwnKind) (a : Nat) (bs : List Byte) :
    (br.placeOwn k a bs).events = br.events := rfl
@[simp] theorem placeOwn_mask (br : Bridge) (k : OwnKind) (a : Nat) (bs : List Byte) :
    (br.placeOwn k a bs).mask = br.mask := rfl
@[simp] theorem placeOwn_descriptors (br : Bridge) (k : OwnKind) (a : Nat) (bs : List Byte) :
    (br.placeOwn k a bs).descriptors = br.descriptors := rfl
@[simp] theorem placeOwn_commandShadow (br : Bridge) (k : OwnKind) (a : Nat) (bs : List Byte) :
    (br.placeOwn k a bs).commandShadow = br.commandShadow := rfl
@[simp] theorem placeOwn_nextIndex (br : Bridge) (k : OwnKind) (a : Nat) (bs : List Byte) :
    (br.placeOwn k a bs).nextIndex = br.nextIndex := rfl
@[simp] theorem placeOwn_inFlight (br : Bridge) (k : OwnKind) (a : Nat) (bs : List Byte) :
    (br.placeOwn k a bs).inFlight = br.inFlight := rfl
@[simp] theorem placeOwn_owners (br : Bridge) (k : OwnKind) (a : Nat) (bs : List Byte) :
    (br.placeOwn k a bs).owners = br.owners := rfl
@[simp] theorem placeOwn_position (br : Bridge) (k : OwnKind) (a : Nat) (bs : List Byte) :
    (br.placeOwn k a bs).position = br.position := rfl
@[simp] theorem placeOwn_glitchA (br : Bridge) (k : OwnKind) (a : Nat) (bs : List Byte) :
    (br.placeOwn k a bs).glitchA = br.glitchA := rfl
@[simp] theorem placeOwn_glitchB (br : Bridge) (k : OwnKind) (a : Nat) (bs : List Byte) :
    (br.placeOwn k a bs).glitchB = br.glitchB := rfl
@[simp] theorem placeOwn_outOfRange (br : Bridge) (k : OwnKind) (a : Nat) (bs : List Byte) :
    (br.placeOwn k a bs).outOfRange = br.outOfRange := rfl
@[simp] theorem placeOwn_requests (br : Bridge) (k : OwnKind) (a : Nat) (bs : List Byte) :
    (br.placeOwn k a bs).requests = br.requests := rfl
@[simp] theorem placeOwn_busWait (br : Bridge) (k : OwnKind) (a : Nat) (bs : List Byte) :
    (br.placeOwn k a bs).busWait = br.busWait := rfl
@[simp] theorem placeOwn_accepted (br : Bridge) (k : OwnKind) (a : Nat) (bs : List Byte) :
    (br.placeOwn k a bs).accepted = br.accepted := rfl
@[simp] theorem placeOwn_stream (br : Bridge) (k : OwnKind) (a : Nat) (bs : List Byte) :
    (br.placeOwn k a bs).stream = br.stream := rfl
@[simp] theorem placeOwn_ownWrites (br : Bridge) (k : OwnKind) (a : Nat) (bs : List Byte) :
    (br.placeOwn k a bs).ownWrites = br.ownWrites ++ [{ kind := k, birth := br.births, address := a, bytes := bs, passes := 0 }] := rfl
@[simp] theorem placeOwn_births (br : Bridge) (k : OwnKind) (a : Nat) (bs : List Byte) :
    (br.placeOwn k a bs).births = br.births + 1 := rfl
@[simp] theorem placeOwn_assemblies (br : Bridge) (k : OwnKind) (a : Nat) (bs : List Byte) :
    (br.placeOwn k a bs).assemblies = br.assemblies := rfl

/-! ### breakHolds -/

@[simp] theorem breakHolds_rota (br : Bridge) (v : Fin 4) (p : MapEntry → Bool) (also : Bool) :
    (br.breakHolds v p also).rota = br.rota := by unfold Bridge.breakHolds; simp
@[simp] theorem breakHolds_rotb (br : Bridge) (v : Fin 4) (p : MapEntry → Bool) (also : Bool) :
    (br.breakHolds v p also).rotb = br.rotb := by unfold Bridge.breakHolds; simp
@[simp] theorem breakHolds_solver (br : Bridge) (v : Fin 4) (p : MapEntry → Bool) (also : Bool) :
    (br.breakHolds v p also).solver = br.solver := by unfold Bridge.breakHolds; simp
@[simp] theorem breakHolds_solverQueue (br : Bridge) (v : Fin 4) (p : MapEntry → Bool) (also : Bool) :
    (br.breakHolds v p also).solverQueue = br.solverQueue := by unfold Bridge.breakHolds; simp
@[simp] theorem breakHolds_mask (br : Bridge) (v : Fin 4) (p : MapEntry → Bool) (also : Bool) :
    (br.breakHolds v p also).mask = br.mask := by unfold Bridge.breakHolds; simp
@[simp] theorem breakHolds_descriptors (br : Bridge) (v : Fin 4) (p : MapEntry → Bool) (also : Bool) :
    (br.breakHolds v p also).descriptors = br.descriptors := by unfold Bridge.breakHolds; simp
@[simp] theorem breakHolds_commandShadow (br : Bridge) (v : Fin 4) (p : MapEntry → Bool) (also : Bool) :
    (br.breakHolds v p also).commandShadow = br.commandShadow := by unfold Bridge.breakHolds; simp
@[simp] theorem breakHolds_nextIndex (br : Bridge) (v : Fin 4) (p : MapEntry → Bool) (also : Bool) :
    (br.breakHolds v p also).nextIndex = br.nextIndex := by unfold Bridge.breakHolds; simp
@[simp] theorem breakHolds_inFlight (br : Bridge) (v : Fin 4) (p : MapEntry → Bool) (also : Bool) :
    (br.breakHolds v p also).inFlight = br.inFlight := by unfold Bridge.breakHolds; simp
@[simp] theorem breakHolds_owners (br : Bridge) (v : Fin 4) (p : MapEntry → Bool) (also : Bool) :
    (br.breakHolds v p also).owners = br.owners := by unfold Bridge.breakHolds; simp
@[simp] theorem breakHolds_position (br : Bridge) (v : Fin 4) (p : MapEntry → Bool) (also : Bool) :
    (br.breakHolds v p also).position = br.position := by unfold Bridge.breakHolds; simp
@[simp] theorem breakHolds_glitchA (br : Bridge) (v : Fin 4) (p : MapEntry → Bool) (also : Bool) :
    (br.breakHolds v p also).glitchA = br.glitchA := by unfold Bridge.breakHolds; simp
@[simp] theorem breakHolds_glitchB (br : Bridge) (v : Fin 4) (p : MapEntry → Bool) (also : Bool) :
    (br.breakHolds v p also).glitchB = br.glitchB := by unfold Bridge.breakHolds; simp
@[simp] theorem breakHolds_outOfRange (br : Bridge) (v : Fin 4) (p : MapEntry → Bool) (also : Bool) :
    (br.breakHolds v p also).outOfRange = br.outOfRange := by unfold Bridge.breakHolds; simp
@[simp] theorem breakHolds_requests (br : Bridge) (v : Fin 4) (p : MapEntry → Bool) (also : Bool) :
    (br.breakHolds v p also).requests = br.requests := by unfold Bridge.breakHolds; simp
@[simp] theorem breakHolds_busWait (br : Bridge) (v : Fin 4) (p : MapEntry → Bool) (also : Bool) :
    (br.breakHolds v p also).busWait = br.busWait := by unfold Bridge.breakHolds; simp
@[simp] theorem breakHolds_accepted (br : Bridge) (v : Fin 4) (p : MapEntry → Bool) (also : Bool) :
    (br.breakHolds v p also).accepted = br.accepted := by unfold Bridge.breakHolds; simp
@[simp] theorem breakHolds_stream (br : Bridge) (v : Fin 4) (p : MapEntry → Bool) (also : Bool) :
    (br.breakHolds v p also).stream = br.stream := by unfold Bridge.breakHolds; simp
@[simp] theorem breakHolds_ownWrites (br : Bridge) (v : Fin 4) (p : MapEntry → Bool) (also : Bool) :
    (br.breakHolds v p also).ownWrites = br.ownWrites := by unfold Bridge.breakHolds; simp
@[simp] theorem breakHolds_births (br : Bridge) (v : Fin 4) (p : MapEntry → Bool) (also : Bool) :
    (br.breakHolds v p also).births = br.births := by unfold Bridge.breakHolds; simp
@[simp] theorem breakHolds_assemblies (br : Bridge) (v : Fin 4) (p : MapEntry → Bool) (also : Bool) :
    (br.breakHolds v p also).assemblies = br.assemblies := by unfold Bridge.breakHolds; simp

/-! ### report -/

@[simp] theorem report_rota (br : Bridge) (env : Env) (r : Report) :
    (br.report env r).rota = br.rota := by unfold Bridge.report; split <;> rfl
@[simp] theorem report_rotb (br : Bridge) (env : Env) (r : Report) :
    (br.report env r).rotb = br.rotb := by unfold Bridge.report; split <;> rfl
@[simp] theorem report_solver (br : Bridge) (env : Env) (r : Report) :
    (br.report env r).solver = br.solver := by unfold Bridge.report; split <;> rfl
@[simp] theorem report_solverQueue (br : Bridge) (env : Env) (r : Report) :
    (br.report env r).solverQueue = br.solverQueue := by unfold Bridge.report; split <;> rfl
@[simp] theorem report_mask (br : Bridge) (env : Env) (r : Report) :
    (br.report env r).mask = br.mask := by unfold Bridge.report; split <;> rfl
@[simp] theorem report_descriptors (br : Bridge) (env : Env) (r : Report) :
    (br.report env r).descriptors = br.descriptors := by unfold Bridge.report; split <;> rfl
@[simp] theorem report_commandShadow (br : Bridge) (env : Env) (r : Report) :
    (br.report env r).commandShadow = br.commandShadow := by unfold Bridge.report; split <;> rfl
@[simp] theorem report_nextIndex (br : Bridge) (env : Env) (r : Report) :
    (br.report env r).nextIndex = br.nextIndex := by unfold Bridge.report; split <;> rfl
@[simp] theorem report_inFlight (br : Bridge) (env : Env) (r : Report) :
    (br.report env r).inFlight = br.inFlight := by unfold Bridge.report; split <;> rfl
@[simp] theorem report_glitchA (br : Bridge) (env : Env) (r : Report) :
    (br.report env r).glitchA = br.glitchA := by unfold Bridge.report; split <;> rfl
@[simp] theorem report_glitchB (br : Bridge) (env : Env) (r : Report) :
    (br.report env r).glitchB = br.glitchB := by unfold Bridge.report; split <;> rfl
@[simp] theorem report_outOfRange (br : Bridge) (env : Env) (r : Report) :
    (br.report env r).outOfRange = br.outOfRange := by unfold Bridge.report; split <;> rfl
@[simp] theorem report_requests (br : Bridge) (env : Env) (r : Report) :
    (br.report env r).requests = br.requests := by unfold Bridge.report; split <;> rfl
@[simp] theorem report_busWait (br : Bridge) (env : Env) (r : Report) :
    (br.report env r).busWait = br.busWait := by unfold Bridge.report; split <;> rfl
@[simp] theorem report_accepted (br : Bridge) (env : Env) (r : Report) :
    (br.report env r).accepted = br.accepted := by unfold Bridge.report; split <;> rfl
@[simp] theorem report_stream (br : Bridge) (env : Env) (r : Report) :
    (br.report env r).stream = br.stream := by unfold Bridge.report; split <;> rfl
@[simp] theorem report_assemblies (br : Bridge) (env : Env) (r : Report) :
    (br.report env r).assemblies = br.assemblies := by unfold Bridge.report; split <;> rfl

/-! ### dropWaiting -/

@[simp] theorem dropWaiting_rota (br : Bridge) (v : Fin 4) : (br.dropWaiting v).rota = br.rota := rfl
@[simp] theorem dropWaiting_rotb (br : Bridge) (v : Fin 4) : (br.dropWaiting v).rotb = br.rotb := rfl
@[simp] theorem dropWaiting_views (br : Bridge) (v : Fin 4) : (br.dropWaiting v).views = br.views := rfl
@[simp] theorem dropWaiting_solver (br : Bridge) (v : Fin 4) : (br.dropWaiting v).solver = br.solver := rfl
@[simp] theorem dropWaiting_solverQueue (br : Bridge) (v : Fin 4) :
    (br.dropWaiting v).solverQueue = br.solverQueue.filter (fun e => e.frame.view != v) := rfl
@[simp] theorem dropWaiting_events (br : Bridge) (v : Fin 4) : (br.dropWaiting v).events = br.events := rfl
@[simp] theorem dropWaiting_mask (br : Bridge) (v : Fin 4) : (br.dropWaiting v).mask = br.mask := rfl
@[simp] theorem dropWaiting_descriptors (br : Bridge) (v : Fin 4) :
    (br.dropWaiting v).descriptors = br.descriptors := rfl
@[simp] theorem dropWaiting_commandShadow (br : Bridge) (v : Fin 4) :
    (br.dropWaiting v).commandShadow = br.commandShadow := rfl
@[simp] theorem dropWaiting_nextIndex (br : Bridge) (v : Fin 4) :
    (br.dropWaiting v).nextIndex = br.nextIndex := rfl
@[simp] theorem dropWaiting_inFlight (br : Bridge) (v : Fin 4) :
    (br.dropWaiting v).inFlight = br.inFlight := rfl
@[simp] theorem dropWaiting_owners (br : Bridge) (v : Fin 4) : (br.dropWaiting v).owners = br.owners := rfl
@[simp] theorem dropWaiting_position (br : Bridge) (v : Fin 4) :
    (br.dropWaiting v).position = br.position := rfl
@[simp] theorem dropWaiting_glitchA (br : Bridge) (v : Fin 4) : (br.dropWaiting v).glitchA = br.glitchA := rfl
@[simp] theorem dropWaiting_glitchB (br : Bridge) (v : Fin 4) : (br.dropWaiting v).glitchB = br.glitchB := rfl
@[simp] theorem dropWaiting_outOfRange (br : Bridge) (v : Fin 4) :
    (br.dropWaiting v).outOfRange = br.outOfRange := rfl
@[simp] theorem dropWaiting_requests (br : Bridge) (v : Fin 4) :
    (br.dropWaiting v).requests = br.requests := rfl
@[simp] theorem dropWaiting_busWait (br : Bridge) (v : Fin 4) : (br.dropWaiting v).busWait = br.busWait := rfl
@[simp] theorem dropWaiting_accepted (br : Bridge) (v : Fin 4) :
    (br.dropWaiting v).accepted = br.accepted := rfl
@[simp] theorem dropWaiting_stream (br : Bridge) (v : Fin 4) : (br.dropWaiting v).stream = br.stream := rfl
@[simp] theorem dropWaiting_ownWrites (br : Bridge) (v : Fin 4) :
    (br.dropWaiting v).ownWrites = br.ownWrites := rfl
@[simp] theorem dropWaiting_births (br : Bridge) (v : Fin 4) : (br.dropWaiting v).births = br.births := rfl
@[simp] theorem dropWaiting_assemblies (br : Bridge) (v : Fin 4) :
    (br.dropWaiting v).assemblies = br.assemblies := rfl

/-! ### setRot -/

@[simp] theorem setRot_views (br : Bridge) (i : RotId) (r : RotInput) :
    (br.setRot i r).views = br.views := by cases i <;> rfl
@[simp] theorem setRot_solver (br : Bridge) (i : RotId) (r : RotInput) :
    (br.setRot i r).solver = br.solver := by cases i <;> rfl
@[simp] theorem setRot_solverQueue (br : Bridge) (i : RotId) (r : RotInput) :
    (br.setRot i r).solverQueue = br.solverQueue := by cases i <;> rfl
@[simp] theorem setRot_events (br : Bridge) (i : RotId) (r : RotInput) :
    (br.setRot i r).events = br.events := by cases i <;> rfl
@[simp] theorem setRot_mask (br : Bridge) (i : RotId) (r : RotInput) :
    (br.setRot i r).mask = br.mask := by cases i <;> rfl
@[simp] theorem setRot_descriptors (br : Bridge) (i : RotId) (r : RotInput) :
    (br.setRot i r).descriptors = br.descriptors := by cases i <;> rfl
@[simp] theorem setRot_commandShadow (br : Bridge) (i : RotId) (r : RotInput) :
    (br.setRot i r).commandShadow = br.commandShadow := by cases i <;> rfl
@[simp] theorem setRot_nextIndex (br : Bridge) (i : RotId) (r : RotInput) :
    (br.setRot i r).nextIndex = br.nextIndex := by cases i <;> rfl
@[simp] theorem setRot_inFlight (br : Bridge) (i : RotId) (r : RotInput) :
    (br.setRot i r).inFlight = br.inFlight := by cases i <;> rfl
@[simp] theorem setRot_owners (br : Bridge) (i : RotId) (r : RotInput) :
    (br.setRot i r).owners = br.owners := by cases i <;> rfl
@[simp] theorem setRot_position (br : Bridge) (i : RotId) (r : RotInput) :
    (br.setRot i r).position = br.position := by cases i <;> rfl
@[simp] theorem setRot_glitchA (br : Bridge) (i : RotId) (r : RotInput) :
    (br.setRot i r).glitchA = br.glitchA := by cases i <;> rfl
@[simp] theorem setRot_glitchB (br : Bridge) (i : RotId) (r : RotInput) :
    (br.setRot i r).glitchB = br.glitchB := by cases i <;> rfl
@[simp] theorem setRot_outOfRange (br : Bridge) (i : RotId) (r : RotInput) :
    (br.setRot i r).outOfRange = br.outOfRange := by cases i <;> rfl
@[simp] theorem setRot_requests (br : Bridge) (i : RotId) (r : RotInput) :
    (br.setRot i r).requests = br.requests := by cases i <;> rfl
@[simp] theorem setRot_busWait (br : Bridge) (i : RotId) (r : RotInput) :
    (br.setRot i r).busWait = br.busWait := by cases i <;> rfl
@[simp] theorem setRot_accepted (br : Bridge) (i : RotId) (r : RotInput) :
    (br.setRot i r).accepted = br.accepted := by cases i <;> rfl
@[simp] theorem setRot_stream (br : Bridge) (i : RotId) (r : RotInput) :
    (br.setRot i r).stream = br.stream := by cases i <;> rfl
@[simp] theorem setRot_ownWrites (br : Bridge) (i : RotId) (r : RotInput) :
    (br.setRot i r).ownWrites = br.ownWrites := by cases i <;> rfl
@[simp] theorem setRot_births (br : Bridge) (i : RotId) (r : RotInput) :
    (br.setRot i r).births = br.births := by cases i <;> rfl
@[simp] theorem setRot_assemblies (br : Bridge) (i : RotId) (r : RotInput) :
    (br.setRot i r).assemblies = br.assemblies := by cases i <;> rfl

/-! ### countGlitch -/

@[simp] theorem countGlitch_rota (br : Bridge) (i : RotId) :
    (br.countGlitch i).rota = br.rota := by cases i <;> rfl
@[simp] theorem countGlitch_rotb (br : Bridge) (i : RotId) :
    (br.countGlitch i).rotb = br.rotb := by cases i <;> rfl
@[simp] theorem countGlitch_views (br : Bridge) (i : RotId) :
    (br.countGlitch i).views = br.views := by cases i <;> rfl
@[simp] theorem countGlitch_solver (br : Bridge) (i : RotId) :
    (br.countGlitch i).solver = br.solver := by cases i <;> rfl
@[simp] theorem countGlitch_solverQueue (br : Bridge) (i : RotId) :
    (br.countGlitch i).solverQueue = br.solverQueue := by cases i <;> rfl
@[simp] theorem countGlitch_events (br : Bridge) (i : RotId) :
    (br.countGlitch i).events = br.events := by cases i <;> rfl
@[simp] theorem countGlitch_mask (br : Bridge) (i : RotId) :
    (br.countGlitch i).mask = br.mask := by cases i <;> rfl
@[simp] theorem countGlitch_descriptors (br : Bridge) (i : RotId) :
    (br.countGlitch i).descriptors = br.descriptors := by cases i <;> rfl
@[simp] theorem countGlitch_commandShadow (br : Bridge) (i : RotId) :
    (br.countGlitch i).commandShadow = br.commandShadow := by cases i <;> rfl
@[simp] theorem countGlitch_nextIndex (br : Bridge) (i : RotId) :
    (br.countGlitch i).nextIndex = br.nextIndex := by cases i <;> rfl
@[simp] theorem countGlitch_inFlight (br : Bridge) (i : RotId) :
    (br.countGlitch i).inFlight = br.inFlight := by cases i <;> rfl
@[simp] theorem countGlitch_owners (br : Bridge) (i : RotId) :
    (br.countGlitch i).owners = br.owners := by cases i <;> rfl
@[simp] theorem countGlitch_position (br : Bridge) (i : RotId) :
    (br.countGlitch i).position = br.position := by cases i <;> rfl
@[simp] theorem countGlitch_outOfRange (br : Bridge) (i : RotId) :
    (br.countGlitch i).outOfRange = br.outOfRange := by cases i <;> rfl
@[simp] theorem countGlitch_requests (br : Bridge) (i : RotId) :
    (br.countGlitch i).requests = br.requests := by cases i <;> rfl
@[simp] theorem countGlitch_busWait (br : Bridge) (i : RotId) :
    (br.countGlitch i).busWait = br.busWait := by cases i <;> rfl
@[simp] theorem countGlitch_accepted (br : Bridge) (i : RotId) :
    (br.countGlitch i).accepted = br.accepted := by cases i <;> rfl
@[simp] theorem countGlitch_stream (br : Bridge) (i : RotId) :
    (br.countGlitch i).stream = br.stream := by cases i <;> rfl
@[simp] theorem countGlitch_ownWrites (br : Bridge) (i : RotId) :
    (br.countGlitch i).ownWrites = br.ownWrites := by cases i <;> rfl
@[simp] theorem countGlitch_births (br : Bridge) (i : RotId) :
    (br.countGlitch i).births = br.births := by cases i <;> rfl
@[simp] theorem countGlitch_assemblies (br : Bridge) (i : RotId) :
    (br.countGlitch i).assemblies = br.assemblies := by cases i <;> rfl

/-! ### unsolvedCompletion -/

@[simp] theorem unsolvedCompletion_rota (br : Bridge) (env : Env) (f : FrameId) (time : Stamp) (parked : Bool) :
    (br.unsolvedCompletion env f time parked).rota = br.rota := by unfold Bridge.unsolvedCompletion; simp
@[simp] theorem unsolvedCompletion_rotb (br : Bridge) (env : Env) (f : FrameId) (time : Stamp) (parked : Bool) :
    (br.unsolvedCompletion env f time parked).rotb = br.rotb := by unfold Bridge.unsolvedCompletion; simp
@[simp] theorem unsolvedCompletion_solver (br : Bridge) (env : Env) (f : FrameId) (time : Stamp) (parked : Bool) :
    (br.unsolvedCompletion env f time parked).solver = br.solver := by unfold Bridge.unsolvedCompletion; simp
@[simp] theorem unsolvedCompletion_solverQueue (br : Bridge) (env : Env) (f : FrameId) (time : Stamp) (parked : Bool) :
    (br.unsolvedCompletion env f time parked).solverQueue = br.solverQueue := by
  unfold Bridge.unsolvedCompletion; simp
@[simp] theorem unsolvedCompletion_mask (br : Bridge) (env : Env) (f : FrameId) (time : Stamp) (parked : Bool) :
    (br.unsolvedCompletion env f time parked).mask = br.mask := by unfold Bridge.unsolvedCompletion; simp
@[simp] theorem unsolvedCompletion_descriptors (br : Bridge) (env : Env) (f : FrameId) (time : Stamp) (parked : Bool) :
    (br.unsolvedCompletion env f time parked).descriptors = br.descriptors := by
  unfold Bridge.unsolvedCompletion; simp
@[simp] theorem unsolvedCompletion_commandShadow (br : Bridge) (env : Env) (f : FrameId) (time : Stamp) (parked : Bool) :
    (br.unsolvedCompletion env f time parked).commandShadow = br.commandShadow := by
  unfold Bridge.unsolvedCompletion; simp
@[simp] theorem unsolvedCompletion_nextIndex (br : Bridge) (env : Env) (f : FrameId) (time : Stamp) (parked : Bool) :
    (br.unsolvedCompletion env f time parked).nextIndex = br.nextIndex := by
  unfold Bridge.unsolvedCompletion; simp
@[simp] theorem unsolvedCompletion_inFlight (br : Bridge) (env : Env) (f : FrameId) (time : Stamp) (parked : Bool) :
    (br.unsolvedCompletion env f time parked).inFlight = br.inFlight := by
  unfold Bridge.unsolvedCompletion; simp
@[simp] theorem unsolvedCompletion_glitchA (br : Bridge) (env : Env) (f : FrameId) (time : Stamp) (parked : Bool) :
    (br.unsolvedCompletion env f time parked).glitchA = br.glitchA := by unfold Bridge.unsolvedCompletion; simp
@[simp] theorem unsolvedCompletion_glitchB (br : Bridge) (env : Env) (f : FrameId) (time : Stamp) (parked : Bool) :
    (br.unsolvedCompletion env f time parked).glitchB = br.glitchB := by unfold Bridge.unsolvedCompletion; simp
@[simp] theorem unsolvedCompletion_outOfRange (br : Bridge) (env : Env) (f : FrameId) (time : Stamp) (parked : Bool) :
    (br.unsolvedCompletion env f time parked).outOfRange = br.outOfRange := by
  unfold Bridge.unsolvedCompletion; simp
@[simp] theorem unsolvedCompletion_requests (br : Bridge) (env : Env) (f : FrameId) (time : Stamp) (parked : Bool) :
    (br.unsolvedCompletion env f time parked).requests = br.requests := by
  unfold Bridge.unsolvedCompletion; simp
@[simp] theorem unsolvedCompletion_busWait (br : Bridge) (env : Env) (f : FrameId) (time : Stamp) (parked : Bool) :
    (br.unsolvedCompletion env f time parked).busWait = br.busWait := by unfold Bridge.unsolvedCompletion; simp
@[simp] theorem unsolvedCompletion_accepted (br : Bridge) (env : Env) (f : FrameId) (time : Stamp) (parked : Bool) :
    (br.unsolvedCompletion env f time parked).accepted = br.accepted := by
  unfold Bridge.unsolvedCompletion; simp
@[simp] theorem unsolvedCompletion_stream (br : Bridge) (env : Env) (f : FrameId) (time : Stamp) (parked : Bool) :
    (br.unsolvedCompletion env f time parked).stream = br.stream := by unfold Bridge.unsolvedCompletion; simp
@[simp] theorem unsolvedCompletion_assemblies (br : Bridge) (env : Env) (f : FrameId) (time : Stamp) (parked : Bool) :
    (br.unsolvedCompletion env f time parked).assemblies = br.assemblies := by
  unfold Bridge.unsolvedCompletion; simp

/-! ### freePlaces -/

@[simp] theorem freePlaces_rota (br : Bridge) : (br.freePlaces).rota = br.rota := rfl
@[simp] theorem freePlaces_rotb (br : Bridge) : (br.freePlaces).rotb = br.rotb := rfl
@[simp] theorem freePlaces_views (br : Bridge) : (br.freePlaces).views = br.views := rfl
@[simp] theorem freePlaces_solver (br : Bridge) : (br.freePlaces).solver = br.solver := rfl
@[simp] theorem freePlaces_solverQueue (br : Bridge) : (br.freePlaces).solverQueue = br.solverQueue := rfl
@[simp] theorem freePlaces_events (br : Bridge) : (br.freePlaces).events = br.events := rfl
@[simp] theorem freePlaces_mask (br : Bridge) : (br.freePlaces).mask = br.mask := rfl
@[simp] theorem freePlaces_descriptors (br : Bridge) : (br.freePlaces).descriptors = br.descriptors := rfl
@[simp] theorem freePlaces_commandShadow (br : Bridge) : (br.freePlaces).commandShadow = br.commandShadow := rfl
@[simp] theorem freePlaces_nextIndex (br : Bridge) : (br.freePlaces).nextIndex = br.nextIndex := rfl
@[simp] theorem freePlaces_inFlight (br : Bridge) : (br.freePlaces).inFlight = br.inFlight := rfl
@[simp] theorem freePlaces_owners (br : Bridge) : (br.freePlaces).owners = br.owners := rfl
@[simp] theorem freePlaces_position (br : Bridge) : (br.freePlaces).position = br.position := rfl
@[simp] theorem freePlaces_glitchA (br : Bridge) : (br.freePlaces).glitchA = br.glitchA := rfl
@[simp] theorem freePlaces_glitchB (br : Bridge) : (br.freePlaces).glitchB = br.glitchB := rfl
@[simp] theorem freePlaces_outOfRange (br : Bridge) : (br.freePlaces).outOfRange = br.outOfRange := rfl
@[simp] theorem freePlaces_requests (br : Bridge)  :
    (br.freePlaces).requests = br.requests.dropWhile br.workDone := rfl
@[simp] theorem freePlaces_busWait (br : Bridge) : (br.freePlaces).busWait = br.busWait := rfl
@[simp] theorem freePlaces_accepted (br : Bridge) : (br.freePlaces).accepted = br.accepted := rfl
@[simp] theorem freePlaces_stream (br : Bridge) : (br.freePlaces).stream = br.stream := rfl
@[simp] theorem freePlaces_ownWrites (br : Bridge) : (br.freePlaces).ownWrites = br.ownWrites := rfl
@[simp] theorem freePlaces_births (br : Bridge) : (br.freePlaces).births = br.births := rfl
@[simp] theorem freePlaces_assemblies (br : Bridge) : (br.freePlaces).assemblies = br.assemblies := rfl

/-! ### takePlace -/

@[simp] theorem takePlace_rota (br : Bridge) (isRead : Bool) : (br.takePlace isRead).rota = br.rota := rfl
@[simp] theorem takePlace_rotb (br : Bridge) (isRead : Bool) : (br.takePlace isRead).rotb = br.rotb := rfl
@[simp] theorem takePlace_views (br : Bridge) (isRead : Bool) : (br.takePlace isRead).views = br.views := rfl
@[simp] theorem takePlace_solver (br : Bridge) (isRead : Bool) : (br.takePlace isRead).solver = br.solver := rfl
@[simp] theorem takePlace_solverQueue (br : Bridge) (isRead : Bool) :
    (br.takePlace isRead).solverQueue = br.solverQueue := rfl
@[simp] theorem takePlace_events (br : Bridge) (isRead : Bool) : (br.takePlace isRead).events = br.events := rfl
@[simp] theorem takePlace_mask (br : Bridge) (isRead : Bool) : (br.takePlace isRead).mask = br.mask := rfl
@[simp] theorem takePlace_descriptors (br : Bridge) (isRead : Bool) :
    (br.takePlace isRead).descriptors = br.descriptors := rfl
@[simp] theorem takePlace_commandShadow (br : Bridge) (isRead : Bool) :
    (br.takePlace isRead).commandShadow = br.commandShadow := rfl
@[simp] theorem takePlace_nextIndex (br : Bridge) (isRead : Bool) :
    (br.takePlace isRead).nextIndex = br.nextIndex := rfl
@[simp] theorem takePlace_inFlight (br : Bridge) (isRead : Bool) :
    (br.takePlace isRead).inFlight = br.inFlight := rfl
@[simp] theorem takePlace_owners (br : Bridge) (isRead : Bool) : (br.takePlace isRead).owners = br.owners := rfl
@[simp] theorem takePlace_position (br : Bridge) (isRead : Bool) :
    (br.takePlace isRead).position = br.position := rfl
@[simp] theorem takePlace_glitchA (br : Bridge) (isRead : Bool) :
    (br.takePlace isRead).glitchA = br.glitchA := rfl
@[simp] theorem takePlace_glitchB (br : Bridge) (isRead : Bool) :
    (br.takePlace isRead).glitchB = br.glitchB := rfl
@[simp] theorem takePlace_outOfRange (br : Bridge) (isRead : Bool) :
    (br.takePlace isRead).outOfRange = br.outOfRange := rfl
@[simp] theorem takePlace_busWait (br : Bridge) (isRead : Bool) :
    (br.takePlace isRead).busWait = br.busWait := rfl
@[simp] theorem takePlace_accepted (br : Bridge) (isRead : Bool) :
    (br.takePlace isRead).accepted = br.accepted + 1 := rfl
@[simp] theorem takePlace_stream (br : Bridge) (isRead : Bool) : (br.takePlace isRead).stream = br.stream := rfl
@[simp] theorem takePlace_ownWrites (br : Bridge) (isRead : Bool) :
    (br.takePlace isRead).ownWrites = br.ownWrites := rfl
@[simp] theorem takePlace_births (br : Bridge) (isRead : Bool) : (br.takePlace isRead).births = br.births := rfl
@[simp] theorem takePlace_assemblies (br : Bridge) (isRead : Bool) :
    (br.takePlace isRead).assemblies = br.assemblies := rfl

/-! ### joinStream -/

@[simp] theorem joinStream_rota (br : Bridge) (q a : Nat) (kind : OpKind) :
    (br.joinStream q a kind).rota = br.rota := rfl
@[simp] theorem joinStream_rotb (br : Bridge) (q a : Nat) (kind : OpKind) :
    (br.joinStream q a kind).rotb = br.rotb := rfl
@[simp] theorem joinStream_views (br : Bridge) (q a : Nat) (kind : OpKind) :
    (br.joinStream q a kind).views = br.views := rfl
@[simp] theorem joinStream_solver (br : Bridge) (q a : Nat) (kind : OpKind) :
    (br.joinStream q a kind).solver = br.solver := rfl
@[simp] theorem joinStream_solverQueue (br : Bridge) (q a : Nat) (kind : OpKind) :
    (br.joinStream q a kind).solverQueue = br.solverQueue := rfl
@[simp] theorem joinStream_events (br : Bridge) (q a : Nat) (kind : OpKind) :
    (br.joinStream q a kind).events = br.events := rfl
@[simp] theorem joinStream_mask (br : Bridge) (q a : Nat) (kind : OpKind) :
    (br.joinStream q a kind).mask = br.mask := rfl
@[simp] theorem joinStream_descriptors (br : Bridge) (q a : Nat) (kind : OpKind) :
    (br.joinStream q a kind).descriptors = br.descriptors := rfl
@[simp] theorem joinStream_commandShadow (br : Bridge) (q a : Nat) (kind : OpKind) :
    (br.joinStream q a kind).commandShadow = br.commandShadow := rfl
@[simp] theorem joinStream_nextIndex (br : Bridge) (q a : Nat) (kind : OpKind) :
    (br.joinStream q a kind).nextIndex = br.nextIndex := rfl
@[simp] theorem joinStream_inFlight (br : Bridge) (q a : Nat) (kind : OpKind) :
    (br.joinStream q a kind).inFlight = br.inFlight := rfl
@[simp] theorem joinStream_owners (br : Bridge) (q a : Nat) (kind : OpKind) :
    (br.joinStream q a kind).owners = br.owners := rfl
@[simp] theorem joinStream_position (br : Bridge) (q a : Nat) (kind : OpKind) :
    (br.joinStream q a kind).position = br.position := rfl
@[simp] theorem joinStream_glitchA (br : Bridge) (q a : Nat) (kind : OpKind) :
    (br.joinStream q a kind).glitchA = br.glitchA := rfl
@[simp] theorem joinStream_glitchB (br : Bridge) (q a : Nat) (kind : OpKind) :
    (br.joinStream q a kind).glitchB = br.glitchB := rfl
@[simp] theorem joinStream_outOfRange (br : Bridge) (q a : Nat) (kind : OpKind) :
    (br.joinStream q a kind).outOfRange = br.outOfRange := rfl
@[simp] theorem joinStream_requests (br : Bridge) (q a : Nat) (kind : OpKind) :
    (br.joinStream q a kind).requests = br.requests := rfl
@[simp] theorem joinStream_busWait (br : Bridge) (q a : Nat) (kind : OpKind) :
    (br.joinStream q a kind).busWait = br.busWait := rfl
@[simp] theorem joinStream_accepted (br : Bridge) (q a : Nat) (kind : OpKind) :
    (br.joinStream q a kind).accepted = br.accepted := rfl
@[simp] theorem joinStream_ownWrites (br : Bridge) (q a : Nat) (kind : OpKind) :
    (br.joinStream q a kind).ownWrites = br.ownWrites := rfl
@[simp] theorem joinStream_births (br : Bridge) (q a : Nat) (kind : OpKind) :
    (br.joinStream q a kind).births = br.births + 1 := rfl
@[simp] theorem joinStream_assemblies (br : Bridge) (q a : Nat) (kind : OpKind) :
    (br.joinStream q a kind).assemblies = br.assemblies := rfl

/-! ### joinRead -/

@[simp] theorem joinRead_rota (br : Bridge) (q a count place : Nat) :
    (br.joinRead q a count place).rota = br.rota := rfl
@[simp] theorem joinRead_rotb (br : Bridge) (q a count place : Nat) :
    (br.joinRead q a count place).rotb = br.rotb := rfl
@[simp] theorem joinRead_views (br : Bridge) (q a count place : Nat) :
    (br.joinRead q a count place).views = br.views := rfl
@[simp] theorem joinRead_solver (br : Bridge) (q a count place : Nat) :
    (br.joinRead q a count place).solver = br.solver := rfl
@[simp] theorem joinRead_solverQueue (br : Bridge) (q a count place : Nat) :
    (br.joinRead q a count place).solverQueue = br.solverQueue := rfl
@[simp] theorem joinRead_events (br : Bridge) (q a count place : Nat) :
    (br.joinRead q a count place).events = br.events := rfl
@[simp] theorem joinRead_mask (br : Bridge) (q a count place : Nat) :
    (br.joinRead q a count place).mask = br.mask := rfl
@[simp] theorem joinRead_descriptors (br : Bridge) (q a count place : Nat) :
    (br.joinRead q a count place).descriptors = br.descriptors := rfl
@[simp] theorem joinRead_commandShadow (br : Bridge) (q a count place : Nat) :
    (br.joinRead q a count place).commandShadow = br.commandShadow := rfl
@[simp] theorem joinRead_nextIndex (br : Bridge) (q a count place : Nat) :
    (br.joinRead q a count place).nextIndex = br.nextIndex := rfl
@[simp] theorem joinRead_inFlight (br : Bridge) (q a count place : Nat) :
    (br.joinRead q a count place).inFlight = br.inFlight := rfl
@[simp] theorem joinRead_owners (br : Bridge) (q a count place : Nat) :
    (br.joinRead q a count place).owners = br.owners := rfl
@[simp] theorem joinRead_position (br : Bridge) (q a count place : Nat) :
    (br.joinRead q a count place).position = br.position := rfl
@[simp] theorem joinRead_glitchA (br : Bridge) (q a count place : Nat) :
    (br.joinRead q a count place).glitchA = br.glitchA := rfl
@[simp] theorem joinRead_glitchB (br : Bridge) (q a count place : Nat) :
    (br.joinRead q a count place).glitchB = br.glitchB := rfl
@[simp] theorem joinRead_outOfRange (br : Bridge) (q a count place : Nat) :
    (br.joinRead q a count place).outOfRange = br.outOfRange := rfl
@[simp] theorem joinRead_requests (br : Bridge) (q a count place : Nat) :
    (br.joinRead q a count place).requests = br.requests := rfl
@[simp] theorem joinRead_busWait (br : Bridge) (q a count place : Nat) :
    (br.joinRead q a count place).busWait = br.busWait := rfl
@[simp] theorem joinRead_accepted (br : Bridge) (q a count place : Nat) :
    (br.joinRead q a count place).accepted = br.accepted := rfl
@[simp] theorem joinRead_ownWrites (br : Bridge) (q a count place : Nat) :
    (br.joinRead q a count place).ownWrites = br.ownWrites := rfl
@[simp] theorem joinRead_births (br : Bridge) (q a count place : Nat) :
    (br.joinRead q a count place).births = br.births + 1 := rfl
@[simp] theorem joinRead_assemblies (br : Bridge) (q a count place : Nat) :
    (br.joinRead q a count place).assemblies = br.assemblies := rfl

/-! ### joinMixed -/

@[simp] theorem joinMixed_rota (br : Bridge) (q a place : Nat) (ps : List (Option Byte)) :
    (br.joinMixed q a place ps).rota = br.rota := by unfold Bridge.joinMixed; simp only; split <;> rfl
@[simp] theorem joinMixed_rotb (br : Bridge) (q a place : Nat) (ps : List (Option Byte)) :
    (br.joinMixed q a place ps).rotb = br.rotb := by unfold Bridge.joinMixed; simp only; split <;> rfl
@[simp] theorem joinMixed_views (br : Bridge) (q a place : Nat) (ps : List (Option Byte)) :
    (br.joinMixed q a place ps).views = br.views := by unfold Bridge.joinMixed; simp only; split <;> rfl
@[simp] theorem joinMixed_solver (br : Bridge) (q a place : Nat) (ps : List (Option Byte)) :
    (br.joinMixed q a place ps).solver = br.solver := by unfold Bridge.joinMixed; simp only; split <;> rfl
@[simp] theorem joinMixed_solverQueue (br : Bridge) (q a place : Nat) (ps : List (Option Byte)) :
    (br.joinMixed q a place ps).solverQueue = br.solverQueue := by
  unfold Bridge.joinMixed; simp only; split <;> rfl
@[simp] theorem joinMixed_events (br : Bridge) (q a place : Nat) (ps : List (Option Byte)) :
    (br.joinMixed q a place ps).events = br.events := by unfold Bridge.joinMixed; simp only; split <;> rfl
@[simp] theorem joinMixed_mask (br : Bridge) (q a place : Nat) (ps : List (Option Byte)) :
    (br.joinMixed q a place ps).mask = br.mask := by unfold Bridge.joinMixed; simp only; split <;> rfl
@[simp] theorem joinMixed_descriptors (br : Bridge) (q a place : Nat) (ps : List (Option Byte)) :
    (br.joinMixed q a place ps).descriptors = br.descriptors := by
  unfold Bridge.joinMixed; simp only; split <;> rfl
@[simp] theorem joinMixed_commandShadow (br : Bridge) (q a place : Nat) (ps : List (Option Byte)) :
    (br.joinMixed q a place ps).commandShadow = br.commandShadow := by
  unfold Bridge.joinMixed; simp only; split <;> rfl
@[simp] theorem joinMixed_nextIndex (br : Bridge) (q a place : Nat) (ps : List (Option Byte)) :
    (br.joinMixed q a place ps).nextIndex = br.nextIndex := by unfold Bridge.joinMixed; simp only; split <;> rfl
@[simp] theorem joinMixed_inFlight (br : Bridge) (q a place : Nat) (ps : List (Option Byte)) :
    (br.joinMixed q a place ps).inFlight = br.inFlight := by unfold Bridge.joinMixed; simp only; split <;> rfl
@[simp] theorem joinMixed_owners (br : Bridge) (q a place : Nat) (ps : List (Option Byte)) :
    (br.joinMixed q a place ps).owners = br.owners := by unfold Bridge.joinMixed; simp only; split <;> rfl
@[simp] theorem joinMixed_position (br : Bridge) (q a place : Nat) (ps : List (Option Byte)) :
    (br.joinMixed q a place ps).position = br.position := by unfold Bridge.joinMixed; simp only; split <;> rfl
@[simp] theorem joinMixed_glitchA (br : Bridge) (q a place : Nat) (ps : List (Option Byte)) :
    (br.joinMixed q a place ps).glitchA = br.glitchA := by unfold Bridge.joinMixed; simp only; split <;> rfl
@[simp] theorem joinMixed_glitchB (br : Bridge) (q a place : Nat) (ps : List (Option Byte)) :
    (br.joinMixed q a place ps).glitchB = br.glitchB := by unfold Bridge.joinMixed; simp only; split <;> rfl
@[simp] theorem joinMixed_outOfRange (br : Bridge) (q a place : Nat) (ps : List (Option Byte)) :
    (br.joinMixed q a place ps).outOfRange = br.outOfRange := by
  unfold Bridge.joinMixed; simp only; split <;> rfl
@[simp] theorem joinMixed_requests (br : Bridge) (q a place : Nat) (ps : List (Option Byte)) :
    (br.joinMixed q a place ps).requests = br.requests := by unfold Bridge.joinMixed; simp only; split <;> rfl
@[simp] theorem joinMixed_busWait (br : Bridge) (q a place : Nat) (ps : List (Option Byte)) :
    (br.joinMixed q a place ps).busWait = br.busWait := by unfold Bridge.joinMixed; simp only; split <;> rfl
@[simp] theorem joinMixed_accepted (br : Bridge) (q a place : Nat) (ps : List (Option Byte)) :
    (br.joinMixed q a place ps).accepted = br.accepted := by unfold Bridge.joinMixed; simp only; split <;> rfl
@[simp] theorem joinMixed_ownWrites (br : Bridge) (q a place : Nat) (ps : List (Option Byte)) :
    (br.joinMixed q a place ps).ownWrites = br.ownWrites := by unfold Bridge.joinMixed; simp only; split <;> rfl
@[simp] theorem joinMixed_assemblies (br : Bridge) (q a place : Nat) (ps : List (Option Byte)) :
    (br.joinMixed q a place ps).assemblies = br.assemblies := by
  unfold Bridge.joinMixed; simp only; split <;> rfl

/-! ### openAssembly -/

@[simp] theorem openAssembly_rota (br : Bridge) (q : Nat) (ps : List (Option Byte)) :
    (br.openAssembly q ps).rota = br.rota := rfl
@[simp] theorem openAssembly_rotb (br : Bridge) (q : Nat) (ps : List (Option Byte)) :
    (br.openAssembly q ps).rotb = br.rotb := rfl
@[simp] theorem openAssembly_views (br : Bridge) (q : Nat) (ps : List (Option Byte)) :
    (br.openAssembly q ps).views = br.views := rfl
@[simp] theorem openAssembly_solver (br : Bridge) (q : Nat) (ps : List (Option Byte)) :
    (br.openAssembly q ps).solver = br.solver := rfl
@[simp] theorem openAssembly_solverQueue (br : Bridge) (q : Nat) (ps : List (Option Byte)) :
    (br.openAssembly q ps).solverQueue = br.solverQueue := rfl
@[simp] theorem openAssembly_events (br : Bridge) (q : Nat) (ps : List (Option Byte)) :
    (br.openAssembly q ps).events = br.events := rfl
@[simp] theorem openAssembly_mask (br : Bridge) (q : Nat) (ps : List (Option Byte)) :
    (br.openAssembly q ps).mask = br.mask := rfl
@[simp] theorem openAssembly_descriptors (br : Bridge) (q : Nat) (ps : List (Option Byte)) :
    (br.openAssembly q ps).descriptors = br.descriptors := rfl
@[simp] theorem openAssembly_commandShadow (br : Bridge) (q : Nat) (ps : List (Option Byte)) :
    (br.openAssembly q ps).commandShadow = br.commandShadow := rfl
@[simp] theorem openAssembly_nextIndex (br : Bridge) (q : Nat) (ps : List (Option Byte)) :
    (br.openAssembly q ps).nextIndex = br.nextIndex := rfl
@[simp] theorem openAssembly_inFlight (br : Bridge) (q : Nat) (ps : List (Option Byte)) :
    (br.openAssembly q ps).inFlight = br.inFlight := rfl
@[simp] theorem openAssembly_owners (br : Bridge) (q : Nat) (ps : List (Option Byte)) :
    (br.openAssembly q ps).owners = br.owners := rfl
@[simp] theorem openAssembly_position (br : Bridge) (q : Nat) (ps : List (Option Byte)) :
    (br.openAssembly q ps).position = br.position := rfl
@[simp] theorem openAssembly_glitchA (br : Bridge) (q : Nat) (ps : List (Option Byte)) :
    (br.openAssembly q ps).glitchA = br.glitchA := rfl
@[simp] theorem openAssembly_glitchB (br : Bridge) (q : Nat) (ps : List (Option Byte)) :
    (br.openAssembly q ps).glitchB = br.glitchB := rfl
@[simp] theorem openAssembly_outOfRange (br : Bridge) (q : Nat) (ps : List (Option Byte)) :
    (br.openAssembly q ps).outOfRange = br.outOfRange := rfl
@[simp] theorem openAssembly_requests (br : Bridge) (q : Nat) (ps : List (Option Byte)) :
    (br.openAssembly q ps).requests = br.requests := rfl
@[simp] theorem openAssembly_busWait (br : Bridge) (q : Nat) (ps : List (Option Byte)) :
    (br.openAssembly q ps).busWait = br.busWait := rfl
@[simp] theorem openAssembly_accepted (br : Bridge) (q : Nat) (ps : List (Option Byte)) :
    (br.openAssembly q ps).accepted = br.accepted := rfl
@[simp] theorem openAssembly_stream (br : Bridge) (q : Nat) (ps : List (Option Byte)) :
    (br.openAssembly q ps).stream = br.stream := rfl
@[simp] theorem openAssembly_ownWrites (br : Bridge) (q : Nat) (ps : List (Option Byte)) :
    (br.openAssembly q ps).ownWrites = br.ownWrites := rfl
@[simp] theorem openAssembly_births (br : Bridge) (q : Nat) (ps : List (Option Byte)) :
    (br.openAssembly q ps).births = br.births := rfl
@[simp] theorem openAssembly_assemblies (br : Bridge) (q : Nat) (ps : List (Option Byte)) :
    (br.openAssembly q ps).assemblies = br.assemblies ++ [{ request := q, places := ps, returned := 0 }] := rfl

/-! ### countOutOfRange -/

@[simp] theorem countOutOfRange_rota (br : Bridge) (env : Env) (rs : List Region) :
    (br.countOutOfRange env rs).rota = br.rota := by unfold Bridge.countOutOfRange; split <;> rfl
@[simp] theorem countOutOfRange_rotb (br : Bridge) (env : Env) (rs : List Region) :
    (br.countOutOfRange env rs).rotb = br.rotb := by unfold Bridge.countOutOfRange; split <;> rfl
@[simp] theorem countOutOfRange_views (br : Bridge) (env : Env) (rs : List Region) :
    (br.countOutOfRange env rs).views = br.views := by unfold Bridge.countOutOfRange; split <;> rfl
@[simp] theorem countOutOfRange_solver (br : Bridge) (env : Env) (rs : List Region) :
    (br.countOutOfRange env rs).solver = br.solver := by unfold Bridge.countOutOfRange; split <;> rfl
@[simp] theorem countOutOfRange_solverQueue (br : Bridge) (env : Env) (rs : List Region) :
    (br.countOutOfRange env rs).solverQueue = br.solverQueue := by unfold Bridge.countOutOfRange; split <;> rfl
@[simp] theorem countOutOfRange_events (br : Bridge) (env : Env) (rs : List Region) :
    (br.countOutOfRange env rs).events = br.events := by unfold Bridge.countOutOfRange; split <;> rfl
@[simp] theorem countOutOfRange_mask (br : Bridge) (env : Env) (rs : List Region) :
    (br.countOutOfRange env rs).mask = br.mask := by unfold Bridge.countOutOfRange; split <;> rfl
@[simp] theorem countOutOfRange_descriptors (br : Bridge) (env : Env) (rs : List Region) :
    (br.countOutOfRange env rs).descriptors = br.descriptors := by unfold Bridge.countOutOfRange; split <;> rfl
@[simp] theorem countOutOfRange_commandShadow (br : Bridge) (env : Env) (rs : List Region) :
    (br.countOutOfRange env rs).commandShadow = br.commandShadow := by
  unfold Bridge.countOutOfRange; split <;> rfl
@[simp] theorem countOutOfRange_nextIndex (br : Bridge) (env : Env) (rs : List Region) :
    (br.countOutOfRange env rs).nextIndex = br.nextIndex := by unfold Bridge.countOutOfRange; split <;> rfl
@[simp] theorem countOutOfRange_inFlight (br : Bridge) (env : Env) (rs : List Region) :
    (br.countOutOfRange env rs).inFlight = br.inFlight := by unfold Bridge.countOutOfRange; split <;> rfl
@[simp] theorem countOutOfRange_owners (br : Bridge) (env : Env) (rs : List Region) :
    (br.countOutOfRange env rs).owners = br.owners := by unfold Bridge.countOutOfRange; split <;> rfl
@[simp] theorem countOutOfRange_position (br : Bridge) (env : Env) (rs : List Region) :
    (br.countOutOfRange env rs).position = br.position := by unfold Bridge.countOutOfRange; split <;> rfl
@[simp] theorem countOutOfRange_glitchA (br : Bridge) (env : Env) (rs : List Region) :
    (br.countOutOfRange env rs).glitchA = br.glitchA := by unfold Bridge.countOutOfRange; split <;> rfl
@[simp] theorem countOutOfRange_glitchB (br : Bridge) (env : Env) (rs : List Region) :
    (br.countOutOfRange env rs).glitchB = br.glitchB := by unfold Bridge.countOutOfRange; split <;> rfl
@[simp] theorem countOutOfRange_requests (br : Bridge) (env : Env) (rs : List Region) :
    (br.countOutOfRange env rs).requests = br.requests := by unfold Bridge.countOutOfRange; split <;> rfl
@[simp] theorem countOutOfRange_busWait (br : Bridge) (env : Env) (rs : List Region) :
    (br.countOutOfRange env rs).busWait = br.busWait := by unfold Bridge.countOutOfRange; split <;> rfl
@[simp] theorem countOutOfRange_accepted (br : Bridge) (env : Env) (rs : List Region) :
    (br.countOutOfRange env rs).accepted = br.accepted := by unfold Bridge.countOutOfRange; split <;> rfl
@[simp] theorem countOutOfRange_stream (br : Bridge) (env : Env) (rs : List Region) :
    (br.countOutOfRange env rs).stream = br.stream := by unfold Bridge.countOutOfRange; split <;> rfl
@[simp] theorem countOutOfRange_ownWrites (br : Bridge) (env : Env) (rs : List Region) :
    (br.countOutOfRange env rs).ownWrites = br.ownWrites := by unfold Bridge.countOutOfRange; split <;> rfl
@[simp] theorem countOutOfRange_births (br : Bridge) (env : Env) (rs : List Region) :
    (br.countOutOfRange env rs).births = br.births := by unfold Bridge.countOutOfRange; split <;> rfl
@[simp] theorem countOutOfRange_assemblies (br : Bridge) (env : Env) (rs : List Region) :
    (br.countOutOfRange env rs).assemblies = br.assemblies := by unfold Bridge.countOutOfRange; split <;> rfl

/-! ### waitTaken -/

@[simp] theorem waitTaken_rota (br : Bridge) (w : Wait) : (br.waitTaken w).rota = br.rota := rfl
@[simp] theorem waitTaken_rotb (br : Bridge) (w : Wait) : (br.waitTaken w).rotb = br.rotb := rfl
@[simp] theorem waitTaken_views (br : Bridge) (w : Wait) : (br.waitTaken w).views = br.views := rfl
@[simp] theorem waitTaken_solver (br : Bridge) (w : Wait) : (br.waitTaken w).solver = br.solver := rfl
@[simp] theorem waitTaken_solverQueue (br : Bridge) (w : Wait) :
    (br.waitTaken w).solverQueue = br.solverQueue := rfl
@[simp] theorem waitTaken_events (br : Bridge) (w : Wait) : (br.waitTaken w).events = br.events := rfl
@[simp] theorem waitTaken_mask (br : Bridge) (w : Wait) : (br.waitTaken w).mask = br.mask := rfl
@[simp] theorem waitTaken_descriptors (br : Bridge) (w : Wait) :
    (br.waitTaken w).descriptors = br.descriptors := rfl
@[simp] theorem waitTaken_commandShadow (br : Bridge) (w : Wait) :
    (br.waitTaken w).commandShadow = br.commandShadow := rfl
@[simp] theorem waitTaken_nextIndex (br : Bridge) (w : Wait) : (br.waitTaken w).nextIndex = br.nextIndex := rfl
@[simp] theorem waitTaken_inFlight (br : Bridge) (w : Wait) :
    (br.waitTaken w).inFlight = some { index := br.nextIndex, entry := br.commandEntry br.nextIndex, wait := w } := rfl
@[simp] theorem waitTaken_owners (br : Bridge) (w : Wait) : (br.waitTaken w).owners = br.owners := rfl
@[simp] theorem waitTaken_position (br : Bridge) (w : Wait) : (br.waitTaken w).position = br.position := rfl
@[simp] theorem waitTaken_glitchA (br : Bridge) (w : Wait) : (br.waitTaken w).glitchA = br.glitchA := rfl
@[simp] theorem waitTaken_glitchB (br : Bridge) (w : Wait) : (br.waitTaken w).glitchB = br.glitchB := rfl
@[simp] theorem waitTaken_outOfRange (br : Bridge) (w : Wait) :
    (br.waitTaken w).outOfRange = br.outOfRange := rfl
@[simp] theorem waitTaken_requests (br : Bridge) (w : Wait) : (br.waitTaken w).requests = br.requests := rfl
@[simp] theorem waitTaken_busWait (br : Bridge) (w : Wait) : (br.waitTaken w).busWait = br.busWait := rfl
@[simp] theorem waitTaken_accepted (br : Bridge) (w : Wait) : (br.waitTaken w).accepted = br.accepted := rfl
@[simp] theorem waitTaken_stream (br : Bridge) (w : Wait) : (br.waitTaken w).stream = br.stream := rfl
@[simp] theorem waitTaken_ownWrites (br : Bridge) (w : Wait) : (br.waitTaken w).ownWrites = br.ownWrites := rfl
@[simp] theorem waitTaken_births (br : Bridge) (w : Wait) : (br.waitTaken w).births = br.births := rfl
@[simp] theorem waitTaken_assemblies (br : Bridge) (w : Wait) :
    (br.waitTaken w).assemblies = br.assemblies := rfl

/-! ### completeCommand -/

@[simp] theorem completeCommand_rota (br : Bridge) (env : Env) (i : Nat) (entry : List Byte)
    (st : Status) (detail : Nat) :
    (br.completeCommand env i entry st detail).rota = br.rota := rfl
@[simp] theorem completeCommand_rotb (br : Bridge) (env : Env) (i : Nat) (entry : List Byte)
    (st : Status) (detail : Nat) :
    (br.completeCommand env i entry st detail).rotb = br.rotb := rfl
@[simp] theorem completeCommand_views (br : Bridge) (env : Env) (i : Nat) (entry : List Byte)
    (st : Status) (detail : Nat) :
    (br.completeCommand env i entry st detail).views = br.views := rfl
@[simp] theorem completeCommand_solver (br : Bridge) (env : Env) (i : Nat) (entry : List Byte)
    (st : Status) (detail : Nat) :
    (br.completeCommand env i entry st detail).solver = br.solver := rfl
@[simp] theorem completeCommand_solverQueue (br : Bridge) (env : Env) (i : Nat) (entry : List Byte)
    (st : Status) (detail : Nat) :
    (br.completeCommand env i entry st detail).solverQueue = br.solverQueue := rfl
@[simp] theorem completeCommand_events (br : Bridge) (env : Env) (i : Nat) (entry : List Byte) (st : Status) (detail : Nat) :
    (br.completeCommand env i entry st detail).events = br.events ||| Event.cmd.word := rfl
@[simp] theorem completeCommand_mask (br : Bridge) (env : Env) (i : Nat) (entry : List Byte)
    (st : Status) (detail : Nat) :
    (br.completeCommand env i entry st detail).mask = br.mask := rfl
@[simp] theorem completeCommand_descriptors (br : Bridge) (env : Env) (i : Nat) (entry : List Byte)
    (st : Status) (detail : Nat) :
    (br.completeCommand env i entry st detail).descriptors = br.descriptors := rfl
@[simp] theorem completeCommand_commandShadow (br : Bridge) (env : Env) (i : Nat) (entry : List Byte) (st : Status) (detail : Nat) :
    (br.completeCommand env i entry st detail).commandShadow = overwrite br.commandShadow (16 * i) (completedEntry entry st detail) := rfl
@[simp] theorem completeCommand_nextIndex (br : Bridge) (env : Env) (i : Nat) (entry : List Byte) (st : Status) (detail : Nat) :
    (br.completeCommand env i entry st detail).nextIndex = (br.nextIndex + 1) % 16 := rfl
@[simp] theorem completeCommand_inFlight (br : Bridge) (env : Env) (i : Nat) (entry : List Byte) (st : Status) (detail : Nat) :
    (br.completeCommand env i entry st detail).inFlight = none := rfl
@[simp] theorem completeCommand_owners (br : Bridge) (env : Env) (i : Nat) (entry : List Byte)
    (st : Status) (detail : Nat) :
    (br.completeCommand env i entry st detail).owners = br.owners := rfl
@[simp] theorem completeCommand_position (br : Bridge) (env : Env) (i : Nat) (entry : List Byte)
    (st : Status) (detail : Nat) :
    (br.completeCommand env i entry st detail).position = br.position := rfl
@[simp] theorem completeCommand_glitchA (br : Bridge) (env : Env) (i : Nat) (entry : List Byte)
    (st : Status) (detail : Nat) :
    (br.completeCommand env i entry st detail).glitchA = br.glitchA := rfl
@[simp] theorem completeCommand_glitchB (br : Bridge) (env : Env) (i : Nat) (entry : List Byte)
    (st : Status) (detail : Nat) :
    (br.completeCommand env i entry st detail).glitchB = br.glitchB := rfl
@[simp] theorem completeCommand_outOfRange (br : Bridge) (env : Env) (i : Nat) (entry : List Byte)
    (st : Status) (detail : Nat) :
    (br.completeCommand env i entry st detail).outOfRange = br.outOfRange := rfl
@[simp] theorem completeCommand_requests (br : Bridge) (env : Env) (i : Nat) (entry : List Byte)
    (st : Status) (detail : Nat) :
    (br.completeCommand env i entry st detail).requests = br.requests := rfl
@[simp] theorem completeCommand_busWait (br : Bridge) (env : Env) (i : Nat) (entry : List Byte)
    (st : Status) (detail : Nat) :
    (br.completeCommand env i entry st detail).busWait = br.busWait := rfl
@[simp] theorem completeCommand_accepted (br : Bridge) (env : Env) (i : Nat) (entry : List Byte)
    (st : Status) (detail : Nat) :
    (br.completeCommand env i entry st detail).accepted = br.accepted := rfl
@[simp] theorem completeCommand_stream (br : Bridge) (env : Env) (i : Nat) (entry : List Byte)
    (st : Status) (detail : Nat) :
    (br.completeCommand env i entry st detail).stream = br.stream := rfl
@[simp] theorem completeCommand_births (br : Bridge) (env : Env) (i : Nat) (entry : List Byte) (st : Status) (detail : Nat) :
    (br.completeCommand env i entry st detail).births = br.births + 1 := rfl
@[simp] theorem completeCommand_assemblies (br : Bridge) (env : Env) (i : Nat) (entry : List Byte)
    (st : Status) (detail : Nat) :
    (br.completeCommand env i entry st detail).assemblies = br.assemblies := rfl

/-! ### completeTaken -/

@[simp] theorem completeTaken_rota (br : Bridge) (env : Env) (st : Status) (detail : Nat) :
    (br.completeTaken env st detail).rota = br.rota := rfl
@[simp] theorem completeTaken_rotb (br : Bridge) (env : Env) (st : Status) (detail : Nat) :
    (br.completeTaken env st detail).rotb = br.rotb := rfl
@[simp] theorem completeTaken_views (br : Bridge) (env : Env) (st : Status) (detail : Nat) :
    (br.completeTaken env st detail).views = br.views := rfl
@[simp] theorem completeTaken_solver (br : Bridge) (env : Env) (st : Status) (detail : Nat) :
    (br.completeTaken env st detail).solver = br.solver := rfl
@[simp] theorem completeTaken_solverQueue (br : Bridge) (env : Env) (st : Status) (detail : Nat) :
    (br.completeTaken env st detail).solverQueue = br.solverQueue := rfl
@[simp] theorem completeTaken_events (br : Bridge) (env : Env) (st : Status) (detail : Nat) :
    (br.completeTaken env st detail).events = br.events ||| Event.cmd.word := rfl
@[simp] theorem completeTaken_mask (br : Bridge) (env : Env) (st : Status) (detail : Nat) :
    (br.completeTaken env st detail).mask = br.mask := rfl
@[simp] theorem completeTaken_descriptors (br : Bridge) (env : Env) (st : Status) (detail : Nat) :
    (br.completeTaken env st detail).descriptors = br.descriptors := rfl
@[simp] theorem completeTaken_nextIndex (br : Bridge) (env : Env) (st : Status) (detail : Nat) :
    (br.completeTaken env st detail).nextIndex = (br.nextIndex + 1) % 16 := rfl
@[simp] theorem completeTaken_inFlight (br : Bridge) (env : Env) (st : Status) (detail : Nat) :
    (br.completeTaken env st detail).inFlight = none := rfl
@[simp] theorem completeTaken_owners (br : Bridge) (env : Env) (st : Status) (detail : Nat) :
    (br.completeTaken env st detail).owners = br.owners := rfl
@[simp] theorem completeTaken_position (br : Bridge) (env : Env) (st : Status) (detail : Nat) :
    (br.completeTaken env st detail).position = br.position := rfl
@[simp] theorem completeTaken_glitchA (br : Bridge) (env : Env) (st : Status) (detail : Nat) :
    (br.completeTaken env st detail).glitchA = br.glitchA := rfl
@[simp] theorem completeTaken_glitchB (br : Bridge) (env : Env) (st : Status) (detail : Nat) :
    (br.completeTaken env st detail).glitchB = br.glitchB := rfl
@[simp] theorem completeTaken_outOfRange (br : Bridge) (env : Env) (st : Status) (detail : Nat) :
    (br.completeTaken env st detail).outOfRange = br.outOfRange := rfl
@[simp] theorem completeTaken_requests (br : Bridge) (env : Env) (st : Status) (detail : Nat) :
    (br.completeTaken env st detail).requests = br.requests := rfl
@[simp] theorem completeTaken_busWait (br : Bridge) (env : Env) (st : Status) (detail : Nat) :
    (br.completeTaken env st detail).busWait = br.busWait := rfl
@[simp] theorem completeTaken_accepted (br : Bridge) (env : Env) (st : Status) (detail : Nat) :
    (br.completeTaken env st detail).accepted = br.accepted := rfl
@[simp] theorem completeTaken_stream (br : Bridge) (env : Env) (st : Status) (detail : Nat) :
    (br.completeTaken env st detail).stream = br.stream := rfl
@[simp] theorem completeTaken_assemblies (br : Bridge) (env : Env) (st : Status) (detail : Nat) :
    (br.completeTaken env st detail).assemblies = br.assemblies := rfl

/-! ### reachParked -/

@[simp] theorem reachParked_rota (br : Bridge) (v : Fin 4) :
    (br.reachParked v).rota = br.rota := by unfold Bridge.reachParked; simp
@[simp] theorem reachParked_rotb (br : Bridge) (v : Fin 4) :
    (br.reachParked v).rotb = br.rotb := by unfold Bridge.reachParked; simp
@[simp] theorem reachParked_solver (br : Bridge) (v : Fin 4) :
    (br.reachParked v).solver = br.solver := by unfold Bridge.reachParked; simp
@[simp] theorem reachParked_solverQueue (br : Bridge) (v : Fin 4) :
    (br.reachParked v).solverQueue = br.solverQueue := by unfold Bridge.reachParked; simp
@[simp] theorem reachParked_mask (br : Bridge) (v : Fin 4) :
    (br.reachParked v).mask = br.mask := by unfold Bridge.reachParked; simp
@[simp] theorem reachParked_descriptors (br : Bridge) (v : Fin 4) :
    (br.reachParked v).descriptors = br.descriptors := by unfold Bridge.reachParked; simp
@[simp] theorem reachParked_commandShadow (br : Bridge) (v : Fin 4) :
    (br.reachParked v).commandShadow = br.commandShadow := by unfold Bridge.reachParked; simp
@[simp] theorem reachParked_nextIndex (br : Bridge) (v : Fin 4) :
    (br.reachParked v).nextIndex = br.nextIndex := by unfold Bridge.reachParked; simp
@[simp] theorem reachParked_inFlight (br : Bridge) (v : Fin 4) :
    (br.reachParked v).inFlight = br.inFlight := by unfold Bridge.reachParked; simp
@[simp] theorem reachParked_owners (br : Bridge) (v : Fin 4) :
    (br.reachParked v).owners = br.owners := by unfold Bridge.reachParked; simp
@[simp] theorem reachParked_position (br : Bridge) (v : Fin 4) :
    (br.reachParked v).position = br.position := by unfold Bridge.reachParked; simp
@[simp] theorem reachParked_glitchA (br : Bridge) (v : Fin 4) :
    (br.reachParked v).glitchA = br.glitchA := by unfold Bridge.reachParked; simp
@[simp] theorem reachParked_glitchB (br : Bridge) (v : Fin 4) :
    (br.reachParked v).glitchB = br.glitchB := by unfold Bridge.reachParked; simp
@[simp] theorem reachParked_outOfRange (br : Bridge) (v : Fin 4) :
    (br.reachParked v).outOfRange = br.outOfRange := by unfold Bridge.reachParked; simp
@[simp] theorem reachParked_requests (br : Bridge) (v : Fin 4) :
    (br.reachParked v).requests = br.requests := by unfold Bridge.reachParked; simp
@[simp] theorem reachParked_busWait (br : Bridge) (v : Fin 4) :
    (br.reachParked v).busWait = br.busWait := by unfold Bridge.reachParked; simp
@[simp] theorem reachParked_accepted (br : Bridge) (v : Fin 4) :
    (br.reachParked v).accepted = br.accepted := by unfold Bridge.reachParked; simp
@[simp] theorem reachParked_stream (br : Bridge) (v : Fin 4) :
    (br.reachParked v).stream = br.stream := by unfold Bridge.reachParked; simp
@[simp] theorem reachParked_ownWrites (br : Bridge) (v : Fin 4) :
    (br.reachParked v).ownWrites = br.ownWrites := by unfold Bridge.reachParked; simp
@[simp] theorem reachParked_births (br : Bridge) (v : Fin 4) :
    (br.reachParked v).births = br.births := by unfold Bridge.reachParked; simp
@[simp] theorem reachParked_assemblies (br : Bridge) (v : Fin 4) :
    (br.reachParked v).assemblies = br.assemblies := by unfold Bridge.reachParked; simp

/-! ### skipWaiting -/

@[simp] theorem skipWaiting_rota (br : Bridge) (env : Env) (e : SolveEntry) (reason : Reason) :
    (br.skipWaiting env e reason).rota = br.rota := by unfold Bridge.skipWaiting; simp
@[simp] theorem skipWaiting_rotb (br : Bridge) (env : Env) (e : SolveEntry) (reason : Reason) :
    (br.skipWaiting env e reason).rotb = br.rotb := by unfold Bridge.skipWaiting; simp
@[simp] theorem skipWaiting_solver (br : Bridge) (env : Env) (e : SolveEntry) (reason : Reason) :
    (br.skipWaiting env e reason).solver = br.solver := by unfold Bridge.skipWaiting; simp
@[simp] theorem skipWaiting_mask (br : Bridge) (env : Env) (e : SolveEntry) (reason : Reason) :
    (br.skipWaiting env e reason).mask = br.mask := by unfold Bridge.skipWaiting; simp
@[simp] theorem skipWaiting_descriptors (br : Bridge) (env : Env) (e : SolveEntry) (reason : Reason) :
    (br.skipWaiting env e reason).descriptors = br.descriptors := by unfold Bridge.skipWaiting; simp
@[simp] theorem skipWaiting_commandShadow (br : Bridge) (env : Env) (e : SolveEntry) (reason : Reason) :
    (br.skipWaiting env e reason).commandShadow = br.commandShadow := by unfold Bridge.skipWaiting; simp
@[simp] theorem skipWaiting_nextIndex (br : Bridge) (env : Env) (e : SolveEntry) (reason : Reason) :
    (br.skipWaiting env e reason).nextIndex = br.nextIndex := by unfold Bridge.skipWaiting; simp
@[simp] theorem skipWaiting_inFlight (br : Bridge) (env : Env) (e : SolveEntry) (reason : Reason) :
    (br.skipWaiting env e reason).inFlight = br.inFlight := by unfold Bridge.skipWaiting; simp
@[simp] theorem skipWaiting_glitchA (br : Bridge) (env : Env) (e : SolveEntry) (reason : Reason) :
    (br.skipWaiting env e reason).glitchA = br.glitchA := by unfold Bridge.skipWaiting; simp
@[simp] theorem skipWaiting_glitchB (br : Bridge) (env : Env) (e : SolveEntry) (reason : Reason) :
    (br.skipWaiting env e reason).glitchB = br.glitchB := by unfold Bridge.skipWaiting; simp
@[simp] theorem skipWaiting_outOfRange (br : Bridge) (env : Env) (e : SolveEntry) (reason : Reason) :
    (br.skipWaiting env e reason).outOfRange = br.outOfRange := by unfold Bridge.skipWaiting; simp
@[simp] theorem skipWaiting_requests (br : Bridge) (env : Env) (e : SolveEntry) (reason : Reason) :
    (br.skipWaiting env e reason).requests = br.requests := by unfold Bridge.skipWaiting; simp
@[simp] theorem skipWaiting_busWait (br : Bridge) (env : Env) (e : SolveEntry) (reason : Reason) :
    (br.skipWaiting env e reason).busWait = br.busWait := by unfold Bridge.skipWaiting; simp
@[simp] theorem skipWaiting_accepted (br : Bridge) (env : Env) (e : SolveEntry) (reason : Reason) :
    (br.skipWaiting env e reason).accepted = br.accepted := by unfold Bridge.skipWaiting; simp
@[simp] theorem skipWaiting_stream (br : Bridge) (env : Env) (e : SolveEntry) (reason : Reason) :
    (br.skipWaiting env e reason).stream = br.stream := by unfold Bridge.skipWaiting; simp
@[simp] theorem skipWaiting_assemblies (br : Bridge) (env : Env) (e : SolveEntry) (reason : Reason) :
    (br.skipWaiting env e reason).assemblies = br.assemblies := by unfold Bridge.skipWaiting; simp

/-! ### The machine -/

@[simp] theorem settle_env (s : State) : s.settle.env = s.env := rfl
@[simp] theorem settleTo_env (s : State) (stop : Bridge → Bool) : (s.settleTo stop).env = s.env := rfl
@[simp] theorem settle_dram (s : State) : s.settle.dram = s.dram := rfl
@[simp] theorem settleTo_dram (s : State) (stop : Bridge → Bool) : (s.settleTo stop).dram = s.dram := rfl
@[simp] theorem settle_readData (s : State) : s.settle.readData = s.readData := rfl
@[simp] theorem settleTo_readData (s : State) (stop : Bridge → Bool) :
    (s.settleTo stop).readData = s.readData := rfl
@[simp] theorem settle_pending (s : State) : s.settle.pending = s.pending := rfl
@[simp] theorem settleTo_pending (s : State) (stop : Bridge → Bool) :
    (s.settleTo stop).pending = s.pending := rfl
@[simp] theorem settle_bridge (s : State) : s.settle.bridge = settleBridge s.env s.bridge := rfl
@[simp] theorem tick_dram (s : State) : s.tick.dram = s.dram.pass := rfl
@[simp] theorem pass_cells (d : Dram) : d.pass.cells = d.cells := rfl
@[simp] theorem pass_returning (d : Dram) : d.pass.returning = d.returning := rfl
@[simp] theorem pass_freeCount (d : Dram) : d.pass.freeCount = d.freeCount := rfl
@[simp] theorem pass_performing (d : Dram) :
    d.pass.performing = d.performing.map (fun p => { p with left := p.left - 1 }) := rfl
@[simp] theorem take_cells (d : Dram) (a n : Nat) (r : Bool) : (d.take a n r).cells = d.cells := rfl
@[simp] theorem take_returning (d : Dram) (a n : Nat) (r : Bool) : (d.take a n r).returning = d.returning := rfl
@[simp] theorem take_performing (d : Dram) (a n : Nat) (r : Bool) :
    (d.take a n r).performing = some ⟨a, n, r, Config.performTime d.freeCount⟩ := rfl
@[simp] theorem take_freeCount (d : Dram) (a n : Nat) (r : Bool) : (d.take a n r).freeCount = d.freeCount + 1 := rfl
@[simp] theorem tick_readData (s : State) : s.tick.readData = s.readData := rfl
@[simp] theorem tick_pending (s : State) : s.tick.pending = s.pending := rfl
@[simp] theorem tick_timestamp (s : State) : s.tick.env.timestamp = s.env.timestamp + 1 := rfl
@[simp] theorem tick_straps (s : State) : s.tick.env.straps = s.env.straps := rfl

/-! ### Views -/

/-- A view of the bridge after one view was changed. -/
@[simp] theorem modView_get (br : Bridge) (v u : Fin 4) (f : View → View) :
    (br.modView v f).views.get u = if u = v then f (br.views.get v) else br.views.get u := by
  simp [Four.get_set]

@[simp] theorem rot_setRot (br : Bridge) (i j : RotId) (r : RotInput) :
    (br.setRot i r).rot j = if j = i then r else br.rot j := by
  cases i <;> cases j <;> rfl

/-- The number of slot records survives a change of one of them. -/
@[simp] theorem modSlot_length (vw : View) (k : Nat) (f : Slot → Slot) :
    (vw.modSlot k f).slots.length = vw.slots.length := by
  simp [View.modSlot]

@[simp] theorem modBuffer_get (vw : View) (b c : Fin 4) (f : ProfileBuffer → ProfileBuffer) :
    (vw.modBuffer b f).buffers.get c = if c = b then f (vw.buffers.get b) else vw.buffers.get c := by
  simp [View.modBuffer, Four.get_set]

end Laws

end Sys2Proof.Machine
end

