-- ==== Sys2Proof/Laws/Settle.lean ====
section
/-! SUPPORT. Laws/Settle.lean: what urgent work is and is not: on a quiet machine it changes nothing, and what every
piece of it keeps, settling keeps. -/

namespace Sys2Proof.Machine

namespace Laws

theorem urgent_none_iff (env : Env) (br : Bridge) :
    urgent env br = none ↔ completionDue br = false ∧ takeDue br = false ∧ acceptDue env br = false := by
  unfold urgent
  cases completionDue br <;> cases takeDue br <;> cases acceptDue env br <;> simp

theorem quiet_iff (s : State) : s.quiet = true ↔ urgent s.env s.bridge = none := by
  rw [urgent_none_iff]
  unfold State.quiet
  cases completionDue s.bridge <;> cases takeDue s.bridge <;> cases acceptDue s.env s.bridge <;> simp

theorem settleUntil_of_none (env : Env) (stop : Bridge → Bool) (n : Nat) (br : Bridge) (h : urgent env br = none) :
    settleUntil env stop n br = br := by
  cases n with
  | zero => rfl
  | succ n => simp [settleUntil, h]

theorem settleUntil_of_stop (env : Env) (stop : Bridge → Bool) (n : Nat) (br : Bridge) (h : stop br = true) :
    settleUntil env stop n br = br := by
  cases n with
  | zero => rfl
  | succ n => simp [settleUntil, h]

/-- A quiet machine has no urgent work. -/
theorem settle_of_quiet (s : State) (h : s.quiet = true) : s.settle = s := by
  unfold State.settle settleBridge
  rw [settleUntil_of_none _ _ _ _ ((quiet_iff s).1 h)]

theorem settleTo_of_quiet (s : State) (stop : Bridge → Bool) (h : s.quiet = true) : s.settleTo stop = s := by
  unfold State.settleTo
  rw [settleUntil_of_none _ _ _ _ ((quiet_iff s).1 h)]

theorem settleTo_of_stop (s : State) (stop : Bridge → Bool) (h : stop s.bridge = true) : s.settleTo stop = s := by
  unfold State.settleTo
  rw [settleUntil_of_stop _ _ _ _ h]

/-- What each of the three kinds of urgent work keeps, urgent work keeps. -/
theorem urgent_keeps (P : Bridge → Prop) (env : Env)
    (hc : ∀ br, P br → completionDue br = true → P (br.completeSolve env))
    (ht : ∀ br, P br → takeDue br = true → P (takeNext env br))
    (ha : ∀ br, P br → acceptDue env br = true → P (acceptWaiting env br))
    (br br' : Bridge) (h : P br) (hu : urgent env br = some br') : P br' := by
  unfold urgent at hu
  split at hu
  · rename_i h1; cases hu; exact hc br h h1
  · split at hu
    · rename_i h1; cases hu; exact ht br h h1
    · split at hu
      · rename_i h1; cases hu; exact ha br h h1
      · cases hu

theorem settleUntil_keeps (P : Bridge → Prop) (env : Env) (stop : Bridge → Bool)
    (hu : ∀ br br', P br → urgent env br = some br' → P br') (n : Nat) (br : Bridge) (h : P br) :
    P (settleUntil env stop n br) := by
  induction n generalizing br with
  | zero => exact h
  | succ n ih =>
    unfold settleUntil
    split
    · exact h
    · split
      · exact h
      · rename_i br' he
        exact ih _ (hu _ _ h he)

theorem settle_keeps (P : Bridge → Prop) (s : State)
    (hu : ∀ br br', P br → urgent s.env br = some br' → P br') (h : P s.bridge) : P s.settle.bridge :=
  settleUntil_keeps P s.env _ hu _ _ h

theorem settleTo_keeps (P : Bridge → Prop) (s : State) (stop : Bridge → Bool)
    (hu : ∀ br br', P br → urgent s.env br = some br' → P br') (h : P s.bridge) : P (s.settleTo stop).bridge :=
  settleUntil_keeps P s.env _ hu _ _ h

/-! ### The take at an acceptance (R145, R184) -/

theorem takeIfDue_of_due (env : Env) (br : Bridge) (h : takeDue br = true) : takeIfDue env br = takeNext env br :=
  if_pos h

theorem takeIfDue_of_not_due (env : Env) (br : Bridge) (h : takeDue br = false) : takeIfDue env br = br :=
  if_neg (by simp [h])

/-- What a take keeps, the take of an acceptance keeps. -/
theorem takeIfDue_keeps (P : Bridge → Prop) (env : Env) (br : Bridge) (h : P br)
    (ht : takeDue br = true → P (takeNext env br)) : P (takeIfDue env br) := by
  cases hd : takeDue br
  · rwa [takeIfDue_of_not_due env br hd]
  · rw [takeIfDue_of_due env br hd]
    exact ht hd

/-- The take that is due is the one of the command's row (R181). -/
theorem takeNext_of_dueOf (br : Bridge) (kind : CommandKind) (h : takeDueOf kind br = true) :
    takeDue br = true ∧ commandKind br.nextEntry = kind := by
  simpa [takeDueOf] using h

/-! ### The rows on a quiet machine -/

/-- A ring row whose take is due is that take. -/
theorem takeRow_of_due (kind : CommandKind) (take : Env → Bridge → Bridge) (s : State)
    (h : takeDueOf kind s.bridge = true) :
    takeRow kind take s = .next { s with bridge := take s.env s.bridge } := by
  unfold takeRow
  rw [settleTo_of_stop _ _ h]
  simp [h]

/-- A take of this kind not due, on a quiet machine: nothing happens (log 1). -/
theorem takeRow_of_quiet (kind : CommandKind) (take : Env → Bridge → Bridge) (s : State) (hq : s.quiet = true) :
    takeRow kind take s = .next s := by
  have hd : takeDueOf kind s.bridge = false := by
    have h := ((urgent_none_iff _ _).1 ((quiet_iff s).1 hq)).2.1
    simp [takeDueOf, h]
  unfold takeRow
  rw [settleTo_of_quiet _ _ hq]
  simp [hd]

/-- A request offered to a port that takes it is accepted. -/
theorem offer_of_open (s : State) (r : Request) (h : s.open = true) :
    s.offer r = { s with bridge := acceptRequest s.env s.bridge r } := by
  unfold State.open at h
  simp only [Bool.and_eq_true] at h
  obtain ⟨⟨hq, hb⟩, hc⟩ := h
  have hr : s.env.resetAsserted = false := by
    unfold canAccept at hc
    cases hx : s.env.resetAsserted <;> simp_all
  unfold State.offer
  rw [settle_of_quiet s hq]
  simp [hr, hb, hc]

theorem offerRequest_of_open (s : State) (r : Request) (hw : r.wellFormed = true) (h : s.open = true) :
    offerRequest r s = .next { s with bridge := acceptRequest s.env s.bridge r } := by
  unfold offerRequest
  rw [if_pos hw, offer_of_open s r h]

/-- R142: what is no request of the bus stops with a fault. -/
theorem offerRequest_malformed (s : State) (r : Request) (hw : r.wellFormed = false) :
    offerRequest r s = .fault .malformedRequest := by
  unfold offerRequest
  simp [hw]

/-- A bus row ends in a next state exactly where its operand is a request of the bus. -/
theorem offerRequest_next (s t : State) (r : Request) (h : offerRequest r s = .next t) :
    r.wellFormed = true ∧ t = s.offer r := by
  unfold offerRequest at h
  split at h
  · rename_i hw; cases h; exact ⟨hw, rfl⟩
  · cases h

/-- Offering a request touches the bridge alone. -/
theorem offer_frame (s : State) (r : Request) :
    (s.offer r).env = s.env ∧ (s.offer r).dram = s.dram ∧ (s.offer r).readData = s.readData
      ∧ (s.offer r).pending = s.pending := by
  unfold State.offer
  simp only
  split
  · exact ⟨rfl, rfl, rfl, rfl⟩
  · split <;> exact ⟨rfl, rfl, rfl, rfl⟩

/-- A ring row always ends in a next state, and touches the bridge alone. -/
theorem takeRow_next (kind : CommandKind) (take : Env → Bridge → Bridge) (s : State) :
    ∃ t, takeRow kind take s = .next t ∧ t.env = s.env ∧ t.dram = s.dram ∧ t.readData = s.readData
      ∧ t.pending = s.pending := by
  unfold takeRow
  simp only
  split
  · exact ⟨_, rfl, rfl, rfl, rfl, rfl⟩
  · exact ⟨_, rfl, rfl, rfl, rfl, rfl⟩

/-- A ring row is the take, after urgent work, or urgent work alone. -/
theorem takeRow_cases (kind : CommandKind) (take : Env → Bridge → Bridge) (s t : State)
    (h : takeRow kind take s = .next t) :
    (takeDueOf kind (s.settleTo (takeDueOf kind)).bridge = true
        ∧ t = { s with bridge := take s.env (s.settleTo (takeDueOf kind)).bridge })
      ∨ t = s.settleTo (takeDueOf kind) := by
  unfold takeRow at h
  simp only at h
  split at h
  · rename_i hd; cases h; exact Or.inl ⟨hd, rfl⟩
  · cases h; exact Or.inr rfl

end Laws

end Sys2Proof.Machine
end

