-- ==== Sys2Proof/Laws/Bridge.lean ====
section
/-! SUPPORT. Laws/Bridge.lean: one lemma for each shared operation of the bridge that says what it does: byte fields,
the placing of a report, hold breaks, the completion of a command. -/

namespace Sys2Proof.Machine

namespace Laws

/-! ### Byte fields (R198) -/

theorem bytesOf_length (n x : Nat) : (bytesOf n x).length = n := by
  induction n generalizing x with
  | zero => rfl
  | succ n ih => simp [bytesOf, ih]

theorem littleEndian_bytesOf (n x : Nat) (h : x < 256 ^ n) : littleEndian (bytesOf n x) = x := by
  induction n generalizing x with
  | zero => simp [bytesOf, littleEndian]; omega
  | succ n ih =>
    have h1 : x / 256 < 256 ^ n := by
      rw [Nat.div_lt_iff_lt_mul (by omega)]
      rw [Nat.pow_succ] at h
      exact h
    simp only [bytesOf, littleEndian, ih _ h1, BitVec.toNat_ofNat]
    omega

theorem report_bytes_length (r : Report) : r.bytes.length = 32 := by
  simp [Report.bytes, bytesOf_length]

theorem overwrite_length (xs ys : List Byte) (off : Nat) : (overwrite xs off ys).length = xs.length := by
  unfold overwrite
  simp only [List.length_take, List.length_append, List.length_drop]
  omega

theorem overwrite_getElem? (xs ys : List Byte) (off i : Nat) (h : off + ys.length ≤ xs.length) :
    (overwrite xs off ys)[i]? = if off ≤ i ∧ i < off + ys.length then ys[i - off]? else xs[i]? := by
  unfold overwrite
  have ht : (xs.take off).length = off := by simp; omega
  by_cases hi : i < xs.length
  · rw [List.getElem?_take_of_lt hi]
    by_cases h1 : i < off
    · rw [List.append_assoc, List.getElem?_append_left (by omega)]
      simp [h1]
    · by_cases h2 : i < off + ys.length
      · rw [List.getElem?_append_left (by simp; omega), List.getElem?_append_right (by omega)]
        simp only [ht]
        rw [if_pos ⟨by omega, h2⟩]
      · rw [List.getElem?_append_right (by simp; omega)]
        rw [if_neg (by omega)]
        simp only [List.length_append, ht, List.getElem?_drop]
        congr 1
        omega
  · rw [List.getElem?_eq_none (by simp; omega), if_neg (by omega), List.getElem?_eq_none (by omega)]

theorem commandEntry_length (br : Bridge) (i : Nat) (hl : br.commandShadow.length = 256) (hi : i < 16) :
    (br.commandEntry i).length = 16 := by
  simp [Bridge.commandEntry, hl]; omega

theorem commandEntry_getElem? (br : Bridge) (i off : Nat) (ho : off < 16) :
    (br.commandEntry i)[off]? = br.commandShadow[16 * i + off]? := by
  simp [Bridge.commandEntry, List.getElem?_take_of_lt ho, List.getElem?_drop]

theorem entryByte_eq_shadowByte (br : Bridge) (i off : Nat) (ho : off < 16) :
    entryByte (br.commandEntry i) off = br.shadowByte i off := by
  simp [entryByte, Bridge.shadowByte, commandEntry_getElem? br i off ho]

theorem completedEntry_length (entry : List Byte) (st : Status) (detail : Nat) :
    (completedEntry entry st detail).length = entry.length := by
  simp [completedEntry]

theorem completedEntry_byte (br : Bridge) (st : Status) (detail off : Nat) (hl : br.commandShadow.length = 256)
    (hi : br.nextIndex < 16) (ho : off < 16) :
    (completedEntry (br.commandEntry br.nextIndex) st detail)[off]? = some (br.statusByte st detail off) := by
  have hlen := commandEntry_length br br.nextIndex hl hi
  have hx : (br.commandEntry br.nextIndex)[off]? = some (br.shadowByte br.nextIndex off) := by
    rw [commandEntry_getElem? br _ off ho]
    unfold Bridge.shadowByte
    rw [List.getElem?_eq_getElem (by omega)]
    rfl
  unfold completedEntry Bridge.statusByte
  simp only [List.getElem?_set, hlen, List.length_set, hx]
  by_cases h4 : off = 4
  · subst h4; simp
  · by_cases h5 : off = 5
    · subst h5; simp
    · by_cases h15 : off = 15
      · subst h15; simp
      · have a4 : ¬ 4 = off := fun h => h4 h.symm
        have a5 : ¬ 5 = off := fun h => h5 h.symm
        have a15 : ¬ 15 = off := fun h => h15 h.symm
        simp [h4, h5, h15, a4, a5, a15]

/-- R183: the completion of the command at the next index, after an effect `br'` of it that left the command ring
alone. -/
theorem completeTaken_completed (br br' : Bridge) (env : Env) (st : Status) (detail : Nat)
    (hs : br'.commandShadow = br.commandShadow) (hn : br'.nextIndex = br.nextIndex)
    (hl : br.commandShadow.length = 256) (hi : br.nextIndex < 16) :
    br.Completed (br'.completeTaken env st detail) env st detail := by
  have he : br'.commandEntry br'.nextIndex = br.commandEntry br.nextIndex := by
    simp [Bridge.commandEntry, hs, hn]
  have hlen : (completedEntry (br.commandEntry br.nextIndex) st detail).length = 16 := by
    rw [completedEntry_length, commandEntry_length br _ hl hi]
  have hbytes : completedEntry (br.commandEntry br.nextIndex) st detail
      = (List.range 16).map (br.statusByte st detail) := by
    apply List.ext_getElem?
    intro i
    by_cases h : i < 16
    · rw [completedEntry_byte br st detail i hl hi h]
      simp [List.getElem?_range h]
    · rw [List.getElem?_eq_none (by omega), List.getElem?_eq_none (by simp; omega)]
  have hshadow : ∀ j, (br'.completeTaken env st detail).commandShadow[j]? =
      if 16 * br.nextIndex ≤ j ∧ j < 16 * br.nextIndex + 16
      then (completedEntry (br.commandEntry br.nextIndex) st detail)[j - 16 * br.nextIndex]?
      else br.commandShadow[j]? := by
    intro j
    have hcs : (br'.completeTaken env st detail).commandShadow
        = overwrite br.commandShadow (16 * br.nextIndex)
            (completedEntry (br.commandEntry br.nextIndex) st detail) := by
      unfold Bridge.completeTaken
      rw [completeCommand_commandShadow, he, hs, hn]
    rw [hcs, overwrite_getElem? _ _ _ _ (by rw [hlen, hl]; omega), hlen]
  refine ⟨⟨{ kind := .status, birth := br'.births,
              address := controlBase env.straps + 0x800 + 16 * br'.nextIndex,
              bytes := completedEntry (br'.commandEntry br'.nextIndex) st detail, passes := 0 },
      by simp [Bridge.completeTaken, Bridge.completeCommand, Bridge.raise, Bridge.placeOwn], rfl, ?_, rfl, ?_⟩,
    ?_, ?_, ?_, rfl, ?_⟩
  · simp [hn]
  · simp only [he, hbytes]
  · intro off ho
    unfold Bridge.shadowByte
    rw [hshadow, if_pos ⟨by omega, by omega⟩]
    have : 16 * br.nextIndex + off - 16 * br.nextIndex = off := by omega
    rw [this, completedEntry_byte br st detail off hl hi ho]
    rfl
  · intro i off hne ho
    unfold Bridge.shadowByte
    rw [hshadow, if_neg]
    omega
  · rw [completeTaken_events]
    simp [Event.word, Event.bit]
  · rw [completeTaken_nextIndex, hn]

/-! ### Reports (R187, R188) -/

/-- R187: a report that finds a free entry. -/
theorem report_of_free (env : Env) (br : Bridge) (r : Report) (h : br.reportFree = true) :
    br.report env r =
      { (br.placeOwn .report (controlBase env.straps + 0x1000 + 32 * br.position) r.bytes) with
        owners := br.owners.set br.position .software
        position := (br.position + 1) % 32 } := by
  unfold Bridge.report
  rw [if_pos h]

/-- R188: a report that is lost. -/
theorem report_of_held (env : Env) (br : Bridge) (r : Report) (h : br.reportFree = false) :
    br.report env r =
      (br.modView r.frame.view (fun vw => vw.count (fun c => { c with lost := c.lost + 1 }))).raise
        (.lost r.frame.view) := by
  unfold Bridge.report
  rw [if_neg (by simp [h])]

/-- A report places at most one own write (R187, R188). -/
theorem report_ownWrites (env : Env) (br : Bridge) (r : Report) :
    (br.report env r).ownWrites = br.ownWrites
      ∨ ∃ o, (br.report env r).ownWrites = br.ownWrites ++ [o] ∧ o.passes = 0 ∧ o.bytes.length = 32 := by
  cases h : br.reportFree
  · rw [report_of_held env br r h]
    exact Or.inl rfl
  · rw [report_of_free env br r h]
    exact Or.inr ⟨_, rfl, rfl, report_bytes_length r⟩

/-- A report changes no more of a view than its LOST counter (R187, R188). -/
theorem report_view (env : Env) (br : Bridge) (r : Report) (u : Fin 4) :
    ∃ c, (br.report env r).views.get u = { br.views.get u with counters := c } := by
  cases h : br.reportFree
  · rw [report_of_held env br r h, raise_views, modView_get]
    split
    · rename_i hu; subst hu; exact ⟨_, rfl⟩
    · exact ⟨_, rfl⟩
  · rw [report_of_free env br r h]
    exact ⟨_, rfl⟩

/-! ### Events -/

/-- Raising an event sets its bit and no other (R172). -/
theorem raise_getLsbD (br : Bridge) (e : Event) (n : Nat) :
    (br.raise e).events.getLsbD n = (br.events.getLsbD n || (decide (n = e.bit) && decide (n < 19))) := by
  have hb : e.bit < 19 := by
    cases e <;> simp only [Event.bit] <;> omega
  rw [raise_events, BitVec.getLsbD_or]
  congr 1
  unfold Event.word
  rw [BitVec.getLsbD_ofNat, Nat.testBit_two_pow]
  by_cases h : n = e.bit
  · subst h; simp
  · have : ¬ e.bit = n := fun hh => h hh.symm
    simp [h, this]

/-- The bit of an event has its place in the set (R172). -/
theorem Event_bit_lt (e : Event) : e.bit < 19 := by
  cases e <;> simp only [Event.bit] <;> omega

/-! ### Hold breaks (R15, R25) -/

/-- What breaking holds does to a view. -/
theorem breakHolds_view (br : Bridge) (v u : Fin 4) (p : MapEntry → Bool) (also : Bool) :
    (br.breakHolds v p also).views.get u =
      if u = v then
        ((br.views.get v).liveEntries p).count (fun c =>
          { c with holdBreak := c.holdBreak + BitVec.ofNat 16 ((br.views.get v).countEntries p) })
      else br.views.get u := by
  unfold Bridge.breakHolds
  simp only [raiseIf_views, modView_get]

/-- After a break no entry that satisfies `p` is left, unless LIVE itself does. -/
theorem liveEntries_mem (vw : View) (p : MapEntry → Bool) (n : Nat) (sl : Slot)
    (h : (vw.liveEntries p).slots[n]? = some sl) :
    ∃ old, vw.slots[n]? = some old ∧ sl.state = old.state ∧ sl.offsets = old.offsets
      ∧ ∀ e ∈ sl.map, e = .live ∨ (e ∈ old.map ∧ p e = false) := by
  unfold View.liveEntries at h
  simp only [List.getElem?_map, Option.map_eq_some_iff] at h
  obtain ⟨old, ho, rfl⟩ := h
  refine ⟨old, ho, rfl, rfl, ?_⟩
  intro e he
  simp only [List.mem_map] at he
  obtain ⟨f, hf, rfl⟩ := he
  cases hp : p f
  · right; simp [hf, hp]
  · left; simp

/-! ### The sequencer's records (R162, R165) -/

theorem fillPlaces_length (places : List (Option Byte)) (first : Nat) (bs : List Byte) :
    (fillPlaces places first bs).length = places.length := by
  induction bs generalizing places first with
  | nil => rfl
  | cons b bs ih => simp [fillPlaces, ih]

/-- Data fills the empty places it is for; a filled place keeps its value, and so does every place outside. -/
theorem fillPlaces_getElem? (places : List (Option Byte)) (first n : Nat) (bs : List Byte) :
    (fillPlaces places first bs)[n]? =
      if first ≤ n then
        match bs[n - first]? with
        | some b => (places[n]?).map (fun p => some (p.getD b))
        | none => places[n]?
      else places[n]? := by
  induction bs generalizing places first with
  | nil => simp [fillPlaces]
  | cons b bs ih =>
    rw [fillPlaces, ih, List.getElem?_modify]
    by_cases h1 : first + 1 ≤ n
    · have h2 : n - first = n - (first + 1) + 1 := by omega
      have h3 : ¬ first = n := by omega
      rw [if_pos h1, if_pos (by omega), h2, List.getElem?_cons_succ]
      simp [h3]
    · rw [if_neg h1]
      by_cases h2 : first = n
      · subst h2; simp
      · rw [if_neg (by omega)]
        simp [h2]

/-- The issue of an own write changes no more of a stream than whether its head is promoted. -/
theorem promoteHead_cons (birth : Nat) (op : UpOp) (ops : List UpOp) :
    promoteHead birth (op :: ops) = { op with promoted := op.promoted || op.mark == some birth } :: ops := rfl

/-! ### Slots -/

/-- The slot records after one of them was changed. -/
theorem modSlot_getElem? (vw : View) (k n : Nat) (f : Slot → Slot) :
    (vw.modSlot k f).slots[n]? = (vw.slots[n]?).map (fun sl => if n = k then f sl else sl) := by
  unfold View.modSlot
  simp only [List.getElem?_modify]
  by_cases h : n = k
  · subst h
    cases vw.slots[n]? <;> simp
  · have : ¬ k = n := fun hh => h hh.symm
    cases vw.slots[n]? <;> simp [h, this]

/-- R59, R204: a selected edge is a glitch exactly where an edge has been accepted and either time is held or fewer than
500 µs have passed since. -/
theorem isGlitch_iff (r : RotInput) (tsref : TimeReference) (now : Stamp) :
    r.isGlitch tsref now = true ↔
      ∃ u rest, r.times = u :: rest ∧ 0 < r.count ∧ (tsref = .held ∨ (now - u).toNat < 500) := by
  unfold RotInput.isGlitch
  cases r.times with
  | nil => simp
  | cons u rest =>
    simp only [Bool.and_eq_true, decide_eq_true_eq, List.cons.injEq]
    cases tsref
    · exact ⟨fun h => ⟨u, rest, ⟨rfl, rfl⟩, h.1, .inr h.2⟩,
        fun ⟨_, _, ⟨hu, _⟩, hc, hw⟩ => ⟨hc, hu ▸ hw.resolve_left (by simp)⟩⟩
    · exact ⟨fun h => ⟨u, rest, ⟨rfl, rfl⟩, h.1, .inl rfl⟩, fun ⟨_, _, _, hc, _⟩ => ⟨hc, Nat.zero_lt_succ _⟩⟩

end Laws

end Sys2Proof.Machine
end

