-- ==== Sys2Proof/Laws/Configure.lean ====
section
/-! SUPPORT. Laws/Configure.lean: the twelve checks of CONFIGURE as the model computes them are the table of R4 as
Safety.lean spells it. -/

namespace Sys2Proof.Machine

namespace Laws

/-- Two of the ranges meet when some earlier one shares a byte with some later one (R6). -/
theorem someMeet_iff (rs : List MapRange) :
    someMeet rs = true ↔ ∃ (i j : Nat) (p q : MapRange), i < j ∧ rs[i]? = some p ∧ rs[j]? = some q ∧ p.meets q = true := by
  induction rs with
  | nil => simp [someMeet]
  | cons r rs ih =>
    simp only [someMeet, Bool.or_eq_true, List.any_eq_true, ih]
    constructor
    · rintro (⟨q, hq, hm⟩ | ⟨i, j, p, q, hij, hi, hj, hm⟩)
      · obtain ⟨n, hn⟩ := List.mem_iff_getElem?.1 hq
        exact ⟨0, n + 1, r, q, by omega, rfl, hn, hm⟩
      · exact ⟨i + 1, j + 1, p, q, by omega, hi, hj, hm⟩
    · rintro ⟨i, j, p, q, hij, hi, hj, hm⟩
      obtain ⟨n, rfl⟩ : ∃ n, j = n + 1 := ⟨j - 1, by omega⟩
      cases i with
      | zero =>
        simp only [List.getElem?_cons_zero, Option.some.injEq] at hi
        exact .inl ⟨q, List.mem_iff_getElem?.2 ⟨n, hj⟩, hi ▸ hm⟩
      | succ i => exact .inr ⟨i, n, p, q, by omega, hi, hj, hm⟩

/-- A range without its name. -/
def rangeSpan (r : MapRange) : Nat × Nat := (r.base, r.size)

theorem ranges_span (g : Geometry) (v : Fin 4) : (g.ranges v).map rangeSpan = g.spans := by
  have h (bs : List Nat) (n : Nat) :
      ((bs.zipIdx n).map (fun p => ({ region := .slot v p.2, base := p.1, size := g.sp * g.h } : MapRange))).map
        rangeSpan = bs.map (fun b => (b, g.sp * g.h)) := by
    induction bs generalizing n with
    | nil => rfl
    | cons b bs ih => simpa [List.zipIdx_cons, rangeSpan] using ih (n + 1)
  unfold Geometry.ranges Geometry.spans
  rw [List.map_append, h]
  rfl

/-- R6: what the OVERLAP check compares. -/
theorem overlapSet_span (straps : Straps) (br : Bridge) (v : Fin 4) (d : Descriptor) :
    (overlapSet straps br v d.geometry).map rangeSpan = comparedSpans straps br v d := by
  have hv (u : Fin 4) : (br.viewRanges u).map rangeSpan =
      if (br.views.get u).state = .unconfigured then [] else (br.views.get u).geometry.spans := by
    unfold Bridge.viewRanges
    split
    · rfl
    · exact ranges_span _ u
  have ho (us : List (Fin 4)) : ((us.filter (fun u => u != v)).flatMap br.viewRanges).map rangeSpan =
      (us.filter (fun u => u != v ∧ (br.views.get u).state ≠ .unconfigured)).flatMap
        (fun u => (br.views.get u).geometry.spans) := by
    induction us with
    | nil => rfl
    | cons u us ih =>
      by_cases h1 : u = v
      · simpa [h1] using ih
      · by_cases h2 : (br.views.get u).state = .unconfigured
        · simp [h1, h2, hv] at ih ⊢
          exact ih
        · simp [h1, h2, hv] at ih ⊢
          exact ih
  unfold overlapSet comparedSpans
  rw [List.map_append, List.map_append, ranges_span, ho]
  rfl

theorem overlap_iff (straps : Straps) (br : Bridge) (v : Fin 4) (d : Descriptor) :
    someMeet (overlapSet straps br v d.geometry) = true ↔ CheckFails straps br v d 9 := by
  rw [someMeet_iff]
  unfold CheckFails
  simp only [← overlapSet_span, List.getElem?_map, Option.map_eq_some_iff]
  constructor
  · rintro ⟨i, j, p, q, hij, hi, hj, hm⟩
    simp only [MapRange.meets, Bool.and_eq_true, decide_eq_true_eq] at hm
    exact ⟨i, j, rangeSpan p, rangeSpan q, hij, ⟨p, hi, rfl⟩, ⟨q, hj, rfl⟩, hm.1, hm.2⟩
  · rintro ⟨i, j, _, _, hij, ⟨p, hi, rfl⟩, ⟨q, hj, rfl⟩, hm⟩
    refine ⟨i, j, p, q, hij, hi, hj, ?_⟩
    simpa [MapRange.meets, rangeSpan] using hm

/-- R3, R7: the slot list has fewer than two slots exactly where no LAST flag ends it, or the first does. -/
theorem slotBases_short_iff (straps : Straps) (br : Bridge) (v : Fin 4) (d : Descriptor) :
    d.slotBases.length < 2 ↔ CheckFails straps br v d 7 := by
  unfold CheckFails Descriptor.slotBases
  have hn (es : List (Nat × Bool)) : slotListUpToLast es = none ↔ ∀ e ∈ es, e.2 = false := by
    induction es with
    | nil => simp [slotListUpToLast]
    | cons e es ih =>
      obtain ⟨a, b⟩ := e
      cases b <;> simp [slotListUpToLast, ih]
  have hp (es : List (Nat × Bool)) (l : List Nat) (h : slotListUpToLast es = some l) : 0 < l.length := by
    cases es with
    | nil => cases h
    | cons e es =>
      obtain ⟨a, b⟩ := e
      cases b
      · simp only [slotListUpToLast, Option.map_eq_some_iff] at h
        obtain ⟨_, _, rfl⟩ := h
        simp
      · simp only [slotListUpToLast, Option.some.injEq] at h
        simp [← h]
  cases hs : d.slots with
  | nil => simp [slotListUpToLast]
  | cons e es =>
    obtain ⟨a, b⟩ := e
    cases b
    · cases ht : slotListUpToLast es with
      | none =>
        have := (hn es).1 ht
        simp only [slotListUpToLast, ht]
        simp
        exact fun a ha => by simpa using this _ ha
      | some l =>
        have h0 := hp es l ht
        have : ¬ ∀ e ∈ es, e.2 = false := fun h => by simp [(hn es).2 h] at ht
        simp only [slotListUpToLast, ht]
        simp at this ⊢
        obtain ⟨x, hx⟩ := this
        exact ⟨fun h => by simp [h] at h0, fun h => (h x hx).elim⟩
    · simp [slotListUpToLast]

/-- Each check of the list fails exactly where the table says so. -/
theorem configureChecks_spec (straps : Straps) (br : Bridge) (v : Fin 4) (d : Descriptor) :
    ∀ c ∈ configureChecks straps br v d, (c.2 = true ↔ CheckFails straps br v d c.1) := by
  have hb : d.geometry.bpp = d.bytesPerPixel := by
    unfold Descriptor.geometry Descriptor.bytesPerPixel Geometry.bpp
    by_cases h : d.format = 2 <;> simp [h]
  have h10 : (d.geometry.ranges v).any (fun r => decide (capacity straps ≤ r.base + r.size - 1)) = true ↔
      CheckFails straps br v d 10 := by
    unfold CheckFails
    rw [← ranges_span d.geometry v]
    simp [rangeSpan]
  intro c hc
  simp only [configureChecks, List.mem_cons, List.not_mem_nil, or_false] at hc
  rcases hc with rfl | rfl | rfl | rfl | rfl | rfl | rfl | rfl | rfl | rfl | rfl | rfl
  · simp [CheckFails]
  · simp [CheckFails, Nat.dvd_iff_mod_eq_zero]
  · simp [CheckFails, Nat.dvd_iff_mod_eq_zero]
  · have h : d.geometry.lineBytes = d.w * d.bytesPerPixel := by rw [← hb]; rfl
    simp [CheckFails, Nat.dvd_iff_mod_eq_zero, h]
  · simp [CheckFails, Nat.dvd_iff_mod_eq_zero]
  · have h : d.geometry.pw * d.geometry.bpp = (d.w - 2 * d.mx) * d.bytesPerPixel := by rw [hb]; rfl
    simp [CheckFails, Nat.dvd_iff_mod_eq_zero, h]
  · simpa using slotBases_short_iff straps br v d
  · simp [CheckFails, Nat.dvd_iff_mod_eq_zero]
  · exact overlap_iff straps br v d
  · exact h10
  · have h : d.tunables.valid = true ↔ d.tunables.InRange := by
      simp only [Tunables.valid, Tunables.InRange, Bool.and_eq_true, decide_eq_true_eq, and_assoc]
    simp only [CheckFails, ← h, Bool.not_eq_true', Bool.not_eq_true]
  · simp [CheckFails]

/-- The table of R4 has no other check. -/
theorem checkFails_listed (straps : Straps) (br : Bridge) (v : Fin 4) (d : Descriptor) (n : Nat)
    (h : CheckFails straps br v d n) : ∃ c ∈ configureChecks straps br v d, c.1 = n := by
  unfold configureChecks
  unfold CheckFails at h
  split at h
  all_goals first
    | exact h.elim
    | simp

end Laws

end Sys2Proof.Machine
end

