-- ==== Sys2Proof/Laws/Memory.lean ====
section
/-! SUPPORT. Laws/Memory.lean: the DRAM operations: what a byte reads as after each of them, and that each keeps the
canonical form. -/

namespace Sys2Proof.Machine

namespace Laws

theorem find_writeByte (m : List Host.Cell) (a b : Nat) (x : Byte) :
    Memory.find (Memory.writeByte m a x) b = if b = a then some x else Memory.find m b := by
  induction m with
  | nil => simp [Memory.writeByte, Memory.find]
  | cons c m ih =>
    obtain ⟨c, y⟩ := c
    unfold Memory.writeByte
    split
    · simp [Memory.find]
    · split
      · subst c
        simp only [Memory.find]
        split <;> rfl
      · rename_i h1 h2
        simp only [Memory.find, ih]
        by_cases hb : b = c
        · have : b ≠ a := by omega
          simp [hb]; omega
        · simp [hb]

theorem readByte_writeByte (m : List Host.Cell) (a b : Nat) (x : Byte) :
    Memory.readByte (Memory.writeByte m a x) b = if b = a then x else Memory.readByte m b := by
  unfold Memory.readByte
  rw [find_writeByte]
  split <;> rfl

/-- R157: a write changes the bytes whose enables it carries, and no others. -/
theorem readByte_writeBytes (bs : List WriteByte) (m : List Host.Cell) (a b : Nat) :
    Memory.readByte (Memory.writeBytes m a bs) b =
      if a ≤ b ∧ b < a + bs.length ∧ ((bs[b - a]?).map (·.enable)).getD false = true
      then ((bs[b - a]?).map (·.data)).getD 0 else Memory.readByte m b := by
  induction bs generalizing m a with
  | nil => simp [Memory.writeBytes]
  | cons w ws ih =>
    unfold Memory.writeBytes
    rw [ih]
    by_cases hlt : b < a
    · have h1 : ¬ (a + 1 ≤ b) := by omega
      have h2 : ¬ (a ≤ b) := by omega
      have h3 : b ≠ a := by omega
      cases hw : w.enable <;> simp [h1, h2, h3, readByte_writeByte]
    · by_cases heq : b = a
      · subst heq
        cases hw : w.enable <;> simp [hw, readByte_writeByte]
      · have h1 : a + 1 ≤ b := by omega
        have h2 : a ≤ b := by omega
        have h3 : b - a = (b - (a + 1)) + 1 := by omega
        have h4 : (b < a + 1 + ws.length) ↔ (b < a + (ws.length + 1)) := by omega
        have h5 : Memory.readByte (if w.enable = true then Memory.writeByte m a w.data else m) b
            = Memory.readByte m b := by
          split
          · rw [readByte_writeByte]; simp [heq]
          · rfl
        rw [h5]
        simp only [h1, h2, h3, h4, List.length_cons, List.getElem?_cons_succ, true_and]

/-- An own write: every byte enabled. -/
theorem readByte_writeBytes_all (bs : List Byte) (m : List Host.Cell) (a b : Nat) :
    Memory.readByte (Memory.writeBytes m a (bs.map (fun x => { data := x, enable := true }))) b =
      if a ≤ b ∧ b < a + bs.length then (bs[b - a]?).getD 0 else Memory.readByte m b := by
  rw [readByte_writeBytes]
  by_cases h : a ≤ b ∧ b < a + bs.length
  · have h' : b - a < bs.length := by omega
    simp [h.1, h.2, h']
  · have h' : ¬ (a ≤ b ∧ b < a + bs.length ∧
        (((bs.map (fun x => ({ data := x, enable := true } : WriteByte)))[b - a]?).map (·.enable)).getD false = true) :=
      fun hh => h ⟨hh.1, hh.2.1⟩
    simp only [List.length_map, h, h', if_false]

theorem readBytes_length (m : List Host.Cell) (a n : Nat) : (Memory.readBytes m a n).length = n := by
  induction n generalizing a with
  | zero => rfl
  | succ n ih => simp [Memory.readBytes, ih]

theorem readBytes_getElem? (m : List Host.Cell) (a n i : Nat) (h : i < n) :
    (Memory.readBytes m a n)[i]? = some (Memory.readByte m (a + i)) := by
  induction n generalizing a i with
  | zero => omega
  | succ n ih =>
    cases i with
    | zero => simp [Memory.readBytes]
    | succ i =>
      have := ih (a + 1) i (by omega)
      simp only [Memory.readBytes, List.getElem?_cons_succ, this]
      congr 2
      omega

/-- R168: the bytes outside the operation that was being performed keep what they hold. -/
theorem readByte_tear (m : List Host.Cell) (k a n b : Nat) (h : ¬ (a ≤ b ∧ b < a + n)) :
    Memory.readByte (Memory.tear m k a n) b = Memory.readByte m b := by
  induction n generalizing m a with
  | zero => rfl
  | succ n ih =>
    unfold Memory.tear
    rw [ih _ _ (by omega), readByte_writeByte]
    have : b ≠ a := by omega
    simp [this]

/-! ### The canonical form -/

/-- Every address of a list is above `a`. -/
def Above (a : Nat) (m : List Host.Cell) : Prop := ∀ c ∈ m, a < c.1

theorem wf_cons (c : Host.Cell) (m : List Host.Cell) :
    Memory.wf (c :: m) = true ↔ Above c.1 m ∧ Memory.wf m = true := by
  induction m generalizing c with
  | nil => simp [Memory.wf, Above]
  | cons d m ih =>
    obtain ⟨a, x⟩ := c
    obtain ⟨b, y⟩ := d
    simp only [Memory.wf, Bool.and_eq_true, decide_eq_true_eq]
    constructor
    · rintro ⟨h1, h2⟩
      refine ⟨?_, h2⟩
      have h3 := ((ih (b, y)).1 h2).1
      intro e he
      cases he with
      | head => exact h1
      | tail _ he => exact Nat.lt_trans h1 (h3 e he)
    · rintro ⟨h1, h2⟩
      exact ⟨h1 (b, y) (by simp), h2⟩

theorem above_writeByte (m : List Host.Cell) (a b : Nat) (x : Byte) (h : Above b m) (hb : b < a) :
    Above b (Memory.writeByte m a x) := by
  induction m with
  | nil => simp [Memory.writeByte, Above, hb]
  | cons c m ih =>
    obtain ⟨c, y⟩ := c
    have hc : b < c := h (c, y) (by simp)
    have hm : Above b m := fun e he => h e (by simp [he])
    unfold Memory.writeByte
    split
    · intro e he
      simp only [List.mem_cons] at he
      rcases he with rfl | rfl | he
      · exact hb
      · exact hc
      · exact hm e he
    · split
      · intro e he
        simp only [List.mem_cons] at he
        rcases he with rfl | he
        · exact hb
        · exact hm e he
      · intro e he
        simp only [List.mem_cons] at he
        rcases he with rfl | he
        · exact hc
        · exact ih hm e he

theorem wf_writeByte (m : List Host.Cell) (a : Nat) (x : Byte) (h : Memory.wf m = true) :
    Memory.wf (Memory.writeByte m a x) = true := by
  induction m with
  | nil => rfl
  | cons c m ih =>
    obtain ⟨c, y⟩ := c
    have hc := (wf_cons _ _).1 h
    unfold Memory.writeByte
    split
    · rename_i hlt
      refine (wf_cons _ _).2 ⟨?_, h⟩
      intro e he
      simp only [List.mem_cons] at he
      rcases he with rfl | he
      · exact hlt
      · exact Nat.lt_trans hlt (hc.1 e he)
    · split
      · rename_i heq
        subst heq
        exact (wf_cons _ _).2 ⟨hc.1, hc.2⟩
      · exact (wf_cons _ _).2 ⟨above_writeByte m a c x hc.1 (by omega), ih hc.2⟩

theorem wf_writeBytes (bs : List WriteByte) (m : List Host.Cell) (a : Nat) (h : Memory.wf m = true) :
    Memory.wf (Memory.writeBytes m a bs) = true := by
  induction bs generalizing m a with
  | nil => exact h
  | cons w ws ih =>
    unfold Memory.writeBytes
    apply ih
    split
    · exact wf_writeByte _ _ _ h
    · exact h

theorem wf_tear (n : Nat) (m : List Host.Cell) (k a : Nat) (h : Memory.wf m = true) :
    Memory.wf (Memory.tear m k a n) = true := by
  induction n generalizing m a with
  | zero => exact h
  | succ n ih => exact ih _ _ (wf_writeByte _ _ _ h)

/-- Every operation over DRAM keeps the canonical form. -/
theorem wf_issue (d : Dram) (op : UpOp) (h : Memory.wf d.cells = true) : Memory.wf (d.issue op).cells = true := by
  unfold Dram.issue
  split
  · exact wf_writeBytes _ _ _ h
  · exact h

theorem wf_issueOwn (d : Dram) (o : OwnWrite) (h : Memory.wf d.cells = true) :
    Memory.wf (d.issueOwn o).cells = true := wf_writeBytes _ _ _ h

/-- R168: the operation being performed is the one taken last, while its time is not over. -/
theorem beingPerformed_iff (d : Dram) (p : Performing) :
    d.beingPerformed = some p ↔ d.performing = some p ∧ 0 < p.left := by
  simp [Dram.beingPerformed, Option.filter_eq_some_iff]

/-- R168: with no operation being performed DRAM keeps every byte. -/
theorem assertReset_cells_of_none (d : Dram) (h : d.beingPerformed = none) : d.assertReset.cells = d.cells := by
  unfold Dram.assertReset
  rw [h]

theorem wf_assertReset (d : Dram) (h : Memory.wf d.cells = true) : Memory.wf d.assertReset.cells = true := by
  unfold Dram.assertReset
  split
  · exact h
  · exact wf_tear _ _ _ _ h

theorem wf_reset : Memory.wf State.reset.dram.cells = true := rfl

end Laws

end Sys2Proof.Machine
end

