-- ==== Sys2Proof/Laws/Port.lean ====
section
/-! SUPPORT. Laws/Port.lean: what the acceptance of a request does when all its bytes lie in one region, which is the case
of every request but those that cross the edge of a range. -/

namespace Sys2Proof.Machine

namespace Laws

/-- A list on which the key is constant is one stretch (R147). -/
theorem cutBy_const {α κ : Type} [DecidableEq κ] (key : α → κ) (k : κ) (xs : List α) (hx : xs ≠ [])
    (h : ∀ x ∈ xs, key x = k) : cutBy key xs = [xs] := by
  induction xs with
  | nil => exact absurd rfl hx
  | cons x xs ih =>
    cases xs with
    | nil => rfl
    | cons y ys =>
      have hk : key x = key y := by rw [h x (by simp), h y (by simp)]
      unfold cutBy
      rw [ih (by simp) (fun z hz => h z (List.mem_cons_of_mem _ hz))]
      simp [hk]

theorem writeCells_getElem? (w : WriteRequest) (n : Nat) :
    (writeCells w)[n]? = (w.bytes[n]?).map (fun b => (w.address.toNat + n, b)) := by
  simp only [writeCells, List.getElem?_map, List.getElem?_zipIdx, Option.map_map, Function.comp_def, Nat.zero_add]

@[simp] theorem writeCells_length (w : WriteRequest) : (writeCells w).length = w.bytes.length := by
  simp [writeCells]

@[simp] theorem writeCells_bytes (w : WriteRequest) : (writeCells w).map (·.2) = w.bytes := by
  apply List.ext_getElem?
  intro n
  rw [List.getElem?_map, writeCells_getElem?]
  cases w.bytes[n]? <;> rfl

/-- A write that lies whole in one region is one piece (R147). -/
theorem writePieces_single (straps : Straps) (ranges : List MapRange) (w : WriteRequest) (k : Region)
    (hw : w.bytes ≠ []) (h : ∀ n, n < w.bytes.length → regionOf straps ranges (w.address.toNat + n) = k) :
    writePieces straps ranges w = [{ region := k, cells := writeCells w }] := by
  have hc : ∀ c ∈ writeCells w, regionOf straps ranges c.1 = k := by
    intro c hc
    obtain ⟨n, hn⟩ := List.mem_iff_getElem?.1 hc
    rw [writeCells_getElem?, Option.map_eq_some_iff] at hn
    obtain ⟨b, hb, rfl⟩ := hn
    exact h n (List.getElem?_eq_some_iff.1 hb).1
  have hne : writeCells w ≠ [] := by
    intro h0
    have := writeCells_length w
    simp only [h0, List.length_nil] at this
    exact hw (List.length_eq_zero_iff.1 this.symm)
  unfold writePieces
  rw [cutBy_const _ k _ hne hc]
  cases hx : writeCells w with
  | nil => exact absurd hx hne
  | cons c cs => simp [hc c (by simp [hx])]

/-- A read that lies whole in one region is one piece (R147). -/
theorem readPieces_single (straps : Straps) (ranges : List MapRange) (r : ReadRequest) (k : Region) (hr : 1 ≤ r.beats)
    (h : ∀ n, n < 4 * r.beats → regionOf straps ranges (r.address.toNat + n) = k) :
    readPieces straps ranges r = [{ region := k, addresses := readAddresses r }] := by
  have hc : ∀ a ∈ readAddresses r, regionOf straps ranges a = k := by
    intro a ha
    simp only [readAddresses, List.mem_map, List.mem_range] at ha
    obtain ⟨n, hn, rfl⟩ := ha
    exact h n hn
  have hne : readAddresses r ≠ [] := by
    intro h0
    have := congrArg List.length h0
    simp only [readAddresses, List.length_map, List.length_range, List.length_nil] at this
    omega
  unfold readPieces
  rw [cutBy_const _ k _ hne hc]
  cases hx : readAddresses r with
  | nil => exact absurd hx hne
  | cons a as => simp [hc a (by simp [hx])]

/-- The first address of a read that lies whole in one region. -/
theorem readAddresses_cons (r : ReadRequest) (hr : 1 ≤ r.beats) :
    ∃ rest, readAddresses r = r.address.toNat :: rest := by
  obtain ⟨n, hn⟩ : ∃ n, 4 * r.beats = n + 1 := ⟨4 * r.beats - 1, by omega⟩
  exact ⟨_, by simp only [readAddresses, hn, List.range_succ_eq_map, List.map_cons, Nat.add_zero]; rfl⟩

/-- R146, R147: the control region, while it is active, comes before every other range. -/
theorem regionOf_control (env : Env) (br : Bridge) (off : Nat) (ha : controlActive env.straps = true) (ho : off < 0x2000) :
    regionOf env.straps (windowMap env br) (controlBase env.straps + off) = .control := by
  have hs : Config.controlSize = 0x2000 := rfl
  have hc : ¬ capacity env.straps ≤ controlBase env.straps + off := by
    simp only [controlActive, hs, Bool.and_eq_true, decide_eq_true_eq] at ha
    omega
  have hh : (controlRange env.straps).holds (controlBase env.straps + off) = true := by
    simp only [MapRange.holds, controlRange, hs, Bool.and_eq_true, decide_eq_true_eq]
    omega
  have hm : ∃ rest, windowMap env br = controlRange env.straps :: rest := by
    unfold windowMap
    rw [if_pos ha]
    exact ⟨_, rfl⟩
  obtain ⟨rest, hm⟩ := hm
  unfold regionOf
  have hf : (controlRange env.straps :: rest).find? (fun r => r.holds (controlBase env.straps + off))
      = some (controlRange env.straps) := List.find?_cons_of_pos hh
  rw [if_neg hc, hm, hf]
  rfl

/-- R148: a write that lies whole in one region of DRAM or of the control region has one operation, with its own address,
data and enables. -/
theorem joinWritePiece_whole (br : Bridge) (q : Nat) (w : WriteRequest) (k : Region) (hk : k ≠ .outOfRange)
    (hw : w.bytes ≠ []) :
    br.joinWritePiece q { region := k, cells := writeCells w } = br.joinStream q w.address.toNat (.write w.bytes) := by
  have hb := writeCells_bytes w
  have h0 := writeCells_getElem? w 0
  cases hx : writeCells w with
  | nil => rw [hx] at hb; exact absurd hb.symm hw
  | cons c cs =>
    obtain ⟨a, b⟩ := c
    rw [hx] at hb h0
    simp only [List.map_cons] at hb
    have ha : a = w.address.toNat := by
      rw [← hb] at h0
      simpa using congrArg (Option.map Prod.fst) h0
    unfold Bridge.joinWritePiece
    cases k <;> simp_all

/-- R145, R148: the acceptance of a write that lies whole in one region, in range: its one operation, the effect on the
watching blocks, and the take it makes available. -/
theorem acceptWrite_whole (env : Env) (br : Bridge) (w : WriteRequest) (k : Region) (hw : w.bytes ≠ [])
    (hk : k ≠ .outOfRange)
    (h : ∀ n, n < w.bytes.length → regionOf env.straps (windowMap env br) (w.address.toNat + n) = k) :
    acceptWrite env br w =
      takeIfDue env
        ((((br.takePlace false).joinStream br.accepted w.address.toNat (.write w.bytes)).watchPieces env w.tag false
          [{ region := k, cells := writeCells w }]).freePlaces) := by
  have ho : (br.takePlace false).countOutOfRange env [k] = br.takePlace false := by
    unfold Bridge.countOutOfRange
    rw [if_neg]
    simp [hk]
  unfold acceptWrite
  rw [writePieces_single env.straps _ w k hw h]
  simp only [List.map_cons, List.map_nil, List.foldl_cons, List.foldl_nil]
  rw [ho, joinWritePiece_whole _ _ w k hk hw]

/-- R149: the acceptance of a read that lies whole in one region, in range. -/
theorem acceptRead_whole (env : Env) (br : Bridge) (r : ReadRequest) (k : Region) (hr : 1 ≤ r.beats)
    (hk : k ≠ .outOfRange)
    (h : ∀ n, n < 4 * r.beats → regionOf env.straps (windowMap env br) (r.address.toNat + n) = k) :
    acceptRead env br r =
      (let p : ReadPiece := { region := k, addresses := readAddresses r }
       let b := (br.takePlace true).scanPiece r.tag p
       (b.openAssembly br.accepted (partPlaces (b.pieceParts env p))).joinReads br.accepted 0 (b.pieceParts env p)) := by
  have ho : (br.takePlace true).countOutOfRange env [k] = br.takePlace true := by
    unfold Bridge.countOutOfRange
    rw [if_neg]
    simp [hk]
  unfold acceptRead
  rw [readPieces_single env.straps _ r k hr h]
  simp only [List.map_cons, List.map_nil]
  rw [ho]
  simp only [Bridge.answerPieces, List.append_nil]

end Laws

end Sys2Proof.Machine
end

