-- ==== Sys2Proof/Tests/Slice0.lean ====
section
/-! SUPPORT. Tests/Slice0.lean: ill-formed operands refused, the spec's worked cases on small states, and for every
statement with hypotheses a state that meets them. -/

namespace Sys2Proof.Machine.Tests

set_option Elab.async false

/-! ## Ill-formed operands (R142) -/

/-- A byte with its enable set. -/
def on (d : Byte) : WriteByte := { data := d, enable := true }

/-- A byte with its enable clear. -/
def off (d : Byte) : WriteByte := { data := d, enable := false }

theorem test_illFormed_write_address : (Instr.write ⟨2, 0, [on 0, on 0, on 0, on 0]⟩).wellFormed = false := by decide
theorem test_illFormed_write_noBeat : (Instr.write ⟨0, 0, []⟩).wellFormed = false := by decide
theorem test_illFormed_write_partBeat : (Instr.write ⟨0, 0, [on 0, on 0]⟩).wellFormed = false := by decide
theorem test_illFormed_write_tooLong :
    (Instr.write ⟨0, 0, List.replicate 260 (on 0)⟩).wellFormed = false := by decide +kernel
theorem test_illFormed_read_address : (Instr.read ⟨3, 0, 1⟩).wellFormed = false := by decide
theorem test_illFormed_read_noBeat : (Instr.read ⟨0, 0, 0⟩).wellFormed = false := by decide
theorem test_illFormed_read_tooLong : (Instr.read ⟨0, 0, 65⟩).wellFormed = false := by decide
theorem test_wellFormed_longest :
    (Instr.write ⟨0, 0, List.replicate 256 (on 0)⟩).wellFormed = true ∧ (Instr.read ⟨0, 0, 64⟩).wellFormed = true := by
  decide +kernel

/-! ## Small states -/

/-- The state a row leads to, the state itself where the row stops. -/
def run (c : Instr) (s : State) : State :=
  match exec c s with
  | .next t => t
  | .fault _ => s
  | .refused _ => s

/-- A running bridge of 128 MiB with its control region at 0x02000000. -/
def up : State :=
  { State.reset with env := { straps := ⟨1, 1, false⟩, resetAsserted := false, initializing := false, timestamp := 0 } }

/-- The machine with its bridge changed. -/
def State.br (s : State) (f : Bridge → Bridge) : State := { s with bridge := f s.bridge }

/-- The geometry of the worked case of chapter 2. -/
def geo : Geometry :=
  { format := .y8, w := 256, h := 128, sp := 320, pp := 256, mx := 16, my := 8, base := 0x01400000,
    slotBases := [0x01000000, 0x01010000, 0x01020000], intakeTag := 0x20, intakeMask := 0xFF, displayTag := 0x40,
    displayMask := 0xFF, swap := .frame, rotation := none }

/-- A view of that geometry in a state. -/
def viewIn (st : ViewState) : View :=
  { View.reset with
    state := st, geometry := geo, slots := newSlots geo.slotBases,
    motion := { Motion.reset with active := ⟨4, 4, 14, 8, 8, 24, 15, 8, 2⟩ } }

/-- The running bridge with view 0 in a state. -/
def withView (st : ViewState) : State := State.br up (fun br => br.modView 0 (fun _ => viewIn st))

/-- A command entry handed to the bridge. -/
def entry (code target argument : Byte) : List Byte :=
  [code, target, argument, 0, 0, 0, 0, 0, 0, 0, 0, 0, 0, 0, 0, 1]

/-- The machine with entry 0 of the command shadow set. -/
def ring (s : State) (e : List Byte) : State :=
  State.br s (fun br => { br with commandShadow := overwrite br.commandShadow 0 e })

/-- The descriptor of that geometry. -/
def descriptor : List Byte :=
  [1, 0, 0, 0, 0x00, 0x01, 0x80, 0x00, 0x40, 0x01, 0x00, 0x01, 16, 8, 0x20, 0xFF, 0x40, 0xFF, 4, 4, 14, 8, 8, 24, 15, 8, 2,
    0, 0x00, 0x00, 0x40, 0x01, 0, 0, 0, 1, 0, 0, 0, 0, 0, 0, 1, 1, 0, 0, 0, 0, 0, 0, 2, 1, 1, 0, 0, 0]
    ++ List.replicate 40 0

/-- The machine with the descriptor shadow of view 0 set. -/
def described (s : State) (d : List Byte) : State :=
  State.br s (fun br => { br with descriptors := br.descriptors.set 0 d })

/-- A write of one beat, every byte enabled. -/
def beat (a : BitVec 32) (tag d0 d1 d2 d3 : Byte) : WriteRequest := ⟨a, tag, [on d0, on d1, on d2, on d3]⟩

/-! ## Rows, one step each -/

theorem test_resetAssert : (run .resetAssert (withView .tracking)).env.resetAsserted = true
    ∧ ((run .resetAssert (withView .tracking)).bridge.views.get 0).state = .unconfigured := by decide +kernel

theorem test_resetRelease : (run (.resetRelease ⟨2, 7, false⟩ true false) (run .resetAssert up)).env.straps = ⟨2, 7, false⟩
    ∧ (run (.resetRelease ⟨2, 7, false⟩ true false) (run .resetAssert up)).bridge.rota.level = true := by decide +kernel

theorem test_memoryInitializationComplete :
    canAccept State.reset.env State.reset.bridge = false
      ∧ canAccept (run .memoryInitializationComplete State.reset).env State.reset.bridge = true := by decide +kernel

theorem test_timestampTick : (run .timestampTick up).env.timestamp = 1 := by decide +kernel

/-- R168: initialization ends no later than 400 µs after the release: it runs at 399 and is over at 400. -/
theorem test_timestampTick_initialization :
    (run .timestampTick { State.reset with env := { State.reset.env with timestamp := 398 } }).env.initializing = true
      ∧ (run .timestampTick { State.reset with env := { State.reset.env with timestamp := 399 } }).env.initializing
          = false := by decide +kernel

theorem test_write_plain : ((run (.write (beat 0x100 0 1 2 3 4)) up).bridge.stream.map (fun op => op.address)) = [0x100]
    := by decide +kernel

/-- R35: the first write of the worked sequence of chapter 2, cut to one beat. -/
theorem test_write_frameStart :
    ((run (.write (beat 0x01020000 0x20 9 8 7 6)) (withView .tracking)).bridge.views.get 0).intake =
      { state := .inFrame, slot := some 2, pointer := 4, buffer := some 0, prevLuma := some 6, midTime := none } := by
  decide +kernel

/-- R200: the W field of a descriptor, little-endian. -/
theorem test_controlWrite :
    (readDescriptor ((run (.controlWrite (beat 0x02000304 0 0x80 0x02 0xE0 0x01)) up).bridge.descriptors.get 2)).w = 640
      := by decide +kernel

/-- R145: the take that a write of the command ring makes available is part of the write's acceptance: entry 0 is taken at
once, entry 15 is not the next. -/
theorem test_controlWrite_takes :
    let w (a : BitVec 32) : WriteRequest := ⟨a, 0, (entry 9 0 0).map on⟩
    (run (.controlWrite (w 0x02000800)) up).bridge.events = 0x10000
      ∧ (run (.controlWrite (w 0x02000800)) up).bridge.nextIndex = 1
      ∧ (run (.controlWrite (w 0x020008F0)) up).bridge.events = 0 := by decide +kernel

theorem test_acknowledge :
    (run (.acknowledge (beat 0x02000004 0 0xFF 0xFF 0x01 0)) (State.br up (fun br => { br with events := 0x70001 }))).bridge.events
      = 0x60000 := by decide +kernel

theorem test_mask : (run (.mask ⟨0x02000008, 0, [on 1, off 2, on 3, on 4]⟩) up).bridge.mask = 0x04030001 := by
  decide +kernel

theorem test_reportOwnerWrite :
    (run (.reportOwnerWrite (beat 0x020013FC 0 0 0 0 0)) up).bridge.owners[31]? = some .software := by decide +kernel

/-- R151: a read that runs across the capacity (the fourth request of the worked case of chapter 7). -/
theorem test_read_acrossCapacity :
    (run (.read ⟨0x07FFFFC0, 0x11, 32⟩) up).bridge.outOfRange = 1
      ∧ (run (.read ⟨0x07FFFFC0, 0x11, 32⟩) up).bridge.stream.map (fun op => op.kind) = [.read 64 0 64 0] := by
  decide +kernel

/-- R149, R158: the control region's first 256 bytes: one operation, from the first unserved byte to the last. -/
theorem test_read_control_oneOperation :
    (run (.read ⟨0x02000000, 0, 64⟩) up).bridge.stream.map (fun op => (op.address, op.kind))
      = [(0x02000004, .read 252 0 252 4)] := by decide +kernel

/-- R165, R171: returned data leaves a served byte's place as it was filled at the acceptance. -/
theorem test_fillPlaces_keepsServed :
    fillPlaces [some 7, none, some 8, none] 1 [1, 2, 3] = [some 7, some 1, some 8, some 3] := by decide +kernel

/-- View 0 presenting slot 0 at offsets 4, −3. -/
def presenting : State :=
  State.br (withView .tracking) (fun br => br.modView 0 (fun vw =>
    { vw.modSlot 0 (fun sl => { sl with state := .ready, offsets := some ⟨4, -3⟩ }) with
      ready := [0], scan := { lastLine := some 3, presented := some 0, recorded := some ⟨4, -3⟩ } }))

/-- R128, R132, R165: line 10 at pixel 52: source line 22, source pixel 62, a tile-column cut at pixel 54. -/
theorem test_presentationRead_segments :
    (run (.presentationRead ⟨BitVec.ofNat 32 (0x01400000 + 10 * 256 + 52), 0x11, 2⟩) presenting).bridge.stream.map
        (fun op => (op.address, op.kind))
      = [(0x01000000 + 22 * 320 + 60, .read 4 2 2 0), (0x01000000 + 22 * 320 + 64, .read 8 0 6 2)] := by decide +kernel

theorem test_presentationRead_adopts :
    ((run (.presentationRead ⟨0x01400000, 0x40, 1⟩)
        (State.br presenting (fun br => br.modView 0 (fun vw => { vw with scan := Scan.reset })))).bridge.views.get 0).scan
      = { lastLine := some 0, presented := some 0, recorded := some ⟨4, -3⟩ } := by decide +kernel

/-- A machine with one upstream write to issue. -/
def writing : State := run (.write ⟨0x100, 0, [on 1, off 2, on 3, on 4]⟩) up

theorem test_upstreamOperationIssue :
    (run .upstreamOperationIssue writing).dram.cells = [(0x100, 1), (0x102, 3), (0x103, 4)]
      ∧ (run .upstreamOperationIssue writing).bridge.requests = [] := by decide +kernel

/-- An own write of kind report at report entry 4. -/
def queued (birth passes : Nat) : OwnWrite :=
  { kind := .report, birth := birth, address := 0x02001080, bytes := [7, 8, 9, 10], passes := passes }

theorem test_ownWriteIssue :
    (run .ownWriteIssue (State.br up (fun br => { br with ownWrites := [queued 0 0] }))).dram.cells
      = [(0x02001080, 7), (0x02001081, 8), (0x02001082, 9), (0x02001083, 10)] := by decide +kernel

/-- A machine whose last operation is a write of 0x100 that takes the given time yet. -/
def taken (left : Nat) : State :=
  { up with dram := { up.dram with
      cells := [(0x100, 1), (0x101, 2), (0x102, 3), (0x103, 4)], performing := some ⟨0x100, 4, false, left⟩ } }

/-- R168: a write that has been performed is kept when RESETn is asserted. -/
theorem test_resetAssert_performed :
    (run .resetAssert (taken 0)).dram.cells = (taken 0).dram.cells
      ∧ (run .resetAssert (run .timestampTick (taken 1))).dram.cells = (taken 1).dram.cells
      ∧ (taken 1).dram.beingPerformed = some ⟨0x100, 4, false, 1⟩ := by decide +kernel

/-- A machine whose read of 0x100 has been issued after a write of it. -/
def reading : State :=
  run .upstreamOperationIssue (run (.read ⟨0x100, 0, 1⟩) { up with dram :=
    { up.dram with cells := [(0x100, 1), (0x101, 2), (0x102, 3), (0x103, 4)] } })

theorem test_operationDataReturn :
    (run .operationDataReturn reading).bridge.assemblies.map (fun a => a.places)
      = [[some 1, some 2, some 3, some 4]] := by decide +kernel

theorem test_readResponse :
    (run .readResponse reading).readData = []
      ∧ (run .readResponse (run .operationDataReturn reading)).readData = [1, 2, 3, 4]
      ∧ (run .readResponse (run .operationDataReturn reading)).bridge.requests = [] := by decide +kernel

/-- R4: the first row of the worked sequence of chapter 9: SP = 320 with W = 640 fails PITCH. -/
theorem test_configure_pitch :
    (run .configure (ring (described up ((descriptor.set 4 0x80).set 5 0x02)) (entry 1 0 0))).bridge.commandEntry 0
      = [1, 0, 0, 0, 3, 4, 0, 0, 0, 0, 0, 0, 0, 0, 0, 0] := by decide +kernel

theorem test_configure :
    ((run .configure (ring (described up descriptor) (entry 1 0 0))).bridge.views.get 0).state = .parked
      ∧ ((run .configure (ring (described up descriptor) (entry 1 0 0))).bridge.views.get 0).geometry = geo := by
  decide +kernel

theorem test_track :
    ((run .track (ring (withView .parked) (entry 2 0 0))).bridge.views.get 0).state = .tracking
      ∧ ((run .track (ring (withView .parked) (entry 2 0 0))).bridge.views.get 0).motion.countdown = 2 := by
  decide +kernel

theorem test_park : ((run .park (ring (withView .tracking) (entry 3 0 0))).bridge.views.get 0).state = .parked := by
  decide +kernel

/-- A solve of view 0 in progress on slot 1. -/
def solving (ended : Bool) (s : State) : State :=
  State.br s (fun br =>
    ({ br with solver := .busy ⟨⟨0, 1, 41⟩, 2⟩ false ended } : Bridge).modView 0 (fun vw =>
      (vw.modSlot 1 (fun sl => { sl with state := .solving, sequence := 41 })).modBuffer 2 (fun _ =>
        { ProfileBuffer.start geo ⟨0, 1, 41⟩ with role := .solve })))

theorem test_park_waits :
    ((run .park (ring (solving false (withView .tracking)) (entry 3 0 0))).bridge.views.get 0).state = .parking
      ∧ (run .park (ring (solving false (withView .tracking)) (entry 3 0 0))).bridge.nextIndex = 0 := by decide +kernel

theorem test_release :
    ((run .release (ring (withView .parked) (entry 4 0 0))).bridge.views.get 0).state = .unconfigured := by decide +kernel

theorem test_releaseAll :
    ((run .releaseAll (ring (withView .tracking) (entry 4 0xFF 0))).bridge.views.get 0).state = .unconfigured := by
  decide +kernel

theorem test_rebase :
    (run .rebase (ring (withView .tracking) (entry 5 0 0))).bridge.commandEntry 0
      = [5, 0, 0, 0, 1, 0, 0, 0, 0, 0, 0, 0, 0, 0, 0, 0] := by decide +kernel

theorem test_tune :
    ((run .tune (ring (described (withView .parked) (descriptor.set 0x18 3)) (entry 6 0 0))).bridge.views.get 0).motion.pending
      = some ⟨4, 4, 14, 8, 8, 24, 3, 8, 2⟩ := by decide +kernel

theorem test_zero :
    (run .zero (ring (State.br up (fun br => { br with glitchA := 5 })) (entry 7 0xFF 0))).bridge.glitchA = 0
      ∧ (run .zero (ring (State.br up (fun br => { br with glitchA := 5 })) (entry 7 0xFE 0))).bridge.glitchA = 5 := by
  decide +kernel

theorem test_edge :
    (run .edge (ring up (entry 8 1 3))).bridge.rotb.mode = .both
      ∧ (run .edge (ring up (entry 8 1 4))).bridge.commandEntry 0
          = [8, 1, 4, 0, 6, 0, 0, 0, 0, 0, 0, 0, 0, 0, 0, 0] := by decide +kernel

theorem test_badCode :
    (run .badCode (ring up (entry 9 0 0))).bridge.commandEntry 0 = [9, 0, 0, 0, 5, 0, 0, 0, 0, 0, 0, 0, 0, 0, 0, 0]
      ∧ (run .badCode (ring up (entry 9 0 0))).bridge.events = 0x10000 := by decide +kernel

/-- A waiting entry of view 0 for slot 1, with tunables pending. -/
def waitingEntry : State :=
  State.br (withView .tracking) (fun br =>
    ({ br with solverQueue := [⟨⟨0, 1, 41⟩, 2⟩] } : Bridge).modView 0 (fun vw =>
      { (vw.modSlot 1 (fun sl => { sl with state := .solving })).modBuffer 2 (·.withRole .wait) with
        motion := { vw.motion with pending := some ⟨1, 1, 1, 1, 1, 1, 1, 1, 1⟩ } }))

theorem test_solveStart :
    (run .solveStart waitingEntry).bridge.solver = .busy ⟨⟨0, 1, 41⟩, 2⟩ false false
      ∧ ((run .solveStart waitingEntry).bridge.views.get 0).motion.active = ⟨1, 1, 1, 1, 1, 1, 1, 1, 1⟩ := by decide +kernel

theorem test_solveArithmeticEnd :
    (run .solveArithmeticEnd (solving false (withView .tracking))).bridge.solver
      = .busy ⟨⟨0, 1, 41⟩, 2⟩ false true := by decide +kernel

theorem test_solveCompletion :
    ((run .solveCompletion (solving true (withView .tracking))).bridge.views.get 0).ready = [1]
      ∧ (run .solveCompletion (solving true (withView .tracking))).bridge.events = 1 := by decide +kernel

/-- ROTB in BOTH mode, locked: the worked sequence of chapter 3 after 1,050,200 µs. -/
def lockedInput : RotInput :=
  { level := true, mode := .both, state := .locked, count := 3, times := [1050200, 1030000, 1010000],
    lastPolarity := some .rising, lastRising := some 1050200, period := some 40200, origin := some 1050200 }

/-- The machine at a time with that record. -/
def spinning (now : Stamp) (r : RotInput) : State :=
  { up with env := { up.env with timestamp := now }, bridge := { up.bridge with rotb := r } }

theorem test_rotationEdge_glitch :
    (run (.rotationEdge ⟨.rotb, .running⟩) (spinning 1050450 lockedInput)).bridge.glitchB = 1
      ∧ (run (.rotationEdge ⟨.rotb, .running⟩) (spinning 1050450 lockedInput)).bridge.rotb.period = some 40200 := by decide +kernel

theorem test_rotationEdge_accepted :
    (run (.rotationEdge ⟨.rotb, .running⟩) (spinning 1070000 lockedInput)).bridge.rotb.period = some 40000
      ∧ (run (.rotationEdge ⟨.rotb, .running⟩) (spinning 1070000 lockedInput)).bridge.rotb.origin = some 1050200 := by decide +kernel

/-- R204: at a held time a LOCKED input keeps T and origin though its latest accepted edge is 19,800 µs old, an ACQUIRE input
with one edge goes no further, and one without an edge takes its first. -/
theorem test_rotationEdge_held :
    let acquiring (n : Nat) (ts : List Stamp) (p : Option Polarity) : RotInput :=
      { RotInput.reset false with mode := .rise, state := .acquire, count := n, times := ts, lastPolarity := p }
    let after (r : RotInput) : Bridge := (run (.rotationEdge ⟨.rotb, .held⟩) (spinning 1070000 r)).bridge
    (after lockedInput).rotb = { lockedInput with level := false } ∧ (after lockedInput).glitchB = 1
      ∧ (after (acquiring 1 [1000] (some .rising))).rotb.count = 1
      ∧ (after (acquiring 1 [1000] (some .rising))).glitchB = 1
      ∧ (after (acquiring 0 [] none)).rotb.times = [1070000]
      ∧ (after (acquiring 0 [] none)).glitchB = 0 := by decide +kernel

theorem test_staleTimeout :
    (run (.staleTimeout .rotb) (spinning 2098776 lockedInput)).bridge.rotb.state = .stale
      ∧ (run (.staleTimeout .rotb) (spinning 2098776 lockedInput)).bridge.events = 0x40000
      ∧ (run (.staleTimeout .rotb) (spinning 2098775 lockedInput)).bridge.rotb = lockedInput := by decide +kernel

/-! ## Worked cases of the arithmetic -/

/-- The worked cases of the phase bin (section 3.8). -/
theorem test_phaseBins :
    (⟨1130000, some ⟨50000, 1000000⟩⟩ : Snapshot).bin = some 9
      ∧ (⟨585000, some ⟨40000, 500000⟩⟩ : Snapshot).bin = some 2
      ∧ (⟨40000, some ⟨62500, 4294950000⟩⟩ : Snapshot).bin = some 14 := by decide +kernel

/-- The table of R83: tied candidates. -/
theorem test_candidateTies :
    chooseCandidate 0 (1, 7) [(2, 7)] = (1, 7) ∧ chooseCandidate 3 (1, 7) [(5, 7)] = (1, 7)
      ∧ chooseCandidate 0 (-2, 7) [(2, 7)] = (-2, 7) ∧ chooseCandidate (-1) (-3, 7) [(1, 7)] = (1, 7) := by decide +kernel

/-- The worked case of a vertical measurement (section 4.5): a step moved three lines. -/
theorem test_verticalMeasurement :
    measureAxis 0 4 8 14 (List.replicate 63 10240 ++ List.replicate 65 51200)
      (List.replicate 60 10240 ++ List.replicate 68 51200) = ⟨3, false⟩ := by decide +kernel

/-- The worked case of a horizontal measurement with a tie (section 4.5). -/
theorem test_horizontalTie :
    measureAxis 0 4 8 14 (List.replicate 51 10240 ++ [30720] ++ List.replicate 76 51200)
      (List.replicate 50 10240 ++ List.replicate 78 51200) = ⟨1, false⟩ := by decide +kernel

/-- The worked case of a prediction (section 4.5), with its rounding and its clamp. -/
theorem test_predictions :
    prediction ((List.replicate 16 0).set 9 40 |>.set 3 (-12)) 8 (some 9) (some 3) true true = 3
      ∧ prediction ((List.replicate 16 0).set 9 (-40)) 8 (some 9) (some 3) true true = -3
      ∧ prediction ((List.replicate 16 0).set 9 40 |>.set 3 (-12)) 2 (some 9) (some 3) true true = 2 := by decide +kernel

/-- The worked case of integration (section 4.6). -/
theorem test_integration :
    integrate 20 3 8 = 68 ∧ integrate (-100) 3 8 = -49 ∧ integrate 120 3 8 = 165
      ∧ round16 68 = 4 ∧ round16 (-49) = -3
      ∧ updateTable [40] (some 0) 68 = [47] ∧ updateTable [-12] (some 0) (-49) = [-22] := by decide +kernel

/-- The table of R103. -/
theorem test_baselines :
    updateBaseline 960 62 = 964 ∧ updateBaseline 964 50 = 943 ∧ updateBaseline 1000 62 = 999
      ∧ updateBaseline 985 62 = 985 := by decide +kernel

/-- The table of R102. -/
theorem test_dust :
    tileValue 184320 = 90 ∧ tileValue 20480 = 10
      ∧ (⟨.clean, 0, 960, 480, none⟩ : Tile).isDusty 8 24 90 10 = true := by decide +kernel

/-- The worked case of the sums of one tile line (section 2.7), eight lines of the tile's thirty-two cut to one. -/
theorem test_tileSums :
    (((ProfileBuffer.start geo ⟨0, 0, 0⟩).addRun none
        ((List.range 64).map (fun x => ⟨0, x, if x < 32 then 40 else 200⟩))).tileS[0]?,
      ((ProfileBuffer.start geo ⟨0, 0, 0⟩).addRun none
        ((List.range 64).map (fun x => ⟨0, x, if x < 32 then 40 else 200⟩))).tileG[0]?) = (some 7680, some 160) := by
  decide +kernel

/-- The worked report (section 11.5), with both flags of its axis (flags 0x0105). -/
theorem test_reportBytes :
    (Report.bytes
        { kind := .frame, frame := ⟨0, 2, 41⟩, time := 1130192, dy := some 3, dx := some (-1),
          offsets := ⟨4, -1⟩, ay := 68, ax := -16, bin := some 9,
          flags := { lowTextureY := true, predictedY := true, learning := true } })
      = [0x01, 0x00, 0x02, 0x00, 0x29, 0x00, 0x05, 0x01, 0xD0, 0x3E, 0x11, 0x00, 0x03, 0xFF, 0x04, 0xFF,
         0x44, 0x00, 0xF0, 0xFF, 0x09, 0x00, 0, 0, 0, 0, 0, 0, 0, 0, 0, 0] := by decide +kernel

/-- The arbiter on the worked sequence of chapter 8: promotion, pass count 4, an empty stream. -/
theorem test_arbiter :
    let u (mark : Option Nat) : UpOp := ⟨0, 5, 0x100, .write [on 0], mark, false⟩
    arbiter { up.bridge with stream := [u none], ownWrites := [queued 0 3] } = some .upstream
      ∧ arbiter { up.bridge with stream := [u (some 0)], ownWrites := [queued 0 0] } = some .own
      ∧ arbiter { up.bridge with stream := [u none], ownWrites := [queued 0 4] } = some .own
      ∧ arbiter { up.bridge with stream := [], ownWrites := [queued 0 0] } = some .own := by decide +kernel

/-- A hold (R163): an older upstream write of the same bytes goes first, whatever the pass count. -/
theorem test_hold :
    arbiter { up.bridge with stream := [⟨0, 1, 0x02001080, .write [on 0], none, false⟩], ownWrites := [queued 2 4] }
      = some .upstream := by decide +kernel

/-- A marked operation at the head, and behind the own write it names eight others, all with pass count 4. -/
def promoting : State :=
  State.br up (fun br =>
    { br with
      stream := [⟨0, 20, 0x02001080, .read 4 0 4 0, some 0, false⟩]
      ownWrites := queued 0 0 :: List.replicate 8 { queued 7 4 with address := 0x02001000 } })

/-- R162: the own write named by the mark goes first, and then the marked operation. -/
theorem test_promoted_goesNext :
    arbiter promoting.bridge = some .own ∧ arbiter (run .ownWriteIssue promoting).bridge = some .upstream
      ∧ (run .upstreamOperationIssue (run .ownWriteIssue promoting)).bridge.stream = [] := by decide +kernel

/-- R23: a slot whose frame started between two others joins between them. -/
theorem test_readyList :
    (({ viewIn .tracking with
        ready := [0, 2],
        slots := [⟨0, .ready, 0, 40, none, []⟩, ⟨0, .ready, 0, 41, none, []⟩, ⟨0, .ready, 0, 42, none, []⟩] } :
        View).insertReady 1).ready = [0, 1, 2] := by decide +kernel

/-! ## States that meet the hypotheses of the statements -/

/-- The shape of a state, in a form that is decided by evaluation. -/
abbrev Fits (s : State) : Prop :=
  (s.bridge.requests.length ≤ 8 ∧ s.bridge.ownWrites.length ≤ 16 ∧ ∀ o ∈ s.bridge.ownWrites, o.passes ≤ 4)
  ∧ (s.bridge.commandShadow.length = 256 ∧ s.bridge.nextIndex < 16
      ∧ ∀ f ∈ s.bridge.inFlight, f.index = s.bridge.nextIndex ∧ f.entry.length = 16)
  ∧ (s.bridge.owners.length = 32 ∧ s.bridge.position < 32 ∧ ∀ v, (s.bridge.descriptors.get v).length = 96)
  ∧ (s.bridge.solverQueue.map (fun e => e.frame.view)).Nodup ∧ Memory.wf s.dram.cells = true

theorem Fits.shaped {s : State} (h : Fits s) : s.Shaped where
  memory := h.2.2.2.2
  bridge :=
    { requests := h.1.1, ownWrites := h.1.2.1, passes := h.1.2.2, commandShadow := h.2.1.1, nextIndex := h.2.1.2.1
      inFlight := h.2.1.2.2, owners := h.2.2.1.1, position := h.2.2.1.2.1, descriptors := h.2.2.1.2.2
      waiting := h.2.2.2.1 }

theorem test_stepRunsFrontCommand_met : ∃ c rest s, State.pending s = (c : Instr) :: rest :=
  ⟨.track, [.park], { up with pending := [.track, .park] }, rfl⟩

theorem test_idleStep_met : ∃ s : State, s.pending = [] ∧ s.quiet = true := ⟨up, rfl, by decide +kernel⟩

/-- An idle step with urgent work to do. -/
theorem test_idleStep_urgent : ∃ s : State, s.pending = [] ∧ s.quiet = false :=
  ⟨ring up (entry 9 0 0), rfl, by decide +kernel⟩

theorem test_urgentWorkFirst_met :
    ∃ (c : Instr) (s : State), settlesFirst c = true ∧ s.env.resetAsserted = false ∧ s.quiet = false :=
  ⟨.readResponse, ring up (entry 9 0 0), rfl, rfl, by decide +kernel⟩

theorem test_resetAssert_met :
    ∃ (s : State) (p : Performing), s.env.resetAsserted = false ∧ s.dram.performing = some p ∧ 0 < p.left :=
  ⟨taken 1, ⟨0x100, 4, false, 1⟩, rfl, rfl, by decide⟩

theorem test_resetRelease_met : ∃ s : State, s.env.resetAsserted = true := ⟨run .resetAssert up, by decide +kernel⟩

theorem test_initialization_met :
    ∃ s : State, s.env.resetAsserted = false ∧ s.bridge.requests.length = 7 ∧ s.bridge.ownWrites.length = 12 :=
  ⟨State.br up (fun br => { br with requests := List.replicate 7 ⟨0, true, false⟩,
                                    ownWrites := List.replicate 12 (queued 0 0) }), rfl, rfl, rfl⟩

theorem test_tick_met :
    ∃ s : State, s.quiet = true ∧ s.env.resetAsserted = false
      ∧ ∀ i, (s.bridge.rot i).timedOut s.env.timestamp = false :=
  ⟨up, by decide +kernel, rfl, by intro i; cases i <;> rfl⟩

/-- The timeout at its first microsecond. -/
theorem test_tick_timedOut_met :
    ∃ s : State, s.quiet = true ∧ s.env.resetAsserted = false
      ∧ (s.bridge.rot .rotb).timedOut s.env.timestamp = true ∧ (s.bridge.rot .rotb).state = .locked :=
  ⟨spinning 2098776 lockedInput, by decide +kernel, rfl, by decide +kernel, rfl⟩

/-- The same in ACQUIRE. -/
theorem test_tick_acquire_met :
    let s := spinning 2098776 { lockedInput with state := .acquire, period := none, origin := none }
    s.quiet = true ∧ s.env.resetAsserted = false ∧ (s.bridge.rot .rotb).timedOut s.env.timestamp = true
      ∧ (s.bridge.rot .rotb).state ≠ .locked ∧ (run .timestampTick s).bridge.rotb.state = .acquire
      ∧ (run .timestampTick s).bridge.events = 0 := by decide +kernel

theorem test_requestsStop_met : ∃ w : WriteRequest, (Request.write w).wellFormed = false :=
  ⟨⟨0, 0, []⟩, by decide⟩

/-- A full request queue. -/
theorem test_requestsWait_met :
    ∃ (s : State) (w : WriteRequest), (Request.write w).wellFormed = true ∧ s.quiet = true
      ∧ s.env.resetAsserted = false ∧ canAccept s.env s.bridge = false :=
  ⟨State.br up (fun br => { br with requests := List.replicate 8 ⟨0, true, false⟩ }), beat 0 0 0 0 0 0,
    by decide, by decide +kernel, rfl, by decide +kernel⟩

/-- The last beat below the control region. -/
theorem test_plainWrite_met :
    ∃ (s : State) (w : WriteRequest), s.open = true ∧ w.wellFormed = true
      ∧ ∀ n, n < w.bytes.length → regionOf s.env.straps (windowMap s.env s.bridge) (w.address.toNat + n) = .plain :=
  ⟨up, beat 0x01FFFFFC 0 1 2 3 4, by decide +kernel, by decide, by decide +kernel⟩

/-- The last beats below the capacity. -/
theorem test_plainRead_met :
    ∃ (s : State) (r : ReadRequest), s.open = true ∧ r.wellFormed = true
      ∧ ∀ n, n < 4 * r.beats → regionOf s.env.straps (windowMap s.env s.bridge) (r.address.toNat + n) = .plain :=
  ⟨up, ⟨0x07FFFF00, 0, 64⟩, by decide +kernel, by decide, by decide +kernel⟩

/-- The first beat at the capacity, with the control region active and, with BYPASS high, inactive. -/
theorem test_outOfRange_met :
    ∃ (s u : State) (w : WriteRequest) (r : ReadRequest), s.open = true ∧ w.wellFormed = true ∧ r.wellFormed = true
      ∧ capacity s.env.straps ≤ w.address.toNat ∧ capacity s.env.straps ≤ r.address.toNat
      ∧ controlActive s.env.straps = true ∧ u.open = true ∧ capacity u.env.straps ≤ w.address.toNat
      ∧ controlActive u.env.straps = false :=
  ⟨up, { up with env := { up.env with straps := ⟨1, 1, true⟩ } }, beat 0x08000000 0 0 0 0 0, ⟨0x08000000, 0, 1⟩,
    by decide +kernel, by decide, by decide, by decide, by decide, by decide, by decide +kernel, by decide, by decide⟩

/-- The served beats at both ends of each stretch. -/
theorem test_servedRead_met :
    up.open = true ∧ controlActive up.env.straps = true
      ∧ ∀ off ∈ [0, 0xC, 0x10, 0x40, 0x4C, 0x7C, 0x80, 0x84], (off < 4 ∨ (0xC ≤ off ∧ off < 0x14) ∨ (0x40 ≤ off ∧ off < 0x88))
          ∧ off % 4 = 0 ∧ ((⟨BitVec.ofNat 32 (0x02000000 + off), 0, 1⟩ : ReadRequest).address.toNat
              = controlBase up.env.straps + off) := by decide +kernel

/-- A read of the control region with served and unserved bytes, one of served bytes alone, and its last beat. -/
theorem test_controlRead_met :
    up.open = true ∧ controlActive up.env.straps = true
      ∧ ∀ c ∈ [(0, 64), (0x40, 18), (0x1FFC, 1)],
          (⟨BitVec.ofNat 32 (0x02000000 + c.1), 0, c.2⟩ : ReadRequest).wellFormed = true
            ∧ (⟨BitVec.ofNat 32 (0x02000000 + c.1), 0, c.2⟩ : ReadRequest).address.toNat = controlBase up.env.straps + c.1
            ∧ c.1 + 4 * c.2 ≤ 0x2000 := by decide +kernel

theorem test_acknowledge_met :
    ∃ (s : State) (w : WriteRequest), s.open = true ∧ controlActive s.env.straps = true
      ∧ w.address.toNat = controlBase s.env.straps + 4 ∧ w.bytes.length = 4 :=
  ⟨up, beat 0x02000004 0 1 0 0 0, by decide +kernel, by decide, by decide, rfl⟩

theorem test_mask_met :
    ∃ (s : State) (w : WriteRequest), s.open = true ∧ controlActive s.env.straps = true
      ∧ w.address.toNat = controlBase s.env.straps + 8 ∧ w.bytes.length = 4 :=
  ⟨up, beat 0x02000008 0 1 0 0 0, by decide +kernel, by decide, by decide, rfl⟩

/-- The last entry, with its owner byte enabled and with it not enabled. -/
theorem test_reportOwner_met :
    ∃ (s : State) (w u : WriteRequest), s.open = true ∧ controlActive s.env.straps = true
      ∧ s.bridge.owners.length = 32 ∧ w.address.toNat = controlBase s.env.straps + 0x1000 + 32 * 31 + 28
      ∧ w.bytes.length = 4 ∧ w.enabled 3 = some 1 ∧ u.address = w.address ∧ u.bytes.length = 4 ∧ u.enabled 3 = none :=
  ⟨up, beat 0x020013FC 0 0 0 0 1, ⟨0x020013FC, 0, [on 0, on 0, on 0, off 1]⟩, by decide +kernel, by decide, rfl,
    by decide, rfl, by decide, rfl, rfl, by decide⟩

/-- The last beat of the meaningful bytes, and the beat after it. -/
theorem test_descriptorWrite_met :
    ∃ (s : State) (w u : WriteRequest), s.open = true ∧ controlActive s.env.straps = true
      ∧ (∀ v, (s.bridge.descriptors.get v).length = 96)
      ∧ w.address.toNat = controlBase s.env.straps + 0x100 + 256 * 3 + 92 ∧ w.bytes.length = 4
      ∧ u.address.toNat = controlBase s.env.straps + 0x100 + 256 * 3 + 96 ∧ u.bytes.length = 4 :=
  ⟨up, beat 0x0200045C 0 1 2 3 4, beat 0x02000460 0 1 2 3 4, by decide +kernel, by decide, by decide +kernel, by decide,
    rfl, by decide, rfl⟩

/-- The entry at the next index with owner BRIDGE, which is taken, and the last entry, which is not. -/
theorem test_commandWrite_met :
    let w (a : BitVec 32) : WriteRequest := ⟨a, 0, (entry 2 4 0).map on⟩
    up.open = true ∧ controlActive up.env.straps = true ∧ up.bridge.commandShadow.length = 256
      ∧ (w 0x02000800).address.toNat = controlBase up.env.straps + 0x800 + 16 * 0
      ∧ (w 0x020008F0).address.toNat = controlBase up.env.straps + 0x800 + 16 * 15 ∧ (w 0).bytes.length = 16
      ∧ takeDueOf .track { up.bridge with commandShadow := overwrite up.bridge.commandShadow 0 (entry 2 4 0) } = true
      ∧ takeDue { up.bridge with commandShadow := overwrite up.bridge.commandShadow 240 (entry 2 4 0) } = false := by
  decide +kernel

/-- The hypotheses of the statement about a frame start. -/
abbrev Starts (s : State) (w : WriteRequest) (v : Fin 4) (k : Nat) : Prop :=
  let g := (s.bridge.views.get v).geometry
  (s.open = true ∧ w.wellFormed = true ∧ k < (s.bridge.views.get v).slots.length
    ∧ w.address.toNat = (s.bridge.views.get v).slotBase k)
  ∧ (∀ b ∈ w.bytes, b.enable = true) ∧ w.bytes.length ≤ g.lineBytes ∧ g.lineBytes ≤ g.sp ∧ w.bytes.length < g.frameBytes
  ∧ (∀ n, n < w.bytes.length → regionOf s.env.straps (windowMap s.env s.bridge) (w.address.toNat + n) = .slot v k)
  ∧ tagMatches w.tag g.intakeTag g.intakeMask = true

/-- A write of the first beat of slot `k`. -/
def firstBeat (k : Nat) : WriteRequest := beat (BitVec.ofNat 32 (0x01000000 + 0x10000 * k)) 0x20 9 8 7 6

/-- A whole line at once. -/
def firstLine : WriteRequest := ⟨0x01000000, 0x20, List.replicate 256 (on 5)⟩

/-- A frame start in the presented slot, with one beat and with a whole line. -/
theorem test_frameStart_met :
    Starts presenting (firstBeat 0) 0 0 ∧ Starts presenting firstLine 0 0
      ∧ (presenting.bridge.views.get 0).scan.presented = some 0 ∧ presenting.bridge.waiting 0 = none := by decide +kernel

/-- View 0 presenting slot 0, whose tile (1, 0) is HELD by slot 1, READY at offsets −2, 1. -/
def holdingOne : State :=
  State.br presenting (fun br => br.modView 0 (fun vw =>
    (vw.modSlot 0 (fun sl => { sl with map := sl.map.set 1 (.held 1) })).modSlot 1 (fun sl =>
      { sl with state := .ready, offsets := some ⟨-2, 1⟩ })))

/-- View 0 following a frame in slot 1, at payload index 512. -/
def following : Bridge :=
  (withView .tracking).bridge.modView 0 (fun vw =>
    { vw.modSlot 1 (fun sl => { sl with state := .filling }) with
      intake := { state := .inFrame, slot := some 1, pointer := 512, buffer := none, prevLuma := none, midTime := none } })

/-- The same frame one byte before its end, with a buffer and without. -/
def lastByte (buffer : Bool) : Bridge :=
  following.modView 0 (fun vw =>
    { vw.modBuffer 0 (fun _ => ProfileBuffer.start geo ⟨0, 1, 0⟩) with
      intake := { vw.intake with pointer := 32767, buffer := if buffer then some 0 else none } })

/-- The machine with that bridge. -/
def followed : State := State.br up (fun _ => following)

/-- A frame start in a PARKED view, one that abandons another frame, one in the slot of a waiting entry, one in the slot
under solve, and one in a slot that a HELD entry names. -/
theorem test_frameStart_cases_met :
    (Starts (withView .parked) (firstBeat 2) 0 2 ∧ ((withView .parked).bridge.views.get 0).state ≠ .tracking)
    ∧ (Starts followed (firstBeat 2) 0 2 ∧ (followed.bridge.views.get 0).intake.state = .inFrame
      ∧ (followed.bridge.views.get 0).intake.slot = some 1 ∧ followed.bridge.reportFree = true)
    ∧ (Starts waitingEntry (firstBeat 1) 0 1 ∧ waitingEntry.bridge.waiting 0 = some ⟨⟨0, 1, 41⟩, 2⟩
      ∧ waitingEntry.bridge.reportFree = true)
    ∧ (Starts (solving false (withView .tracking)) (firstBeat 1) 0 1
      ∧ (solving false (withView .tracking)).bridge.solver = .busy ⟨⟨0, 1, 41⟩, 2⟩ false false)
    ∧ (Starts holdingOne (firstBeat 1) 0 1 ∧ entriesOf (holdingOne.bridge.views.get 0).slots (· = .held 1) = 1) := by
  and_intros <;> decide +kernel

/-- R25, R27, R39: what those starts leave. -/
theorem test_frameStart_cases :
    (run (.write (firstBeat 1)) holdingOne).bridge.events = 0b100
      ∧ ((run (.write (firstBeat 1)) holdingOne).bridge.views.get 0).counters.holdBreak = 1
      ∧ ((run (.write (firstBeat 2)) followed).bridge.views.get 0).counters.fault = 1
      ∧ (run (.write (firstBeat 1)) waitingEntry).bridge.solverQueue = []
      ∧ (run (.write (firstBeat 1)) (solving false (withView .tracking))).bridge.solver
          = .busy ⟨⟨0, 1, 41⟩, 2⟩ true false := by decide +kernel

/-- A gap, a regression, a hole at the pointer; with the report entry free and held. -/
theorem test_intakeFault_met :
    ((following.views.get 0).intake.slot = some 1 ∧ 1 < (following.views.get 0).slots.length
      ∧ following.reportFree = true)
    ∧ runLow [(513, 0)] ≠ (following.views.get 0).intake.pointer
    ∧ runLow [(511, 0)] < (following.views.get 0).intake.pointer
    ∧ (runLow [(512, 0), (514, 0)] = (following.views.get 0).intake.pointer
        ∧ runHasHole [(512, 0), (514, 0)] = true)
    ∧ ({ following with owners := following.owners.set 0 .software } : Bridge).reportFree = false := by decide +kernel

/-- A run at the pointer, in a frame with a buffer and without, and one that completes the frame. -/
theorem test_acceptedRun_met :
    ([((512, 3) : Nat × Byte), (513, 4)].map (·.1) = List.range' (following.views.get 0).intake.pointer 2
      ∧ (following.views.get 0).intake.pointer + 2 ≠ (following.views.get 0).geometry.frameBytes
      ∧ (following.views.get 0).intake.buffer = none)
    ∧ ((lastByte true).views.get 0).intake.pointer + 1 = ((lastByte true).views.get 0).geometry.frameBytes
    ∧ ((lastByte true).views.get 0).intake.buffer = some 0 ∧ ((lastByte false).views.get 0).intake.buffer = none
    ∧ [((32767, 3) : Nat × Byte)].map (·.1) = List.range' ((lastByte true).views.get 0).intake.pointer 1 := by
  decide +kernel

/-- R45, R48: the sums and the snapshot of an accepted run that holds the first byte of line 64. -/
theorem test_acceptedRun :
    let br := (lastByte true).modView 0 (fun vw => { vw with intake := { vw.intake with pointer := 16383 } })
    let p := ((br.judgeRun up.env 0 1 [(16383, 7), (16384, 9)]).views.get 0).buffers.get 0
    p.rowSums[63]? = some 7 ∧ p.rowSums[64]? = some 9 ∧ p.colSums[127]? = some 7 ∧ p.colSums[0]? = some 9
      ∧ p.snapshot = some ⟨0, none⟩ := by decide +kernel

/-- The hypotheses of the clause about a WRITE to a slot while a frame is followed. -/
abbrev Judges (s : State) (w : WriteRequest) (v : Fin 4) (j k : Nat) : Prop :=
  let g := (s.bridge.views.get v).geometry
  let r := g.run ((s.bridge.views.get v).slotBase j) (writeCells w)
  (s.open = true ∧ w.wellFormed = true
    ∧ ∀ n, n < w.bytes.length → regionOf s.env.straps (windowMap s.env s.bridge) (w.address.toNat + n) = .slot v j)
  ∧ tagMatches w.tag g.intakeTag g.intakeMask = true ∧ (s.bridge.views.get v).intake.state = .inFrame
  ∧ (s.bridge.views.get v).intake.slot = some k ∧ r ≠ [] ∧ (runLow r ≠ 0 ∨ runHasHole r = true)

/-- A write of the current slot at the pointer, one with a hole from its first byte on, and one of another slot. -/
theorem test_judgedWrite_met :
    Judges followed (beat 0x01010280 0x20 1 2 3 4) 0 1 1
      ∧ Judges followed ⟨0x01010000, 0x20, [on 1, off 2, on 3, on 4]⟩ 0 1 1
      ∧ Judges followed (beat 0x01020004 0x20 1 2 3 4) 0 2 1 := by decide +kernel

theorem test_judgedWrite :
    ((run (.write (beat 0x01010280 0x20 1 2 3 4)) followed).bridge.views.get 0).intake.pointer = 516
      ∧ ((run (.write (beat 0x01020004 0x20 1 2 3 4)) followed).bridge.views.get 0).counters.stray = 1 := by
  decide +kernel

/-- The completion of a frame without a buffer, in a TRACKING view and in a PARKED one. -/
theorem test_unsolved_met :
    (((lastByte false).views.get 0).intake.buffer = none ∧ 1 < ((lastByte false).views.get 0).slots.length
      ∧ ((lastByte false).views.get 0).state = .tracking ∧ (lastByte false).reportFree = true)
    ∧ (((lastByte false).modView 0 (fun vw => { vw with state := .parked })).views.get 0).state ≠ .tracking := by
  decide +kernel

/-- Without and with a waiting entry of the view. -/
theorem test_completion_met :
    (withView .tracking).bridge.waiting 0 = none
      ∧ waitingEntry.bridge.waiting 0 = some ⟨⟨0, 1, 41⟩, 2⟩ ∧ 2 < (waitingEntry.bridge.views.get 0).slots.length := by
  decide +kernel

theorem test_readyList_met :
    ∃ (vw : View) (k : Nat),
      vw.ready.Pairwise (fun a b => ((vw.slots[a]?).map (·.startStamp)).getD 0 < ((vw.slots[b]?).map (·.startStamp)).getD 0)
      ∧ (∀ j ∈ vw.ready, j ≠ k →
          ((vw.slots[j]?).map (·.startStamp)).getD 0 ≠ ((vw.slots[k]?).map (·.startStamp)).getD 0)
      ∧ vw.ready = [0, 2] :=
  ⟨{ viewIn .tracking with
      ready := [0, 2],
      slots := [⟨0, .ready, 0, 40, none, []⟩, ⟨0, .ready, 0, 41, none, []⟩, ⟨0, .ready, 0, 42, none, []⟩] }, 1,
    by decide +kernel, by decide +kernel, rfl⟩

/-- The last picture beat of a line whose pitch is the picture width. -/
theorem test_fill_met :
    ∃ (s : State) (r : ReadRequest) (v : Fin 4), s.open = true ∧ r.wellFormed = true ∧ r.beats = 1
      ∧ (∀ n, n < 4 → regionOf s.env.straps (windowMap s.env s.bridge) (r.address.toNat + n) = .window v)
      ∧ (s.bridge.views.get v).geometry.base ≤ r.address.toNat
      ∧ (s.bridge.views.get v).geometry.pw * (s.bridge.views.get v).geometry.bpp ≤ (s.bridge.views.get v).geometry.pp
      ∧ (r.address.toNat - (s.bridge.views.get v).geometry.base) % (s.bridge.views.get v).geometry.pp + 4
          = (s.bridge.views.get v).geometry.pw * (s.bridge.views.get v).geometry.bpp
      ∧ (s.bridge.views.get v).scan.presented = none ∧ (s.bridge.views.get v).ready = [] :=
  ⟨withView .tracking, ⟨BitVec.ofNat 32 (0x01400000 + 220), 0x40, 1⟩, 0, by decide +kernel⟩

/-- The hypotheses of the statement about a mapped read. -/
abbrev Maps (s : State) (r : ReadRequest) (v : Fin 4) (k y x m ym xm : Nat) (o om : Offsets) : Prop :=
  let g := (s.bridge.views.get v).geometry
  let line := (r.address.toNat - g.base) / g.pp
  let b := (r.address.toNat - g.base) % g.pp
  let vw := if tagMatches r.tag g.displayTag g.displayMask then (s.bridge.views.get v).displayRead line
    else s.bridge.views.get v
  (s.open = true ∧ r.wellFormed = true ∧ r.beats = 1
    ∧ ∀ n, n < 4 → regionOf s.env.straps (windowMap s.env s.bridge) (r.address.toNat + n) = .window v)
  ∧ (g.base ≤ r.address.toNat ∧ g.pw * g.bpp ≤ g.pp ∧ b + 4 ≤ g.pw * g.bpp)
  ∧ (vw.scan.presented = some k ∧ vw.scan.recorded = some o)
  ∧ (y : Int) = line + g.my + o.oy ∧ (x : Int) = (b / g.bpp : Nat) + g.mx + 2 * o.ox
  ∧ (x + ((b + 3) / g.bpp - b / g.bpp)) / 64 = x / 64
  ∧ (vw.entryAt k y x = .live ∧ m = k ∧ om = o ∨ vw.entryAt k y x = .held m ∧ vw.slotOffsets m = some om)
  ∧ (ym : Int) = line + g.my + om.oy ∧ (xm : Int) = (b / g.bpp : Nat) + g.mx + 2 * om.ox

/-- Line 10, pixel 56, not of the display: source line 22, source pixel 66, LIVE, and HELD by slot 1 at its own offsets. -/
theorem test_mapped_met :
    Maps presenting ⟨BitVec.ofNat 32 (0x01400000 + 10 * 256 + 56), 0x11, 1⟩ 0 0 22 66 0 22 66 ⟨4, -3⟩ ⟨4, -3⟩
      ∧ Maps holdingOne ⟨BitVec.ofNat 32 (0x01400000 + 10 * 256 + 56), 0x11, 1⟩ 0 0 22 66 1 16 74 ⟨4, -3⟩ ⟨-2, 1⟩ := by
  decide +kernel

/-- A display read at an adoption point, and one at none. -/
theorem test_mappedDisplay_met :
    Maps presenting ⟨BitVec.ofNat 32 (0x01400000 + 56), 0x40, 1⟩ 0 0 12 66 0 12 66 ⟨4, -3⟩ ⟨4, -3⟩
      ∧ Maps presenting ⟨BitVec.ofNat 32 (0x01400000 + 10 * 256 + 56), 0x40, 1⟩ 0 0 22 66 0 22 66 ⟨4, -3⟩ ⟨4, -3⟩ := by
  decide +kernel

/-- R129: the bytes of a HELD tile come from the slot it names, at that slot's offsets. -/
theorem test_presentationRead_held :
    (run (.presentationRead ⟨BitVec.ofNat 32 (0x01400000 + 10 * 256 + 56), 0x11, 1⟩) holdingOne).bridge.stream.map
        (fun op => (op.address, op.kind)) = [(0x01010000 + 16 * 320 + 72, .read 8 2 4 0)] := by decide +kernel

/-- Offsets at both ends of the margins, at the last picture byte of the last line. -/
theorem test_payload_met :
    (⟨8, -8⟩ : Offsets).Within geo ∧ 2 * geo.mx ≤ geo.w ∧ 2 * geo.my ≤ geo.h ∧ geo.mx % 2 = 0 ∧ 111 < geo.ph
      ∧ 223 < geo.pw * geo.bpp := by
  refine ⟨⟨⟨by decide, by decide⟩, ⟨by decide, by decide⟩⟩, by decide, by decide, by decide, by decide, by decide⟩

/-- A stream and a queue that are not empty, of operations and own writes that touch bytes: a marked head, a held own
write, eight own writes, a pass count of 4. -/
theorem test_arbiter_met :
    (∃ (op : UpOp) (o : OwnWrite), op.Marked [o] ∧ 0 < op.kind.size ∧ 0 < o.bytes.length)
    ∧ (∃ (op : UpOp) (o : OwnWrite), ¬ op.Marked [o] ∧ o.Held [op])
    ∧ (∃ (op : UpOp) (o : OwnWrite), ¬ op.Marked (List.replicate 8 o) ∧ ¬ o.Held [op])
    ∧ (∃ (op : UpOp) (o : OwnWrite), ¬ op.Marked [o] ∧ ¬ o.Held [op] ∧ o.passes = 4)
    ∧ (∃ (op : UpOp) (o : OwnWrite), ¬ op.Marked [o] ∧ op.promoted = true ∧ o.passes = 4) := by
  refine ⟨⟨⟨0, 5, 0x100, .write [on 0], some 0, false⟩, queued 0 0, ⟨queued 0 0, by simp, rfl⟩, by decide, by decide⟩,
    ⟨⟨0, 1, 0x02001080, .write [on 0], none, false⟩, queued 2 0, ?_, ?_⟩,
    ⟨⟨0, 5, 0x100, .write [on 0], none, false⟩, queued 0 0, ?_, ?_⟩,
    ⟨⟨0, 5, 0x100, .write [on 0], none, false⟩, queued 0 4, ?_, ?_, rfl⟩,
    ⟨⟨0, 5, 0x100, .write [on 0], some 9, true⟩, queued 0 4, ?_, rfl, rfl⟩⟩
  · rintro ⟨o, _, h⟩; cases h
  · exact ⟨⟨0, 1, 0x02001080, .write [on 0], none, false⟩, by simp, ⟨0x02001080, by decide⟩, by decide⟩
  · rintro ⟨o, _, h⟩; cases h
  · rintro ⟨op, h, _, hb⟩
    simp only [List.mem_singleton] at h
    subst h
    simp [queued] at hb
  · rintro ⟨o, _, h⟩; cases h
  · rintro ⟨op, h, _, hb⟩
    simp only [List.mem_singleton] at h
    subst h
    simp [queued] at hb
  · rintro ⟨o, ho, h⟩
    simp only [List.mem_singleton] at ho
    subst ho
    cases h

theorem test_upstreamIssue_met :
    ∃ (s : State) (op : UpOp) (rest : List UpOp), s.quiet = true ∧ s.bridge.stream = op :: rest
      ∧ arbiter s.bridge = some .upstream ∧ ∃ bytes, op.kind = .write bytes :=
  ⟨writing, _, [], by decide +kernel, rfl, by decide +kernel, _, rfl⟩

theorem test_upstreamIssue_read_met :
    ∃ (s : State) (op : UpOp) (rest : List UpOp), s.quiet = true ∧ s.bridge.stream = op :: rest
      ∧ arbiter s.bridge = some .upstream ∧ ∃ a b c d, op.kind = .read a b c d :=
  ⟨run (.read ⟨0x100, 0, 1⟩) up, _, [], by decide +kernel, rfl, by decide +kernel, _, _, _, _, rfl⟩

theorem test_ownIssue_met :
    ∃ (s : State) (o : OwnWrite) (rest : List OwnWrite), s.quiet = true ∧ s.bridge.ownWrites = o :: rest
      ∧ arbiter s.bridge = some .own :=
  ⟨State.br up (fun br => { br with ownWrites := [queued 0 0] }), queued 0 0, [], by decide +kernel, rfl,
    by decide +kernel⟩

/-- The head of the stream is marked with the own write that is issued. -/
theorem test_ownIssue_promotes_met :
    promoting.quiet = true ∧ arbiter promoting.bridge = some .own
      ∧ promoting.bridge.ownWrites.head? = some (queued 0 0)
      ∧ promoting.bridge.stream.map (fun op => op.mark) = [some (queued 0 0).birth] := by decide +kernel

theorem test_dataReturn_met :
    ∃ (s : State) (q : ReturningRead) (rest : List ReturningRead), s.quiet = true ∧ s.dram.returning = q :: rest
      ∧ q.skip + q.count ≤ q.data.length :=
  ⟨{ reading with dram := { reading.dram with returning := [⟨0, [1, 2, 3, 4], 0, 4, 0⟩] } }, ⟨0, [1, 2, 3, 4], 0, 4, 0⟩, [],
    by decide +kernel, rfl, by decide⟩

/-- A record whose places are all filled, and one whose next beat is not complete. -/
theorem test_response_met :
    (∃ (s : State) (a : Assembly) (rest : List Assembly), s.quiet = true ∧ s.bridge.assemblies = a :: rest
      ∧ a.places.length % 4 = 0 ∧ 4 * a.returned < a.places.length
      ∧ a.places.drop (4 * a.returned) = [1, 2, 3, 4].map some)
    ∧ (∃ (s : State) (a : Assembly) (rest : List Assembly), s.quiet = true ∧ s.bridge.assemblies = a :: rest
      ∧ a.places.length % 4 = 0 ∧ 4 * a.returned < a.places.length
      ∧ a.places[4 * a.returned + 3]? = some none) :=
  ⟨⟨State.br up (fun br => { br with assemblies := [⟨0, [some 9, some 9, some 9, some 9, some 1, some 2, some 3, some 4], 1⟩] }),
      ⟨0, [some 9, some 9, some 9, some 9, some 1, some 2, some 3, some 4], 1⟩, [], by decide +kernel, rfl, by decide,
      by decide, rfl⟩,
    ⟨State.br up (fun br => { br with assemblies := [⟨0, [some 1, some 2, some 3, none], 0⟩] }),
      ⟨0, [some 1, some 2, some 3, none], 0⟩, [], by decide +kernel, rfl, by decide, by decide, rfl⟩⟩

/-- A record whose next beat is complete and whose last is not. -/
theorem test_partResponse_met :
    let a : Assembly := ⟨0, [some 1, some 2, some 3, some 4, none, some 6, some 7, some 8], 0⟩
    let s := State.br up (fun br => { br with assemblies := [a] })
    s.quiet = true ∧ a.places.drop (4 * a.returned) = [1, 2, 3, 4].map some ++ [none, some 6, some 7, some 8]
      ∧ (run .readResponse s).readData = [1, 2, 3, 4]
      ∧ (run .readResponse s).bridge.assemblies = [{ a with returned := 1 }] := by decide +kernel

/-- Codes 0 and 9. -/
theorem test_badCode_met :
    (ring up (entry 0 0 0)).Shaped ∧ takeDueOf .badCode (ring up (entry 0 0 0)).bridge = true
      ∧ (ring up (entry 9 0 0)).Shaped ∧ takeDueOf .badCode (ring up (entry 9 0 0)).bridge = true :=
  ⟨Fits.shaped (by decide +kernel), by decide +kernel, Fits.shaped (by decide +kernel), by decide +kernel⟩

/-- Target 4 of TRACK, target 2 of EDGE, targets 4 and 0xFE of ZERO. -/
theorem test_badTarget_met :
    (ring up (entry 2 4 0)).Shaped ∧ takeDueOf .track (ring up (entry 2 4 0)).bridge = true
      ∧ ((ring up (entry 2 4 0)).bridge.shadowByte 0 1).toNat = 4
      ∧ (ring up (entry 8 2 0)).Shaped ∧ takeDueOf .edge (ring up (entry 8 2 0)).bridge = true
      ∧ (ring up (entry 7 4 0)).Shaped ∧ takeDueOf .zero (ring up (entry 7 4 0)).bridge = true
      ∧ (ring up (entry 7 0xFE 0)).Shaped ∧ takeDueOf .zero (ring up (entry 7 0xFE 0)).bridge = true :=
  ⟨Fits.shaped (by decide +kernel), by decide +kernel, by decide +kernel, Fits.shaped (by decide +kernel),
    by decide +kernel, Fits.shaped (by decide +kernel), by decide +kernel, Fits.shaped (by decide +kernel),
    by decide +kernel⟩

/-- TRACK of a TRACKING view. -/
theorem test_badState_met :
    (ring (withView .tracking) (entry 2 0 0)).Shaped
      ∧ takeDueOf .track (ring (withView .tracking) (entry 2 0 0)).bridge = true
      ∧ ((ring (withView .tracking) (entry 2 0 0)).bridge.shadowByte 0 1).toNat = 0
      ∧ allowedIn .track ((ring (withView .tracking) (entry 2 0 0)).bridge.views.get 0).state = false :=
  ⟨Fits.shaped (by decide +kernel), by decide +kernel, by decide +kernel, by decide +kernel⟩

/-- A check that fails in the list fails in the table. -/
theorem fails_of_failure {straps : Straps} {br : Bridge} {v : Fin 4} {d : Descriptor} {n : Nat}
    (h : (n, true) ∈ configureChecks straps br v d) : CheckFails straps br v d n :=
  (Laws.configureChecks_spec straps br v d _ h).1 rfl

/-- Where the list answers no failure below `n`, the table has none. -/
theorem passes_below {straps : Straps} {br : Bridge} {v : Fin 4} {d : Descriptor} {n : Nat}
    (h : ∀ c ∈ configureChecks straps br v d, c.1 < n → c.2 = false) (m : Nat) (hm : m < n) :
    ¬ CheckFails straps br v d m := by
  intro hf
  obtain ⟨c, hc, rfl⟩ := Laws.checkFails_listed straps br v d m hf
  have := (Laws.configureChecks_spec straps br v d c hc).2 hf
  simp [h c hc hm] at this

/-- The first check and the last failing. -/
theorem test_configureFails_met :
    (ring up (entry 1 0 0)).Shaped ∧ takeDueOf .configure (ring up (entry 1 0 0)).bridge = true
      ∧ allowedIn .configure ((ring up (entry 1 0 0)).bridge.views.get 0).state = true
      ∧ (CheckFails up.env.straps up.bridge 0 (readDescriptor (up.bridge.descriptors.get 0)) 1
        ∧ ∀ m, m < 1 → ¬ CheckFails up.env.straps up.bridge 0 (readDescriptor (up.bridge.descriptors.get 0)) m)
      ∧ (CheckFails up.env.straps up.bridge 0 (readDescriptor (descriptor.set 2 3)) 12
        ∧ ∀ m, m < 12 → ¬ CheckFails up.env.straps up.bridge 0 (readDescriptor (descriptor.set 2 3)) m) :=
  ⟨Fits.shaped (by decide +kernel), by decide +kernel, by decide +kernel,
    ⟨fails_of_failure (by decide +kernel), passes_below (by decide +kernel)⟩,
    ⟨fails_of_failure (by decide +kernel), passes_below (by decide +kernel)⟩⟩

/-- R6: a presentation window that shares its first byte with slot 0 fails OVERLAP, before any later check. -/
theorem test_configureOverlap_met :
    CheckFails up.env.straps up.bridge 0 (readDescriptor (descriptor.set 0x1E 0)) 9
      ∧ ∀ m, m < 9 → ¬ CheckFails up.env.straps up.bridge 0 (readDescriptor (descriptor.set 0x1E 0)) m :=
  ⟨fails_of_failure (by decide +kernel), passes_below (by decide +kernel)⟩

theorem test_configure_met :
    (ring (described up descriptor) (entry 1 0 0)).Shaped
      ∧ takeDueOf .configure (ring (described up descriptor) (entry 1 0 0)).bridge = true
      ∧ ((ring (described up descriptor) (entry 1 0 0)).bridge.shadowByte 0 1).toNat = 0
      ∧ ∀ n, ¬ CheckFails up.env.straps (ring (described up descriptor) (entry 1 0 0)).bridge 0
          (readDescriptor descriptor) n :=
  ⟨Fits.shaped (by decide +kernel), by decide +kernel, by decide +kernel, fun n =>
    passes_below (n := n + 1) (fun c hc _ =>
      (show ∀ c ∈ configureChecks up.env.straps (ring (described up descriptor) (entry 1 0 0)).bridge 0
        (readDescriptor descriptor), c.2 = false by decide +kernel) c hc) n (by omega)⟩

theorem test_track_met :
    (ring (withView .parked) (entry 2 0 0)).Shaped
      ∧ takeDueOf .track (ring (withView .parked) (entry 2 0 0)).bridge = true
      ∧ ((ring (withView .parked) (entry 2 0 0)).bridge.shadowByte 0 1).toNat = 0
      ∧ ((ring (withView .parked) (entry 2 0 0)).bridge.views.get 0).state = .parked :=
  ⟨Fits.shaped (by decide +kernel), by decide +kernel, by decide +kernel, by decide +kernel⟩

/-- PARK with a waiting entry and no solve, and with a solve of the view. -/
theorem test_park_met :
    ((ring waitingEntry (entry 3 0 0)).Shaped ∧ takeDueOf .park (ring waitingEntry (entry 3 0 0)).bridge = true
      ∧ ((ring waitingEntry (entry 3 0 0)).bridge.views.get 0).state = .tracking
      ∧ (ring waitingEntry (entry 3 0 0)).bridge.solving 0 = false)
    ∧ ((ring (solving false (withView .tracking)) (entry 3 0 0)).Shaped
      ∧ takeDueOf .park (ring (solving false (withView .tracking)) (entry 3 0 0)).bridge = true
      ∧ ((ring (solving false (withView .tracking)) (entry 3 0 0)).bridge.views.get 0).state = .tracking
      ∧ (ring (solving false (withView .tracking)) (entry 3 0 0)).bridge.solving 0 = true) :=
  ⟨⟨Fits.shaped (by decide +kernel), by decide +kernel, by decide +kernel, by decide +kernel⟩,
    ⟨Fits.shaped (by decide +kernel), by decide +kernel, by decide +kernel, by decide +kernel⟩⟩

/-- R14, R15: the waiting entry's slot, and the holds that reaching PARKED breaks. -/
theorem test_park_effects :
    let t := run .park (ring waitingEntry (entry 3 0 0))
    let u := run .park (ring holdingOne (entry 3 0 0))
    ((t.bridge.views.get 0).slots[1]?.map (fun sl => (sl.state, sl.offsets)) = some (.ready, some ⟨0, 0⟩)
      ∧ t.bridge.events = 0x10001 ∧ t.bridge.ownWrites.map (fun o => o.kind) = [.report, .status])
    ∧ ((u.bridge.views.get 0).counters.holdBreak = 1 ∧ u.bridge.events = 0x10004) := by decide +kernel

theorem test_release_met :
    (ring (withView .parked) (entry 4 0 0)).Shaped
      ∧ takeDueOf .release (ring (withView .parked) (entry 4 0 0)).bridge = true
      ∧ ((ring (withView .parked) (entry 4 0 0)).bridge.views.get 0).state = .parked :=
  ⟨Fits.shaped (by decide +kernel), by decide +kernel, by decide +kernel⟩

theorem test_releaseAll_met :
    ((ring waitingEntry (entry 4 0xFF 0)).Shaped
      ∧ takeDueOf .releaseAll (ring waitingEntry (entry 4 0xFF 0)).bridge = true
      ∧ (ring waitingEntry (entry 4 0xFF 0)).bridge.solverBusy = false)
    ∧ ((ring (solving false (withView .tracking)) (entry 4 0xFF 0)).Shaped
      ∧ takeDueOf .releaseAll (ring (solving false (withView .tracking)) (entry 4 0xFF 0)).bridge = true
      ∧ (ring (solving false (withView .tracking)) (entry 4 0xFF 0)).bridge.solverBusy = true) :=
  ⟨⟨Fits.shaped (by decide +kernel), by decide +kernel, by decide +kernel⟩,
    ⟨Fits.shaped (by decide +kernel), by decide +kernel, by decide +kernel⟩⟩

theorem test_rebase_met :
    ((ring waitingEntry (entry 5 0 0)).Shaped ∧ takeDueOf .rebase (ring waitingEntry (entry 5 0 0)).bridge = true
      ∧ ((ring waitingEntry (entry 5 0 0)).bridge.views.get 0).state = .tracking
      ∧ (ring waitingEntry (entry 5 0 0)).bridge.solving 0 = false)
    ∧ ((ring (solving false (withView .tracking)) (entry 5 0 0)).Shaped
      ∧ takeDueOf .rebase (ring (solving false (withView .tracking)) (entry 5 0 0)).bridge = true
      ∧ (ring (solving false (withView .tracking)) (entry 5 0 0)).bridge.solving 0 = true) :=
  ⟨⟨Fits.shaped (by decide +kernel), by decide +kernel, by decide +kernel, by decide +kernel⟩,
    ⟨Fits.shaped (by decide +kernel), by decide +kernel, by decide +kernel⟩⟩

/-- Tunables in range, and all zero. -/
theorem test_tune_met :
    ((ring (described (withView .parked) descriptor) (entry 6 0 0)).Shaped
      ∧ takeDueOf .tune (ring (described (withView .parked) descriptor) (entry 6 0 0)).bridge = true
      ∧ (readTunables descriptor).InRange)
    ∧ ((ring (withView .parked) (entry 6 0 0)).Shaped
      ∧ takeDueOf .tune (ring (withView .parked) (entry 6 0 0)).bridge = true
      ∧ ¬ (readTunables ((withView .parked).bridge.descriptors.get 0)).InRange) :=
  ⟨⟨Fits.shaped (by decide +kernel), by decide +kernel, by unfold Tunables.InRange; decide +kernel⟩,
    ⟨Fits.shaped (by decide +kernel), by decide +kernel, by unfold Tunables.InRange; decide +kernel⟩⟩

/-- Targets 3, 0xFF and 0xFE. -/
theorem test_zero_met :
    ((ring up (entry 7 3 0)).Shaped ∧ takeDueOf .zero (ring up (entry 7 3 0)).bridge = true)
    ∧ ((ring up (entry 7 0xFF 0)).Shaped ∧ takeDueOf .zero (ring up (entry 7 0xFF 0)).bridge = true)
    ∧ ((ring up (entry 7 0xFE 0)).Shaped ∧ takeDueOf .zero (ring up (entry 7 0xFE 0)).bridge = true) :=
  ⟨⟨Fits.shaped (by decide +kernel), by decide +kernel⟩, ⟨Fits.shaped (by decide +kernel), by decide +kernel⟩,
    ⟨Fits.shaped (by decide +kernel), by decide +kernel⟩⟩

/-- Target 2, argument 4, arguments 0 and 3 of targets 0 and 1. -/
theorem test_edge_met :
    ((ring up (entry 8 2 0)).Shaped ∧ takeDueOf .edge (ring up (entry 8 2 0)).bridge = true)
    ∧ ((ring up (entry 8 1 4)).Shaped ∧ takeDueOf .edge (ring up (entry 8 1 4)).bridge = true)
    ∧ ((ring up (entry 8 0 0)).Shaped ∧ takeDueOf .edge (ring up (entry 8 0 0)).bridge = true)
    ∧ ((ring up (entry 8 1 3)).Shaped ∧ takeDueOf .edge (ring up (entry 8 1 3)).bridge = true) :=
  ⟨⟨Fits.shaped (by decide +kernel), by decide +kernel⟩, ⟨Fits.shaped (by decide +kernel), by decide +kernel⟩,
    ⟨Fits.shaped (by decide +kernel), by decide +kernel⟩, ⟨Fits.shaped (by decide +kernel), by decide +kernel⟩⟩

theorem test_solveStart_met :
    (waitingEntry.quiet = true ∧ waitingEntry.bridge.solver = .idle
      ∧ waitingEntry.bridge.solverQueue = [⟨⟨0, 1, 41⟩, 2⟩] ∧ waitingEntry.bridge.releasingAll = false)
    ∧ (up.quiet = true ∧ up.bridge.solverQueue = []) := by decide +kernel

/-- R75: a start that is possible goes before a take that is due at the same moment, and after it when the take's row
comes first: PARK finds the solve in progress, or removes the entry. -/
theorem test_solveStart_beforeTake :
    let s := ring waitingEntry (entry 3 0 0)
    s.quiet = false ∧ (run .park (run .solveStart s)).bridge.inFlight.isSome = true
      ∧ (run .park s).bridge.inFlight = none ∧ (run .solveStart (run .park s)).bridge.solver = .idle := by
  decide +kernel

theorem test_arithmeticEnd_met :
    ((solving false (withView .tracking)).quiet = true
      ∧ (solving false (withView .tracking)).bridge.solver = .busy ⟨⟨0, 1, 41⟩, 2⟩ false false)
    ∧ (up.quiet = true ∧ up.bridge.solver = .idle) := by decide +kernel

/-- With exactly three places free. -/
theorem test_solveCompletion_met :
    let s := State.br (solving true (withView .tracking)) (fun br => { br with ownWrites := List.replicate 13 (queued 0 0) })
    s.Shaped ∧ s.bridge.solver = .busy ⟨⟨0, 1, 41⟩, 2⟩ false true ∧ s.bridge.ownWrites.length ≤ 13
      ∧ s.bridge.inFlight = none ∧ 1 < (s.bridge.views.get 0).slots.length ∧ s.bridge.reportFree = true :=
  ⟨Fits.shaped (by decide +kernel), by decide +kernel, by decide +kernel, by decide +kernel, by decide +kernel,
    by decide +kernel⟩

theorem test_reopenedCompletion_met :
    let s := State.br (solving true (withView .tracking)) (fun br => { br with solver := .busy ⟨⟨0, 1, 41⟩, 2⟩ true true })
    s.Shaped ∧ s.bridge.solver = .busy ⟨⟨0, 1, 41⟩, 2⟩ true true ∧ s.bridge.ownWrites.length ≤ 13 :=
  ⟨Fits.shaped (by decide +kernel), by decide +kernel, by decide +kernel⟩

/-- A solve of view 0 that has ended while a command of this entry waits for it. -/
def awaited (e : List Byte) (w : Wait) : State :=
  State.br (ring (solving true (withView .tracking)) e) (fun br => { br with inFlight := some ⟨0, e, w⟩ })

/-- R93, R182: PARK, REBASE and RELEASE ALL that wait, and a PARK that waits for another view. -/
theorem test_awaitedCompletion_met :
    (awaited (entry 3 0 0) (.park 0)).Shaped ∧ (awaited (entry 5 0 0) (.rebase 0)).Shaped
      ∧ (awaited (entry 4 0xFF 0) .releaseAll).Shaped ∧ (awaited (entry 3 1 0) (.park 1)).Shaped
      ∧ (awaited (entry 3 0 0) (.park 0)).bridge.solver = .busy ⟨⟨0, 1, 41⟩, 2⟩ false true :=
  ⟨Fits.shaped (by decide +kernel), Fits.shaped (by decide +kernel), Fits.shaped (by decide +kernel),
    Fits.shaped (by decide +kernel), by decide +kernel⟩

theorem test_awaitedCompletion :
    let t (e : List Byte) (w : Wait) := (run .solveCompletion (awaited e w)).bridge
    ((t (entry 3 0 0) (.park 0)).views.get 0).state = .parked ∧ (t (entry 3 0 0) (.park 0)).events = 0x10001
      ∧ ((t (entry 5 0 0) (.rebase 0)).views.get 0).seed = true
      ∧ ((t (entry 4 0xFF 0) .releaseAll).views.get 0).state = .unconfigured
      ∧ (t (entry 4 0xFF 0) .releaseAll).commandEntry 0 = [4, 0xFF, 0, 0, 1, 0, 0, 0, 0, 0, 0, 0, 0, 0, 0, 0]
      ∧ (t (entry 3 1 0) (.park 1)).inFlight = some ⟨0, entry 3 1 0, .park 1⟩ := by decide +kernel

/-- A valley that is not flat (the worked case), and one that is. -/
theorem test_measuredStep_met :
    candidates 0 4 8 ≠ []
      ∧ (measureAxis 0 4 8 14 (List.replicate 63 10240 ++ List.replicate 65 51200)
          (List.replicate 60 10240 ++ List.replicate 68 51200)).flat = false
      ∧ (measureAxis 0 4 8 14 (List.replicate 128 10240) (List.replicate 128 10240)).flat = true := by decide +kernel

/-- An axis that is off, one with a reference and one without, at both ends of the clamp; a prediction that is clamped, a
bin at the end of a period, and the cost of a candidate at the margin. -/
theorem test_axis_met :
    (solveAxis 0 4 14 8 5 [] [] none none none false).offset = 0
      ∧ (solveAxis 8 4 14 8 120 [] [1, 2] none none none false).a = 117
      ∧ (solveAxis 8 4 14 0 120 (List.replicate 16 0) (List.replicate 63 10240 ++ List.replicate 65 51200)
          (some (List.replicate 60 10240 ++ List.replicate 68 51200)) (some 15) none true).a = 128
      ∧ (solveAxis 8 4 14 0 (-120) [] (List.replicate 60 10240 ++ List.replicate 68 51200)
          (some (List.replicate 63 10240 ++ List.replicate 65 51200)) none none true).a = -128
      ∧ (round16 8, round16 (-8), round16 7, round16 (-24)) = (1, -1, 0, -2)
      ∧ (⟨40959, some ⟨40960, 0⟩⟩ : Snapshot).bin = some 15 ∧ (⟨40960, some ⟨40960, 0⟩⟩ : Snapshot).bin = some 0
      ∧ axisCost 1 4 (gradient [0, 1, 5, 5]) (gradient [0, 0, 1, 5]) (-1) = 0 := by decide +kernel

/-- A dusty tile and a clean one of a view past learning, and the places the step answers for. -/
def dusted : View :=
  { viewIn .tracking with tiles := [⟨.clean, 0, 960, 480, some 1⟩, ⟨.clean, 0, 1440, 160, some 1⟩] }

/-- The sums of those two tiles. -/
def dustSums : ProfileBuffer := { ProfileBuffer.reset with tileS := [184320, 184320], tileG := [20480, 20480] }

theorem test_tileStep_met :
    dusted.motion.countdown = 0 ∧ dusted.tiles[0]? = some ⟨.clean, 0, 960, 480, some 1⟩
      ∧ dusted.geometry.inGrid 0 = true ∧ dusted.geometry.inGrid 1 = true
      ∧ (tileStep dusted dustSums (some 2)).tiles[0]? = some ⟨.held, 1, 960, 480, some 1⟩
      ∧ (tileStep dusted dustSums (some 2)).tiles[1]? = some ⟨.clean, 0, 1440, 160, some 2⟩ := by decide +kernel

/-- R100, R101: a seeding solve that does not end learning, and the last one; R104: a whiteout of six dusty tiles of
sixteen with WF 5, and none with WF 6; a tile outside the grid. -/
theorem test_tileStep_cases_met :
    let vw (n : Nat) (seed : Bool) : View :=
      { dusted with motion := { dusted.motion with countdown := n }, seed := seed }
    let six (wf : Nat) : View :=
      { dusted with
        tiles := List.replicate 4 ⟨.clean, 0, 960, 480, none⟩ ++ List.replicate 16 Tile.reset
          ++ List.replicate 2 ⟨.clean, 0, 960, 480, none⟩,
        motion := { dusted.motion with active := { dusted.motion.active with wf := wf } } }
    let p : ProfileBuffer := { dustSums with tileS := List.replicate 22 184320, tileG := List.replicate 22 20480 }
    (tileStep (vw 2 true) dustSums (some 2)).tiles[0]? = some ⟨.learning, 0, 1440, 160, some 1⟩
      ∧ (tileStep (vw 1 false) dustSums none).tiles[0]? = some ⟨.clean, 0, 1020, 440, some 1⟩
      ∧ (tileStep (six 5) p none).dusty = 6 ∧ (tileStep (six 5) p none).whiteout = true
      ∧ (tileStep (six 6) p none).whiteout = false ∧ geo.inGrid 4 = false
      ∧ (tileStep (six 6) p none).tiles[4]? = some Tile.reset := by decide +kernel

/-- RISE mode: an edge not selected, a glitch at 499 µs, an edge accepted at 500 µs, and the same edge at a held time. -/
theorem test_singleMode_met :
    let r (level : Bool) : RotInput :=
      { RotInput.reset level with mode := .rise, state := .acquire, count := 1, times := [1000], lastPolarity := some .rising }
    (spinning 1499 (r true)).quiet = true ∧ ((spinning 1499 (r true)).bridge.rot .rotb).mode ≠ .both
      ∧ ((spinning 1499 (r false)).bridge.rot .rotb).isGlitch .running 1499 = true
      ∧ ((spinning 1500 (r false)).bridge.rot .rotb).isGlitch .running 1500 = false
      ∧ ((spinning 1500 (r false)).bridge.rot .rotb).isGlitch .held 1500 = true := by decide +kernel

/-- BOTH mode: an alternating edge, a glitch, a polarity break, and the glitch of a held time. -/
theorem test_bothMode_met :
    ((spinning 1070000 lockedInput).quiet = true ∧ (spinning 1070000 lockedInput).env.resetAsserted = false
      ∧ ((spinning 1070000 lockedInput).bridge.rot .rotb).mode = .both
      ∧ ((spinning 1070000 lockedInput).bridge.rot .rotb).isGlitch .running 1070000 = false
      ∧ ((spinning 1070000 lockedInput).bridge.rot .rotb).lastPolarity ≠ some .falling)
    ∧ ((spinning 1050450 lockedInput).quiet = true ∧ lockedInput.isGlitch .running 1050450 = true)
    ∧ ({ lockedInput with level := false }).isGlitch .running 1070000 = false
    ∧ ({ lockedInput with level := false }).lastPolarity = some .rising
    ∧ lockedInput.isGlitch .held 1070000 = true := by decide +kernel

theorem test_staleTimeout_met :
    (spinning 2098776 lockedInput).quiet = true
      ∧ (∃ u rest, ((spinning 2098776 lockedInput).bridge.rot .rotb).times = u :: rest
          ∧ 0 < ((spinning 2098776 lockedInput).bridge.rot .rotb).count
          ∧ 1048576 ≤ ((spinning 2098776 lockedInput).env.timestamp - u).toNat) :=
  ⟨by decide +kernel, 1050200, [1030000, 1010000], rfl, by decide, by decide⟩

/-- A free entry at the position, and one that software holds. -/
theorem test_report_met :
    (up.bridge.position < 32 ∧ up.bridge.owners.length = 32
      ∧ up.bridge.owners[up.bridge.position]? = some Owner.bridge)
    ∧ ({ up.bridge with owners := up.bridge.owners.set 31 .software, position := 31 } : Bridge).owners[31]?
        = some Owner.software := by decide +kernel

/-- A release with straps that leave the control region inactive. -/
theorem test_releaseInactive_met :
    (run .resetAssert up).env.resetAsserted = true ∧ controlActive ⟨1, 1, true⟩ = false
      ∧ controlActive (run (.resetRelease ⟨0, 7, false⟩ true true) (run .resetAssert up)).env.straps = false := by
  decide +kernel

/-- The running bridge with BYPASS high. -/
def bypassed : State := { up with env := { up.env with straps := ⟨1, 1, true⟩ } }

/-- A bridge whose control region is inactive is silent, and takes a step. -/
theorem test_inactive_met :
    controlActive bypassed.env.straps = false ∧ bypassed.SilentWhenInactive
      ∧ ∃ t, step { bypassed with pending := [.write (firstBeat 0)] } = .next t :=
  ⟨by decide, fun _ =>
    { rota := ⟨rfl, rfl, rfl, rfl⟩, rotb := ⟨rfl, rfl, rfl, rfl⟩, views := by decide +kernel, descriptors := by decide +kernel
      owners := by decide +kernel, position := rfl, glitchA := rfl, glitchB := rfl, solver := rfl, solverQueue := rfl
      events := rfl, mask := rfl, commandShadow := by decide +kernel, inFlight := rfl, outOfRange := rfl
      ownWrites := rfl }, _, rfl⟩

/-- A state that keeps each invariant and takes a step: reset itself has the first, see the statement about reset. -/
theorem test_invariants_met :
    State.reset.Shaped ∧ ∃ t, step State.reset = .next t := ⟨Fits.shaped (by decide +kernel), _, rfl⟩

end Sys2Proof.Machine.Tests
end

section
/-! PROOF. Rules of the shared operations: events, reports, view functions, and what each leaves alone. -/

namespace Sys2Proof.Machine

open Laws

/-! ### Events -/

/-- An event of the set, after one was raised (R172). -/
theorem raise_bit (br : Bridge) (e : Event) (n : Nat) :
    (br.raise e).events.getLsbD n = (br.events.getLsbD n || decide (n = e.bit)) := by
  rw [raise_getLsbD]
  by_cases h : n = e.bit
  · subst h; simp [Event_bit_lt]
  · simp [h]

theorem raiseIf_bit (br : Bridge) (c : Bool) (e : Event) (n : Nat) :
    (br.raiseIf c e).events.getLsbD n = (br.events.getLsbD n || (c && decide (n = e.bit))) := by
  cases c
  · simp [Bridge.raiseIf]
  · simp only [Bridge.raiseIf, if_pos, raise_bit, Bool.true_and]

theorem Bridge.OtherEvents.refl (br : Bridge) (es : List Event) : br.OtherEvents br es := fun _ _ _ => rfl

theorem Bridge.OtherEvents.trans {a b c : Bridge} {es : List Event} (h1 : a.OtherEvents b es) (h2 : b.OtherEvents c es) :
    a.OtherEvents c es := fun n hn hne => (h2 n hn hne).trans (h1 n hn hne)

theorem Bridge.OtherEvents.mono {a b : Bridge} {es fs : List Event} (h : a.OtherEvents b es) (hs : ∀ e ∈ es, e ∈ fs) :
    a.OtherEvents b fs := fun n hn hne => h n hn (fun e he => hne e (hs e he))

/-- Raising an event of the list changes no other. -/
theorem Bridge.OtherEvents.raise {a b : Bridge} {es : List Event} (h : a.OtherEvents b es) {e : Event} (he : e ∈ es) :
    a.OtherEvents (b.raise e) es := by
  intro n hn hne
  have hb : n ≠ e.bit := fun h => hne e he h.symm
  rw [raise_bit, h n hn hne]
  simp [hb]

/-! ### Reports (R187, R188) -/

/-- What a report does to the views: a lost one is counted (R188). -/
theorem report_views_get (env : Env) (br : Bridge) (r : Report) (u : Fin 4) :
    (br.report env r).views.get u =
      if br.reportFree = false ∧ u = r.frame.view then
        (br.views.get u).count (fun c => { c with lost := c.lost + 1 })
      else br.views.get u := by
  cases h : br.reportFree
  · rw [report_of_held env br r h, raise_views, modView_get]
    by_cases hu : u = r.frame.view
    · simp [hu]
    · simp [hu]
  · rw [report_of_free env br r h]
    simp

/-- A report changes no more of a view than its LOST counter (R188). -/
theorem report_view_lost (env : Env) (br : Bridge) (r : Report) (u : Fin 4) :
    ∃ n, (br.report env r).views.get u = (br.views.get u).count (fun c => { c with lost := n }) := by
  rw [report_views_get]
  split
  · exact ⟨_, rfl⟩
  · exact ⟨(br.views.get u).counters.lost, rfl⟩

theorem report_view_of_ne (env : Env) (br : Bridge) (r : Report) (u : Fin 4) (h : u ≠ r.frame.view) :
    (br.report env r).views.get u = br.views.get u := by
  rw [report_views_get, if_neg (fun hh => h hh.2)]

theorem report_bit (env : Env) (br : Bridge) (r : Report) (n : Nat) :
    (br.report env r).events.getLsbD n =
      (br.events.getLsbD n || (!br.reportFree && decide (n = (Event.lost r.frame.view).bit))) := by
  cases h : br.reportFree
  · rw [report_of_held env br r h, raise_bit]
    simp
  · rw [report_of_free env br r h]
    simp

theorem Bridge.OtherEvents.report {a b : Bridge} {es : List Event} (h : a.OtherEvents b es) (env : Env) (r : Report)
    (he : Event.lost r.frame.view ∈ es) : a.OtherEvents (b.report env r) es := by
  intro n hn hne
  have hb : n ≠ (Event.lost r.frame.view).bit := fun h => hne _ he h.symm
  rw [report_bit, h n hn hne]
  simp [hb]

/-- R187: the own write of a report that finds a free entry. -/
theorem report_ownWrites_of_free (env : Env) (br : Bridge) (r : Report) (h : br.reportFree = true) :
    (br.report env r).ownWrites = br.ownWrites ++
      [{ kind := .report, birth := br.births, address := controlBase env.straps + 0x1000 + 32 * br.position,
         bytes := r.bytes, passes := 0 }] := by
  rw [report_of_free env br r h]
  rfl

/-- A report adds to the own-write queue at its tail. -/
theorem report_ownWrites_append (env : Env) (br : Bridge) (r : Report) :
    ∃ rest, (br.report env r).ownWrites = br.ownWrites ++ rest := by
  rcases report_ownWrites env br r with h | ⟨o, h, _⟩
  · exact ⟨[], by simp [h]⟩
  · exact ⟨[o], h⟩

/-- R202: the first bytes of a report: kind, view, slot, reason, sequence. -/
theorem report_bytes_take6 (r : Report) :
    r.bytes.take 6 = [BitVec.ofNat 8 r.kind.code, BitVec.ofNat 8 r.frame.view.val, BitVec.ofNat 8 r.frame.slot,
      BitVec.ofNat 8 r.reason.code] ++ bytesOf 2 r.frame.sequence.toNat := by
  simp [Report.bytes, bytesOf]

/-- R202: the first bytes of a report with its flags. -/
theorem report_bytes_take8 (r : Report) :
    r.bytes.take 8 = [BitVec.ofNat 8 r.kind.code, BitVec.ofNat 8 r.frame.view.val, BitVec.ofNat 8 r.frame.slot,
      BitVec.ofNat 8 r.reason.code] ++ bytesOf 2 r.frame.sequence.toNat ++ bytesOf 2 r.flags.value := by
  simp [Report.bytes, bytesOf]

/-! ### Views and buffers -/

@[simp] theorem freeRole_get (vw : View) (r : BufferRole) (b : Fin 4) :
    (vw.freeRole r).buffers.get b =
      if (vw.buffers.get b).role = r then (vw.buffers.get b).withRole .free else vw.buffers.get b := by
  simp [View.freeRole]

/-- R51: no buffer keeps a role that was freed. -/
theorem freeRole_noBuffer (vw : View) (r : BufferRole) (hr : r ≠ .free) : (vw.freeRole r).noBuffer r := by
  intro b
  rw [freeRole_get]
  split
  · exact fun h => hr h.symm
  · assumption

theorem Bridge.OtherViews.refl (br : Bridge) (v : Fin 4) : br.OtherViews br v := fun _ _ => rfl

theorem Bridge.OtherViews.trans {a b c : Bridge} {v : Fin 4} (h1 : a.OtherViews b v) (h2 : b.OtherViews c v) :
    a.OtherViews c v := fun u hu => (h2 u hu).trans (h1 u hu)

theorem Bridge.OtherViews.modView {a b : Bridge} {v : Fin 4} (h : a.OtherViews b v) (f : View → View) :
    a.OtherViews (b.modView v f) v := by
  intro u hu
  rw [modView_get, if_neg hu, h u hu]

theorem Bridge.OtherViews.report {a b : Bridge} {v : Fin 4} (h : a.OtherViews b v) (env : Env) (r : Report)
    (hv : r.frame.view = v) : a.OtherViews (b.report env r) v := by
  intro u hu
  rw [report_view_of_ne env b r u (hv ▸ hu), h u hu]

theorem Bridge.OtherViews.breakHolds {a b : Bridge} {v : Fin 4} (h : a.OtherViews b v) (p : MapEntry → Bool) (also : Bool) :
    a.OtherViews (b.breakHolds v p also) v := by
  intro u hu
  rw [breakHolds_view, if_neg hu, h u hu]

/-- A waiting entry found for a view belongs to it (R70). -/
theorem waiting_view {br : Bridge} {v : Fin 4} {e : SolveEntry} (h : br.waiting v = some e) : e.frame.view = v := by
  have := List.find?_some h
  simpa using this

/-! ### The ready list (R23) -/

theorem insertAfterLast_mem (before : Nat → Bool) (k j : Nat) (xs : List Nat) :
    j ∈ insertAfterLast before k xs ↔ j = k ∨ j ∈ xs := by
  induction xs with
  | nil => simp [insertAfterLast]
  | cons y ys ih =>
    unfold insertAfterLast
    split
    · simp only [List.mem_cons, ih]
      exact or_left_comm
    · split
      · simp only [List.mem_cons]
        exact or_left_comm
      · simp only [List.mem_cons]

/-- The insertion keeps the other items and their order. -/
theorem insertAfterLast_filter (before : Nat → Bool) (k : Nat) (xs : List Nat) :
    (insertAfterLast before k xs).filter (· != k) = xs.filter (· != k) := by
  induction xs with
  | nil => simp [insertAfterLast]
  | cons y ys ih =>
    unfold insertAfterLast
    split
    · simp only [List.filter_cons, ih]
    · split <;> simp [List.filter_cons]

/-- In a list with rising stamps, none of them that of `k`, an insertion after the last smaller stamp keeps them rising:
what stands before `k` is smaller, what stands behind it larger. -/
theorem insertAfterLast_pairwise (stamp : Nat → Nat) (k : Nat) (xs : List Nat)
    (hs : xs.Pairwise (fun a b => stamp a < stamp b)) (hk : ∀ j ∈ xs, stamp j ≠ stamp k) :
    (insertAfterLast (fun j => decide (stamp j < stamp k)) k xs).Pairwise (fun a b => stamp a < stamp b) := by
  induction xs with
  | nil => simp [insertAfterLast]
  | cons y ys ih =>
    obtain ⟨hy, hys⟩ := List.pairwise_cons.1 hs
    have hky : stamp y ≠ stamp k := hk y (by simp)
    have hkys : ∀ j ∈ ys, stamp j ≠ stamp k := fun j hj => hk j (by simp [hj])
    unfold insertAfterLast
    split
    case isTrue hany =>
      obtain ⟨z, hz, hzk⟩ := List.any_eq_true.1 hany
      have hyk : stamp y < stamp k := (hy z hz).trans (by simpa using hzk)
      refine List.pairwise_cons.2 ⟨fun j hj => ?_, ih hys hkys⟩
      rcases (insertAfterLast_mem _ _ _ _).1 hj with rfl | hj
      · exact hyk
      · exact hy j hj
    case isFalse hany =>
      have hgt : ∀ j ∈ ys, stamp k < stamp j := by
        intro j hj
        have hle : ¬ stamp j < stamp k := fun h => hany (List.any_eq_true.2 ⟨j, hj, by simpa using h⟩)
        have := hkys j hj
        omega
      split
      case isTrue hyk =>
        have hyk : stamp y < stamp k := by simpa using hyk
        refine List.pairwise_cons.2 ⟨fun j hj => ?_, List.pairwise_cons.2 ⟨hgt, hys⟩⟩
        rcases List.mem_cons.1 hj with rfl | hj
        · exact hyk
        · exact hy j hj
      case isFalse hyk =>
        have hky' : stamp k < stamp y := by
          have : ¬ stamp y < stamp k := by simpa using hyk
          omega
        refine List.pairwise_cons.2 ⟨fun j hj => ?_, hs⟩
        rcases List.mem_cons.1 hj with rfl | hj
        · exact hky'
        · exact hgt j hj

theorem insertReady_mem (vw : View) (k : Nat) : k ∈ (vw.insertReady k).ready :=
  (insertAfterLast_mem _ _ _ _).2 (.inl rfl)

/-- Settles O22, by the insertion's order on the list without `k`. -/
theorem readyListStaysInStartOrder : Obligations.ReadyListStaysInStartOrder := by
  unfold Obligations.ReadyListStaysInStartOrder
  intro vw k stamp hs hk
  refine ⟨?_, insertReady_mem vw k, ?_⟩
  · refine insertAfterLast_pairwise stamp k _ (hs.sublist List.filter_sublist) fun j hj => ?_
    obtain ⟨hj, hne⟩ := List.mem_filter.1 hj
    exact hk j hj (by simpa using hne)
  · calc (vw.insertReady k).ready.filter (· != k)
        = (vw.ready.filter (· != k)).filter (· != k) := insertAfterLast_filter _ _ _
      _ = vw.ready.filter (· != k) := by simp

end Sys2Proof.Machine
end

section
/-! PROOF. The release of RESETn: every block has its reset value, and the four invariants hold. -/

namespace Sys2Proof.Machine

open Laws

/-! ### The reset values -/

theorem exec_resetRelease (straps : Straps) (rota rotb : Bool) (s : State) (h : s.env.resetAsserted = true) :
    exec (.resetRelease straps rota rotb) s =
      .next { s with env := Env.released straps, bridge := Bridge.reset rota rotb, readData := [] } := by
  change execResetRelease straps rota rotb s = _
  unfold execResetRelease
  rw [if_pos h]

@[simp] theorem reset_views_get (a b : Bool) (v : Fin 4) : (Bridge.reset a b).views.get v = View.reset :=
  Four.get_const _ v

@[simp] theorem reset_descriptors_get (a b : Bool) (v : Fin 4) :
    (Bridge.reset a b).descriptors.get v = List.replicate 96 0 :=
  Four.get_const _ v

@[simp] theorem reset_rot (a b : Bool) (i : RotId) :
    (Bridge.reset a b).rot i = RotInput.reset (match i with | .rota => a | .rotb => b) := by
  cases i <;> rfl

theorem reset_buffers_get (b : Fin 4) : View.reset.buffers.get b = ProfileBuffer.reset := Four.get_const _ b

/-- Settles O5. -/
theorem resetReleaseStartsTheBridge : Obligations.ResetReleaseStartsTheBridge := by
  unfold Obligations.ResetReleaseStartsTheBridge
  intro s straps a b hr
  refine ⟨_, exec_resetRelease straps a b s hr, rfl, rfl, rfl, ⟨rfl, rfl⟩, fun i => ?_, fun v => ?_, rfl, rfl, rfl, rfl,
    fun d hd => List.eq_of_mem_replicate hd, List.length_replicate, rfl, rfl, List.length_replicate,
    fun o ho => List.eq_of_mem_replicate ho, rfl, rfl, rfl, rfl, rfl, rfl, rfl, rfl, rfl⟩
  · rw [reset_rot]
    exact ⟨rfl, rfl, rfl, rfl, rfl, rfl, rfl, rfl⟩
  · simp only [reset_views_get, reset_descriptors_get]
    refine ⟨rfl, rfl, rfl, rfl, rfl, rfl, rfl, rfl, rfl, rfl, rfl, rfl, rfl, rfl, rfl, rfl, rfl, rfl, rfl, rfl, rfl, rfl,
      rfl, List.length_replicate, fun x => ?_, fun x hx => ?_, rfl, fun d hd => List.eq_of_mem_replicate hd,
      List.length_replicate⟩
    · rw [reset_buffers_get]
      rfl
    · rw [List.eq_of_mem_replicate hx]
      exact ⟨rfl, rfl, rfl, rfl, rfl⟩

/-! ### The invariants -/

theorem reset_shaped (a b : Bool) : (Bridge.reset a b).Shaped where
  requests := Nat.zero_le _
  ownWrites := Nat.zero_le _
  passes := fun _ h => nomatch h
  commandShadow := List.length_replicate
  nextIndex := Nat.zero_lt_succ _
  inFlight := fun _ h => nomatch h
  owners := List.length_replicate
  position := Nat.zero_lt_succ _
  descriptors := fun v => by rw [reset_descriptors_get]; exact List.length_replicate
  waiting := List.nodup_nil

theorem within_zero (m : Nat) : within m 0 := by
  unfold within
  omega

theorem viewReset_steady : View.reset.Steady where
  ay := within_zero _
  ax := within_zero _
  dyLength := List.length_replicate
  dxLength := List.length_replicate
  dy := fun d hd => by rw [List.eq_of_mem_replicate hd]; exact within_zero _
  dx := fun d hd => by rw [List.eq_of_mem_replicate hd]; exact within_zero _
  stored := fun _ h => nomatch h
  recorded := fun _ h => nomatch h

theorem viewReset_holdLaw : View.reset.HoldLaw where
  held := fun _ _ _ h => nomatch h
  live := fun _ _ h => nomatch h
  source := fun t ht k hk => by
    rw [List.eq_of_mem_replicate ht] at hk
    cases hk
  filling := fun _ h => nomatch h
  buffer := fun h => nomatch h
  count := fun h => (h rfl).elim

theorem reset_holdLaw (a b : Bool) : (Bridge.reset a b).HoldLaw where
  views := fun v => by rw [reset_views_get]; exact viewReset_holdLaw
  waiting := fun _ h => nomatch h
  single := List.nodup_nil
  solving := fun _ _ h => nomatch h
  busy := fun _ _ _ h => nomatch h
  parking := fun _ _ h => nomatch h

/-- R153: the reset state is silent, whatever the straps. -/
theorem reset_silent (a b : Bool) : (Bridge.reset a b).Silent where
  rota := ⟨rfl, rfl, rfl, rfl⟩
  rotb := ⟨rfl, rfl, rfl, rfl⟩
  views := fun v => by rw [reset_views_get]; exact ⟨rfl, rfl⟩
  descriptors := fun v x hx => by
    rw [reset_descriptors_get] at hx
    exact List.eq_of_mem_replicate hx
  owners := fun _ ho => List.eq_of_mem_replicate ho
  position := rfl
  glitchA := rfl
  glitchB := rfl
  solver := rfl
  solverQueue := rfl
  events := rfl
  mask := rfl
  commandShadow := fun _ hx => List.eq_of_mem_replicate hx
  inFlight := rfl
  outOfRange := rfl
  ownWrites := rfl

/-- Settles O56, from the reset values of each block. -/
theorem resetKeepsTheInvariants : Obligations.ResetKeepsTheInvariants := by
  unfold Obligations.ResetKeepsTheInvariants
  refine ⟨⟨reset_shaped _ _, wf_reset⟩, fun v => ?_, reset_holdLaw _ _, fun _ => reset_silent _ _,
    fun s straps a b hr => ⟨_, exec_resetRelease straps a b s hr, rfl, fun _ => reset_silent _ _⟩⟩
  exact (reset_views_get false false v).symm ▸ viewReset_steady

end Sys2Proof.Machine
end

section
/-! PROOF. The command ring: the rows as takes, the completion of a command that changes no more than views and solver
queue, and the statements about the commands of one view. -/

namespace Sys2Proof.Machine

open Laws

/-! ### Rows and takes (R181) -/

/-- The take of each kind of command. -/
def takeOf : CommandKind → Env → Bridge → Bridge
  | .configure => takeConfigure
  | .track => takeTrack
  | .park => takePark
  | .release => takeRelease
  | .releaseAll => takeReleaseAll
  | .rebase => takeRebase
  | .tune => takeTune
  | .zero => takeZero
  | .edge => takeEdge
  | .badCode => takeBadCode

theorem takeNext_eq_takeOf (env : Env) (br : Bridge) : takeNext env br = takeOf (commandKind br.nextEntry) env br := by
  unfold takeNext
  cases commandKind br.nextEntry <;> rfl

theorem exec_eq_takeRow (c : Instr) (kind : CommandKind) (s : State) (hc : (c, kind) ∈ ringRows) :
    exec c s = takeRow kind (takeOf kind) s := by
  simp only [ringRows, viewRows, List.cons_append, List.nil_append, List.mem_cons, Prod.mk.injEq, List.not_mem_nil,
    or_false] at hc
  rcases hc with ⟨rfl, rfl⟩ | ⟨rfl, rfl⟩ | ⟨rfl, rfl⟩ | ⟨rfl, rfl⟩ | ⟨rfl, rfl⟩ | ⟨rfl, rfl⟩ | ⟨rfl, rfl⟩ | ⟨rfl, rfl⟩
    | ⟨rfl, rfl⟩ | ⟨rfl, rfl⟩ <;> rfl

/-- A row of the command ring whose take is due is the take of the command at the next index. -/
theorem exec_ringRow (c : Instr) (kind : CommandKind) (s : State) (hc : (c, kind) ∈ ringRows)
    (h : takeDueOf kind s.bridge = true) :
    exec c s = .next { s with bridge := takeNext s.env s.bridge } := by
  rw [exec_eq_takeRow c kind s hc, takeRow_of_due kind _ s h, takeNext_eq_takeOf, (takeNext_of_dueOf _ _ h).2]

theorem ringRows_of_viewRows {c : Instr} {kind : CommandKind} (h : (c, kind) ∈ viewRows) : (c, kind) ∈ ringRows :=
  List.mem_append_left _ h

/-! ### Targets (R11) -/

theorem entryByte_nextEntry (br : Bridge) (off : Nat) (ho : off < 16) :
    entryByte br.nextEntry off = br.shadowByte br.nextIndex off := entryByte_eq_shadowByte br _ off ho

theorem targetView_eq_some (br : Bridge) (v : Fin 4) (h : (br.shadowByte br.nextIndex 1).toNat = v.val) :
    targetView br.nextEntry = some v := by
  unfold targetView
  rw [entryByte_nextEntry br 1 (by omega), dif_pos (by omega)]
  exact congrArg some (Fin.ext h)

theorem targetView_eq_none (br : Bridge) (h : 4 ≤ (br.shadowByte br.nextIndex 1).toNat) :
    targetView br.nextEntry = none := by
  unfold targetView
  rw [entryByte_nextEntry br 1 (by omega), dif_neg (by omega)]

theorem targetInput_eq_none (br : Bridge) (h : 2 ≤ (br.shadowByte br.nextIndex 1).toNat) :
    targetInput br.nextEntry = none := by
  unfold targetInput
  rw [entryByte_nextEntry br 1 (by omega)]
  split
  · omega
  · omega
  · rfl

/-! ### Completion at the take (R183) -/

/-- Two changes of one view are one. -/
theorem modView_modView (br : Bridge) (v : Fin 4) (f g : View → View) :
    (br.modView v f).modView v g = br.modView v (fun vw => g (f vw)) := by
  have hs : (br.views.set v (f (br.views.get v))).set v (g (f (br.views.get v)))
      = br.views.set v (g (f (br.views.get v))) := by
    ext u
    simp only [Four.get_set]
    split <;> rfl
  simp only [Bridge.modView, Four.get_set_self, hs]

/-- The state `s` with its command completed, the views `vs` and the solver queue `q`. -/
def State.completedWith (s : State) (vs : Four View) (q : List SolveEntry) (st : Status) (detail : Nat) : State :=
  { s with bridge := ({ s.bridge with views := vs, solverQueue := q } : Bridge).completeTaken s.env st detail }

/-- What a command leaves in `t` that completes at its take and changes no more than the ring, views and solver queue. -/
structure State.CompletedWith (s t : State) (vs : Four View) (q : List SolveEntry) (st : Status) (detail : Nat) :
    Prop where
  completed : s.bridge.Completed t.bridge s.env st detail
  frame : s.PlainTakeFrame t
  views : t.bridge.views = vs
  timer : s.bridge.SameTimer t.bridge
  queue : t.bridge.solverQueue = q
  events : s.bridge.OtherEvents t.bridge [.cmd]

/-- The completion of a command raises CMD alone. -/
theorem completeTaken_otherEvents (br : Bridge) (env : Env) (st : Status) (detail : Nat) :
    br.OtherEvents (br.completeTaken env st detail) [.cmd] := by
  intro n hn hne
  rw [completeTaken_events]
  exact Bridge.OtherEvents.raise (Bridge.OtherEvents.refl br [.cmd]) (List.mem_singleton.2 rfl) n hn hne

theorem completedWith_spec (s : State) (hs : s.Shaped) (vs : Four View) (q : List SolveEntry) (st : Status)
    (detail : Nat) : s.CompletedWith (s.completedWith vs q st detail) vs q st detail where
  completed := completeTaken_completed s.bridge { s.bridge with views := vs, solverQueue := q } s.env st detail rfl rfl
    hs.bridge.commandShadow hs.bridge.nextIndex
  frame :=
    { env := rfl, dram := rfl, readData := rfl, pending := rfl, solver := rfl, mask := rfl, descriptors := rfl
      requests := rfl, busWait := rfl, accepted := rfl, stream := rfl, assemblies := rfl, owners := rfl
      position := rfl, outOfRange := rfl }
  views := rfl
  timer := ⟨rfl, rfl, rfl, rfl⟩
  queue := rfl
  events := completeTaken_otherEvents { s.bridge with views := vs, solverQueue := q } s.env st detail

/-- A row whose take completes with the views `vs` and the queue `q`. -/
theorem exec_completedWith (c : Instr) (kind : CommandKind) (s : State) (hs : s.Shaped) (hc : (c, kind) ∈ ringRows)
    (hd : takeDueOf kind s.bridge = true) (vs : Four View) (q : List SolveEntry) (st : Status) (detail : Nat)
    (ht : takeNext s.env s.bridge =
      ({ s.bridge with views := vs, solverQueue := q } : Bridge).completeTaken s.env st detail) :
    ∃ t, exec c s = .next t ∧ s.CompletedWith t vs q st detail :=
  ⟨_, exec_ringRow c kind s hc hd, by rw [ht]; exact completedWith_spec s hs vs q st detail⟩

/-- A row whose take is refused. -/
theorem exec_refused (c : Instr) (kind : CommandKind) (s : State) (hs : s.Shaped) (hc : (c, kind) ∈ ringRows)
    (hd : takeDueOf kind s.bridge = true) (st : Status) (detail : Nat)
    (ht : takeNext s.env s.bridge = s.bridge.completeTaken s.env st detail) :
    ∃ t, exec c s = .next t ∧ s.CompletedWith t s.bridge.views s.bridge.solverQueue st detail :=
  exec_completedWith c kind s hs hc hd _ _ st detail ht

/-- A row whose take changes view `v` and completes. -/
theorem exec_modView (c : Instr) (kind : CommandKind) (s : State) (hs : s.Shaped) (hc : (c, kind) ∈ ringRows)
    (hd : takeDueOf kind s.bridge = true) (v : Fin 4) (f : View → View) (st : Status) (detail : Nat)
    (ht : takeNext s.env s.bridge = (s.bridge.modView v f).completeTaken s.env st detail) :
    ∃ t, exec c s = .next t ∧ t.bridge.views.get v = f (s.bridge.views.get v) ∧ s.bridge.OtherViews t.bridge v
      ∧ s.CompletedWith t (s.bridge.modView v f).views s.bridge.solverQueue st detail := by
  obtain ⟨t, hx, hw⟩ := exec_completedWith c kind s hs hc hd _ _ st detail ht
  refine ⟨t, hx, ?_, fun u hu => ?_, hw⟩
  · rw [hw.views, Four.get_set_self]
  · rw [hw.views, Four.get_set_ne _ _ _ _ hu]

/-! ### Refusals (R10, R11) -/

/-- R11: a view command whose target byte names no view. -/
theorem takeNext_of_noView (c : Instr) (kind : CommandKind) (env : Env) (br : Bridge) (hc : (c, kind) ∈ viewRows)
    (hk : commandKind br.nextEntry = kind) (ht : targetView br.nextEntry = none) :
    takeNext env br = br.completeTaken env .badTarget := by
  simp only [viewRows, List.mem_cons, Prod.mk.injEq, List.not_mem_nil, or_false] at hc
  unfold takeNext
  rcases hc with ⟨-, rfl⟩ | ⟨-, rfl⟩ | ⟨-, rfl⟩ | ⟨-, rfl⟩ | ⟨-, rfl⟩ | ⟨-, rfl⟩ <;> rw [hk]
  · simp [takeConfigure, ht]
  · simp [takeTrack, ht]
  · simp [takePark, ht]
  · simp [takeRelease, ht]
  · simp [takeRebase, ht]
  · simp [takeTune, ht]

/-- R10: a view command that the state of its view does not allow. -/
theorem takeNext_of_badState (c : Instr) (kind : CommandKind) (env : Env) (br : Bridge) (v : Fin 4)
    (hc : (c, kind) ∈ viewRows) (hk : commandKind br.nextEntry = kind) (ht : targetView br.nextEntry = some v)
    (ha : allowedIn kind (br.views.get v).state = false) :
    takeNext env br = br.completeTaken env .badState := by
  simp only [viewRows, List.mem_cons, Prod.mk.injEq, List.not_mem_nil, or_false] at hc
  unfold takeNext
  rcases hc with ⟨-, rfl⟩ | ⟨-, rfl⟩ | ⟨-, rfl⟩ | ⟨-, rfl⟩ | ⟨-, rfl⟩ | ⟨-, rfl⟩ <;> rw [hk] <;>
    cases hst : (br.views.get v).state <;> simp only [hst, allowedIn, Bool.true_eq_false] at ha
  all_goals simp [takeConfigure, takeTrack, takePark, takeRelease, takeRebase, takeTune, ht, hst]

/-- Settles O33, by the refusals of the takes. -/
theorem badTargetAndBadStateAreRefused : Obligations.BadTargetAndBadStateAreRefused := by
  unfold Obligations.BadTargetAndBadStateAreRefused
  intro s c kind st hs hd target hcase
  have hk := (takeNext_of_dueOf _ _ hd).2
  have hrow : (c, kind) ∈ ringRows ∧ takeNext s.env s.bridge = s.bridge.completeTaken s.env st := by
    rcases hcase with ⟨rfl, hc, ht⟩ | ⟨rfl, hc, ht⟩ | ⟨rfl, hc, ht, ht'⟩ | ⟨rfl, hc, v, ht, ha⟩
    · exact ⟨ringRows_of_viewRows hc, takeNext_of_noView c kind _ _ hc hk (targetView_eq_none _ ht)⟩
    · cases hc
      refine ⟨by simp [ringRows], ?_⟩
      simp [takeNext, hk, takeEdge, targetInput_eq_none _ ht]
    · cases hc
      have hne : ¬ entryByte s.bridge.nextEntry 1 = 0xFF := by
        rw [entryByte_nextEntry _ _ (by omega)]
        intro h
        have : target = 255 := congrArg BitVec.toNat h
        omega
      refine ⟨by simp [ringRows], ?_⟩
      simp only [takeNext, hk, takeZero, targetView_eq_none _ ht]
      exact if_neg hne
    · exact ⟨ringRows_of_viewRows hc, takeNext_of_badState c kind _ _ v hc hk (targetView_eq_some _ v ht) ha⟩
  obtain ⟨t, hx, hw⟩ := exec_refused c kind s hs hrow.1 hd st 0 hrow.2
  exact ⟨t, hx, hw.completed, hw.frame, hw.views, hw.timer, hw.queue, hw.events⟩

/-! ### CONFIGURE (R4 to R8, R12) -/

theorem configure_allowed {st : ViewState} (h : allowedIn .configure st = true) : st = .unconfigured ∨ st = .parked := by
  cases st <;> simp [allowedIn] at h ⊢

theorem takeConfigure_of_failure (env : Env) (br : Bridge) (v : Fin 4) (n : Nat)
    (ht : targetView br.nextEntry = some v) (ha : allowedIn .configure (br.views.get v).state = true)
    (hf : configureFailure env.straps br v (readDescriptor (br.descriptors.get v)) = some n) :
    takeConfigure env br = br.completeTaken env .badDescriptor n := by
  simp only [takeConfigure, ht, if_pos (configure_allowed ha), hf]

theorem takeConfigure_of_success (env : Env) (br : Bridge) (v : Fin 4) (ht : targetView br.nextEntry = some v)
    (ha : allowedIn .configure (br.views.get v).state = true)
    (hf : configureFailure env.straps br v (readDescriptor (br.descriptors.get v)) = none) :
    takeConfigure env br =
      (br.modView v (fun vw => vw.configure (readDescriptor (br.descriptors.get v)))).completeTaken env .done := by
  simp only [takeConfigure, ht, if_pos (configure_allowed ha), hf]

/-- The checks stand in the list in the order of their numbers. -/
theorem configureChecks_numbers (straps : Straps) (br : Bridge) (v : Fin 4) (d : Descriptor) :
    (configureChecks straps br v d).Pairwise (fun a b => a.1 < b.1) := by
  have hnumbers : (configureChecks straps br v d).map (·.1) = [1, 2, 3, 4, 5, 6, 7, 8, 9, 10, 11, 12] := rfl
  have hrising : ((configureChecks straps br v d).map (·.1)).Pairwise (· < ·) := by
    rw [hnumbers]
    decide
  exact List.pairwise_map.1 hrising

/-- R4: check `n` is the first that fails. -/
theorem configureFailure_eq_some (straps : Straps) (br : Bridge) (v : Fin 4) (d : Descriptor) (n : Nat)
    (hn : CheckFails straps br v d n) (hm : ∀ m, m < n → ¬ CheckFails straps br v d m) :
    configureFailure straps br v d = some n := by
  have hspec := configureChecks_spec straps br v d
  obtain ⟨c, hc, rfl⟩ := checkFails_listed straps br v d n hn
  obtain ⟨before, after, hl⟩ := List.append_of_mem hc
  have hfirst : (configureChecks straps br v d).find? (·.2) = some c := by
    refine List.find?_eq_some_iff_append.2 ⟨(hspec c hc).2 hn, before, after, hl, fun b hb => ?_⟩
    have hbc : b ∈ configureChecks straps br v d := hl ▸ List.mem_append_left _ hb
    have hlt : b.1 < c.1 := by
      have hp := configureChecks_numbers straps br v d
      rw [hl] at hp
      exact (List.pairwise_append.1 hp).2.2 b hb c (by simp)
    have hnot := hm b.1 hlt
    rw [← hspec b hbc] at hnot
    simpa using hnot
  simp [configureFailure, hfirst]

/-- R4: no check fails. -/
theorem configureFailure_eq_none (straps : Straps) (br : Bridge) (v : Fin 4) (d : Descriptor)
    (hn : ∀ n, ¬ CheckFails straps br v d n) : configureFailure straps br v d = none := by
  have hnone : (configureChecks straps br v d).find? (·.2) = none :=
    List.find?_eq_none.2 fun c hc h => hn c.1 ((configureChecks_spec straps br v d c hc).1 h)
  simp [configureFailure, hnone]

/-- Settles O34. -/
theorem configureNamesTheFirstFailingCheck : Obligations.ConfigureNamesTheFirstFailingCheck := by
  unfold Obligations.ConfigureNamesTheFirstFailingCheck
  intro s v n hs hd ht ha d hn hm
  have htake : takeNext s.env s.bridge = s.bridge.completeTaken s.env .badDescriptor n := by
    simp only [takeNext, (takeNext_of_dueOf _ _ hd).2]
    exact takeConfigure_of_failure _ _ v n (targetView_eq_some _ v ht) ha (configureFailure_eq_some _ _ _ _ n hn hm)
  obtain ⟨t, hx, hw⟩ := exec_refused .configure .configure s hs (by simp [ringRows, viewRows]) hd _ _ htake
  exact ⟨t, hx, hw.completed, hw.frame, hw.views, hw.timer, hw.queue, hw.events⟩

theorem newSlots_bases (bases : List Nat) : (newSlots bases).map (·.base) = bases := by
  simp [newSlots, Function.comp_def]

/-- R20: the records of a new slot list. -/
theorem newSlots_mem (bases : List Nat) (sl : Slot) (h : sl ∈ newSlots bases) :
    sl.state = .empty ∧ sl.sequence = 0 ∧ sl.startStamp = 0 ∧ sl.offsets = none ∧ ∀ e ∈ sl.map, e = MapEntry.live := by
  obtain ⟨b, _, rfl⟩ := List.mem_map.1 h
  exact ⟨rfl, rfl, rfl, rfl, fun e he => List.eq_of_mem_replicate he⟩

/-- Settles O35. -/
theorem configureSetsUpTheView : Obligations.ConfigureSetsUpTheView := by
  unfold Obligations.ConfigureSetsUpTheView
  intro s v hs hd ht ha d hn
  have htake : takeNext s.env s.bridge = (s.bridge.modView v (fun vw => vw.configure d)).completeTaken s.env .done 0 := by
    simp only [takeNext, (takeNext_of_dueOf _ _ hd).2]
    exact takeConfigure_of_success _ _ v (targetView_eq_some _ v ht) ha (configureFailure_eq_none _ _ _ _ hn)
  obtain ⟨t, hx, hv, ho, hw⟩ :=
    exec_modView .configure .configure s hs (by simp [ringRows, viewRows]) hd v _ _ _ htake
  refine ⟨t, hx, hw.completed, hw.frame, ?_, ho, hw.timer, hw.queue, hw.events⟩
  simp only [hv]
  refine ⟨rfl, rfl, newSlots_bases _, newSlots_mem _, rfl, rfl, rfl, rfl, fun b => ?_, rfl, rfl, rfl, rfl, rfl, rfl, rfl,
    fun x hx => ?_, rfl, rfl, rfl, rfl, rfl⟩
  · simp [View.configure, ProfileBuffer.withRole]
  · rw [List.eq_of_mem_replicate hx]
    exact ⟨rfl, rfl, rfl, rfl, rfl⟩

/-! ### TRACK, REBASE, RELEASE, TUNE (R13, R16, R17, R19) -/

/-- R13, R16, R96: the resets that TRACK and REBASE share, whatever state, buffers and intake record the view has. -/
theorem rebaseResets_rebaseReset (vw : View) (st : ViewState) (bs : Four ProfileBuffer) (n : Intake) :
    vw.RebaseReset { ({ vw with buffers := bs, intake := n } : View).rebaseResets with state := st } where
  ay := rfl
  ax := rfl
  dy := rfl
  dx := rfl
  countdown := rfl
  active := rfl
  tunables := rfl
  tiles := by
    refine ⟨List.length_map _, fun n t ht => ?_⟩
    obtain ⟨u, hu, rfl⟩ := Option.map_eq_some_iff.1 (List.getElem?_map.symm.trans ht)
    exact ⟨rfl, rfl, rfl, u, hu, rfl, rfl⟩
  seed := rfl
  whiteout := rfl
  reference := freeRole_noBuffer _ _ (by decide)
  slots := rfl
  ready := rfl
  scan := rfl
  geometry := rfl
  nextSequence := rfl
  startCount := rfl
  counters := rfl

theorem rebaseResets_state (vw : View) : vw.rebaseResets.state = vw.state := rfl

/-- Settles O36. -/
theorem trackStartsTracking : Obligations.TrackStartsTracking := by
  unfold Obligations.TrackStartsTracking
  intro s v hs hd ht hst
  have htake : takeNext s.env s.bridge =
      (s.bridge.modView v (fun vw => { vw.rebaseResets with state := .tracking })).completeTaken s.env .done 0 := by
    simp [takeNext, (takeNext_of_dueOf _ _ hd).2, takeTrack, targetView_eq_some _ v ht, hst]
  obtain ⟨t, hx, hv, ho, hw⟩ := exec_modView .track .track s hs (by simp [ringRows, viewRows]) hd v _ _ _ htake
  refine ⟨t, hx, hw.completed, hw.frame, ?_, ?_, ?_, ho, hw.timer, hw.queue, hw.events⟩
  · rw [hv]
  · rw [hv]
    exact rebaseResets_rebaseReset _ _ _ _
  · rw [hv]
    rfl

/-- R17: what RELEASE makes of a view. -/
theorem release_released (vw : View) : vw.Released vw.release where
  state := rfl
  slots := rfl
  ready := rfl
  scan := rfl
  intake := rfl
  buffers := fun b => by simp [View.release, ProfileBuffer.withRole]
  tiles := fun t ht => by
    obtain ⟨u, _, rfl⟩ := List.mem_map.1 ht
    rfl
  counters := rfl

/-- Settles O38. -/
theorem releaseGivesUpTheView : Obligations.ReleaseGivesUpTheView := by
  unfold Obligations.ReleaseGivesUpTheView
  intro s v hs hd ht hst
  have htake : takeNext s.env s.bridge = (s.bridge.modView v View.release).completeTaken s.env .done 0 := by
    simp [takeNext, (takeNext_of_dueOf _ _ hd).2, takeRelease, targetView_eq_some _ v ht, hst]
  obtain ⟨t, hx, hv, ho, hw⟩ := exec_modView .release .release s hs (by simp [ringRows, viewRows]) hd v _ _ _ htake
  have hr : (s.bridge.views.get v).Released (t.bridge.views.get v) := hv ▸ release_released _
  refine ⟨t, hx, hw.completed, hw.frame, hr, ?_, ho, hw.timer, hw.queue, hw.events⟩
  unfold Bridge.viewRanges
  rw [if_pos hr.state]

/-- R18: what RELEASE ALL makes of each view. -/
theorem releaseAll_views_get (br : Bridge) (v : Fin 4) :
    br.releaseAll.views.get v =
      if (br.views.get v).state = .unconfigured then br.views.get v else (br.views.get v).release := by
  simp [Bridge.releaseAll]

theorem releaseAll_unconfigured (br : Bridge) (v : Fin 4) : (br.releaseAll.views.get v).state = .unconfigured := by
  rw [releaseAll_views_get]
  split
  · assumption
  · rfl

/-- Settles O39. -/
theorem releaseAllReleasesEveryView : Obligations.ReleaseAllReleasesEveryView := by
  unfold Obligations.ReleaseAllReleasesEveryView
  intro s hs hd
  have hk := (takeNext_of_dueOf _ _ hd).2
  constructor
  · intro hb
    have htake : takeNext s.env s.bridge = s.bridge.releaseAll.completeTaken s.env .done 0 := by
      simp [takeNext, hk, takeReleaseAll, hb]
    obtain ⟨t, hx, hw⟩ := exec_completedWith .releaseAll .releaseAll s hs (by simp [ringRows]) hd _ _ _ _ htake
    refine ⟨t, hx, hw.completed, hw.frame, fun v => ?_, fun v hv => ?_, hw.queue, hw.timer, hw.events⟩
    · rw [hw.views]
      exact releaseAll_unconfigured s.bridge v
    · have hr : t.bridge.views.get v = (s.bridge.views.get v).release := by
        rw [hw.views]
        exact (releaseAll_views_get s.bridge v).trans (if_neg hv)
      exact hr ▸ release_released _
  · intro hb
    have htake : takeNext s.env s.bridge = s.bridge.waitTaken .releaseAll := by
      simp [takeNext, hk, takeReleaseAll, hb]
    exact ⟨_, exec_ringRow .releaseAll .releaseAll s (by simp [ringRows]) hd, htake, rfl, rfl, rfl, rfl⟩

theorem dropAccum_state (vw : View) : vw.dropAccum.state = vw.state := rfl

/-- R14, R16: the frame being filled has lost its buffer. -/
theorem dropAccum_noBuffer (vw : View) : vw.dropAccum.noBuffer .accum :=
  freeRole_noBuffer _ _ (by decide)

/-- Freeing a role leaves no buffer with another role that had none. -/
theorem freeRole_keeps_noBuffer (vw : View) (r q : BufferRole) (hq : q ≠ .free) (h : vw.noBuffer q) :
    (vw.freeRole r).noBuffer q := by
  intro b
  rw [freeRole_get]
  split
  · exact fun hh => hq hh.symm
  · exact h b

/-- Settles O40. -/
theorem rebaseRestartsLearning : Obligations.RebaseRestartsLearning := by
  unfold Obligations.RebaseRestartsLearning
  intro s v hs hd ht hst
  have hk := (takeNext_of_dueOf _ _ hd).2
  have htv := targetView_eq_some _ v ht
  have hsolving : (s.bridge.modView v View.dropAccum).solving v = s.bridge.solving v := rfl
  constructor
  · intro hb
    have htake : takeNext s.env s.bridge =
        (s.bridge.modView v (fun vw => vw.dropAccum.rebaseResets)).completeTaken s.env .done 0 := by
      have hm : (s.bridge.modView v View.dropAccum).modView v View.rebaseResets =
          s.bridge.modView v (fun vw => vw.dropAccum.rebaseResets) := modView_modView _ _ _ _
      simp [takeNext, hk, takeRebase, htv, hst, hsolving, hb, hm]
    obtain ⟨t, hx, hv, ho, hw⟩ := exec_modView .rebase .rebase s hs (by simp [ringRows, viewRows]) hd v _ _ _ htake
    refine ⟨t, hx, hw.completed, hw.frame, ?_, ?_, ?_, ?_, hw.queue, ho, hw.timer, hw.events⟩
    · rw [hv]
      exact (rebaseResets_state _).trans ((dropAccum_state _).trans hst)
    · rw [hv]
      exact rebaseResets_rebaseReset _ _ (s.bridge.views.get v).dropAccum.buffers (s.bridge.views.get v).dropAccum.intake
    · rw [hv]
      exact freeRole_keeps_noBuffer _ _ _ (by decide) (dropAccum_noBuffer _)
    · rw [hv]
      rfl
  · intro hb
    have htake : takeNext s.env s.bridge = (s.bridge.modView v View.dropAccum).waitTaken (.rebase v) := by
      simp [takeNext, hk, takeRebase, htv, hst, hsolving, hb]
    refine ⟨_, exec_ringRow .rebase .rebase s (by simp [ringRows, viewRows]) hd, ?_⟩
    have hv : ((s.bridge.modView v View.dropAccum).waitTaken (.rebase v)).views.get v
        = (s.bridge.views.get v).dropAccum := by simp
    simp only [htake, hv]
    refine ⟨?_, rfl, rfl, hst, rfl, rfl, rfl, dropAccum_noBuffer _, rfl, rfl, rfl, ⟨rfl, rfl, rfl, rfl⟩, rfl, ?_⟩
    · exact
        { env := rfl, dram := rfl, readData := rfl, pending := rfl, solver := rfl, mask := rfl, descriptors := rfl
          requests := rfl, busWait := rfl, accepted := rfl, stream := rfl, assemblies := rfl, owners := rfl
          position := rfl, outOfRange := rfl }
    · exact (Bridge.OtherViews.refl s.bridge v).modView View.dropAccum

/-- R8: the range check of the tunables. -/
theorem tunables_valid_iff (u : Tunables) : u.valid = true ↔ u.InRange := by
  simp only [Tunables.valid, Tunables.InRange, Bool.and_eq_true, decide_eq_true_eq, and_assoc]

/-- Settles O41. -/
theorem tuneStoresPendingTunables : Obligations.TuneStoresPendingTunables := by
  unfold Obligations.TuneStoresPendingTunables
  intro s v hs hd ht hst u
  have hk := (takeNext_of_dueOf _ _ hd).2
  have htv := targetView_eq_some _ v ht
  have hrow : (Instr.tune, CommandKind.tune) ∈ ringRows := by simp [ringRows, viewRows]
  by_cases hu : u.InRange
  · have htake : takeNext s.env s.bridge = (s.bridge.modView v (fun vw =>
        { vw with motion := { vw.motion with pending := some u } })).completeTaken s.env .done 0 := by
      simp [takeNext, hk, takeTune, htv, hst, (tunables_valid_iff _).2 hu, u]
    obtain ⟨t, hx, hv, ho, hw⟩ := exec_modView .tune .tune s hs hrow hd v _ _ _ htake
    exact ⟨t, hx, hw.frame, fun _ => ⟨hw.completed, hv⟩, fun h => (h hu).elim, ho, hw.timer, hw.queue, hw.events⟩
  · have hval : (readTunables (s.bridge.descriptors.get v)).valid = false := by
      rw [← Bool.not_eq_true, tunables_valid_iff]
      exact hu
    have htake : takeNext s.env s.bridge = s.bridge.completeTaken s.env .badDescriptor 11 := by
      simp [takeNext, hk, takeTune, htv, hst, hval]
    obtain ⟨t, hx, hw⟩ := exec_refused .tune .tune s hs hrow hd _ _ htake
    exact ⟨t, hx, hw.frame, fun h => (hu h).elim, fun _ => ⟨hw.completed, by rw [hw.views]⟩,
      fun w _ => by rw [hw.views], hw.timer, hw.queue, hw.events⟩

end Sys2Proof.Machine
end

section
/-! PROOF. PARK: the waiting entry that completes unsolved, the holds that reaching PARKED breaks, and the statement
about the command. -/

namespace Sys2Proof.Machine

open Laws

/-! ### What the blocks that follow a frame leave alone -/

/-- The rotation timer, the shadows, the command ring, the port and the sequencer are as before: intake, solver queue,
reports and views are what may have changed. -/
structure Bridge.FrameWork (br br' : Bridge) : Prop where
  timer : br.SameTimer br'
  port : br.SamePort br'
  mask : br'.mask = br.mask
  descriptors : br'.descriptors = br.descriptors
  commandShadow : br'.commandShadow = br.commandShadow
  nextIndex : br'.nextIndex = br.nextIndex
  inFlight : br'.inFlight = br.inFlight
  outOfRange : br'.outOfRange = br.outOfRange

theorem Bridge.FrameWork.refl (br : Bridge) : br.FrameWork br :=
  ⟨⟨rfl, rfl, rfl, rfl⟩, ⟨rfl, rfl, rfl, rfl, rfl⟩, rfl, rfl, rfl, rfl, rfl, rfl⟩

theorem Bridge.FrameWork.trans {a b c : Bridge} (h : a.FrameWork b) (g : b.FrameWork c) : a.FrameWork c where
  timer := ⟨g.timer.rota.trans h.timer.rota, g.timer.rotb.trans h.timer.rotb, g.timer.glitchA.trans h.timer.glitchA,
    g.timer.glitchB.trans h.timer.glitchB⟩
  port := ⟨g.port.requests.trans h.port.requests, g.port.busWait.trans h.port.busWait,
    g.port.accepted.trans h.port.accepted, g.port.stream.trans h.port.stream, g.port.assemblies.trans h.port.assemblies⟩
  mask := g.mask.trans h.mask
  descriptors := g.descriptors.trans h.descriptors
  commandShadow := g.commandShadow.trans h.commandShadow
  nextIndex := g.nextIndex.trans h.nextIndex
  inFlight := g.inFlight.trans h.inFlight
  outOfRange := g.outOfRange.trans h.outOfRange

theorem frameWork_modView (br : Bridge) (v : Fin 4) (f : View → View) : br.FrameWork (br.modView v f) :=
  ⟨⟨rfl, rfl, rfl, rfl⟩, ⟨rfl, rfl, rfl, rfl, rfl⟩, rfl, rfl, rfl, rfl, rfl, rfl⟩

theorem frameWork_raise (br : Bridge) (e : Event) : br.FrameWork (br.raise e) :=
  ⟨⟨rfl, rfl, rfl, rfl⟩, ⟨rfl, rfl, rfl, rfl, rfl⟩, rfl, rfl, rfl, rfl, rfl, rfl⟩

theorem frameWork_dropWaiting (br : Bridge) (v : Fin 4) : br.FrameWork (br.dropWaiting v) :=
  ⟨⟨rfl, rfl, rfl, rfl⟩, ⟨rfl, rfl, rfl, rfl, rfl⟩, rfl, rfl, rfl, rfl, rfl, rfl⟩

theorem frameWork_report (br : Bridge) (env : Env) (r : Report) : br.FrameWork (br.report env r) where
  timer := ⟨report_rota .., report_rotb .., report_glitchA .., report_glitchB ..⟩
  port := ⟨report_requests .., report_busWait .., report_accepted .., report_stream .., report_assemblies ..⟩
  mask := report_mask ..
  descriptors := report_descriptors ..
  commandShadow := report_commandShadow ..
  nextIndex := report_nextIndex ..
  inFlight := report_inFlight ..
  outOfRange := report_outOfRange ..

theorem frameWork_breakHolds (br : Bridge) (v : Fin 4) (p : MapEntry → Bool) (also : Bool) :
    br.FrameWork (br.breakHolds v p also) where
  timer := ⟨breakHolds_rota .., breakHolds_rotb .., breakHolds_glitchA .., breakHolds_glitchB ..⟩
  port := ⟨breakHolds_requests .., breakHolds_busWait .., breakHolds_accepted .., breakHolds_stream ..,
    breakHolds_assemblies ..⟩
  mask := breakHolds_mask ..
  descriptors := breakHolds_descriptors ..
  commandShadow := breakHolds_commandShadow ..
  nextIndex := breakHolds_nextIndex ..
  inFlight := breakHolds_inFlight ..
  outOfRange := breakHolds_outOfRange ..

/-! ### The unsolved completion (R42, R14) -/

/-- Slot `k` is READY without a solve, at offsets `o` with a LIVE map (R42). -/
def View.readyUnsolved (vw : View) (k : Nat) (o : Offsets) : View :=
  (vw.modSlot k (fun sl => { sl with state := .ready, offsets := some o, map := allLive })).insertReady k

theorem readyUnsolved_slot (vw : View) (k : Nat) (o : Offsets) (h : k < vw.slots.length) :
    ∃ sl, (vw.readyUnsolved k o).slots[k]? = some sl ∧ sl.state = .ready ∧ sl.offsets = some o
      ∧ ∀ x ∈ sl.map, x = MapEntry.live := by
  refine ⟨{ vw.slots[k] with state := .ready, offsets := some o, map := allLive }, ?_, rfl, rfl,
    fun x hx => List.eq_of_mem_replicate hx⟩
  refine (modSlot_getElem? vw k k _).trans ?_
  rw [List.getElem?_eq_getElem h]
  simp

/-- The FRAME report of an unsolved completion (R42, R14). -/
def unsolvedReport (f : FrameId) (time : Stamp) (mo : Motion) (o : Offsets) (parked : Bool) : Report :=
  { kind := .frame, frame := f, time := time, offsets := o, ay := mo.ay, ax := mo.ax,
    flags := { unsolved := !parked, parked := parked } }

theorem unsolvedCompletion_eq (env : Env) (br : Bridge) (f : FrameId) (time : Stamp) (parked : Bool) :
    br.unsolvedCompletion env f time parked =
      (let mo := (br.views.get f.view).motion
       let o : Offsets := if parked then ⟨0, 0⟩ else mo.offsets
       ((br.modView f.view (fun vw => vw.readyUnsolved f.slot o)).report env
          (unsolvedReport f time mo o parked)).raise (.frame f.view)) := rfl

/-! ### PARK's waiting entry (R14) -/

theorem parkWaiting_of_none (env : Env) (br : Bridge) (v : Fin 4) (h : br.waiting v = none) :
    br.parkWaiting env v = br := by
  simp only [Bridge.parkWaiting, h]

/-- The bridge in which PARK's waiting entry `e` has left the queue, its buffer is FREE and its slot READY, before the
report. -/
def Bridge.parkReady (br : Bridge) (v : Fin 4) (e : SolveEntry) : Bridge :=
  (br.dropWaiting v).modView v (fun vw => (vw.modBuffer e.buffer (·.withRole .free)).readyUnsolved e.frame.slot ⟨0, 0⟩)

/-- The report of PARK's waiting entry. -/
def Bridge.parkReport (br : Bridge) (v : Fin 4) (e : SolveEntry) : Report :=
  unsolvedReport e.frame ((br.views.get v).buffers.get e.buffer).midTime (br.views.get v).motion ⟨0, 0⟩ true

theorem parkWaiting_of_some (env : Env) (br : Bridge) (v : Fin 4) (e : SolveEntry) (h : br.waiting v = some e) :
    br.parkWaiting env v = ((br.parkReady v e).report env (br.parkReport v e)).raise (.frame v) := by
  have hv := waiting_view h
  simp only [Bridge.parkWaiting, h, unsolvedCompletion_eq, hv, modView_modView, modView_get, if_pos]
  rfl

theorem parkWaiting_frameWork (env : Env) (br : Bridge) (v : Fin 4) : br.FrameWork (br.parkWaiting env v) := by
  cases h : br.waiting v with
  | none => rw [parkWaiting_of_none env br v h]; exact .refl br
  | some e =>
    rw [parkWaiting_of_some env br v e h]
    exact (((frameWork_dropWaiting br v).trans (frameWork_modView _ v _)).trans (frameWork_report ..)).trans
      (frameWork_raise ..)

theorem parkWaiting_solver (env : Env) (br : Bridge) (v : Fin 4) : (br.parkWaiting env v).solver = br.solver := by
  cases h : br.waiting v with
  | none => rw [parkWaiting_of_none env br v h]
  | some e =>
    rw [parkWaiting_of_some env br v e h, raise_solver, report_solver]
    rfl

theorem parkWaiting_otherViews (env : Env) (br : Bridge) (v : Fin 4) : br.OtherViews (br.parkWaiting env v) v := by
  cases h : br.waiting v with
  | none => rw [parkWaiting_of_none env br v h]; exact .refl br v
  | some e =>
    rw [parkWaiting_of_some env br v e h]
    have hready : br.OtherViews (br.parkReady v e) v := fun u hu => by
      unfold Bridge.parkReady
      rw [modView_get, if_neg hu, dropWaiting_views]
    exact hready.report env (br.parkReport v e) (waiting_view h)

theorem parkWaiting_otherEvents (env : Env) (br : Bridge) (v : Fin 4) :
    br.OtherEvents (br.parkWaiting env v) [.frame v, .lost v] := by
  cases h : br.waiting v with
  | none => rw [parkWaiting_of_none env br v h]; exact .refl br _
  | some e =>
    rw [parkWaiting_of_some env br v e h]
    have hv : (br.parkReport v e).frame.view = v := waiting_view h
    exact ((Bridge.OtherEvents.refl br _).report (b := br.parkReady v e) env _ (by simp [hv])).raise (by simp)

theorem countP_isHeld_of_live {xs : List MapEntry} (h : ∀ x ∈ xs, x = MapEntry.live) :
    xs.countP MapEntry.isHeld = 0 :=
  List.countP_eq_zero.2 fun x hx => by rw [h x hx]; decide

/-- The slot whose map becomes LIVE holds no entry any more: the others' are counted. -/
theorem entriesOf_modify_live (slots : List Slot) (k : Nat) (f : Slot → Slot) (hf : ∀ sl, (f sl).map = allLive) :
    entriesOf (slots.modify k f) MapEntry.isHeld = entriesOf (slots.eraseIdx k) MapEntry.isHeld := by
  induction slots generalizing k with
  | nil => simp [entriesOf]
  | cons sl slots ih =>
    cases k with
    | zero =>
      have h0 : (f sl).map.countP MapEntry.isHeld = 0 :=
        countP_isHeld_of_live fun x hx => List.eq_of_mem_replicate (hf sl ▸ hx)
      simp [entriesOf, h0]
    | succ k =>
      have := ih k
      simp only [entriesOf] at this
      simp [entriesOf, this]

/-- What PARK's removal of the waiting entry leaves of the view: slots, ready list, buffers and LOST are what may have
changed, and the held entries left are those of the other slots. -/
theorem parkWaiting_view (env : Env) (br : Bridge) (v : Fin 4) :
    ∃ slots ready buffers n,
      (br.parkWaiting env v).views.get v =
        { br.views.get v with
          slots := slots, ready := ready, buffers := buffers
          counters := { (br.views.get v).counters with lost := n } }
      ∧ entriesOf slots MapEntry.isHeld = entriesOf (br.slotsToPark v) MapEntry.isHeld := by
  cases h : br.waiting v with
  | none =>
    refine ⟨(br.views.get v).slots, _, _, _, by rw [parkWaiting_of_none env br v h], ?_⟩
    simp only [Bridge.slotsToPark, h]
  | some e =>
    obtain ⟨n, hn⟩ := report_view_lost env (br.parkReady v e) (br.parkReport v e) v
    refine ⟨_, _, _, n, by rw [parkWaiting_of_some env br v e h, raise_views, hn]; simp [Bridge.parkReady]; rfl, ?_⟩
    simp only [Bridge.slotsToPark, h]
    exact entriesOf_modify_live _ _ _ fun _ => rfl

/-- R14: PARK's removal of the waiting entry, as the statement gives it. -/
theorem parkWaiting_waitingParked (env : Env) (br : Bridge) (v : Fin 4) :
    br.WaitingParked (br.parkWaiting env v) env v := by
  cases h : br.waiting v with
  | none =>
    have hq : br.solverQueue = br.solverQueue.filter (fun e => e.frame.view != v) := by
      refine (List.filter_eq_self.2 fun e he => ?_).symm
      have := List.find?_eq_none.1 h e he
      simpa using this
    rw [parkWaiting_of_none env br v h]
    have hno {p : SolveEntry → Prop} : ∀ e, br.waiting v = some e → p e := fun e he => by rw [h] at he; cases he
    exact ⟨hq, hno, hno, hno, hno, hno, fun _ => ⟨rfl, rfl, rfl, rfl⟩⟩
  | some e =>
    have hv : (br.parkReport v e).frame.view = v := waiting_view h
    have he : ∀ {p : SolveEntry → Prop}, p e → ∀ e', br.waiting v = some e' → p e' := fun hp e' he' => by
      rw [h] at he'; cases he'; exact hp
    have hfree : (br.parkReady v e).reportFree = br.reportFree := rfl
    have hview : (br.parkReady v e).views.get v =
        ((br.views.get v).modBuffer e.buffer (·.withRole .free)).readyUnsolved e.frame.slot ⟨0, 0⟩ := by
      simp [Bridge.parkReady]
    obtain ⟨n, hn⟩ := report_view_lost env (br.parkReady v e) (br.parkReport v e) v
    rw [hview] at hn
    rw [parkWaiting_of_some env br v e h]
    refine ⟨?_, he ?_, he ?_, he ?_, he ?_, he ?_, fun hnone => by rw [h] at hnone; cases hnone⟩
    · rw [raise_solverQueue, report_solverQueue]
      rfl
    · intro hlt
      rw [raise_views, hn]
      exact readyUnsolved_slot ((br.views.get v).modBuffer e.buffer _) e.frame.slot ⟨0, 0⟩ hlt
    · rw [raise_views, hn]
      exact insertReady_mem _ _
    · rw [raise_bit]
      simp
    · intro hf
      refine ⟨_, [], by rw [raise_ownWrites, report_ownWrites_of_free env _ _ (hfree.trans hf)]; rfl, rfl, rfl, ?_⟩
      rw [report_bytes_take8]
      have hflags : (br.parkReport v e).flags.value = 1024 := rfl
      rw [hflags, hv]
      rfl
    · intro hf
      refine ⟨?_, ?_⟩
      · rw [raise_views, report_views_get, if_pos ⟨hfree.trans hf, hv.symm⟩, hview]
        rfl
      · rw [raise_bit, report_bit, hfree, hf, hv]
        simp

/-- A slot as PARK leaves that of the waiting entry (R14). -/
def Slot.ParkedReady (sl : Slot) : Prop :=
  sl.state = .ready ∧ sl.offsets = some ⟨0, 0⟩ ∧ ∀ x ∈ sl.map, x = MapEntry.live

/-- What later work leaves of R14's facts: slots changed one by one so that a READY one at offsets 0 with a LIVE map stays
so, own writes added at the tail. -/
theorem waitingParked_of_later {br b c : Bridge} {env : Env} {v : Fin 4} (h : br.WaitingParked b env v)
    (g : Slot → Slot) (hg : ∀ sl, sl.ParkedReady → (g sl).ParkedReady)
    (hslots : (c.views.get v).slots = (b.views.get v).slots.map g) (hready : (c.views.get v).ready = (b.views.get v).ready)
    (hlost : (c.views.get v).counters.lost = (b.views.get v).counters.lost) (hqueue : c.solverQueue = b.solverQueue)
    (hevent : c.events.getLsbD (Event.frame v).bit = b.events.getLsbD (Event.frame v).bit)
    (hlostEvent : c.events.getLsbD (Event.lost v).bit = b.events.getLsbD (Event.lost v).bit)
    (howners : c.owners = b.owners) (hown : ∃ rest, c.ownWrites = b.ownWrites ++ rest) :
    br.WaitingParked c env v where
  queue := hqueue.trans h.queue
  slot := fun e he hlt => by
    obtain ⟨sl, hsl, hst⟩ := h.slot e he hlt
    refine ⟨g sl, ?_, hg sl hst⟩
    rw [hslots, List.getElem?_map, hsl]
    rfl
  ready := fun e he => hready ▸ h.ready e he
  event := fun e he => hevent.trans (h.event e he)
  report := fun e he hf => by
    obtain ⟨o, rest, ho, hkind⟩ := h.report e he hf
    obtain ⟨more, hmore⟩ := hown
    exact ⟨o, rest ++ more, by rw [hmore, ho, List.append_assoc, List.cons_append], hkind⟩
  lost := fun e he hf => by
    obtain ⟨hc, hev⟩ := h.lost e he hf
    exact ⟨hlost.trans hc, hlostEvent.trans hev⟩
  nothing := fun hn => by
    obtain ⟨hr, hev, ho, hc⟩ := h.nothing hn
    exact ⟨hready.trans hr, hevent.trans hev, howners.trans ho, hlost.trans hc⟩

/-! ### Reaching PARKED (R15) -/

/-- The view in which the holds are broken and counted and that is PARKED. -/
def View.reachParked (vw : View) : View :=
  ((vw.liveEntries MapEntry.isHeld).count (fun c =>
    { c with holdBreak := c.holdBreak + BitVec.ofNat 16 (entriesOf vw.slots MapEntry.isHeld) })).park

theorem reachParked_view (br : Bridge) (v : Fin 4) : (br.reachParked v).views.get v = (br.views.get v).reachParked := by
  unfold Bridge.reachParked
  rw [modView_get, if_pos rfl, breakHolds_view, if_pos rfl]
  rfl

theorem breakHolds_bit (br : Bridge) (v : Fin 4) (p : MapEntry → Bool) (also : Bool) (n : Nat) :
    (br.breakHolds v p also).events.getLsbD n = (br.events.getLsbD n ||
      ((decide (0 < entriesOf (br.views.get v).slots p) || also) && decide (n = (Event.hold v).bit))) :=
  raiseIf_bit _ _ _ _

theorem reachParked_bit (br : Bridge) (v : Fin 4) (n : Nat) :
    (br.reachParked v).events.getLsbD n = (br.events.getLsbD n ||
      ((decide (0 < entriesOf (br.views.get v).slots MapEntry.isHeld) || (br.views.get v).whiteout)
        && decide (n = (Event.hold v).bit))) :=
  breakHolds_bit br v _ _ n

/-- Slot by slot: held entries become LIVE, a READY slot's offsets 0. -/
def Slot.park (sl : Slot) : Slot :=
  let sl' := { sl with map := sl.map.map (fun e => if e.isHeld then .live else e) }
  if sl.state = .ready then { sl' with offsets := some ⟨0, 0⟩ } else sl'

theorem reachParked_slots (vw : View) : vw.reachParked.slots = vw.slots.map Slot.park := by
  simp only [View.reachParked, View.park, View.count, View.liveEntries, List.map_map]
  rfl

theorem slotPark_live (sl : Slot) : ∀ e ∈ sl.park.map, e = MapEntry.live := by
  have hm : sl.park.map = sl.map.map (fun e => if e.isHeld then .live else e) := by
    unfold Slot.park
    split <;> rfl
  intro e he
  rw [hm] at he
  obtain ⟨x, _, rfl⟩ := List.mem_map.1 he
  cases x <;> rfl

theorem slotPark_state (sl : Slot) : sl.park.state = sl.state := by
  unfold Slot.park
  split <;> rfl

theorem slotPark_offsets (sl : Slot) (h : sl.state = .ready) : sl.park.offsets = some ⟨0, 0⟩ := by
  unfold Slot.park
  rw [if_pos h]

theorem slotPark_parkedReady (sl : Slot) (h : sl.ParkedReady) : sl.park.ParkedReady :=
  ⟨(slotPark_state sl).trans h.1, slotPark_offsets sl h.1, slotPark_live sl⟩

/-- R15: what reaching PARKED makes of a view that keeps scan state, motion and tiles of `vw`. -/
theorem reachParked_parked (vw u : View) (hscan : u.scan = vw.scan) (hmotion : u.motion = vw.motion)
    (htiles : u.tiles = vw.tiles) : vw.Parked u.reachParked where
  state := rfl
  maps := fun sl hsl => by
    rw [reachParked_slots] at hsl
    obtain ⟨x, _, rfl⟩ := List.mem_map.1 hsl
    exact slotPark_live x
  offsets := fun sl hsl hst => by
    rw [reachParked_slots] at hsl
    obtain ⟨x, _, rfl⟩ := List.mem_map.1 hsl
    exact slotPark_offsets x (slotPark_state x ▸ hst)
  presented := (congrArg Scan.presented hscan :)
  lastLine := (congrArg Scan.lastLine hscan :)
  recorded := congrArg (fun sc => sc.recorded.map (fun _ => (⟨0, 0⟩ : Offsets))) hscan
  whiteout := rfl
  motion := hmotion
  tiles := htiles

theorem frameWork_reachParked (br : Bridge) (v : Fin 4) : br.FrameWork (br.reachParked v) :=
  (frameWork_breakHolds ..).trans (frameWork_modView ..)

theorem reachParked_otherViews (br : Bridge) (v : Fin 4) : br.OtherViews (br.reachParked v) v :=
  ((Bridge.OtherViews.refl br v).breakHolds _ _).modView _

theorem Bridge.OtherEvents.breakHolds {a b : Bridge} {es : List Event} (h : a.OtherEvents b es) {v : Fin 4}
    (p : MapEntry → Bool) (also : Bool) (he : Event.hold v ∈ es) : a.OtherEvents (b.breakHolds v p also) es := by
  intro n hn hne
  have hb : n ≠ (Event.hold v).bit := fun h => hne _ he h.symm
  rw [breakHolds_bit, h n hn hne]
  simp [hb]

theorem Bridge.OtherEvents.reachParked {a b : Bridge} {es : List Event} (h : a.OtherEvents b es) {v : Fin 4}
    (he : Event.hold v ∈ es) : a.OtherEvents (b.reachParked v) es :=
  h.breakHolds _ _ he

/-! ### The command -/

/-- The bridge after PARK has removed the waiting entry and the statistics of the frame being filled. -/
def Bridge.parkStopped (br : Bridge) (env : Env) (v : Fin 4) : Bridge := (br.parkWaiting env v).modView v View.dropAccum

theorem parkStopped_solving (br : Bridge) (env : Env) (v u : Fin 4) :
    (br.parkStopped env v).solving u = br.solving u := by
  unfold Bridge.solving Bridge.parkStopped
  rw [modView_solver, parkWaiting_solver]

theorem takePark_at_once (env : Env) (br : Bridge) (v : Fin 4) (ht : targetView br.nextEntry = some v)
    (hst : (br.views.get v).state = .tracking) (hb : br.solving v = false) :
    takePark env br = ((br.parkStopped env v).reachParked v).completeTaken env .done := by
  have hs := parkStopped_solving br env v v
  unfold Bridge.parkStopped at hs ⊢
  simp only [takePark, ht, if_pos hst, hs, hb, Bool.false_eq_true, if_false]

theorem takePark_waits (env : Env) (br : Bridge) (v : Fin 4) (ht : targetView br.nextEntry = some v)
    (hst : (br.views.get v).state = .tracking) (hb : br.solving v = true) :
    takePark env br =
      ((br.parkStopped env v).modView v (fun vw => { vw with state := .parking })).waitTaken (.park v) := by
  have hs := parkStopped_solving br env v v
  unfold Bridge.parkStopped at hs ⊢
  simp only [takePark, ht, if_pos hst, hs, hb, if_true]

theorem parkStopped_frameWork (env : Env) (br : Bridge) (v : Fin 4) : br.FrameWork (br.parkStopped env v) :=
  (parkWaiting_frameWork env br v).trans (frameWork_modView ..)

theorem parkStopped_otherViews (env : Env) (br : Bridge) (v : Fin 4) : br.OtherViews (br.parkStopped env v) v :=
  (parkWaiting_otherViews env br v).modView _

theorem parkStopped_otherEvents (env : Env) (br : Bridge) (v : Fin 4) :
    br.OtherEvents (br.parkStopped env v) [.frame v, .lost v] := parkWaiting_otherEvents env br v

theorem parkStopped_view (env : Env) (br : Bridge) (v : Fin 4) :
    (br.parkStopped env v).views.get v = ((br.parkWaiting env v).views.get v).dropAccum := by
  simp [Bridge.parkStopped]

/-- A command that goes on from where PARK has stopped the view leaves what `TakeFrame` says. -/
theorem takeFrame_of_frameWork {s : State} {br' : Bridge} (h : s.bridge.FrameWork br')
    (hsolver : br'.solver = s.bridge.solver) : s.TakeFrame { s with bridge := br' } where
  env := rfl
  dram := rfl
  readData := rfl
  pending := rfl
  solver := hsolver
  mask := h.mask
  descriptors := h.descriptors
  requests := h.port.requests
  busWait := h.port.busWait
  accepted := h.port.accepted
  stream := h.port.stream
  assemblies := h.port.assemblies

/-- The completion and the waiting of a command touch the command ring, its own write and CMD alone. -/
theorem takeFrame_of_completeTaken {s : State} {br' : Bridge} (h : s.TakeFrame { s with bridge := br' }) (st : Status)
    (detail : Nat) : s.TakeFrame { s with bridge := br'.completeTaken s.env st detail } :=
  { h with }

theorem sameTimer_of_completeTaken {br b : Bridge} (h : br.SameTimer b) (env : Env) (st : Status) (detail : Nat) :
    br.SameTimer (b.completeTaken env st detail) where
  rota := (completeTaken_rota ..).trans h.rota
  rotb := (completeTaken_rotb ..).trans h.rotb
  glitchA := (completeTaken_glitchA ..).trans h.glitchA
  glitchB := (completeTaken_glitchB ..).trans h.glitchB

theorem sameTimer_of_waitTaken {br b : Bridge} (h : br.SameTimer b) (w : Wait) : br.SameTimer (b.waitTaken w) :=
  ⟨h.rota, h.rotb, h.glitchA, h.glitchB⟩

theorem takeFrame_of_waitTaken {s : State} {br' : Bridge} (h : s.TakeFrame { s with bridge := br' }) (w : Wait) :
    s.TakeFrame { s with bridge := br'.waitTaken w } :=
  { h with }

theorem completeTaken_bit (br : Bridge) (env : Env) (st : Status) (detail n : Nat) :
    (br.completeTaken env st detail).events.getLsbD n = (br.events.getLsbD n || decide (n = Event.cmd.bit)) := by
  rw [completeTaken_events]
  exact raise_bit br .cmd n

theorem completeTaken_ownWrites_append (br : Bridge) (env : Env) (st : Status) (detail : Nat) :
    ∃ rest, (br.completeTaken env st detail).ownWrites = br.ownWrites ++ rest := ⟨_, rfl⟩

/-- R14: what PARK made of the waiting entry, after the view has reached PARKED and the command completed. -/
theorem waitingParked_of_parked {br b : Bridge} {env : Env} {v : Fin 4} (h : br.WaitingParked b env v) (st : Status)
    (detail : Nat) :
    br.WaitingParked (((b.modView v View.dropAccum).reachParked v).completeTaken env st detail) env v := by
  have hview : (((b.modView v View.dropAccum).reachParked v).completeTaken env st detail).views.get v
      = (b.views.get v).dropAccum.reachParked := by
    rw [completeTaken_views, reachParked_view, modView_get, if_pos rfl]
  have hbit (e : Event) (hc : e.bit ≠ Event.cmd.bit) (hh : e.bit ≠ (Event.hold v).bit) :
      (((b.modView v View.dropAccum).reachParked v).completeTaken env st detail).events.getLsbD e.bit
        = b.events.getLsbD e.bit := by
    rw [completeTaken_bit, reachParked_bit]
    simp [hc, hh]
  refine waitingParked_of_later h Slot.park slotPark_parkedReady ?_ ?_ ?_ ?_ ?_ ?_ ?_ ?_
  · rw [hview]
    exact reachParked_slots _
  · rw [hview]
    rfl
  · rw [hview]
    rfl
  · simp
  · exact hbit _ (by simp only [Event.bit]; omega) (by simp only [Event.bit]; omega)
  · exact hbit _ (by simp only [Event.bit]; omega) (by simp only [Event.bit]; omega)
  · simp
  · obtain ⟨rest, hr⟩ := completeTaken_ownWrites_append ((b.modView v View.dropAccum).reachParked v) env st detail
    exact ⟨rest, by rw [hr, reachParked_ownWrites, modView_ownWrites]⟩

/-- R14: the same where the command goes on waiting. -/
theorem waitingParked_of_parking {br b : Bridge} {env : Env} {v : Fin 4} (h : br.WaitingParked b env v) (w : Wait) :
    br.WaitingParked (((b.modView v View.dropAccum).modView v (fun vw => { vw with state := .parking })).waitTaken w)
      env v := by
  have hview : (((b.modView v View.dropAccum).modView v (fun vw => { vw with state := .parking })).waitTaken w).views.get v
      = { (b.views.get v).dropAccum with state := .parking } := by
    simp
  refine waitingParked_of_later h id (fun _ h => h) ?_ ?_ ?_ rfl rfl rfl rfl ⟨[], (List.append_nil _).symm⟩
  · rw [hview, List.map_id]
    rfl
  · rw [hview]
    rfl
  · rw [hview]
    rfl

/-- R14, R15: PARK with no solve of the view in progress completes at once. -/
theorem exec_park_at_once (s : State) (v : Fin 4) (hs : s.Shaped) (hd : takeDueOf .park s.bridge = true)
    (ht : (s.bridge.shadowByte s.bridge.nextIndex 1).toNat = v.val) (hst : (s.bridge.views.get v).state = .tracking)
    (hb : s.bridge.solving v = false) :
    ∃ t, exec .park s = .next t ∧ s.bridge.Completed t.bridge s.env .done 0 ∧ s.TakeFrame t
      ∧ (s.bridge.views.get v).Parked (t.bridge.views.get v) ∧ s.bridge.WaitingParked t.bridge s.env v
      ∧ (t.bridge.views.get v).intake.buffer = none ∧ (t.bridge.views.get v).noBuffer .accum
      ∧ (t.bridge.views.get v).counters.holdBreak = (s.bridge.views.get v).counters.holdBreak
          + BitVec.ofNat 16 (entriesOf (s.bridge.slotsToPark v) MapEntry.isHeld)
      ∧ t.bridge.events.getLsbD (Event.hold v).bit = (s.bridge.events.getLsbD (Event.hold v).bit
          || decide (0 < entriesOf (s.bridge.slotsToPark v) MapEntry.isHeld) || (s.bridge.views.get v).whiteout)
      ∧ s.bridge.OtherEvents t.bridge [.cmd, .hold v, .frame v, .lost v]
      ∧ s.bridge.OtherViews t.bridge v ∧ s.bridge.SameTimer t.bridge
      ∧ t.bridge.outOfRange = s.bridge.outOfRange := by
  have htake : takeNext s.env s.bridge = ((s.bridge.parkStopped s.env v).reachParked v).completeTaken s.env .done 0 := by
    simp only [takeNext, (takeNext_of_dueOf _ _ hd).2]
    exact takePark_at_once _ _ v (targetView_eq_some _ v ht) hst hb
  have hwork := (parkStopped_frameWork s.env s.bridge v).trans (frameWork_reachParked _ v)
  obtain ⟨slots, ready, buffers, n, hview, hheld⟩ := parkWaiting_view s.env s.bridge v
  have hstop := (parkStopped_view s.env s.bridge v).trans (congrArg View.dropAccum hview)
  have hend : (((s.bridge.parkStopped s.env v).reachParked v).completeTaken s.env .done 0).views.get v =
      ((s.bridge.parkStopped s.env v).views.get v).reachParked := by
    rw [completeTaken_views, reachParked_view]
  have hevents := parkStopped_otherEvents s.env s.bridge v
  refine ⟨_, exec_ringRow .park .park s (by simp [ringRows, viewRows]) hd, ?_⟩
  simp only [htake]
  refine ⟨completeTaken_completed s.bridge _ s.env _ _ hwork.commandShadow hwork.nextIndex hs.bridge.commandShadow
      hs.bridge.nextIndex, takeFrame_of_completeTaken (takeFrame_of_frameWork hwork ?_) _ _, ?_,
      waitingParked_of_parked (parkWaiting_waitingParked s.env s.bridge v) _ _, ?_, ?_, ?_, ?_, ?_, ?_, ?_,
      hwork.outOfRange⟩
  · exact (reachParked_solver ..).trans (parkWaiting_solver ..)
  · rw [hend, hstop]
    exact reachParked_parked _ _ rfl rfl rfl
  · rw [hend, hstop]
    rfl
  · rw [hend, parkStopped_view]
    exact dropAccum_noBuffer _
  · rw [hend, hstop, ← hheld]
    rfl
  · have hhold := hevents (Event.hold v).bit (Event_bit_lt _) (by simp [Event.bit])
    have hcmd : (Event.hold v).bit ≠ Event.cmd.bit := by simp only [Event.bit]; omega
    have hslots : ((s.bridge.parkStopped s.env v).views.get v).slots = slots :=
      (congrArg View.slots hstop :)
    have hwhiteout : ((s.bridge.parkStopped s.env v).views.get v).whiteout = (s.bridge.views.get v).whiteout :=
      (congrArg View.whiteout hstop :)
    rw [completeTaken_bit, reachParked_bit, hhold, hslots, hwhiteout, ← hheld]
    simp [hcmd, Bool.or_assoc]
  · refine Bridge.OtherEvents.trans ((hevents.mono ?_).reachParked ?_) ((completeTaken_otherEvents _ _ _ _).mono ?_) <;> simp
  · intro u hu
    rw [completeTaken_views]
    exact ((parkStopped_otherViews s.env s.bridge v).trans (reachParked_otherViews _ v)) u hu
  · exact sameTimer_of_completeTaken hwork.timer _ _ _

/-- R14, R182: PARK with a solve of the view in progress waits for it. -/
theorem exec_park_waits (s : State) (v : Fin 4) (hd : takeDueOf .park s.bridge = true)
    (ht : (s.bridge.shadowByte s.bridge.nextIndex 1).toNat = v.val) (hst : (s.bridge.views.get v).state = .tracking)
    (hb : s.bridge.solving v = true) :
    ∃ t, exec .park s = .next t ∧ s.TakeFrame t
      ∧ (t.bridge.views.get v).state = .parking ∧ s.bridge.WaitingParked t.bridge s.env v
      ∧ t.bridge.inFlight = some ⟨s.bridge.nextIndex, s.bridge.commandEntry s.bridge.nextIndex, .park v⟩
      ∧ t.bridge.nextIndex = s.bridge.nextIndex ∧ t.bridge.commandShadow = s.bridge.commandShadow
      ∧ (t.bridge.views.get v).intake.buffer = none ∧ (t.bridge.views.get v).noBuffer .accum
      ∧ (t.bridge.views.get v).counters.holdBreak = (s.bridge.views.get v).counters.holdBreak
      ∧ s.bridge.OtherEvents t.bridge [.frame v, .lost v]
      ∧ s.bridge.OtherViews t.bridge v ∧ s.bridge.SameTimer t.bridge
      ∧ t.bridge.outOfRange = s.bridge.outOfRange := by
  have htake : takeNext s.env s.bridge = ((s.bridge.parkStopped s.env v).modView v
      (fun vw => { vw with state := .parking })).waitTaken (.park v) := by
    simp only [takeNext, (takeNext_of_dueOf _ _ hd).2]
    exact takePark_waits _ _ v (targetView_eq_some _ v ht) hst hb
  have hwork := (parkStopped_frameWork s.env s.bridge v).trans
    (frameWork_modView _ v (fun vw => { vw with state := .parking }))
  obtain ⟨slots, ready, buffers, n, hview, -⟩ := parkWaiting_view s.env s.bridge v
  have hend : (((s.bridge.parkStopped s.env v).modView v (fun vw => { vw with state := .parking })).waitTaken
      (.park v)).views.get v = { ((s.bridge.parkWaiting s.env v).views.get v).dropAccum with state := .parking } := by
    rw [waitTaken_views, modView_get, if_pos rfl, parkStopped_view]
  have hentry : ((s.bridge.parkStopped s.env v).modView v (fun vw => { vw with state := .parking })).commandEntry
      = s.bridge.commandEntry := by
    funext i
    simp only [Bridge.commandEntry, hwork.commandShadow]
  refine ⟨_, exec_ringRow .park .park s (by simp [ringRows, viewRows]) hd, ?_⟩
  simp only [htake]
  refine ⟨takeFrame_of_waitTaken (takeFrame_of_frameWork hwork (parkWaiting_solver ..)) _, ?_,
      waitingParked_of_parking (parkWaiting_waitingParked s.env s.bridge v) _, ?_, hwork.nextIndex, hwork.commandShadow,
      ?_, ?_, ?_, parkStopped_otherEvents s.env s.bridge v, ?_,
      sameTimer_of_waitTaken hwork.timer _, hwork.outOfRange⟩
  · rw [hend]
  · rw [waitTaken_inFlight, hentry, hwork.nextIndex]
  · rw [hend]
    rfl
  · rw [hend]
    exact dropAccum_noBuffer _
  · rw [hend, hview]
    rfl
  · intro u hu
    rw [waitTaken_views]
    exact (parkStopped_otherViews s.env s.bridge v).modView _ u hu

/-- Settles O37, by the removal of the waiting entry and what reaching PARKED makes of the view it leaves. -/
theorem parkStopsTracking : Obligations.ParkStopsTracking := by
  unfold Obligations.ParkStopsTracking
  intro s v hs hd ht hst
  exact ⟨exec_park_at_once s v hs hd ht hst, exec_park_waits s v hd ht hst⟩

end Sys2Proof.Machine
end

section
/-! PROOF. Accepted writes: a write that lies whole in the control region, and the descriptor shadows. -/

namespace Sys2Proof.Machine

open Laws

/-! ### A write the port takes (R143, R145, R148) -/

/-- The bridge with a write's request place and its one operation in the stream (R144, R148). -/
def Bridge.forwardWrite (br : Bridge) (w : WriteRequest) : Bridge :=
  (br.takePlace false).joinStream br.accepted w.address.toNat (.write w.bytes)

/-- With an open port no take is due for any other reason than what the ring holds: it stays so while the ring does. -/
theorem takeDue_of_open (s : State) (h : s.open = true) (br : Bridge)
    (hshadow : br.commandShadow = s.bridge.commandShadow) (hindex : br.nextIndex = s.bridge.nextIndex)
    (hflight : br.inFlight = s.bridge.inFlight) : takeDue br = false := by
  simp only [State.open, Bool.and_eq_true] at h
  obtain ⟨⟨hquiet, -⟩, haccept⟩ := h
  have hnot := ((urgent_none_iff _ _).1 ((quiet_iff s).1 hquiet)).2.1
  simp only [canAccept, Bool.and_eq_true, decide_eq_true_eq] at haccept
  have hfree : decide (3 ≤ s.bridge.ownFree) = true := decide_eq_true (by omega)
  have hentry : br.nextEntry = s.bridge.nextEntry := by
    simp only [Bridge.nextEntry, Bridge.commandEntry, hshadow, hindex]
  unfold takeDue at hnot ⊢
  rw [hfree, Bool.and_true] at hnot
  rw [hentry, hflight, hnot, Bool.false_and]

/-- A write offered to an open port, and what its acceptance makes of the bridge. -/
theorem exec_write_of_open (s : State) (w : WriteRequest) (hw : (Request.write w).wellFormed = true)
    (hopen : s.open = true) (br : Bridge) (h : acceptWrite s.env s.bridge w = br) :
    exec (.write w) s = .next { s with bridge := br } :=
  h ▸ offerRequest_of_open s (.write w) hw hopen

theorem exec_controlWrite_of_open (s : State) (w : WriteRequest) (hw : (Request.write w).wellFormed = true)
    (hopen : s.open = true) (br : Bridge) (h : acceptWrite s.env s.bridge w = br) :
    exec (.controlWrite w) s = .next { s with bridge := br } :=
  exec_write_of_open s w hw hopen br h

/-! ### Control writes (R170) -/

/-- R170: a write that lies whole in the control region. -/
theorem acceptWrite_control (env : Env) (br : Bridge) (w : WriteRequest) (off : Nat)
    (ha : controlActive env.straps = true) (haddr : w.address.toNat = controlBase env.straps + off)
    (hw : w.bytes ≠ []) (hoff : off + w.bytes.length ≤ 0x2000) :
    acceptWrite env br w =
      takeIfDue env (((br.forwardWrite w).writeControl (controlBase env.straps) (writeCells w)).freePlaces) := by
  have hregion : ∀ n, n < w.bytes.length →
      regionOf env.straps (windowMap env br) (w.address.toNat + n) = .control := by
    intro n hn
    rw [haddr, Nat.add_assoc]
    exact regionOf_control env br (off + n) ha (by omega)
  exact acceptWrite_whole env br w .control hw (by simp) hregion

theorem controlBase_mod4 (s : Straps) : controlBase s % 4 = 0 := by
  unfold controlBase
  omega

theorem four_set_get {α : Type} (f : Four α) (i : Fin 4) : f.set i (f.get i) = f := by
  fin_cases i <;> rfl

theorem four_set_set {α : Type} (f : Four α) (i : Fin 4) (x y : α) : (f.set i x).set i y = f.set i y := by
  fin_cases i <;> rfl

/-! ### Bytes written into a shadow -/

/-- `xs` with the enabled bytes of `bs` from place `first` on, as far as `xs` reaches. -/
def writeEnabled (xs : List Byte) (first : Nat) : List WriteByte → List Byte
  | [] => xs
  | b :: bs => writeEnabled (if b.enable then xs.set first b.data else xs) (first + 1) bs

theorem writeEnabled_length (xs : List Byte) (first : Nat) (bs : List WriteByte) :
    (writeEnabled xs first bs).length = xs.length := by
  induction bs generalizing xs first with
  | nil => rfl
  | cons b bs ih =>
    rw [writeEnabled, ih]
    split <;> simp

/-- Byte `n` of write data where its enable is set (R142). -/
def enabledByte (bs : List WriteByte) (n : Nat) : Option Byte :=
  (bs[n]?).bind (fun b => if b.enable then some b.data else none)

theorem enabled_eq_enabledByte (w : WriteRequest) (n : Nat) : w.enabled n = enabledByte w.bytes n := rfl

theorem enabledByte_eq_none (bs : List WriteByte) (n : Nat) (h : bs.length ≤ n) : enabledByte bs n = none := by
  simp [enabledByte, List.getElem?_eq_none h]

theorem writeEnabled_before (xs : List Byte) (first k : Nat) (bs : List WriteByte) (h : k < first) :
    (writeEnabled xs first bs)[k]? = xs[k]? := by
  induction bs generalizing xs first with
  | nil => rfl
  | cons b bs ih =>
    rw [writeEnabled, ih _ _ (by omega)]
    split
    · rw [List.getElem?_set_ne (by omega)]
    · rfl

/-- A byte of the shadow from `first` on, after the write. -/
theorem writeEnabled_getElem? (xs : List Byte) (first n : Nat) (bs : List WriteByte) :
    (writeEnabled xs first bs)[first + n]? = (xs[first + n]?).map (fun x => (enabledByte bs n).getD x) := by
  induction bs generalizing xs first n with
  | nil => simp [writeEnabled, enabledByte]
  | cons b bs ih =>
    rw [writeEnabled]
    cases n with
    | zero =>
      rw [writeEnabled_before _ _ _ _ (by omega)]
      cases hb : b.enable
      · simp [enabledByte, hb]
      · simp only [if_true, Nat.add_zero, List.getElem?_set_self', enabledByte, List.getElem?_cons_zero,
          Option.bind_some, hb]
        rfl
    | succ n =>
      have hn : first + (n + 1) = first + 1 + n := by omega
      have hkeep : (if b.enable then xs.set first b.data else xs)[first + 1 + n]? = xs[first + 1 + n]? := by
        split
        · rw [List.getElem?_set_ne (by omega)]
        · rfl
      rw [hn, ih, hkeep]
      rfl

/-! ### Descriptor shadows (R1) -/

/-- R1: an enabled byte of a descriptor area; one behind the 96 bytes of the shadow changes nothing. -/
theorem writeControlByte_descriptor (br : Bridge) (v : Fin 4) (k : Nat) (d : Byte) (hk : k < 256)
    (hl : (br.descriptors.get v).length = 96) :
    br.writeControlByte (0x100 + 256 * v.val + k) d =
      { br with descriptors := br.descriptors.set v ((br.descriptors.get v).set k d) } := by
  have hv : v.val < 4 := v.isLt
  have hmod : (0x100 + 256 * v.val + k - 0x100) % 256 = k := by omega
  have hdiv : (⟨(0x100 + 256 * v.val + k - 0x100) / 256, by omega⟩ : Fin 4) = v := Fin.ext (by simp only; omega)
  unfold Bridge.writeControlByte
  rw [if_neg (by omega), if_neg (by omega), dif_pos (by omega)]
  simp only [hmod, hdiv]
  split
  · rfl
  · have hset : (br.descriptors.get v).set k d = br.descriptors.get v := List.set_eq_of_length_le (by omega)
    rw [hset, four_set_get]

/-- R1: a stretch of bytes written into the descriptor area of a view, from place `first` on. -/
theorem writeControl_descriptor (base a : Nat) (v : Fin 4) (bs : List WriteByte) (n : Nat) (br : Bridge) (first : Nat)
    (ha : a + n = base + 0x100 + 256 * v.val + first) (hfit : first + bs.length ≤ 256)
    (hl : (br.descriptors.get v).length = 96) :
    br.writeControl base ((bs.zipIdx n).map (fun p => (a + p.2, p.1))) =
      { br with descriptors := br.descriptors.set v (writeEnabled (br.descriptors.get v) first bs) } := by
  induction bs generalizing n br first with
  | nil => simp [Bridge.writeControl, writeEnabled, four_set_get]
  | cons b bs ih =>
    simp only [List.length_cons] at hfit
    have hoff : a + n - base = 0x100 + 256 * v.val + first := by omega
    have hstep : (if b.enable then br.writeControlByte (a + n - base) b.data else br) =
        { br with descriptors :=
            br.descriptors.set v (if b.enable then (br.descriptors.get v).set first b.data else br.descriptors.get v) } := by
      split
      · rw [hoff]
        exact writeControlByte_descriptor br v first b.data (by omega) hl
      · rw [four_set_get]
    have hrest := ih (n + 1) (if b.enable then br.writeControlByte (a + n - base) b.data else br) (first + 1) (by omega)
      (by omega) (by rw [hstep, Four.get_set_self]; split <;> simp [hl])
    calc br.writeControl base (((b :: bs).zipIdx n).map (fun p => (a + p.2, p.1)))
        = (if b.enable then br.writeControlByte (a + n - base) b.data else br).writeControl base
            ((bs.zipIdx (n + 1)).map (fun p => (a + p.2, p.1))) := rfl
      _ = _ := by
        rw [hrest, hstep]
        simp only [Four.get_set_self, four_set_set, writeEnabled]

/-- The bridge after a write into the descriptor area of view `v`, from place `first` on. -/
def Bridge.descriptorWritten (br : Bridge) (w : WriteRequest) (v : Fin 4) (first : Nat) : Bridge :=
  { br.forwardWrite w with
    descriptors := br.descriptors.set v (writeEnabled (br.descriptors.get v) first w.bytes) }

/-- R1, R170: a write that lies whole in the descriptor area of view `v`. -/
theorem acceptWrite_descriptor (s : State) (w : WriteRequest) (v : Fin 4) (first : Nat) (hopen : s.open = true)
    (ha : controlActive s.env.straps = true) (hl : (s.bridge.descriptors.get v).length = 96)
    (haddr : w.address.toNat = controlBase s.env.straps + 0x100 + 256 * v.val + first) (hw : w.bytes ≠ [])
    (hfit : first + w.bytes.length ≤ 256) :
    acceptWrite s.env s.bridge w = (s.bridge.descriptorWritten w v first).freePlaces := by
  have hv : v.val < 4 := v.isLt
  have hshadow : (s.bridge.forwardWrite w).writeControl (controlBase s.env.straps) (writeCells w) =
      s.bridge.descriptorWritten w v first :=
    writeControl_descriptor (controlBase s.env.straps) w.address.toNat v w.bytes 0 (s.bridge.forwardWrite w) first haddr
      hfit hl
  rw [acceptWrite_control s.env s.bridge w (0x100 + 256 * v.val + first) ha (by omega) hw (by omega), hshadow]
  refine takeIfDue_of_not_due _ _ (takeDue_of_open s hopen _ ?_ ?_ ?_) <;>
    simp [Bridge.descriptorWritten, Bridge.forwardWrite]

theorem descriptorWritten_acceptFrame (s : State) (w : WriteRequest) (v : Fin 4) (first : Nat) :
    s.AcceptFrame { s with bridge := (s.bridge.descriptorWritten w v first).freePlaces } := by
  constructor <;> simp [Bridge.descriptorWritten, Bridge.forwardWrite]

/-- R148: a write into a descriptor area changes no more than that shadow, beside its place and its operation. -/
theorem descriptorWritten_passFrame (s : State) (w : WriteRequest) (v : Fin 4) (first : Nat) :
    s.PassFrame { s with bridge := (s.bridge.descriptorWritten w v first).freePlaces } where
  toAcceptFrame := descriptorWritten_acceptFrame s w v first
  views := by simp [Bridge.descriptorWritten, Bridge.forwardWrite]
  solver := by simp [Bridge.descriptorWritten, Bridge.forwardWrite]
  solverQueue := by simp [Bridge.descriptorWritten, Bridge.forwardWrite]
  ownWrites := by simp [Bridge.descriptorWritten, Bridge.forwardWrite]
  position := by simp [Bridge.descriptorWritten, Bridge.forwardWrite]

/-- The stream after a write, with its one operation (R148). -/
theorem forwardWrite_stream (br : Bridge) (w : WriteRequest) :
    ∃ op, (br.forwardWrite w).stream = br.stream ++ [op] ∧ op.address = w.address.toNat ∧ op.kind = .write w.bytes :=
  ⟨_, rfl, rfl, rfl⟩

theorem descriptorWritten_forwarded (s : State) (w : WriteRequest) (v : Fin 4) (first : Nat) :
    s.Forwarded { s with bridge := (s.bridge.descriptorWritten w v first).freePlaces } w := by
  obtain ⟨op, hstream, hop⟩ := forwardWrite_stream s.bridge w
  refine ⟨⟨op, ?_, hop⟩, ?_, ?_⟩
  · rw [← hstream]
    simp [Bridge.descriptorWritten]
  · simp [Bridge.descriptorWritten, Bridge.forwardWrite]
  · simp [Bridge.descriptorWritten, Bridge.forwardWrite]

theorem descriptorWritten_shadow (br : Bridge) (w : WriteRequest) (v u : Fin 4) (first : Nat) :
    (br.descriptorWritten w v first).freePlaces.descriptors.get u =
      if u = v then writeEnabled (br.descriptors.get v) first w.bytes else br.descriptors.get u := by
  rw [freePlaces_descriptors]
  exact Four.get_set ..

theorem descriptorWritten_shadows (br : Bridge) (w : WriteRequest) (v : Fin 4) (first : Nat) :
    (br.descriptorWritten w v first).freePlaces.events = br.events
      ∧ (br.descriptorWritten w v first).freePlaces.mask = br.mask
      ∧ (br.descriptorWritten w v first).freePlaces.commandShadow = br.commandShadow
      ∧ (br.descriptorWritten w v first).freePlaces.owners = br.owners := by
  simp [Bridge.descriptorWritten, Bridge.forwardWrite]

/-- Settles O17, by the bytes the accepted write leaves in the shadow. -/
theorem descriptorWriteUpdatesTheShadow : Obligations.DescriptorWriteUpdatesTheShadow := by
  unfold Obligations.DescriptorWriteUpdatesTheShadow
  intro s w v off hopen ha hl hoff hmod haddr hlen
  have hwell : (Request.write w).wellFormed = true := by
    have hbase := controlBase_mod4 s.env.straps
    simp [Request.wellFormed, WriteRequest.wellFormed, hlen, haddr]
    omega
  have hne : w.bytes ≠ [] := fun h => by simp [h] at hlen
  have haccept := acceptWrite_descriptor s w v off hopen ha (hl v) haddr hne (by omega)
  have hget := descriptorWritten_shadow s.bridge w v v off
  rw [if_pos rfl] at hget
  refine ⟨_, exec_controlWrite_of_open s w hwell hopen _ haccept, fun u hu => ?_, ?_, ?_, ?_,
    descriptorWritten_forwarded s w v off, descriptorWritten_passFrame s w v off,
    descriptorWritten_shadows s.bridge w v off⟩
  · rw [descriptorWritten_shadow, if_neg hu]
  · rw [hget, writeEnabled_length, hl v]
  · intro k hk hout
    rw [hget]
    by_cases hbefore : k < off
    · exact writeEnabled_before _ _ _ _ hbefore
    · obtain ⟨n, rfl⟩ : ∃ n, k = off + n := ⟨k - off, by omega⟩
      rw [writeEnabled_getElem?, enabledByte_eq_none _ _ (by omega)]
      simp
  · intro n hn hlt
    rw [hget, writeEnabled_getElem?, ← enabled_eq_enabledByte]
    have hx : off + n < (s.bridge.descriptors.get v).length := by rw [hl v]; exact hlt
    rw [List.getElem?_eq_getElem hx]
    cases w.enabled n <;> rfl

end Sys2Proof.Machine
end

section
/-! PROOF. A frame start (section 1.6, R35): the frame that is abandoned, the holds and the solver's entries that end, the
slot that fills. -/

namespace Sys2Proof.Machine

open Laws

/-! ### Changes of one view -/

theorem modView_of_eq (br : Bridge) (v : Fin 4) (f : View → View) (h : f (br.views.get v) = br.views.get v) :
    br.modView v f = br := by
  unfold Bridge.modView
  rw [h, four_set_get]

theorem modView_congr (br : Bridge) (v : Fin 4) (f g : View → View) (h : f (br.views.get v) = g (br.views.get v)) :
    br.modView v f = br.modView v g := by
  unfold Bridge.modView
  rw [h]

/-! ### The frame that is abandoned (R39) -/

/-- The slot of the frame a view follows. -/
def View.followed (vw : View) : Option Nat := if vw.intake.state = .inFrame then vw.intake.slot else none

/-- The slot records with that of the abandoned frame FAULTED. -/
def faultSlot (old : Option Nat) (slots : List Slot) : List Slot :=
  match old with
  | none => slots
  | some j => slots.modify j (fun sl => { sl with state := .faulted })

theorem faultSlot_getElem? (old : Option Nat) (slots : List Slot) (n : Nat) :
    (faultSlot old slots)[n]? =
      (slots[n]?).map (fun sl => { sl with state := if old = some n then .faulted else sl.state }) := by
  cases old with
  | none => simp [faultSlot]
  | some j =>
    simp only [faultSlot, List.getElem?_modify, Option.some.injEq]
    by_cases h : j = n
    · simp [h]
    · simp [h]

/-- The abandonment changes no map. -/
theorem faultSlot_entriesOf (old : Option Nat) (slots : List Slot) (p : MapEntry → Bool) :
    entriesOf (faultSlot old slots) p = entriesOf slots p := by
  cases old with
  | none => rfl
  | some j =>
    have hmap : (slots.modify j (fun sl => { sl with state := .faulted })).map (·.map) = slots.map (·.map) := by
      apply List.ext_getElem?
      intro n
      simp only [List.getElem?_map, List.getElem?_modify]
      cases slots[n]? with
      | none => rfl
      | some sl => by_cases h : j = n <;> simp [h]
    have hsum (xs : List Slot) : entriesOf xs p = ((xs.map (·.map)).map (fun m => m.countP p)).sum := by
      simp [entriesOf, Function.comp_def]
    rw [hsum, hsum]
    exact congrArg (fun ms : List (List MapEntry) => (ms.map (fun m => m.countP p)).sum) hmap

/-- The report of a fault (R38, R39). -/
def faultReport (env : Env) (vw : View) (v : Fin 4) (j : Nat) (reason : Reason) : Report :=
  { kind := .fault, frame := { view := v, slot := j, sequence := vw.slotSequence j }, reason := reason,
    time := env.timestamp }

/-- The view whose frame in slot `j` has ended with a fault (R38). -/
def View.faulted (vw : View) (j : Nat) : View :=
  ({ (vw.freeRole .accum).modSlot j (fun sl => { sl with state := .faulted }) with
      intake := vw.intake.endFrame .hunt }).count (fun c => { c with fault := c.fault + 1 })

theorem intakeFault_of_some (env : Env) (br : Bridge) (v : Fin 4) (reason : Reason) (j : Nat)
    (h : (br.views.get v).intake.slot = some j) :
    br.intakeFault env v reason =
      ((br.modView v (fun vw => vw.faulted j)).report env (faultReport env (br.views.get v) v j reason)).raise
        (.fault v) := by
  simp only [Bridge.intakeFault, h]
  rfl

theorem intakeFault_of_none (env : Env) (br : Bridge) (v : Fin 4) (reason : Reason)
    (h : (br.views.get v).intake.slot = none) :
    br.intakeFault env v reason = br.modView v (fun vw => { vw with intake := vw.intake.endFrame .hunt }) := by
  simp only [Bridge.intakeFault, h]

/-- The end of the frame that is followed, where one is (R39). -/
def Bridge.abandonFollowed (br : Bridge) (env : Env) (v : Fin 4) : Bridge :=
  if (br.views.get v).intake.state = .inFrame then br.intakeFault env v .abandoned else br

theorem abandonFollowed_of_some (env : Env) (br : Bridge) (v : Fin 4) (j : Nat)
    (h : (br.views.get v).followed = some j) :
    br.abandonFollowed env v =
      ((br.modView v (fun vw => vw.faulted j)).report env (faultReport env (br.views.get v) v j .abandoned)).raise
        (.fault v) := by
  unfold View.followed at h
  split at h
  case isTrue hin => exact (if_pos hin).trans (intakeFault_of_some env br v .abandoned j h)
  case isFalse => cases h

/-- With no frame followed at most the intake record changes. -/
theorem abandonFollowed_of_none (env : Env) (br : Bridge) (v : Fin 4) (h : (br.views.get v).followed = none) :
    ∃ n, br.abandonFollowed env v = br.modView v (fun vw => { vw with intake := n }) := by
  unfold View.followed at h
  split at h
  case isTrue hin =>
    exact ⟨_, ((if_pos hin).trans (intakeFault_of_none env br v .abandoned h)).trans (modView_congr br v _ _ rfl)⟩
  case isFalse hin => exact ⟨(br.views.get v).intake, (if_neg hin).trans (modView_of_eq br v _ rfl).symm⟩

/-- What the end of the followed frame leaves (R39): `old` is its slot, `lost` and `intake` are LOST and the intake record
afterwards. -/
structure Bridge.Abandoned (b c : Bridge) (v : Fin 4) (old : Option Nat) (lost : Count16) (intake : Intake) : Prop where
  view : c.views.get v =
    { b.views.get v with
      slots := faultSlot old (b.views.get v).slots
      buffers := (if old = none then b.views.get v else (b.views.get v).freeRole .accum).buffers
      intake := intake
      counters :=
        { (b.views.get v).counters with
          fault := (b.views.get v).counters.fault + (if old = none then 0 else 1), lost := lost } }
  quiet : old = none → lost = (b.views.get v).counters.lost ∧ c.ownWrites = b.ownWrites ∧ c.reportFree = b.reportFree
  report : ∀ j, old = some j → b.reportFree = true → ∃ o, c.ownWrites = b.ownWrites ++ [o]
    ∧ o.bytes.take 6 = [2, BitVec.ofNat 8 v.val, BitVec.ofNat 8 j, 3]
        ++ bytesOf 2 ((b.views.get v).slotSequence j).toNat
  faultBit : c.events.getLsbD (Event.fault v).bit = (b.events.getLsbD (Event.fault v).bit || decide (old ≠ none))
  solver : c.solver = b.solver
  queue : c.solverQueue = b.solverQueue
  work : b.FrameWork c
  others : b.OtherViews c v
  events : b.OtherEvents c [.fault v, .lost v]

theorem abandonFollowed_abandoned (env : Env) (b : Bridge) (v : Fin 4) :
    ∃ lost intake, b.Abandoned (b.abandonFollowed env v) v (b.views.get v).followed lost intake := by
  cases h : (b.views.get v).followed with
  | none =>
    obtain ⟨n, hn⟩ := abandonFollowed_of_none env b v h
    rw [hn]
    refine ⟨(b.views.get v).counters.lost, n, ?_, fun _ => ⟨rfl, rfl, rfl⟩, fun j hj => (nomatch hj), by simp, rfl, rfl,
      frameWork_modView .., (Bridge.OtherViews.refl b v).modView _, Bridge.OtherEvents.refl b _⟩
    simp [faultSlot]
  | some j =>
    rw [abandonFollowed_of_some env b v j h]
    obtain ⟨n, hn⟩ := report_view_lost env (b.modView v (fun vw => vw.faulted j))
      (faultReport env (b.views.get v) v j .abandoned) v
    refine ⟨n, (b.views.get v).intake.endFrame .hunt, ?_, fun h => (nomatch h), ?_, ?_, ?_, ?_, ?_, ?_, ?_⟩
    · rw [raise_views, hn, modView_get, if_pos rfl]
      rfl
    · intro j' hj hf
      cases hj
      refine ⟨_, report_ownWrites_of_free env _ _ hf, ?_⟩
      rw [report_bytes_take6]
      rfl
    · rw [raise_bit]
      simp
    · simp
    · simp
    · exact ((frameWork_modView ..).trans (frameWork_report ..)).trans (frameWork_raise ..)
    · exact ((Bridge.OtherViews.refl b v).modView _).report env _ rfl
    · have hreport := (Bridge.OtherEvents.refl b [.fault v, .lost v]).report
        (b := b.modView v (fun vw => vw.faulted j)) env (faultReport env (b.views.get v) v j .abandoned)
        (by simp [faultReport])
      exact hreport.raise (by simp)

/-! ### The solver's entries of the slot (R27) -/

/-- R27: a solve of slot `k` of view `v` becomes reopened. -/
def Solver.reopen (sv : Solver) (v : Fin 4) (k : Nat) : Solver :=
  match sv with
  | .idle => .idle
  | .busy e r n => .busy e (r || decide (e.frame.view = v ∧ e.frame.slot = k)) n

/-- The bridge with the solve of slot `k` of view `v` reopened. -/
def Bridge.reopenSolve (br : Bridge) (v : Fin 4) (k : Nat) : Bridge := { br with solver := br.solver.reopen v k }

theorem reopenSolve_of_idle (br : Bridge) (v : Fin 4) (k : Nat) (h : br.solver = .idle) : br.reopenSolve v k = br := by
  have hs : br.solver.reopen v k = br.solver := by rw [h]; rfl
  unfold Bridge.reopenSolve
  rw [hs]

theorem reopenSolve_of_busy (br : Bridge) (v : Fin 4) (k : Nat) (e : SolveEntry) (r n : Bool)
    (h : br.solver = .busy e r n) :
    br.reopenSolve v k =
      if e.frame.view = v ∧ e.frame.slot = k then { br with solver := .busy e true n }
      else { br with solver := .busy e r n } := by
  have hs : br.solver.reopen v k = .busy e (r || decide (e.frame.view = v ∧ e.frame.slot = k)) n := by rw [h]; rfl
  unfold Bridge.reopenSolve
  rw [hs]
  split <;> rename_i hk <;> simp [hk]

theorem reopenSlot_of_waiting (env : Env) (br : Bridge) (v : Fin 4) (k : Nat) (e : SolveEntry)
    (h : br.waiting v = some e) (hk : e.frame.slot = k) :
    br.reopenSlot env v k = (br.skipWaiting env e .reopened).reopenSolve v k := by
  simp only [Bridge.reopenSlot, h, if_pos hk]
  split
  case h_1 hs => exact (reopenSolve_of_idle _ v k hs).symm
  case h_2 e r n hs => exact (reopenSolve_of_busy _ v k e r n hs).symm

theorem reopenSlot_of_other (env : Env) (br : Bridge) (v : Fin 4) (k : Nat)
    (h : ∀ e, br.waiting v = some e → e.frame.slot ≠ k) : br.reopenSlot env v k = br.reopenSolve v k := by
  cases hw : br.waiting v with
  | none =>
    simp only [Bridge.reopenSlot, hw]
    split
    case h_1 hs => exact (reopenSolve_of_idle _ v k hs).symm
    case h_2 e r n hs => exact (reopenSolve_of_busy _ v k e r n hs).symm
  | some e =>
    simp only [Bridge.reopenSlot, hw, if_neg (h e hw)]
    split
    case h_1 hs => exact (reopenSolve_of_idle _ v k hs).symm
    case h_2 e r n hs => exact (reopenSolve_of_busy _ v k e r n hs).symm

theorem frameWork_reopenSolve (br : Bridge) (v : Fin 4) (k : Nat) : br.FrameWork (br.reopenSolve v k) :=
  ⟨⟨rfl, rfl, rfl, rfl⟩, ⟨rfl, rfl, rfl, rfl, rfl⟩, rfl, rfl, rfl, rfl, rfl, rfl⟩

/-- The report of a waiting entry that is dropped (R27, R41). -/
def skipReport (br : Bridge) (e : SolveEntry) (reason : Reason) : Report :=
  { kind := .skip, frame := e.frame, reason := reason,
    time := ((br.views.get e.frame.view).buffers.get e.buffer).midTime }

/-- The view whose waiting entry `e` has been dropped (R27, R41). -/
def View.skipped (vw : View) (e : SolveEntry) : View :=
  (vw.modBuffer e.buffer (·.withRole .free)).count (fun c => { c with skip := c.skip + 1 })

theorem skipWaiting_eq (env : Env) (br : Bridge) (e : SolveEntry) (reason : Reason) :
    br.skipWaiting env e reason =
      ((br.dropWaiting e.frame.view).modView e.frame.view (fun vw => vw.skipped e)).report env (skipReport br e reason) :=
  rfl

/-- What a frame start in slot `k` leaves of the solver's entries (R27): `skips` is 1 where the waiting entry was the
slot's, `lost` is LOST afterwards. -/
structure Bridge.Reopened (b c : Bridge) (v : Fin 4) (k : Nat) (skips lost : Count16) (buffers : Four ProfileBuffer) :
    Prop where
  view : c.views.get v =
    { b.views.get v with
      buffers := buffers
      counters := { (b.views.get v).counters with skip := (b.views.get v).counters.skip + skips, lost := lost } }
  dropped : ∀ e, b.waiting v = some e → e.frame.slot = k →
    skips = 1 ∧ c.solverQueue = b.solverQueue.filter (fun q => q.frame.view != v)
  report : ∀ e, b.waiting v = some e → e.frame.slot = k → b.reportFree = true → ∃ o, c.ownWrites = b.ownWrites ++ [o]
    ∧ o.bytes.take 6 = [3, BitVec.ofNat 8 v.val, BitVec.ofNat 8 k, 5] ++ bytesOf 2 e.frame.sequence.toNat
  quiet : (∀ e, b.waiting v = some e → e.frame.slot ≠ k) → skips = 0 ∧ lost = (b.views.get v).counters.lost
    ∧ buffers = (b.views.get v).buffers ∧ c.solverQueue = b.solverQueue ∧ c.ownWrites = b.ownWrites
  ownWrites : ∃ rest, c.ownWrites = b.ownWrites ++ rest
  solver : c.solver = b.solver.reopen v k
  work : b.FrameWork c
  others : b.OtherViews c v
  events : b.OtherEvents c [.lost v]

theorem reopenSlot_reopened (env : Env) (b : Bridge) (v : Fin 4) (k : Nat) :
    ∃ skips lost buffers, b.Reopened (b.reopenSlot env v k) v k skips lost buffers := by
  by_cases h : ∃ e, b.waiting v = some e ∧ e.frame.slot = k
  · obtain ⟨e, he, rfl⟩ := h
    obtain rfl := waiting_view he
    obtain ⟨n, hn⟩ := report_view_lost env
      ((b.dropWaiting e.frame.view).modView e.frame.view (fun vw => vw.skipped e)) (skipReport b e .reopened) e.frame.view
    rw [reopenSlot_of_waiting env b _ _ e he rfl, skipWaiting_eq]
    refine ⟨1, n, ((b.views.get e.frame.view).skipped e).buffers, ?_, fun _ _ _ => ⟨rfl, ?_⟩, fun e' he' _ hf => ?_,
      fun h => (h e he rfl).elim, ?_, ?_, ?_, fun u hu => ?_, fun m hm hne => ?_⟩
    · refine hn.trans ?_
      rw [modView_get, if_pos rfl]
      rfl
    · exact (report_solverQueue ..).trans rfl
    · cases he.symm.trans he'
      refine ⟨_, report_ownWrites_of_free env _ _ hf, ?_⟩
      rw [report_bytes_take6]
      rfl
    · exact report_ownWrites_append env _ _
    · exact congrArg (fun sv => Solver.reopen sv e.frame.view e.frame.slot) (report_solver ..)
    · exact (((frameWork_dropWaiting ..).trans (frameWork_modView ..)).trans (frameWork_report ..)).trans
        (frameWork_reopenSolve ..)
    · refine (report_view_of_ne env _ _ u hu).trans ?_
      rw [modView_get, if_neg hu]
      rfl
    · have hreport := (Bridge.OtherEvents.refl b [.lost e.frame.view]).report
        (b := (b.dropWaiting e.frame.view).modView e.frame.view (fun vw => vw.skipped e)) env
        (skipReport b e .reopened) (by simp [skipReport])
      exact hreport m hm hne
  · have hother : ∀ e, b.waiting v = some e → e.frame.slot ≠ k := fun e he hk => h ⟨e, he, hk⟩
    rw [reopenSlot_of_other env b v k hother]
    refine ⟨0, (b.views.get v).counters.lost, (b.views.get v).buffers, ?_, fun e he hk => (hother e he hk).elim,
      fun e he hk => (hother e he hk).elim, fun _ => ⟨rfl, rfl, rfl, rfl, rfl⟩, ⟨[], (List.append_nil _).symm⟩, rfl,
      frameWork_reopenSolve .., fun _ _ => rfl, fun _ _ _ => rfl⟩
    simp [Bridge.reopenSolve]

end Sys2Proof.Machine
end

section
/-! PROOF. The slot that fills: its record, the overtake, the new intake record and the first run. -/

namespace Sys2Proof.Machine

open Laws

/-! ### The view in which a frame starts (R22, R25, R26, R35) -/

/-- A slot record at a frame start (R22, R26). -/
def Slot.started (sl : Slot) (sequence : Count16) (stamp : Nat) : Slot :=
  { sl with state := .filling, sequence := sequence, startStamp := stamp, offsets := none, map := allLive }

/-- R26: an overtake is counted where the slot is the presented one. -/
def View.countOvertake (vw : View) (k : Nat) : View :=
  vw.count (fun c => { c with overtake := c.overtake + (if vw.scan.presented = some k then 1 else 0) })

theorem overtake_eq (br : Bridge) (v : Fin 4) (k : Nat) :
    br.overtake v k = (br.modView v (fun vw => vw.countOvertake k)).raiseIf
      (decide ((br.views.get v).scan.presented = some k)) (.fault v) := by
  unfold Bridge.overtake
  split
  case isTrue h =>
    rw [modView_congr br v (fun vw => vw.countOvertake k)
      (fun vw => vw.count (fun c => { c with overtake := c.overtake + 1 })) (by simp [View.countOvertake, h])]
    simp [Bridge.raiseIf, h]
  case isFalse h =>
    rw [modView_of_eq br v (fun vw => vw.countOvertake k) (by simp [View.countOvertake, View.count, h])]
    simp [Bridge.raiseIf, h]

/-- The buffer a frame start takes (R35). -/
def View.startBuffer (vw : View) : Option (Fin 4) := if vw.state = .tracking then vw.bufferWith .free else none

/-- R35 steps 3 and 4: beside the intake record a frame start changes the buffer it takes. -/
theorem startIntake_eq (vw : View) (v : Fin 4) (k : Nat) :
    ∃ buffers, vw.startIntake v k =
        { vw with
          buffers := buffers
          intake := { state := .inFrame, slot := some k, pointer := 0, buffer := vw.startBuffer, prevLuma := none,
                      midTime := none } }
      ∧ ∀ b, vw.startBuffer = some b → (buffers.get b).role = .accum
          ∧ (buffers.get b).owner = some ⟨v, k, vw.slotSequence k⟩ := by
  cases h : vw.startBuffer with
  | none =>
    refine ⟨vw.buffers, ?_, fun b hb => nomatch hb⟩
    unfold View.startBuffer at h
    simp only [View.startIntake, h]
  | some b =>
    refine ⟨(vw.modBuffer b (fun _ => ProfileBuffer.start vw.geometry ⟨v, k, vw.slotSequence k⟩)).buffers, ?_,
      fun b' hb => ?_⟩
    · unfold View.startBuffer at h
      simp only [View.startIntake, h]
      rfl
    · cases hb
      rw [modBuffer_get, if_pos rfl]
      exact ⟨rfl, rfl⟩

theorem addRun_role (p : ProfileBuffer) (prev : Option Nat) (ls : List Luma) :
    (p.addRun prev ls).role = p.role ∧ (p.addRun prev ls).owner = p.owner := by
  induction ls generalizing p prev with
  | nil => exact ⟨rfl, rfl⟩
  | cons l ls ih => exact ih (p.addLuma prev l) (some l.value)

/-- Whether a run holds the first byte of line H/2 (R48). -/
def View.holdsMiddle (vw : View) (run : List (Nat × Byte)) : Bool :=
  decide (runLow run ≤ vw.geometry.midIndex) && decide (vw.geometry.midIndex ≤ runHigh run)

/-- What an accepted run adds to the buffer of its frame (R44, R48). -/
def View.addToBuffer (vw : View) (now : Stamp) (phase : Option PhasePart) (run : List (Nat × Byte)) (p : ProfileBuffer) :
    ProfileBuffer :=
  let p := p.addRun vw.intake.prevLuma (run.filterMap vw.geometry.luma)
  if vw.holdsMiddle run then { p with snapshot := some { time := now, phase := phase } } else p

/-- The buffers after an accepted run. -/
def View.runBuffers (vw : View) (now : Stamp) (phase : Option PhasePart) (run : List (Nat × Byte)) : Four ProfileBuffer :=
  match vw.intake.buffer with
  | none => vw.buffers
  | some b => (vw.modBuffer b (vw.addToBuffer now phase run)).buffers

/-- R44, R48: an accepted run changes the sums and the snapshot of its frame's buffer, and of the intake record the
pointer, the previous luma and the mid-line time. -/
theorem takeRun_eq (vw : View) (now : Stamp) (phase : Option PhasePart) (run : List (Nat × Byte)) :
    vw.takeRun now phase run =
      { vw with
        buffers := vw.runBuffers now phase run
        intake :=
          { vw.intake with
            pointer := runHigh run + 1
            prevLuma := lastLuma vw.intake.prevLuma (run.filterMap vw.geometry.luma)
            midTime := if vw.holdsMiddle run then some now else vw.intake.midTime } } := by
  obtain ⟨_, _, _, _, _, _, ⟨_, _, _, buffer, _, _⟩, _, _, _, _, _, _, _⟩ := vw
  cases buffer <;> rfl

/-- A run gives no buffer another role or another frame. -/
theorem runBuffers_role (vw : View) (now : Stamp) (phase : Option PhasePart) (run : List (Nat × Byte)) (c : Fin 4) :
    ((vw.runBuffers now phase run).get c).role = (vw.buffers.get c).role
      ∧ ((vw.runBuffers now phase run).get c).owner = (vw.buffers.get c).owner := by
  have hadd (p : ProfileBuffer) : (vw.addToBuffer now phase run p).role = p.role
      ∧ (vw.addToBuffer now phase run p).owner = p.owner := by
    unfold View.addToBuffer
    simp only
    split <;> exact addRun_role p _ _
  unfold View.runBuffers
  split
  · exact ⟨rfl, rfl⟩
  · rw [modBuffer_get]
    split
    · rename_i hc
      exact hc ▸ hadd _
    · exact ⟨rfl, rfl⟩

theorem takeRun_frame (vw : View) (now : Stamp) (phase : Option PhasePart) (run : List (Nat × Byte)) :
    ∃ buffers prev mid, vw.takeRun now phase run =
        { vw with
          buffers := buffers
          intake := { vw.intake with pointer := runHigh run + 1, prevLuma := prev, midTime := mid } }
      ∧ ∀ b, (buffers.get b).role = (vw.buffers.get b).role ∧ (buffers.get b).owner = (vw.buffers.get b).owner :=
  ⟨_, _, _, takeRun_eq vw now phase run, runBuffers_role vw now phase run⟩

/-- What a frame start in slot `k`, accepting its first run, makes of a view whose old holds and entries have ended. -/
def View.begin (vw : View) (v : Fin 4) (k : Nat) (now : Stamp) (phase : Option PhasePart) (run : List (Nat × Byte)) :
    View :=
  ((((vw.dropSource k).startSlot k).countOvertake k).startIntake v k).takeRun now phase run

theorem begin_eq (vw : View) (v : Fin 4) (k : Nat) (now : Stamp) (phase : Option PhasePart) (run : List (Nat × Byte))
    (hk : k < vw.slots.length) :
    ∃ buffers prev mid, vw.begin v k now phase run =
        { vw with
          slots := vw.slots.modify k (fun sl => sl.started vw.nextSequence vw.startCount)
          ready := vw.ready.filter (· != k)
          nextSequence := vw.nextSequence + 1
          startCount := vw.startCount + 1
          tiles := vw.tiles.map (fun t => if t.source = some k then { t with source := none } else t)
          buffers := buffers
          intake := { state := .inFrame, slot := some k, pointer := runHigh run + 1, buffer := vw.startBuffer,
                      prevLuma := prev, midTime := mid }
          counters :=
            { vw.counters with
              overtake := vw.counters.overtake + (if vw.scan.presented = some k then 1 else 0) } }
      ∧ ∀ b, vw.startBuffer = some b → (buffers.get b).role = .accum
          ∧ (buffers.get b).owner = some ⟨v, k, vw.nextSequence⟩ := by
  obtain ⟨bs, hstart, hbs⟩ := startIntake_eq (((vw.dropSource k).startSlot k).countOvertake k) v k
  have hseq : (((vw.dropSource k).startSlot k).countOvertake k).slotSequence k = vw.nextSequence := by
    have hsl : (((vw.dropSource k).startSlot k).countOvertake k).slots[k]? =
        some (vw.slots[k].started vw.nextSequence vw.startCount) := by
      refine (modSlot_getElem? vw k k (fun sl => sl.started vw.nextSequence vw.startCount)).trans ?_
      rw [List.getElem?_eq_getElem hk]
      simp
    unfold View.slotSequence
    rw [hsl]
    rfl
  obtain ⟨cs, prev, mid, htake, hcs⟩ :=
    takeRun_frame ((((vw.dropSource k).startSlot k).countOvertake k).startIntake v k) now phase run
  rw [hstart] at htake hcs
  refine ⟨cs, prev, mid, ?_, fun b hb => ?_⟩
  · unfold View.begin
    rw [hstart, htake]
    rfl
  · obtain ⟨hrole, howner⟩ := hbs b hb
    obtain ⟨hrole', howner'⟩ := hcs b
    exact ⟨hrole'.trans hrole, howner'.trans (hseq ▸ howner)⟩

/-! ### The bridge in which a frame starts -/

/-- A frame start in slot `k` after the old holds and entries have ended, with its first run. -/
def Bridge.beginFrame (br : Bridge) (env : Env) (v : Fin 4) (k : Nat) (run : List (Nat × Byte)) : Bridge :=
  (((br.modView v (fun vw => (vw.dropSource k).startSlot k)).overtake v k).modView v
    (fun vw => vw.startIntake v k)).acceptRun env v k run

theorem startFrame_eq (env : Env) (br : Bridge) (v : Fin 4) (k : Nat) (run : List (Nat × Byte)) :
    br.startFrame env v k run =
      (((br.abandonFollowed env v).breakHolds v (MapEntry.names k) false).reopenSlot env v k).beginFrame env v k run :=
  rfl

/-- A run that does not reach the frame's last byte completes nothing (R40). -/
theorem acceptRun_of_short (env : Env) (br : Bridge) (v : Fin 4) (k : Nat) (run : List (Nat × Byte))
    (h : runHigh run + 1 ≠ (br.views.get v).geometry.frameBytes) :
    br.acceptRun env v k run = br.modView v (fun vw =>
      vw.takeRun env.timestamp (br.phasePart (br.views.get v).geometry.rotation) run) := by
  unfold Bridge.acceptRun
  simp only [modView_get, if_true, takeRun_eq, if_neg h]

theorem raiseIf_modView (br : Bridge) (c : Bool) (e : Event) (v : Fin 4) (f : View → View) :
    (br.raiseIf c e).modView v f = (br.modView v f).raiseIf c e := by
  cases c <;> rfl

/-- The bridge at a frame start, before its first run. -/
theorem beginFrame_started (br : Bridge) (v : Fin 4) (k : Nat) :
    ((br.modView v (fun vw => (vw.dropSource k).startSlot k)).overtake v k).modView v (fun vw => vw.startIntake v k) =
      (br.modView v (fun vw => (((vw.dropSource k).startSlot k).countOvertake k).startIntake v k)).raiseIf
        (decide ((br.views.get v).scan.presented = some k)) (.fault v) := by
  have hscan : ((br.modView v (fun vw => (vw.dropSource k).startSlot k)).views.get v).scan = (br.views.get v).scan := by
    rw [modView_get, if_pos rfl]
    rfl
  rw [overtake_eq, hscan, modView_modView, raiseIf_modView, modView_modView]

/-- A frame start with a first run that does not complete the frame: one change of the view, and FAULT at an overtake. -/
theorem beginFrame_eq (env : Env) (br : Bridge) (v : Fin 4) (k : Nat) (run : List (Nat × Byte))
    (h : runHigh run + 1 ≠ (br.views.get v).geometry.frameBytes) :
    ∃ phase, br.beginFrame env v k run =
      (br.modView v (fun vw => vw.begin v k env.timestamp phase run)).raiseIf
        (decide ((br.views.get v).scan.presented = some k)) (.fault v) := by
  obtain ⟨bs, hstart, -⟩ := startIntake_eq ((((br.views.get v).dropSource k).startSlot k).countOvertake k) v k
  unfold Bridge.beginFrame
  rw [beginFrame_started, acceptRun_of_short]
  · exact ⟨_, (raiseIf_modView ..).trans (congrArg (fun b => Bridge.raiseIf b _ _) (modView_modView ..))⟩
  · rw [raiseIf_views, modView_get, if_pos rfl, hstart]
    exact h

/-! ### The run of a write that begins a frame (R33, R34) -/

/-- The run of a write that carries the first bytes of a frame, all enabled. -/
def startRun (bytes : List WriteByte) : List (Nat × Byte) := bytes.zipIdx.map (fun p => (p.2, p.1.data))

theorem startRun_length (bytes : List WriteByte) : (startRun bytes).length = bytes.length := by
  simp [startRun]

theorem startRun_getElem? (bytes : List WriteByte) (n : Nat) :
    (startRun bytes)[n]? = (bytes[n]?).map (fun b => (n, b.data)) := by
  simp only [startRun, List.getElem?_map, List.getElem?_zipIdx, Option.map_map, Function.comp_def, Nat.zero_add]

theorem runLow_startRun (bytes : List WriteByte) : runLow (startRun bytes) = 0 := by
  unfold runLow
  rw [List.head?_eq_getElem?, startRun_getElem?]
  cases bytes[0]? <;> rfl

theorem runHigh_startRun (bytes : List WriteByte) (h : bytes ≠ []) : runHigh (startRun bytes) + 1 = bytes.length := by
  have hpos := List.length_pos_of_ne_nil h
  unfold runHigh
  rw [List.getLast?_eq_getElem?, startRun_length, startRun_getElem?, List.getElem?_eq_getElem (by omega)]
  simp only [Option.map_some, Option.getD_some]
  omega

theorem isFrameStartRun_startRun (bytes : List WriteByte) (h : bytes ≠ []) : isFrameStartRun (startRun bytes) = true := by
  have hlow := runLow_startRun bytes
  have hhigh := runHigh_startRun bytes h
  have hlen := startRun_length bytes
  simp only [isFrameStartRun, runHasHole, hlow, hhigh, hlen, Nat.sub_zero]
  simp

/-- R33: the enabled bytes from the base of a slot on, within its first line. -/
theorem run_eq_startRun (g : Geometry) (w : WriteRequest) (hen : ∀ b ∈ w.bytes, b.enable = true)
    (hline : w.bytes.length ≤ g.lineBytes) (hpitch : g.lineBytes ≤ g.sp) :
    g.run w.address.toNat (writeCells w) = startRun w.bytes := by
  have hindex (n : Nat) (hn : n < w.bytes.length) : g.payloadIndex w.address.toNat (w.address.toNat + n) = some n := by
    unfold Geometry.payloadIndex
    simp only [Nat.add_sub_cancel_left, Nat.div_eq_of_lt (show n < g.sp by omega),
      Nat.mod_eq_of_lt (show n < g.sp by omega), if_pos (show n < g.lineBytes by omega), Nat.zero_mul, Nat.zero_add]
  have hcell : ∀ p ∈ w.bytes.zipIdx, (if p.1.enable then
      (g.payloadIndex w.address.toNat (w.address.toNat + p.2)).map (fun n => (n, p.1.data)) else none)
      = some (p.2, p.1.data) := by
    intro p hp
    obtain ⟨hlt, hb⟩ := List.mem_zipIdx' hp
    have hmem : p.1 ∈ w.bytes := hb ▸ List.getElem_mem hlt
    rw [if_pos (hen _ hmem), hindex _ hlt]
    rfl
  unfold Geometry.run writeCells startRun
  rw [List.filterMap_map, ← List.filterMap_eq_map]
  exact List.filterMap_congr hcell

/-- R31 to R35: the acceptance of a write that begins a frame in slot `k`. -/
theorem acceptWrite_startFrame (env : Env) (br : Bridge) (w : WriteRequest) (v : Fin 4) (k : Nat) (hw : w.bytes ≠ [])
    (haddr : w.address.toNat = (br.views.get v).slotBase k) (hen : ∀ b ∈ w.bytes, b.enable = true)
    (hline : w.bytes.length ≤ (br.views.get v).geometry.lineBytes)
    (hpitch : (br.views.get v).geometry.lineBytes ≤ (br.views.get v).geometry.sp)
    (hregion : ∀ n, n < w.bytes.length →
      regionOf env.straps (windowMap env br) (w.address.toNat + n) = .slot v k)
    (htag : tagMatches w.tag (br.views.get v).geometry.intakeTag (br.views.get v).geometry.intakeMask = true) :
    acceptWrite env br w = takeIfDue env ((br.forwardWrite w).startFrame env v k (startRun w.bytes)).freePlaces := by
  have hviews : (br.forwardWrite w).views = br.views := rfl
  have hrun : (br.views.get v).geometry.run ((br.views.get v).slotBase k) (writeCells w) = startRun w.bytes :=
    haddr ▸ run_eq_startRun _ w hen hline hpitch
  have hwatch : (br.forwardWrite w).watchPieces env w.tag false [{ region := .slot v k, cells := writeCells w }] =
      (br.forwardWrite w).startFrame env v k (startRun w.bytes) := by
    have hintake : (br.forwardWrite w).isIntakePiece { region := .slot v k, cells := writeCells w } = true := by
      have hne : startRun w.bytes ≠ [] := fun h => hw (List.length_eq_zero_iff.1 (by rw [← startRun_length, h]; rfl))
      simp only [Bridge.isIntakePiece, hviews, hrun]
      cases h : startRun w.bytes with
      | nil => exact (hne h).elim
      | cons _ _ => rfl
    simp only [Bridge.watchPieces, hintake, if_true, Bridge.watchPiece, Bool.not_false, hviews, hrun, Bridge.intakePiece,
      htag, Bridge.followRun, isFrameStartRun_startRun w.bytes hw]
  rw [acceptWrite_whole env br w (.slot v k) hw (by simp) hregion]
  exact congrArg (fun b => takeIfDue env (Bridge.freePlaces b)) hwatch

end Sys2Proof.Machine
end

section
/-! PROOF. The statement about a frame start, assembled from the frame that is abandoned, the holds and entries that end,
and the slot that fills. -/

namespace Sys2Proof.Machine

open Laws

/-- The waiting entry of a view depends on the queue alone. -/
theorem waiting_congr {br br' : Bridge} (h : br'.solverQueue = br.solverQueue) (v : Fin 4) :
    br'.waiting v = br.waiting v := by
  unfold Bridge.waiting
  rw [h]

/-- The holds of slot `k` in a slot record become LIVE (R25). -/
def Slot.unhold (k : Nat) (sl : Slot) : Slot :=
  { sl with map := sl.map.map (fun e => if e.names k then .live else e) }

/-- The slot records at a frame start in slot `k`, after the frame in slot `old` was abandoned. -/
def View.startedSlots (vw : View) (k : Nat) (old : Option Nat) : List Slot :=
  ((faultSlot old vw.slots).map (Slot.unhold k)).modify k (fun sl => sl.started vw.nextSequence vw.startCount)

theorem startedSlots_self (vw : View) (k : Nat) (old : Option Nat) (hk : k < vw.slots.length) :
    ∃ sl, (vw.startedSlots k old)[k]? = some sl ∧ sl.state = .filling ∧ sl.sequence = vw.nextSequence
      ∧ sl.startStamp = vw.startCount ∧ sl.offsets = none ∧ (∀ e ∈ sl.map, e = MapEntry.live)
      ∧ sl.base = vw.slotBase k := by
  refine ⟨(Slot.unhold k { vw.slots[k] with state := if old = some k then .faulted else vw.slots[k].state }).started
    vw.nextSequence vw.startCount, ?_, rfl, rfl, rfl, rfl, fun e he => List.eq_of_mem_replicate he, ?_⟩
  · unfold View.startedSlots
    rw [List.getElem?_modify, List.getElem?_map, faultSlot_getElem?, List.getElem?_eq_getElem hk]
    simp
  · unfold View.slotBase
    rw [List.getElem?_eq_getElem hk]
    rfl

theorem startedSlots_other (vw : View) (k : Nat) (old : Option Nat) (j : Nat) (x : Slot) (hj : j ≠ k)
    (hx : vw.slots[j]? = some x) :
    ∃ y, (vw.startedSlots k old)[j]? = some y ∧ y.state = (if old = some j then .faulted else x.state)
      ∧ y.map = x.map.map (fun e => if e = .held k then .live else e)
      ∧ y.base = x.base ∧ y.sequence = x.sequence ∧ y.startStamp = x.startStamp ∧ y.offsets = x.offsets := by
  have hne : ¬ k = j := fun h => hj h.symm
  refine ⟨Slot.unhold k { x with state := if old = some j then .faulted else x.state }, ?_, rfl, ?_, rfl, rfl, rfl, rfl⟩
  · unfold View.startedSlots
    rw [List.getElem?_modify, List.getElem?_map, faultSlot_getElem?, hx]
    simp [hne]
  · simp [Slot.unhold, MapEntry.names]

theorem breakHolds_reportFree (br : Bridge) (v : Fin 4) (p : MapEntry → Bool) (also : Bool) :
    (br.breakHolds v p also).reportFree = br.reportFree := by
  unfold Bridge.reportFree
  rw [breakHolds_owners, breakHolds_position]

/-- The bridge in which what slot `k` and its view had before has ended: the frame that was followed, the holds, the
solver's entries. -/
def Bridge.endForStart (br : Bridge) (env : Env) (v : Fin 4) (k : Nat) : Bridge :=
  ((br.abandonFollowed env v).breakHolds v (MapEntry.names k) false).reopenSlot env v k

/-- What has ended before a frame starts in slot `k` (R25, R27, R39). -/
structure Bridge.EndedForStart (b c : Bridge) (v : Fin 4) (k : Nat) (skips lost : Count16) (buffers : Four ProfileBuffer)
    (intake : Intake) : Prop where
  view : c.views.get v =
    { b.views.get v with
      slots := (faultSlot (b.views.get v).followed (b.views.get v).slots).map (Slot.unhold k)
      buffers := buffers
      intake := intake
      counters :=
        { (b.views.get v).counters with
          fault := (b.views.get v).counters.fault + (if (b.views.get v).followed = none then 0 else 1)
          skip := (b.views.get v).counters.skip + skips
          lost := lost
          holdBreak := (b.views.get v).counters.holdBreak
            + BitVec.ofNat 16 (entriesOf (b.views.get v).slots (MapEntry.names k)) } }
  kept : (∀ e, b.waiting v = some e → e.frame.slot ≠ k) →
    buffers = (if (b.views.get v).followed = none then b.views.get v else (b.views.get v).freeRole .accum).buffers
  skipped : ∀ e, b.waiting v = some e → e.frame.slot = k →
    c.solverQueue = b.solverQueue.filter (fun q => q.frame.view != v) ∧ skips = 1
  unskipped : (∀ e, b.waiting v = some e → e.frame.slot ≠ k) → c.solverQueue = b.solverQueue ∧ skips = 0
  solver : c.solver = b.solver.reopen v k
  faultReport : ∀ j, (b.views.get v).followed = some j → b.reportFree = true →
    ∃ o rest, c.ownWrites = b.ownWrites ++ o :: rest
      ∧ o.bytes.take 6 = [2, BitVec.ofNat 8 v.val, BitVec.ofNat 8 j, 3]
          ++ bytesOf 2 ((b.views.get v).slotSequence j).toNat
  skipReport : ∀ e, (b.views.get v).followed = none → b.waiting v = some e → e.frame.slot = k → b.reportFree = true →
    ∃ o, c.ownWrites = b.ownWrites ++ [o]
      ∧ o.bytes.take 6 = [3, BitVec.ofNat 8 v.val, BitVec.ofNat 8 k, 5] ++ bytesOf 2 e.frame.sequence.toNat
  noReport : (b.views.get v).followed = none → (∀ e, b.waiting v = some e → e.frame.slot ≠ k) →
    c.ownWrites = b.ownWrites ∧ lost = (b.views.get v).counters.lost
  holdBit : c.events.getLsbD (Event.hold v).bit =
    (b.events.getLsbD (Event.hold v).bit || decide (0 < entriesOf (b.views.get v).slots (MapEntry.names k)))
  faultBit : c.events.getLsbD (Event.fault v).bit =
    (b.events.getLsbD (Event.fault v).bit || decide ((b.views.get v).followed ≠ none))
  work : b.FrameWork c
  others : b.OtherViews c v
  events : b.OtherEvents c [.hold v, .fault v, .lost v]

theorem hold_bit_ne_fault (v : Fin 4) : (Event.hold v).bit ≠ (Event.fault v).bit := by
  simp only [Event.bit]
  omega

theorem endForStart_ended (env : Env) (b : Bridge) (v : Fin 4) (k : Nat) :
    ∃ skips lost buffers intake, b.EndedForStart (b.endForStart env v k) v k skips lost buffers intake := by
  obtain ⟨lost₁, intake, hA⟩ := abandonFollowed_abandoned env b v
  obtain ⟨skips, lost, buffers, hR⟩ :=
    reopenSlot_reopened env ((b.abandonFollowed env v).breakHolds v (MapEntry.names k) false) v k
  have hheld : entriesOf ((b.abandonFollowed env v).views.get v).slots (MapEntry.names k)
      = entriesOf (b.views.get v).slots (MapEntry.names k) := by
    rw [hA.view]
    exact faultSlot_entriesOf ..
  have hbreak : ((b.abandonFollowed env v).breakHolds v (MapEntry.names k) false).views.get v =
      (((b.abandonFollowed env v).views.get v).liveEntries (MapEntry.names k)).count (fun c =>
        { c with holdBreak := c.holdBreak + BitVec.ofNat 16 (entriesOf (b.views.get v).slots (MapEntry.names k)) }) := by
    rw [breakHolds_view, if_pos rfl, ← hheld]
    rfl
  rw [hA.view] at hbreak
  have hqueue := (breakHolds_solverQueue (b.abandonFollowed env v) v (MapEntry.names k) false).trans hA.queue
  have hwaiting := waiting_congr hqueue v
  have hfree := breakHolds_reportFree (b.abandonFollowed env v) v (MapEntry.names k) false
  have hown := breakHolds_ownWrites (b.abandonFollowed env v) v (MapEntry.names k) false
  refine ⟨skips, lost, buffers, intake, ?_, fun hw => ?_, fun e he hk => ?_, fun hw => ?_, ?_, fun j hj hf => ?_,
    fun e hold he hk hf => ?_, fun hold hw => ?_, ?_, ?_, ?_, ?_, ?_⟩
  · rw [Bridge.endForStart, hR.view, hbreak]
    rfl
  · rw [(hR.quiet (hwaiting ▸ hw)).2.2.1, hbreak]
    rfl
  · obtain ⟨hskips, hq⟩ := hR.dropped e (hwaiting.trans he) hk
    exact ⟨hqueue ▸ hq, hskips⟩
  · obtain ⟨hskips, -, -, hq, -⟩ := hR.quiet (hwaiting ▸ hw)
    exact ⟨hq.trans hqueue, hskips⟩
  · refine hR.solver.trans ?_
    rw [breakHolds_solver, hA.solver]
  · obtain ⟨o, ho, hbytes⟩ := hA.report j hj hf
    obtain ⟨rest, hrest⟩ := hR.ownWrites
    refine ⟨o, rest, ?_, hbytes⟩
    rw [Bridge.endForStart, hrest, hown, ho]
    simp
  · obtain ⟨-, hown₁, hfree₁⟩ := hA.quiet hold
    obtain ⟨o, ho, hbytes⟩ := hR.report e (hwaiting.trans he) hk (hfree.trans (hfree₁.trans hf))
    exact ⟨o, by rw [Bridge.endForStart, ho, hown, hown₁], hbytes⟩
  · obtain ⟨hlost₁, hown₁, -⟩ := hA.quiet hold
    obtain ⟨-, hlost, -, -, hown₂⟩ := hR.quiet (hwaiting ▸ hw)
    refine ⟨hown₂.trans (hown.trans hown₁), hlost.trans ?_⟩
    rw [hbreak]
    exact hlost₁
  · rw [Bridge.endForStart, hR.events _ (Event_bit_lt _) (by simp [Event.bit]), breakHolds_bit, hheld,
      hA.events _ (Event_bit_lt _) (by simp [Event.bit])]
    simp
  · rw [Bridge.endForStart, hR.events _ (Event_bit_lt _) (by simp [Event.bit]), breakHolds_bit, hA.faultBit]
    simp [(hold_bit_ne_fault v).symm]
  · exact (hA.work.trans (frameWork_breakHolds ..)).trans hR.work
  · exact (hA.others.breakHolds _ _).trans hR.others
  · exact ((hA.events.mono (by simp)).breakHolds _ _ (by simp)).trans (hR.events.mono (by simp))

/-- What a frame start makes of the view in which all else has ended: the buffer is the one that `startBuffer` finds. -/
theorem begin_of_ended {b c : Bridge} {v : Fin 4} {k : Nat} {skips lost : Count16} {buffers : Four ProfileBuffer}
    {intake : Intake} (hE : b.EndedForStart c v k skips lost buffers intake) (hk : k < (b.views.get v).slots.length)
    (now : Stamp) (phase : Option PhasePart) (run : List (Nat × Byte)) :
    ∃ bs prev mid, (c.views.get v).begin v k now phase run =
        { b.views.get v with
          slots := (b.views.get v).startedSlots k (b.views.get v).followed
          ready := (b.views.get v).ready.filter (· != k)
          nextSequence := (b.views.get v).nextSequence + 1
          startCount := (b.views.get v).startCount + 1
          tiles := (b.views.get v).tiles.map (fun t => if t.source = some k then { t with source := none } else t)
          buffers := bs
          intake := { state := .inFrame, slot := some k, pointer := runHigh run + 1,
                      buffer := (c.views.get v).startBuffer, prevLuma := prev, midTime := mid }
          counters :=
            { (b.views.get v).counters with
              fault := (b.views.get v).counters.fault + (if (b.views.get v).followed = none then 0 else 1)
              skip := (b.views.get v).counters.skip + skips
              overtake := (b.views.get v).counters.overtake + (if (b.views.get v).scan.presented = some k then 1 else 0)
              lost := lost
              holdBreak := (b.views.get v).counters.holdBreak
                + BitVec.ofNat 16 (entriesOf (b.views.get v).slots (MapEntry.names k)) } }
      ∧ ∀ x, (c.views.get v).startBuffer = some x → (bs.get x).role = .accum
          ∧ (bs.get x).owner = some ⟨v, k, (b.views.get v).nextSequence⟩ := by
  have hlen : k < (c.views.get v).slots.length := by
    rw [hE.view]
    cases h : (b.views.get v).followed <;> simpa [faultSlot] using hk
  obtain ⟨bs, prev, mid, hview, htaken⟩ := begin_eq (c.views.get v) v k now phase run hlen
  refine ⟨bs, prev, mid, ?_, ?_⟩
  · rw [hview, hE.view]
    rfl
  · rwa [hE.view] at htaken ⊢

/-- The buffer a frame start finds: none unless the view is TRACKING, else the lowest that is FREE after the frame that was
followed has lost its own (R35). -/
theorem startBuffer_of_ended {b c : Bridge} {v : Fin 4} {k : Nat} {skips lost : Count16} {buffers : Four ProfileBuffer}
    {intake : Intake} (hE : b.EndedForStart c v k skips lost buffers intake) :
    ((b.views.get v).state ≠ .tracking → (c.views.get v).startBuffer = none)
      ∧ ((b.views.get v).state = .tracking → (∀ e, b.waiting v = some e → e.frame.slot ≠ k) →
          (c.views.get v).startBuffer = (if (b.views.get v).followed = none then b.views.get v
            else (b.views.get v).freeRole .accum).bufferWith .free) := by
  have hstate : (c.views.get v).state = (b.views.get v).state := (congrArg View.state hE.view :)
  refine ⟨fun hst => if_neg (hstate ▸ hst), fun hst hw => (if_pos (hstate.trans hst)).trans ?_⟩
  rw [hE.view, hE.kept hw]
  rfl

/-! ### The write -/

/-- R31 to R35: a write that begins a frame in slot `k`, offered to an open port. -/
theorem exec_write_startFrame (s : State) (w : WriteRequest) (v : Fin 4) (k : Nat) (hopen : s.open = true)
    (hw : w.wellFormed = true) (haddr : w.address.toNat = (s.bridge.views.get v).slotBase k)
    (hen : ∀ b ∈ w.bytes, b.enable = true) (hline : w.bytes.length ≤ (s.bridge.views.get v).geometry.lineBytes)
    (hpitch : (s.bridge.views.get v).geometry.lineBytes ≤ (s.bridge.views.get v).geometry.sp)
    (hframe : w.bytes.length < (s.bridge.views.get v).geometry.frameBytes)
    (hregion : ∀ n, n < w.bytes.length →
      regionOf s.env.straps (windowMap s.env s.bridge) (w.address.toNat + n) = .slot v k)
    (htag : tagMatches w.tag (s.bridge.views.get v).geometry.intakeTag (s.bridge.views.get v).geometry.intakeMask = true) :
    ∃ skips lost buffers intake c phase,
      (s.bridge.forwardWrite w).EndedForStart c v k skips lost buffers intake
      ∧ exec (.write w) s = .next { s with bridge :=
          ((c.modView v (fun vw => vw.begin v k s.env.timestamp phase (startRun w.bytes))).raiseIf
            (decide ((c.views.get v).scan.presented = some k)) (.fault v)).freePlaces } := by
  have hne : w.bytes ≠ [] := by
    intro h
    simp [WriteRequest.wellFormed, h] at hw
  obtain ⟨skips, lost, buffers, intake, hE⟩ := endForStart_ended s.env (s.bridge.forwardWrite w) v k
  have hgeometry : (((s.bridge.forwardWrite w).endForStart s.env v k).views.get v).geometry
      = (s.bridge.views.get v).geometry := (congrArg View.geometry hE.view :)
  have hshort : runHigh (startRun w.bytes) + 1
      ≠ (((s.bridge.forwardWrite w).endForStart s.env v k).views.get v).geometry.frameBytes := by
    rw [runHigh_startRun _ hne, hgeometry]
    omega
  obtain ⟨phase, hbegin⟩ := beginFrame_eq s.env _ v k (startRun w.bytes) hshort
  refine ⟨skips, lost, buffers, intake, _, phase, hE, exec_write_of_open s w hw hopen _ ?_⟩
  rw [acceptWrite_startFrame s.env s.bridge w v k hne haddr hen hline hpitch hregion htag, startFrame_eq,
    ← Bridge.endForStart, hbegin]
  refine takeIfDue_of_not_due _ _ (takeDue_of_open s hopen _ ?_ ?_ ?_)
  · simp only [freePlaces_commandShadow, raiseIf_commandShadow, modView_commandShadow, hE.work.commandShadow]
    rfl
  · simp only [freePlaces_nextIndex, raiseIf_nextIndex, modView_nextIndex, hE.work.nextIndex]
    rfl
  · simp only [freePlaces_inFlight, raiseIf_inFlight, modView_inFlight, hE.work.inFlight]
    rfl

/-- The bridge of a frame start: `c` with view `v` begun, FAULT raised at an overtake, and places freed. -/
def Bridge.begun (c : Bridge) (v : Fin 4) (f : View → View) (overtaken : Bool) : Bridge :=
  ((c.modView v f).raiseIf overtaken (.fault v)).freePlaces

theorem begun_view (c : Bridge) (v u : Fin 4) (f : View → View) (overtaken : Bool) :
    (c.begun v f overtaken).views.get u = if u = v then f (c.views.get v) else c.views.get u := by
  unfold Bridge.begun
  rw [freePlaces_views, raiseIf_views, modView_get]

theorem begun_bit (c : Bridge) (v : Fin 4) (f : View → View) (overtaken : Bool) (n : Nat) :
    (c.begun v f overtaken).events.getLsbD n =
      (c.events.getLsbD n || (overtaken && decide (n = (Event.fault v).bit))) := by
  unfold Bridge.begun
  rw [freePlaces_events, raiseIf_bit, modView_events]

/-- A frame start leaves, beside views and events, what `c` holds; places of the request queue may be freed. -/
theorem begun_rest (c : Bridge) (v : Fin 4) (f : View → View) (overtaken : Bool) :
    c.SameTimer (c.begun v f overtaken) ∧ (c.begun v f overtaken).solver = c.solver
      ∧ (c.begun v f overtaken).solverQueue = c.solverQueue ∧ (c.begun v f overtaken).ownWrites = c.ownWrites
      ∧ (c.begun v f overtaken).mask = c.mask ∧ (c.begun v f overtaken).descriptors = c.descriptors
      ∧ (c.begun v f overtaken).commandShadow = c.commandShadow ∧ (c.begun v f overtaken).nextIndex = c.nextIndex
      ∧ (c.begun v f overtaken).inFlight = c.inFlight ∧ (c.begun v f overtaken).outOfRange = c.outOfRange
      ∧ (c.begun v f overtaken).busWait = c.busWait ∧ (c.begun v f overtaken).stream = c.stream
      ∧ (c.begun v f overtaken).assemblies = c.assemblies := by
  refine ⟨⟨?_, ?_, ?_, ?_⟩, ?_⟩ <;> simp [Bridge.begun]

/-- The frame of an accepted write that begins a frame, and its operation (R148). -/
theorem begun_frame (s : State) (w : WriteRequest) (c : Bridge) (v : Fin 4) (f : View → View) (overtaken : Bool)
    (hwork : (s.bridge.forwardWrite w).FrameWork c) :
    s.Forwarded { s with bridge := c.begun v f overtaken } w
      ∧ s.AcceptFrame { s with bridge := c.begun v f overtaken } := by
  obtain ⟨htimer, -, -, -, -, -, -, hindex, hflight, hout, hbus, hstream, hassemblies⟩ := begun_rest c v f overtaken
  obtain ⟨op, hop, haddr, hkind⟩ := forwardWrite_stream s.bridge w
  refine ⟨⟨⟨op, ?_, haddr, hkind⟩, hassemblies.trans hwork.port.assemblies, hout.trans hwork.outOfRange⟩, ?_⟩
  · exact (hstream.trans hwork.port.stream).trans hop
  · exact
      { env := rfl, dram := rfl, readData := rfl, pending := rfl
        rota := htimer.rota.trans hwork.timer.rota, rotb := htimer.rotb.trans hwork.timer.rotb
        glitchA := htimer.glitchA.trans hwork.timer.glitchA, glitchB := htimer.glitchB.trans hwork.timer.glitchB
        inFlight := hflight.trans hwork.inFlight, nextIndex := hindex.trans hwork.nextIndex
        busWait := hbus.trans hwork.port.busWait }

/-- Settles O19: what the slot and its view had before ends (`endForStart_ended`), then the slot fills
(`begin_of_ended`). -/
theorem frameStartFillsTheSlot : Obligations.FrameStartFillsTheSlot := by
  unfold Obligations.FrameStartFillsTheSlot
  intro s w v k hopen hw vw held old hk haddr hen hline hpitch hframe hregion htag
  have hne : w.bytes ≠ [] := fun h => by simp [WriteRequest.wellFormed, h] at hw
  obtain ⟨skips, lost, buffers, intake, c, phase, hE, hexec⟩ :=
    exec_write_startFrame s w v k hopen hw haddr hen hline hpitch hframe hregion htag
  obtain ⟨bs, prev, mid, hview, htaken⟩ := begin_of_ended hE hk s.env.timestamp phase (startRun w.bytes)
  obtain ⟨huntaken, hlowest⟩ := startBuffer_of_ended hE
  obtain ⟨sl, hsl, hslot⟩ := startedSlots_self vw k old hk
  have hpresented : (c.views.get v).scan.presented = vw.scan.presented :=
    congrArg (fun u => u.scan.presented) hE.view
  obtain ⟨hforward, haccept⟩ := begun_frame s w c v (fun vw => vw.begin v k s.env.timestamp phase (startRun w.bytes))
    (decide ((c.views.get v).scan.presented = some k)) hE.work
  obtain ⟨-, hsolver, hqueue, hown, hmask, hdescriptors, hshadow, -⟩ :=
    begun_rest c v (fun vw => vw.begin v k s.env.timestamp phase (startRun w.bytes))
      (decide ((c.views.get v).scan.presented = some k))
  obtain ⟨hst, hseq, hstamp, hoff, hlive, hbase⟩ := hslot
  refine ⟨_, sl, _, hexec, (begun_view ..).trans ((if_pos rfl).trans hview), hsl, hst, hseq, hstamp, hoff, hlive, hbase,
    startedSlots_other vw k old, rfl, rfl, rfl, rfl, rfl, rfl, rfl, rfl, rfl, rfl, rfl, rfl, runHigh_startRun _ hne,
    huntaken, htaken, hlowest, rfl, rfl, rfl, rfl, rfl, ?_, ?_, ?_, fun e he hk => ?_, fun hw => ?_, fun hidle => ?_,
    fun e r n hbusy => ?_, fun j hj hf => ?_, fun e hold he hk hf => ?_, fun hold hw => ?_, ?_, ?_, ?_, hforward, haccept,
    fun u hu => ?_⟩
  · refine (begun_bit ..).trans ?_
    rw [hE.holdBit, decide_eq_false (hold_bit_ne_fault v), Bool.and_false, Bool.or_false]
    rfl
  · refine (begun_bit ..).trans ?_
    rw [hE.faultBit, hpresented, decide_eq_true (Eq.refl (Event.fault v).bit), Bool.and_true, Bool.or_assoc,
      ← Bool.decide_or]
    rfl
  · intro n hn hother
    have hfault : n ≠ (Event.fault v).bit := fun h => hother (.fault v) (by simp) h.symm
    refine (begun_bit ..).trans ?_
    rw [hE.events n hn hother, decide_eq_false hfault, Bool.and_false, Bool.or_false]
    rfl
  · obtain ⟨hq, hskips⟩ := hE.skipped e he hk
    exact ⟨hqueue.trans hq, congrArg (vw.counters.skip + ·) hskips⟩
  · obtain ⟨hq, hskips⟩ := hE.unskipped hw
    exact ⟨hqueue.trans hq, (congrArg (vw.counters.skip + ·) hskips).trans (BitVec.add_zero _)⟩
  · exact (hsolver.trans hE.solver).trans (congrArg (fun sv => Solver.reopen sv v k) hidle)
  · exact (hsolver.trans hE.solver).trans (congrArg (fun sv => Solver.reopen sv v k) hbusy)
  · obtain ⟨o, rest, ho, hbytes⟩ := hE.faultReport j hj hf
    exact ⟨o, rest, hown.trans ho, hbytes⟩
  · obtain ⟨o, ho, hbytes⟩ := hE.skipReport e hold he hk hf
    exact ⟨o, hown.trans ho, hbytes⟩
  · obtain ⟨ho, hlost⟩ := hE.noReport hold hw
    exact ⟨hown.trans ho, hlost⟩
  · exact hmask.trans hE.work.mask
  · exact hdescriptors.trans hE.work.descriptors
  · exact hshadow.trans hE.work.commandShadow
  · exact ((begun_view ..).trans (if_neg hu)).trans (hE.others u hu)

end Sys2Proof.Machine
end

section
/-! PROOF. The end of a frame that is complete (R40 to R42): it joins the solver queue with its buffer, where the waiting
entry of its view is superseded, or becomes READY unsolved. -/

namespace Sys2Proof.Machine

open Laws

/-! ### Slot states (R20) -/

/-- The view with slot `k` in state `st`. -/
def View.setState (vw : View) (k : Nat) (st : SlotState) : View := vw.modSlot k (fun sl => { sl with state := st })

theorem setState_slotIs (vw : View) (k : Nat) (st : SlotState) (h : k < vw.slots.length) :
    (vw.setState k st).slotIs k st := by
  refine ⟨{ vw.slots[k] with state := st }, ?_, rfl⟩
  refine (modSlot_getElem? vw k k _).trans ?_
  rw [List.getElem?_eq_getElem h]
  simp

theorem slotIs_setState_of_ne {vw : View} {k : Nat} {st : SlotState} (h : vw.slotIs k st) (j : Nat) (st' : SlotState)
    (hne : k ≠ j) : (vw.setState j st').slotIs k st := by
  obtain ⟨sl, hsl, hst⟩ := h
  refine ⟨sl, (modSlot_getElem? vw j k _).trans ?_, hst⟩
  rw [hsl]
  simp [hne]

/-! ### The waiting entry that is superseded (R41) -/

/-- R41: the waiting entry of view `v` leaves the queue with a SKIP report, and its slot becomes EMPTY. -/
def Bridge.supersede (br : Bridge) (env : Env) (v : Fin 4) : Bridge :=
  match br.waiting v with
  | none => br
  | some e => (br.skipWaiting env e .superseded).modView v (fun vw => vw.setState e.frame.slot .empty)

theorem supersede_of_none (env : Env) (br : Bridge) (v : Fin 4) (h : br.waiting v = none) : br.supersede env v = br := by
  simp only [Bridge.supersede, h]

theorem supersede_of_some (env : Env) (br : Bridge) (v : Fin 4) (e : SolveEntry) (h : br.waiting v = some e) :
    br.supersede env v =
      (((br.dropWaiting v).modView v (fun vw => vw.skipped e)).report env (skipReport br e .superseded)).modView v
        (fun vw => vw.setState e.frame.slot .empty) := by
  obtain rfl := waiting_view h
  simp only [Bridge.supersede, h, skipWaiting_eq]

/-- A view without a waiting entry has none to drop (R70). -/
theorem filter_of_waiting_none {br : Bridge} {v : Fin 4} (h : br.waiting v = none) :
    br.solverQueue.filter (fun e => e.frame.view != v) = br.solverQueue :=
  List.filter_eq_self.2 fun e he => by simpa using List.find?_eq_none.1 h e he

theorem supersede_solverQueue (env : Env) (br : Bridge) (v : Fin 4) :
    (br.supersede env v).solverQueue = br.solverQueue.filter (fun e => e.frame.view != v) := by
  cases h : br.waiting v with
  | none => rw [supersede_of_none env br v h, filter_of_waiting_none h]
  | some e => rw [supersede_of_some env br v e h, modView_solverQueue, report_solverQueue]; rfl

theorem supersede_otherViews (env : Env) (br : Bridge) (v : Fin 4) : br.OtherViews (br.supersede env v) v := by
  cases h : br.waiting v with
  | none => rw [supersede_of_none env br v h]; exact .refl br v
  | some e =>
    have hdrop : br.OtherViews (br.dropWaiting v) v := fun _ _ => rfl
    rw [supersede_of_some env br v e h]
    exact ((hdrop.modView _).report env _ (waiting_view h)).modView _

theorem supersede_frameWork (env : Env) (br : Bridge) (v : Fin 4) : br.FrameWork (br.supersede env v) := by
  cases h : br.waiting v with
  | none => rw [supersede_of_none env br v h]; exact .refl br
  | some e =>
    rw [supersede_of_some env br v e h]
    exact (((frameWork_dropWaiting ..).trans (frameWork_modView ..)).trans (frameWork_report ..)).trans
      (frameWork_modView ..)

/-- The view whose waiting entry `e` has been superseded; LOST is what its SKIP report leaves. -/
theorem supersede_view (env : Env) (br : Bridge) (v : Fin 4) (e : SolveEntry) (h : br.waiting v = some e) :
    ∃ n, (br.supersede env v).views.get v =
      (((br.views.get v).skipped e).count (fun c => { c with lost := n })).setState e.frame.slot .empty := by
  obtain ⟨n, hn⟩ := report_view_lost env ((br.dropWaiting v).modView v (fun vw => vw.skipped e))
    (skipReport br e .superseded) v
  refine ⟨n, ?_⟩
  rw [supersede_of_some env br v e h, modView_get, if_pos rfl, hn, modView_get, if_pos rfl]
  rfl

/-! ### Joining the solver queue (R41) -/

/-- The bridge in which a completed frame has found its place, before it joins the queue: its slot is SOLVING and no entry
of its view waits. -/
def Bridge.readyToJoin (br : Bridge) (env : Env) (f : FrameId) : Bridge :=
  (br.modView f.view (fun vw => vw.setState f.slot .solving)).supersede env f.view

theorem joinSolver_eq (env : Env) (br : Bridge) (f : FrameId) (b : Fin 4) :
    br.joinSolver env f b =
      { (br.readyToJoin env f).modView f.view (fun vw => vw.modBuffer b (·.withRole .wait)) with
        solverQueue := (br.readyToJoin env f).solverQueue ++ [{ frame := f, buffer := b }] } := rfl

theorem joinSolver_view (env : Env) (br : Bridge) (f : FrameId) (b : Fin 4) :
    (br.joinSolver env f b).views.get f.view =
      ((br.readyToJoin env f).views.get f.view).modBuffer b (·.withRole .wait) :=
  (modView_get (br.readyToJoin env f) f.view f.view (fun vw => vw.modBuffer b (·.withRole .wait))).trans (if_pos rfl)

theorem joinSolver_solverQueue (env : Env) (br : Bridge) (f : FrameId) (b : Fin 4) :
    (br.joinSolver env f b).solverQueue =
      br.solverQueue.filter (fun e => e.frame.view != f.view) ++ [{ frame := f, buffer := b }] :=
  congrArg (· ++ _) (supersede_solverQueue env _ f.view)

/-- R70: the frame that joined is its view's waiting entry. -/
theorem joinSolver_waiting (env : Env) (br : Bridge) (f : FrameId) (b : Fin 4) :
    (br.joinSolver env f b).waiting f.view = some { frame := f, buffer := b } := by
  have hnone : (br.solverQueue.filter (fun e => e.frame.view != f.view)).find? (fun e => e.frame.view == f.view)
      = none := List.find?_eq_none.2 fun e he => by simpa using (List.mem_filter.1 he).2
  unfold Bridge.waiting
  rw [joinSolver_solverQueue, List.find?_append, hnone]
  simp

theorem joinSolver_otherViews (env : Env) (br : Bridge) (f : FrameId) (b : Fin 4) :
    br.OtherViews (br.joinSolver env f b) f.view :=
  (((Bridge.OtherViews.refl br f.view).modView _).trans (supersede_otherViews env _ f.view)).modView
    (fun vw => vw.modBuffer b (·.withRole .wait))

theorem joinSolver_frameWork (env : Env) (br : Bridge) (f : FrameId) (b : Fin 4) :
    br.FrameWork (br.joinSolver env f b) :=
  ((frameWork_modView ..).trans (supersede_frameWork env _ f.view)).trans
    ⟨⟨rfl, rfl, rfl, rfl⟩, ⟨rfl, rfl, rfl, rfl, rfl⟩, rfl, rfl, rfl, rfl, rfl, rfl⟩

theorem readyToJoin_of_none (env : Env) (br : Bridge) (f : FrameId) (h : br.waiting f.view = none) :
    br.readyToJoin env f = br.modView f.view (fun vw => vw.setState f.slot .solving) :=
  supersede_of_none env _ f.view h

theorem readyToJoin_view_of_some (env : Env) (br : Bridge) (f : FrameId) (e : SolveEntry)
    (h : br.waiting f.view = some e) :
    ∃ n, (br.readyToJoin env f).views.get f.view =
      ((((br.views.get f.view).setState f.slot .solving).skipped e).count (fun c => { c with lost := n })).setState
        e.frame.slot .empty := by
  obtain ⟨n, hn⟩ := supersede_view env (br.modView f.view (fun vw => vw.setState f.slot .solving)) f.view e h
  rw [modView_get, if_pos rfl] at hn
  exact ⟨n, hn⟩

/-- The slot of the frame that joined is SOLVING; the superseded entry's slot, another one, does not change that. -/
theorem readyToJoin_solving (env : Env) (br : Bridge) (f : FrameId) (hk : f.slot < (br.views.get f.view).slots.length)
    (hother : ∀ e, br.waiting f.view = some e → e.frame.slot ≠ f.slot) :
    ((br.readyToJoin env f).views.get f.view).slotIs f.slot .solving := by
  have hsolving := setState_slotIs (br.views.get f.view) f.slot .solving hk
  cases h : br.waiting f.view with
  | none =>
    rw [readyToJoin_of_none env br f h, modView_get, if_pos rfl]
    exact hsolving
  | some e =>
    obtain ⟨n, hn⟩ := readyToJoin_view_of_some env br f e h
    rw [hn]
    exact slotIs_setState_of_ne hsolving e.frame.slot .empty (hother e h).symm

/-- R41: what a superseded entry leaves: SKIP counts it, its slot is EMPTY, its buffer FREE unless the frame that joined
has it. -/
theorem joinSolver_superseded (env : Env) (br : Bridge) (f : FrameId) (b : Fin 4) (e : SolveEntry)
    (h : br.waiting f.view = some e) :
    ((br.joinSolver env f b).views.get f.view).counters.skip = (br.views.get f.view).counters.skip + 1
      ∧ (e.frame.slot < (br.views.get f.view).slots.length →
          ((br.joinSolver env f b).views.get f.view).slotIs e.frame.slot .empty)
      ∧ (e.buffer ≠ b → (((br.joinSolver env f b).views.get f.view).buffers.get e.buffer).role = .free) := by
  obtain ⟨n, hn⟩ := readyToJoin_view_of_some env br f e h
  rw [joinSolver_view, hn]
  refine ⟨rfl, fun hlt => ?_, fun hne => ?_⟩
  · exact setState_slotIs (((br.views.get f.view).setState f.slot .solving).skipped e) e.frame.slot .empty
      (by simpa [View.skipped, View.setState, View.count, View.modBuffer] using hlt)
  · have hfree : ((((br.views.get f.view).setState f.slot .solving).skipped e).buffers.get e.buffer).role = .free := by
      unfold View.skipped
      refine (congrArg ProfileBuffer.role (modBuffer_get _ e.buffer e.buffer _)).trans ?_
      rw [if_pos rfl]
      rfl
    rw [modBuffer_get, if_neg hne]
    exact hfree

theorem joinSolver_unsuperseded (env : Env) (br : Bridge) (f : FrameId) (b : Fin 4) (h : br.waiting f.view = none) :
    ((br.joinSolver env f b).views.get f.view).counters.skip = (br.views.get f.view).counters.skip
      ∧ (br.joinSolver env f b).events = br.events := by
  have hready := readyToJoin_of_none env br f h
  refine ⟨?_, ?_⟩
  · rw [joinSolver_view, hready, modView_get, if_pos rfl]
    rfl
  · rw [joinSolver_eq, hready]
    rfl

/-! ### The unsolved completion (R42) -/

/-- The offsets of an unsolved completion (R42): 0 at a view that is not TRACKING. -/
def Motion.unsolvedOffsets (mo : Motion) (parked : Bool) : Offsets := if parked then ⟨0, 0⟩ else mo.offsets

/-- The FRAME report of an unsolved completion in a view. -/
def View.unsolvedReport (vw : View) (f : FrameId) (time : Stamp) (parked : Bool) : Report :=
  Machine.unsolvedReport f time vw.motion (vw.motion.unsolvedOffsets parked) parked

/-- The bridge whose slot has become READY unsolved, before the report. -/
def Bridge.unsolvedReady (br : Bridge) (f : FrameId) (parked : Bool) : Bridge :=
  br.modView f.view (fun vw => vw.readyUnsolved f.slot (vw.motion.unsolvedOffsets parked))

theorem unsolvedCompletion_steps (env : Env) (br : Bridge) (f : FrameId) (time : Stamp) (parked : Bool) :
    br.unsolvedCompletion env f time parked =
      ((br.unsolvedReady f parked).report env ((br.views.get f.view).unsolvedReport f time parked)).raise
        (.frame f.view) := rfl

theorem unsolvedReady_view (br : Bridge) (f : FrameId) (parked : Bool) :
    (br.unsolvedReady f parked).views.get f.view =
      (br.views.get f.view).readyUnsolved f.slot ((br.views.get f.view).motion.unsolvedOffsets parked) :=
  (modView_get ..).trans (if_pos rfl)

theorem unsolvedCompletion_view (env : Env) (br : Bridge) (f : FrameId) (time : Stamp) (parked : Bool) :
    ∃ n, (br.unsolvedCompletion env f time parked).views.get f.view =
      ((br.views.get f.view).readyUnsolved f.slot ((br.views.get f.view).motion.unsolvedOffsets parked)).count
        (fun c => { c with lost := n }) := by
  obtain ⟨n, hn⟩ := report_view_lost env (br.unsolvedReady f parked)
    ((br.views.get f.view).unsolvedReport f time parked) f.view
  exact ⟨n, by rw [unsolvedCompletion_steps, raise_views, hn, unsolvedReady_view]⟩

theorem unsolvedCompletion_otherViews (env : Env) (br : Bridge) (f : FrameId) (time : Stamp) (parked : Bool) :
    br.OtherViews (br.unsolvedCompletion env f time parked) f.view := by
  rw [unsolvedCompletion_steps]
  exact ((Bridge.OtherViews.refl br f.view).modView _).report env _ rfl

theorem unsolvedCompletion_otherEvents (env : Env) (br : Bridge) (f : FrameId) (time : Stamp) (parked : Bool) :
    br.OtherEvents (br.unsolvedCompletion env f time parked) [.frame f.view, .lost f.view] := by
  have hready : br.OtherEvents (br.unsolvedReady f parked) [.frame f.view, .lost f.view] := .refl br _
  rw [unsolvedCompletion_steps]
  exact (hready.report env _ (by simp [View.unsolvedReport, unsolvedReport])).raise (by simp)

theorem unsolvedCompletion_frameWork (env : Env) (br : Bridge) (f : FrameId) (time : Stamp) (parked : Bool) :
    br.FrameWork (br.unsolvedCompletion env f time parked) := by
  rw [unsolvedCompletion_steps]
  exact ((frameWork_modView ..).trans (frameWork_report ..)).trans (frameWork_raise ..)

theorem unsolvedCompletion_event (env : Env) (br : Bridge) (f : FrameId) (time : Stamp) (parked : Bool) :
    (br.unsolvedCompletion env f time parked).events.getLsbD (Event.frame f.view).bit = true := by
  rw [unsolvedCompletion_steps, raise_bit]
  simp

/-- R202: the time of a report. -/
theorem report_bytes_time (r : Report) : (r.bytes.drop 8).take 4 = bytesOf 4 r.time.toNat := by
  simp [Report.bytes, bytesOf]

/-- R202: the steps of a report. -/
theorem report_bytes_steps (r : Report) :
    (r.bytes.drop 12).take 2 = [(r.dy.map signedByte).getD 0x80, (r.dx.map signedByte).getD 0x80] := by
  simp [Report.bytes, bytesOf]

/-- R193, R202: the report of an unsolved completion: its flags are PARKED or UNSOLVED alone, and it has no steps. -/
theorem unsolvedReport_bytes (vw : View) (f : FrameId) (time : Stamp) (parked : Bool) :
    (vw.unsolvedReport f time parked).bytes.take 8 =
        [1, BitVec.ofNat 8 f.view.val, BitVec.ofNat 8 f.slot, 0] ++ bytesOf 2 f.sequence.toNat
          ++ [0, if parked then 4 else 2]
      ∧ ((vw.unsolvedReport f time parked).bytes.drop 8).take 4 = bytesOf 4 time.toNat
      ∧ ((vw.unsolvedReport f time parked).bytes.drop 12).take 2 = [0x80, 0x80] := by
  have hflags : (vw.unsolvedReport f time parked).flags.value = if parked then 1024 else 512 := by
    cases parked <;> rfl
  have hbytes : bytesOf 2 (if parked then 1024 else 512) = [0, if parked then 4 else 2] := by
    cases parked <;> decide
  refine ⟨?_, report_bytes_time _, report_bytes_steps _⟩
  rw [report_bytes_take8, hflags, hbytes]
  rfl

/-- R187: the own write of an unsolved completion whose report finds a free entry. -/
theorem unsolvedCompletion_ownWrites_of_free (env : Env) (br : Bridge) (f : FrameId) (time : Stamp) (parked : Bool)
    (h : br.reportFree = true) :
    ∃ o : OwnWrite, (br.unsolvedCompletion env f time parked).ownWrites = br.ownWrites ++ [o] ∧ o.kind = .report
      ∧ o.address = controlBase env.straps + 0x1000 + 32 * br.position
      ∧ o.bytes = ((br.views.get f.view).unsolvedReport f time parked).bytes := by
  rw [unsolvedCompletion_steps, raise_ownWrites, report_ownWrites_of_free env (br.unsolvedReady f parked) _ h]
  exact ⟨_, rfl, rfl, rfl, rfl⟩

/-- R188: an unsolved completion whose report is lost. -/
theorem unsolvedCompletion_of_held (env : Env) (br : Bridge) (f : FrameId) (time : Stamp) (parked : Bool)
    (h : br.reportFree = false) :
    (br.unsolvedCompletion env f time parked).ownWrites = br.ownWrites
      ∧ ((br.unsolvedCompletion env f time parked).views.get f.view).counters.lost
          = (br.views.get f.view).counters.lost + 1
      ∧ (br.unsolvedCompletion env f time parked).events.getLsbD (Event.lost f.view).bit = true := by
  have hheld : (br.unsolvedReady f parked).reportFree = false := h
  rw [unsolvedCompletion_steps]
  refine ⟨?_, ?_, ?_⟩
  · rw [report_of_held env _ _ hheld]
    rfl
  · rw [raise_views, report_views_get, if_pos ⟨hheld, rfl⟩, unsolvedReady_view]
    rfl
  · rw [raise_bit, report_bit, hheld]
    simp [View.unsolvedReport, unsolvedReport]

theorem rounded_round16 (a : Int) : Rounded a (round16 a) := by
  unfold Rounded round16
  split
  case isTrue h =>
    rw [Int.fdiv_eq_ediv_of_nonneg _ (by decide)]
    omega
  case isFalse h =>
    rw [Int.fdiv_eq_ediv_of_nonneg _ (by decide)]
    omega

/-! ### The completion (R40) -/

/-- The bridge whose view has ended its frame, before the frame goes on (R40). -/
def Bridge.betweenFrames (br : Bridge) (v : Fin 4) : Bridge :=
  br.modView v (fun vw => { vw with intake := vw.intake.endFrame .waitStart })

theorem betweenFrames_view (br : Bridge) (v : Fin 4) :
    (br.betweenFrames v).views.get v =
      { br.views.get v with intake := ⟨.waitStart, none, 0, none, (br.views.get v).intake.prevLuma, none⟩ } :=
  (modView_get ..).trans (if_pos rfl)

theorem betweenFrames_otherViews (br : Bridge) (v : Fin 4) : br.OtherViews (br.betweenFrames v) v :=
  (Bridge.OtherViews.refl br v).modView _

theorem completeFrame_of_buffer (env : Env) (br : Bridge) (v : Fin 4) (k : Nat) (b : Fin 4)
    (h : (br.views.get v).intake.buffer = some b) :
    br.completeFrame env v k =
      (br.betweenFrames v).joinSolver env ⟨v, k, (br.views.get v).slotSequence k⟩ b := by
  simp only [Bridge.completeFrame, h]
  rfl

theorem completeFrame_of_no_buffer (env : Env) (br : Bridge) (v : Fin 4) (k : Nat)
    (h : (br.views.get v).intake.buffer = none) :
    br.completeFrame env v k =
      (br.betweenFrames v).unsolvedCompletion env ⟨v, k, (br.views.get v).slotSequence k⟩
        ((br.views.get v).intake.midTime.getD 0) (decide ((br.views.get v).state ≠ .tracking)) := by
  simp only [Bridge.completeFrame, h]
  rfl

theorem completeFrame_frameWork (env : Env) (br : Bridge) (v : Fin 4) (k : Nat) :
    br.FrameWork (br.completeFrame env v k) := by
  cases h : (br.views.get v).intake.buffer with
  | none =>
    rw [completeFrame_of_no_buffer env br v k h]
    exact (frameWork_modView ..).trans (unsolvedCompletion_frameWork ..)
  | some b =>
    rw [completeFrame_of_buffer env br v k b h]
    exact (frameWork_modView ..).trans (joinSolver_frameWork ..)

theorem completeFrame_otherViews (env : Env) (br : Bridge) (v : Fin 4) (k : Nat) :
    br.OtherViews (br.completeFrame env v k) v := by
  cases h : (br.views.get v).intake.buffer with
  | none =>
    rw [completeFrame_of_no_buffer env br v k h]
    exact (betweenFrames_otherViews br v).trans
      (unsolvedCompletion_otherViews env (br.betweenFrames v) ⟨v, k, (br.views.get v).slotSequence k⟩ _ _)
  | some b =>
    rw [completeFrame_of_buffer env br v k b h]
    exact (betweenFrames_otherViews br v).trans
      (joinSolver_otherViews env (br.betweenFrames v) ⟨v, k, (br.views.get v).slotSequence k⟩ b)

theorem completeFrame_otherEvents (env : Env) (br : Bridge) (v : Fin 4) (k : Nat)
    (h : (br.views.get v).intake.buffer = none) : br.OtherEvents (br.completeFrame env v k) [.frame v, .lost v] := by
  rw [completeFrame_of_no_buffer env br v k h]
  exact unsolvedCompletion_otherEvents env (br.betweenFrames v) ⟨v, k, (br.views.get v).slotSequence k⟩ _ _

/-- R42: the slot of a frame that is complete without a buffer. -/
theorem readyUnsolved_offsets (vw : View) (k : Nat) (hk : k < vw.slots.length) :
    ∃ sl o, (vw.readyUnsolved k (vw.motion.unsolvedOffsets (decide (vw.state ≠ .tracking)))).slots[k]? = some sl
      ∧ sl.state = .ready ∧ sl.offsets = some o ∧ (∀ e ∈ sl.map, e = MapEntry.live)
      ∧ (vw.state = .tracking → Rounded vw.motion.ay o.oy ∧ Rounded vw.motion.ax o.ox)
      ∧ (vw.state ≠ .tracking → o = ⟨0, 0⟩) := by
  obtain ⟨sl, hsl, hready, ho, hlive⟩ :=
    readyUnsolved_slot vw k (vw.motion.unsolvedOffsets (decide (vw.state ≠ .tracking))) hk
  refine ⟨sl, _, hsl, hready, ho, hlive, fun htracking => ?_, fun hparked => ?_⟩
  · rw [htracking]
    exact ⟨rounded_round16 _, rounded_round16 _⟩
  · rw [decide_eq_true hparked]
    rfl

theorem readyUnsolved_slot_of_ne (vw : View) (k j : Nat) (o : Offsets) (hj : j ≠ k) :
    (vw.readyUnsolved k o).slots[j]? = vw.slots[j]? := by
  refine (modSlot_getElem? vw k j _).trans ?_
  cases vw.slots[j]? with
  | none => rfl
  | some sl => simp [hj]

/-- R40, R42: the view whose frame in slot `k` is complete without a buffer, with LOST as its report leaves it. -/
def View.completedUnsolved (vw : View) (k : Nat) (lost : Count16) : View :=
  (({ vw with intake := ⟨.waitStart, none, 0, none, vw.intake.prevLuma, none⟩ } : View).readyUnsolved k
    (vw.motion.unsolvedOffsets (decide (vw.state ≠ .tracking)))).count (fun c => { c with lost := lost })

theorem completeFrame_view_of_no_buffer (env : Env) (br : Bridge) (v : Fin 4) (k : Nat)
    (h : (br.views.get v).intake.buffer = none) :
    ∃ n, (br.completeFrame env v k).views.get v = (br.views.get v).completedUnsolved k n := by
  obtain ⟨n, hn⟩ := unsolvedCompletion_view env (br.betweenFrames v) ⟨v, k, (br.views.get v).slotSequence k⟩
    ((br.views.get v).intake.midTime.getD 0) (decide ((br.views.get v).state ≠ .tracking))
  rw [← completeFrame_of_no_buffer env br v k h, betweenFrames_view] at hn
  exact ⟨n, hn⟩

/-- R42, R187, R202: the FRAME report of a frame that is complete without a buffer, where it finds a free entry. -/
theorem completeFrame_report_of_free (env : Env) (br : Bridge) (v : Fin 4) (k : Nat)
    (h : (br.views.get v).intake.buffer = none) (hfree : br.reportFree = true) :
    ∃ o : OwnWrite, (br.completeFrame env v k).ownWrites = br.ownWrites ++ [o] ∧ o.kind = .report
      ∧ o.address = controlBase env.straps + 0x1000 + 32 * br.position
      ∧ o.bytes.take 8 = [1, BitVec.ofNat 8 v.val, BitVec.ofNat 8 k, 0]
          ++ bytesOf 2 ((br.views.get v).slotSequence k).toNat ++ [0, if (br.views.get v).state = .tracking then 2 else 4]
      ∧ (∀ time, (br.views.get v).intake.midTime = some time → (o.bytes.drop 8).take 4 = bytesOf 4 time.toNat)
      ∧ (o.bytes.drop 12).take 2 = [0x80, 0x80] := by
  obtain ⟨o, ho, hkind, haddress, hbytes⟩ := unsolvedCompletion_ownWrites_of_free env (br.betweenFrames v)
    ⟨v, k, (br.views.get v).slotSequence k⟩ ((br.views.get v).intake.midTime.getD 0)
    (decide ((br.views.get v).state ≠ .tracking)) hfree
  obtain ⟨hfirst, htime, hsteps⟩ := unsolvedReport_bytes ((br.betweenFrames v).views.get v)
    ⟨v, k, (br.views.get v).slotSequence k⟩ ((br.views.get v).intake.midTime.getD 0)
    (decide ((br.views.get v).state ≠ .tracking))
  rw [← completeFrame_of_no_buffer env br v k h] at ho
  refine ⟨o, ho, hkind, haddress, ?_, fun time ht => ?_, ?_⟩
  · rw [hbytes, hfirst]
    by_cases htracking : (br.views.get v).state = .tracking <;> simp [htracking]
  · rw [hbytes, htime, ht]
    rfl
  · rw [hbytes, hsteps]

theorem completeFrame_of_held (env : Env) (br : Bridge) (v : Fin 4) (k : Nat)
    (h : (br.views.get v).intake.buffer = none) (hheld : br.reportFree = false) :
    (br.completeFrame env v k).ownWrites = br.ownWrites
      ∧ ((br.completeFrame env v k).views.get v).counters.lost = (br.views.get v).counters.lost + 1
      ∧ (br.completeFrame env v k).events.getLsbD (Event.lost v).bit = true := by
  obtain ⟨hown, hlost, hevent⟩ := unsolvedCompletion_of_held env (br.betweenFrames v)
    ⟨v, k, (br.views.get v).slotSequence k⟩ ((br.views.get v).intake.midTime.getD 0)
    (decide ((br.views.get v).state ≠ .tracking)) hheld
  rw [← completeFrame_of_no_buffer env br v k h] at hown hlost hevent
  rw [betweenFrames_view] at hlost
  exact ⟨hown, hlost, hevent⟩

/-- Settles O21: a frame with a buffer joins the queue (`joinSolver_view`, `joinSolver_superseded`), one without completes
unsolved (`completeFrame_view_of_no_buffer`, `completeFrame_report_of_free`). -/
theorem completionJoinsTheSolverQueue : Obligations.CompletionJoinsTheSolverQueue := by
  unfold Obligations.CompletionJoinsTheSolverQueue
  refine ⟨?_, ?_, ?_⟩
  · intro env br f b vw br' vt hk hother
    have hview : vt = ((br.readyToJoin env f).views.get f.view).modBuffer b (·.withRole .wait) :=
      joinSolver_view env br f b
    refine ⟨?_, ?_, joinSolver_solverQueue env br f b, joinSolver_waiting env br f b, joinSolver_unsuperseded env br f b,
      joinSolver_superseded env br f b, joinSolver_otherViews env br f b⟩
    · rw [hview]
      exact readyToJoin_solving env br f hk hother
    · rw [hview, modBuffer_get, if_pos rfl]
      rfl
  · intro env br v k b vw hb
    exact ⟨br.betweenFrames v, rfl, betweenFrames_otherViews br v, betweenFrames_view br v,
      completeFrame_of_buffer env br v k b hb⟩
  · intro env br v k vw br' vt hb hk
    obtain ⟨n, hview⟩ := completeFrame_view_of_no_buffer env br v k hb
    have hview : vt = vw.completedUnsolved k n := hview
    have hsteps := completeFrame_of_no_buffer env br v k hb
    refine ⟨?_, fun j hj => ?_, ?_, ?_, ?_, ?_, ?_, ?_, ?_, completeFrame_report_of_free env br v k hb,
      completeFrame_of_held env br v k hb, ?_, ?_, ?_, ?_⟩
    · rw [hview]
      exact readyUnsolved_offsets vw k hk
    · rw [hview]
      exact readyUnsolved_slot_of_ne _ k j _ hj
    · rw [hview]
      exact insertReady_mem _ _
    · exact (congrArg (fun b : Bridge => b.events.getLsbD (Event.frame v).bit) hsteps).trans
        (unsolvedCompletion_event ..)
    iterate 5 exact hview ▸ rfl
    · exact completeFrame_otherEvents env br v k hb
    · exact completeFrame_otherViews env br v k
    · exact (congrArg Bridge.solver hsteps).trans (unsolvedCompletion_solver ..)
    · exact (congrArg Bridge.solverQueue hsteps).trans (unsolvedCompletion_solverQueue ..)

end Sys2Proof.Machine
end

section
/-! PROOF. The statistics of an accepted run (R44 to R48): what its bytes add to the buffer, to the intake record and to
the snapshot. -/

namespace Sys2Proof.Machine

open Laws

/-! ### The luma bytes of a run (R44) -/

theorem filterMap_luma (g : Geometry) (run : List (Nat × Byte)) : run.filterMap g.luma = g.lumaOf run := by
  induction run with
  | nil => rfl
  | cons q run ih =>
    unfold Geometry.lumaOf at ih ⊢
    by_cases h : q.1 % g.lineBytes % g.bpp = 0 <;> simp [Geometry.luma, h, ih]

/-! ### Sums (R45 to R47) -/

theorem lumaSum_cons (p : Luma → Bool) (l : Luma) (ls : List Luma) :
    lumaSum p (l :: ls) = lumaSum p [l] + lumaSum p ls := by
  cases h : p l <;> simp [lumaSum, h]

/-- The steps of a run are that from the previous luma to its first, and those of the rest behind it. -/
theorem stepSum_cons (p : Luma → Bool) (prev : Option Nat) (l : Luma) (ls : List Luma) :
    stepSum p prev (l :: ls) = stepSum p prev [l] + stepSum p (some l.value) ls := by
  simp [stepSum]

theorem lumaSum_singleton (n m : Nat) (l : Luma) (p : Luma → Bool) (hp : p l = (n == m)) :
    lumaSum p [l] = if n = m then l.value else 0 := by
  by_cases h : n = m <;> simp [lumaSum, hp, h]

theorem lumaStep_eq_natAbs (a b : Nat) : lumaStep a b = ((b : Int) - (a : Int)).natAbs := by
  unfold lumaStep
  split <;> omega

/-- R47: the step that one luma byte adds. -/
theorem stepSum_singleton (p : Luma → Bool) (prev : Option Nat) (l : Luma) :
    stepSum p prev [l] =
      if p l then (if l.x % 64 = 0 then 0 else (prev.map (fun q => lumaStep q l.value)).getD 0) else 0 := by
  cases prev with
  | none => simp [stepSum]
  | some q => by_cases hx : l.x % 64 = 0 <;> cases h : p l <;> simp [stepSum, hx, h, lumaStep_eq_natAbs]

/-- A sum that one luma byte adds to. -/
theorem getElem?_modify_add (xs : List Nat) (i n x : Nat) :
    (xs.modify i (· + x))[n]? = (xs[n]?).map (· + if i = n then x else 0) := by
  rw [List.getElem?_modify]
  by_cases h : i = n <;> simp [h]

theorem addLuma_runAdded (p : ProfileBuffer) (prev : Option Nat) (l : Luma) : p.RunAdded (p.addLuma prev l) prev [l] where
  role := rfl
  owner := rfl
  rows := fun y => by rw [lumaSum_singleton l.y y l _ rfl]; exact getElem?_modify_add ..
  columns := fun c => by rw [lumaSum_singleton (l.x / 2) c l _ rfl]; exact getElem?_modify_add ..
  tileS := fun n => by
    rw [lumaSum_singleton (20 * (l.y / 32) + l.x / 64) n l _ rfl]
    exact getElem?_modify_add ..
  tileG := fun n => by
    rw [stepSum_singleton]
    simp only [beq_iff_eq]
    exact getElem?_modify_add ..

theorem map_add_map_add (x : Option Nat) (a b : Nat) : (x.map (· + a)).map (· + b) = x.map (· + (a + b)) := by
  cases x <;> simp [Nat.add_assoc]

/-- One luma byte added, then the rest with that byte as the previous luma. -/
theorem ProfileBuffer.RunAdded.cons {p q r : ProfileBuffer} {prev : Option Nat} {l : Luma} {ls : List Luma}
    (h : p.RunAdded q prev [l]) (g : q.RunAdded r (some l.value) ls) : p.RunAdded r prev (l :: ls) where
  role := g.role.trans h.role
  owner := g.owner.trans h.owner
  rows := fun y => by rw [g.rows, h.rows, map_add_map_add, ← lumaSum_cons]
  columns := fun c => by rw [g.columns, h.columns, map_add_map_add, ← lumaSum_cons]
  tileS := fun n => by rw [g.tileS, h.tileS, map_add_map_add, ← lumaSum_cons]
  tileG := fun n => by rw [g.tileG, h.tileG, map_add_map_add, ← stepSum_cons]

theorem addRun_runAdded (p : ProfileBuffer) (prev : Option Nat) (ls : List Luma) :
    p.RunAdded (p.addRun prev ls) prev ls := by
  induction ls generalizing p prev with
  | nil => constructor <;> simp [ProfileBuffer.addRun, lumaSum, stepSum]
  | cons l ls ih => exact (addLuma_runAdded p prev l).cons (ih (p.addLuma prev l) (some l.value))

theorem addRun_snapshot (p : ProfileBuffer) (prev : Option Nat) (ls : List Luma) :
    (p.addRun prev ls).snapshot = p.snapshot := by
  induction ls generalizing p prev with
  | nil => rfl
  | cons l ls ih => exact ih (p.addLuma prev l) (some l.value)

/-! ### The buffer of the frame (R44, R48) -/

theorem addToBuffer_runAdded (vw : View) (now : Stamp) (phase : Option PhasePart) (run : List (Nat × Byte))
    (p : ProfileBuffer) :
    p.RunAdded (vw.addToBuffer now phase run p) vw.intake.prevLuma (vw.geometry.lumaOf run) := by
  obtain ⟨hrole, howner, hrows, hcolumns, hS, hG⟩ := addRun_runAdded p vw.intake.prevLuma (vw.geometry.lumaOf run)
  unfold View.addToBuffer
  rw [filterMap_luma]
  dsimp only
  split <;> exact ⟨hrole, howner, hrows, hcolumns, hS, hG⟩

theorem addToBuffer_snapshot (vw : View) (now : Stamp) (phase : Option PhasePart) (run : List (Nat × Byte))
    (p : ProfileBuffer) :
    (vw.addToBuffer now phase run p).snapshot =
      if vw.holdsMiddle run then some { time := now, phase := phase } else p.snapshot := by
  unfold View.addToBuffer
  split
  · rfl
  · exact addRun_snapshot ..

theorem runBuffers_self (vw : View) (now : Stamp) (phase : Option PhasePart) (run : List (Nat × Byte)) (b : Fin 4)
    (h : vw.intake.buffer = some b) :
    (vw.runBuffers now phase run).get b = vw.addToBuffer now phase run (vw.buffers.get b) := by
  simp only [View.runBuffers, h, modBuffer_get, if_true]

theorem runBuffers_of_ne (vw : View) (now : Stamp) (phase : Option PhasePart) (run : List (Nat × Byte)) (b : Fin 4)
    (h : vw.intake.buffer ≠ some b) : (vw.runBuffers now phase run).get b = vw.buffers.get b := by
  unfold View.runBuffers
  split
  case h_1 => rfl
  case h_2 c hc =>
    have hne : b ≠ c := fun hbc => h (hbc ▸ hc)
    rw [modBuffer_get, if_neg hne]

/-- R48, R66: the phase part that the model takes. -/
theorem phasePart_phaseTaken (br : Bridge) (selector : Option RotId) :
    br.PhaseTaken selector (br.phasePart selector) := by
  refine ⟨?_, ?_⟩
  · rintro i t o rfl hlocked hperiod horigin
    simp [Bridge.phasePart, hlocked, hperiod, horigin]
  · rintro (rfl | ⟨i, rfl, hlocked⟩)
    · rfl
    · simp [Bridge.phasePart, hlocked]

/-! ### A run without a hole at the pointer (R33, R36) -/

/-- A run without a hole whose first byte has index `p`. -/
def RunFrom (p : Nat) (run : List (Nat × Byte)) : Prop := run ≠ [] ∧ run.map (·.1) = List.range' p run.length

theorem RunFrom.runLow {p : Nat} {run : List (Nat × Byte)} (h : RunFrom p run) : runLow run = p := by
  obtain ⟨hne, hrun⟩ := h
  have hpos := List.length_pos_of_ne_nil hne
  unfold Machine.runLow
  rw [← List.head?_map, hrun, List.head?_range', if_neg (by omega)]
  rfl

theorem RunFrom.runHigh {p : Nat} {run : List (Nat × Byte)} (h : RunFrom p run) :
    runHigh run + 1 = p + run.length := by
  obtain ⟨hne, hrun⟩ := h
  have hpos := List.length_pos_of_ne_nil hne
  unfold Machine.runHigh
  rw [← List.getLast?_map, hrun, List.getLast?_range', if_neg (by omega)]
  simp only [Option.getD_some]
  omega

theorem RunFrom.noHole {p : Nat} {run : List (Nat × Byte)} (h : RunFrom p run) : runHasHole run = false := by
  have hlow := h.runLow
  have hhigh := h.runHigh
  unfold runHasHole
  exact decide_eq_false (by omega)

theorem RunFrom.holdsMiddle_iff {p : Nat} {run : List (Nat × Byte)} (h : RunFrom p run) (vw : View) :
    vw.holdsMiddle run = true ↔ vw.geometry.midIndex ∈ run.map (·.1) := by
  have hlow := h.runLow
  have hhigh := h.runHigh
  obtain ⟨-, hrun⟩ := h
  rw [hrun, List.mem_range'_1]
  simp only [View.holdsMiddle, Bool.and_eq_true, decide_eq_true_eq]
  omega

/-! ### The bridge with the run accepted (R44 to R48) -/

/-- The bridge whose view `v` has taken a run, before its frame completes (R44, R48). -/
def Bridge.takeRun (br : Bridge) (env : Env) (v : Fin 4) (run : List (Nat × Byte)) : Bridge :=
  br.modView v (fun vw => vw.takeRun env.timestamp (br.phasePart (br.views.get v).geometry.rotation) run)

theorem takeRun_view (env : Env) (br : Bridge) (v : Fin 4) (run : List (Nat × Byte)) :
    (br.takeRun env v run).views.get v =
      { br.views.get v with
        buffers := (br.views.get v).runBuffers env.timestamp (br.phasePart (br.views.get v).geometry.rotation) run
        intake :=
          { (br.views.get v).intake with
            pointer := runHigh run + 1
            prevLuma := lastLuma (br.views.get v).intake.prevLuma ((br.views.get v).geometry.lumaOf run)
            midTime :=
              if (br.views.get v).holdsMiddle run then some env.timestamp else (br.views.get v).intake.midTime } } :=
  (modView_get ..).trans ((if_pos rfl).trans ((takeRun_eq ..).trans (by rw [filterMap_luma])))

/-- R36, R40: a run is accepted: the frame completes exactly when the pointer has reached its last byte. -/
theorem acceptRun_eq (env : Env) (br : Bridge) (v : Fin 4) (k : Nat) (run : List (Nat × Byte)) :
    br.acceptRun env v k run =
      if runHigh run + 1 = (br.views.get v).geometry.frameBytes then (br.takeRun env v run).completeFrame env v k
      else br.takeRun env v run := by
  have hpointer : ((br.takeRun env v run).views.get v).intake.pointer = runHigh run + 1 := by rw [takeRun_view]
  have hgeometry : ((br.takeRun env v run).views.get v).geometry = (br.views.get v).geometry := by rw [takeRun_view]
  rw [← hpointer, ← hgeometry]
  rfl

theorem takeRun_runTaken (env : Env) (br : Bridge) (v : Fin 4) (run : List (Nat × Byte))
    (h : RunFrom (br.views.get v).intake.pointer run) : br.RunTaken (br.takeRun env v run) env.timestamp v run := by
  have hview := takeRun_view env br v run
  have hmiddle := h.holdsMiddle_iff (br.views.get v)
  have hbuffers := congrArg View.buffers hview
  refine
    { pointer := ?_, prevLuma := ?_, middle := fun hm => ?_, noMiddle := fun hm => ?_, sums := fun b hb => ?_,
      snapshot := fun b hb hm => ⟨_, ?_, phasePart_phaseTaken br _⟩, noSnapshot := fun b hb hm => ?_,
      otherBuffers := fun b hb => ?_, intake := ?_, view := ?_, others := (Bridge.OtherViews.refl br v).modView _,
      bridge := rfl }
  · rw [hview]
    exact h.runHigh
  · rw [hview]
    rfl
  · rw [hview]
    exact if_pos (hmiddle.2 hm)
  · rw [hview]
    exact if_neg (fun hh => hm (hmiddle.1 hh))
  · rw [hbuffers, runBuffers_self _ _ _ _ b hb]
    exact addToBuffer_runAdded ..
  · rw [hbuffers, runBuffers_self _ _ _ _ b hb, addToBuffer_snapshot]
    exact if_pos (hmiddle.2 hm)
  · rw [hbuffers, runBuffers_self _ _ _ _ b hb, addToBuffer_snapshot]
    exact if_neg (fun hh => hm (hmiddle.1 hh))
  · rw [hbuffers]
    exact runBuffers_of_ne _ _ _ _ b hb
  · rw [hview]
    exact ⟨rfl, rfl, rfl⟩
  · rw [hview]

end Sys2Proof.Machine
end

section
/-! PROOF. A run of the current slot against the pointer (R36 to R38), and the write that brings it. -/

namespace Sys2Proof.Machine

open Laws

/-! ### The judgement (R36) -/

/-- The reason of the fault of a run that is not accepted (R36). -/
def View.faultReason (vw : View) (run : List (Nat × Byte)) : Reason :=
  if runLow run < vw.intake.pointer then .regression else .gap

/-- R202: the code of that reason. -/
theorem faultReason_code (vw : View) (run : List (Nat × Byte)) :
    BitVec.ofNat 8 (vw.faultReason run).code = if runLow run < vw.intake.pointer then 2 else 1 := by
  unfold View.faultReason
  split <;> rfl

theorem judgeRun_of_fault (env : Env) (br : Bridge) (v : Fin 4) (k : Nat) (run : List (Nat × Byte))
    (h : runLow run ≠ (br.views.get v).intake.pointer ∨ runHasHole run = true) :
    br.judgeRun env v k run = br.intakeFault env v ((br.views.get v).faultReason run) := by
  unfold Bridge.judgeRun View.faultReason
  dsimp only
  split
  case isTrue => rfl
  case isFalse hlow =>
    split
    case isTrue => rfl
    case isFalse hhigh =>
      have hhole : runHasHole run = true := h.resolve_left fun hne => hne (by omega)
      rw [if_pos hhole]

theorem judgeRun_of_runFrom (env : Env) (br : Bridge) (v : Fin 4) (k : Nat) (run : List (Nat × Byte))
    (h : RunFrom (br.views.get v).intake.pointer run) : br.judgeRun env v k run = br.acceptRun env v k run := by
  have hlow := h.runLow
  unfold Bridge.judgeRun
  dsimp only
  rw [if_neg (by omega), if_neg (by omega), if_neg (by simp [h.noHole])]

/-! ### The fault (R38) -/

/-- The bridge whose frame in slot `k` has ended with a fault, before the report (R38). -/
def Bridge.faulted (br : Bridge) (v : Fin 4) (k : Nat) : Bridge := br.modView v (fun vw => vw.faulted k)

theorem faulted_view (br : Bridge) (v : Fin 4) (k : Nat) :
    (br.faulted v k).views.get v = (br.views.get v).faulted k :=
  (modView_get ..).trans (if_pos rfl)

theorem faulted_slotIs (vw : View) (k : Nat) (hk : k < vw.slots.length) : (vw.faulted k).slotIs k .faulted :=
  setState_slotIs (vw.freeRole .accum) k .faulted hk

theorem faulted_noBuffer (vw : View) (k : Nat) : (vw.faulted k).noBuffer .accum :=
  freeRole_noBuffer vw .accum (by decide)

section
variable (env : Env) (br : Bridge) (v : Fin 4) (reason : Reason) (k : Nat)

theorem intakeFault_view (h : (br.views.get v).intake.slot = some k) :
    ∃ n, (br.intakeFault env v reason).views.get v =
      ((br.views.get v).faulted k).count (fun c => { c with lost := n }) := by
  obtain ⟨n, hn⟩ := report_view_lost env (br.faulted v k) (faultReport env (br.views.get v) v k reason) v
  refine ⟨n, ?_⟩
  rw [faulted_view] at hn
  rw [intakeFault_of_some env br v reason k h]
  exact hn

theorem intakeFault_event (h : (br.views.get v).intake.slot = some k) :
    (br.intakeFault env v reason).events.getLsbD (Event.fault v).bit = true := by
  rw [intakeFault_of_some env br v reason k h, raise_bit]
  simp

/-- R187, R190: the FAULT report that finds a free entry. -/
theorem intakeFault_report_of_free (h : (br.views.get v).intake.slot = some k) (hfree : br.reportFree = true) :
    ∃ o : OwnWrite, (br.intakeFault env v reason).ownWrites = br.ownWrites ++ [o]
      ∧ o.bytes.take 6 = [2, BitVec.ofNat 8 v.val, BitVec.ofNat 8 k, BitVec.ofNat 8 reason.code]
          ++ bytesOf 2 ((br.views.get v).slotSequence k).toNat := by
  rw [intakeFault_of_some env br v reason k h]
  refine ⟨_, report_ownWrites_of_free env _ _ hfree, ?_⟩
  rw [report_bytes_take6]
  rfl

/-- R188: the FAULT report that is lost. -/
theorem intakeFault_of_held (h : (br.views.get v).intake.slot = some k) (hheld : br.reportFree = false) :
    (br.intakeFault env v reason).ownWrites = br.ownWrites
      ∧ ((br.intakeFault env v reason).views.get v).counters.lost = (br.views.get v).counters.lost + 1
      ∧ (br.intakeFault env v reason).events.getLsbD (Event.lost v).bit = true := by
  have hfaulted : (br.faulted v k).reportFree = false := hheld
  rw [intakeFault_of_some env br v reason k h, ← Bridge.faulted]
  refine ⟨?_, ?_, ?_⟩
  · rw [report_of_held env _ _ hfaulted]
    rfl
  · rw [raise_views, report_views_get, if_pos ⟨hfaulted, rfl⟩, faulted_view]
    rfl
  · rw [raise_bit, report_bit, hfaulted]
    simp [faultReport]

theorem intakeFault_otherViews (h : (br.views.get v).intake.slot = some k) :
    br.OtherViews (br.intakeFault env v reason) v := by
  rw [intakeFault_of_some env br v reason k h]
  exact ((Bridge.OtherViews.refl br v).modView _).report env _ rfl

theorem intakeFault_solver (h : (br.views.get v).intake.slot = some k) :
    (br.intakeFault env v reason).solver = br.solver ∧ (br.intakeFault env v reason).solverQueue = br.solverQueue := by
  rw [intakeFault_of_some env br v reason k h]
  simp

theorem intakeFault_frameWork (h : (br.views.get v).intake.slot = some k) :
    br.FrameWork (br.intakeFault env v reason) := by
  rw [intakeFault_of_some env br v reason k h]
  exact ((frameWork_modView ..).trans (frameWork_report ..)).trans (frameWork_raise ..)

end

theorem acceptRun_frameWork (env : Env) (br : Bridge) (v : Fin 4) (k : Nat) (run : List (Nat × Byte)) :
    br.FrameWork (br.acceptRun env v k run) := by
  rw [acceptRun_eq]
  split
  · exact (frameWork_modView ..).trans (completeFrame_frameWork ..)
  · exact frameWork_modView ..

theorem judgeRun_frameWork (env : Env) (br : Bridge) (v : Fin 4) (k : Nat) (run : List (Nat × Byte))
    (h : (br.views.get v).intake.slot = some k) : br.FrameWork (br.judgeRun env v k run) := by
  have hfault (reason : Reason) := intakeFault_frameWork env br v reason k h
  unfold Bridge.judgeRun
  dsimp only
  split
  · exact hfault _
  · split
    · exact hfault _
    · split
      · exact hfault _
      · exact acceptRun_frameWork ..

/-! ### What the port holds does not matter to the judgement -/

/-- The bridge with other contents of the request queue and the stream. -/
def Bridge.withPort (br : Bridge) (requests : List PortEntry) (accepted : Nat) (stream : List UpOp) : Bridge :=
  { br with requests := requests, accepted := accepted, stream := stream }

section
variable (env : Env) (br : Bridge) (requests : List PortEntry) (accepted : Nat) (stream : List UpOp)

theorem report_withPort (r : Report) :
    (br.withPort requests accepted stream).report env r = (br.report env r).withPort requests accepted stream := by
  cases h : br.reportFree
  · rw [report_of_held env br r h]
    exact report_of_held env (br.withPort requests accepted stream) r h
  · rw [report_of_free env br r h]
    exact report_of_free env (br.withPort requests accepted stream) r h

theorem supersede_withPort (v : Fin 4) :
    (br.withPort requests accepted stream).supersede env v =
      (br.supersede env v).withPort requests accepted stream := by
  cases h : br.waiting v with
  | none =>
    rw [supersede_of_none env br v h]
    exact supersede_of_none env (br.withPort requests accepted stream) v h
  | some e =>
    rw [supersede_of_some env br v e h, supersede_of_some env (br.withPort requests accepted stream) v e h]
    exact congrArg (fun b : Bridge => b.modView v (fun vw => vw.setState e.frame.slot .empty))
      (report_withPort env ((br.dropWaiting v).modView v (fun vw => vw.skipped e)) requests accepted stream _)

theorem joinSolver_withPort (f : FrameId) (b : Fin 4) :
    (br.withPort requests accepted stream).joinSolver env f b =
      (br.joinSolver env f b).withPort requests accepted stream := by
  have hready : (br.withPort requests accepted stream).readyToJoin env f =
      (br.readyToJoin env f).withPort requests accepted stream := 
    supersede_withPort env (br.modView f.view (fun vw => vw.setState f.slot .solving)) requests accepted stream f.view
  rw [joinSolver_eq, hready]
  rfl

theorem unsolvedCompletion_withPort (f : FrameId) (time : Stamp) (parked : Bool) :
    (br.withPort requests accepted stream).unsolvedCompletion env f time parked =
      (br.unsolvedCompletion env f time parked).withPort requests accepted stream := by
  have hreport := report_withPort env (br.unsolvedReady f parked) requests accepted stream
    ((br.views.get f.view).unsolvedReport f time parked)
  rw [unsolvedCompletion_steps env br]
  exact (unsolvedCompletion_steps env (br.withPort requests accepted stream) f time parked).trans
    (congrArg (fun b : Bridge => b.raise (.frame f.view)) hreport)

theorem completeFrame_withPort (v : Fin 4) (k : Nat) :
    (br.withPort requests accepted stream).completeFrame env v k =
      (br.completeFrame env v k).withPort requests accepted stream := by
  cases h : (br.views.get v).intake.buffer with
  | none =>
    rw [completeFrame_of_no_buffer env br v k h]
    exact (completeFrame_of_no_buffer env (br.withPort requests accepted stream) v k h).trans
      (unsolvedCompletion_withPort env (br.betweenFrames v) ..)
  | some b =>
    rw [completeFrame_of_buffer env br v k b h]
    exact (completeFrame_of_buffer env (br.withPort requests accepted stream) v k b h).trans
      (joinSolver_withPort env (br.betweenFrames v) ..)

theorem acceptRun_withPort (v : Fin 4) (k : Nat) (run : List (Nat × Byte)) :
    (br.withPort requests accepted stream).acceptRun env v k run =
      (br.acceptRun env v k run).withPort requests accepted stream := by
  have htake : (br.withPort requests accepted stream).takeRun env v run =
      (br.takeRun env v run).withPort requests accepted stream := rfl
  have hviews : (br.withPort requests accepted stream).views = br.views := rfl
  rw [acceptRun_eq, acceptRun_eq, htake, hviews, completeFrame_withPort]
  split <;> rfl

theorem intakeFault_withPort (v : Fin 4) (reason : Reason) (k : Nat) (h : (br.views.get v).intake.slot = some k) :
    (br.withPort requests accepted stream).intakeFault env v reason =
      (br.intakeFault env v reason).withPort requests accepted stream := by
  rw [intakeFault_of_some env br v reason k h]
  exact (intakeFault_of_some env (br.withPort requests accepted stream) v reason k h).trans
    (congrArg (fun b : Bridge => b.raise (.fault v)) (report_withPort env (br.faulted v k) requests accepted stream _))

theorem judgeRun_withPort (v : Fin 4) (k : Nat) (run : List (Nat × Byte)) (h : (br.views.get v).intake.slot = some k) :
    (br.withPort requests accepted stream).judgeRun env v k run =
      (br.judgeRun env v k run).withPort requests accepted stream := by
  have hviews : (br.withPort requests accepted stream).views = br.views := rfl
  unfold Bridge.judgeRun
  simp only [hviews, intakeFault_withPort env br requests accepted stream v _ k h, acceptRun_withPort]
  split_ifs <;> rfl

end

/-! ### The write (R31, R32, R36, R37) -/

theorem not_isFrameStartRun {run : List (Nat × Byte)} (h : runLow run ≠ 0 ∨ runHasHole run = true) :
    isFrameStartRun run = false := by
  unfold isFrameStartRun
  rcases h with h | h <;> simp [h]

theorem followRun_current (env : Env) (br : Bridge) (v : Fin 4) (k : Nat) (run : List (Nat × Byte))
    (hstart : isFrameStartRun run = false) (hin : (br.views.get v).intake.state = .inFrame)
    (hslot : (br.views.get v).intake.slot = some k) : br.followRun env v k run = br.judgeRun env v k run := by
  simp [Bridge.followRun, hstart, hin, hslot]

/-- R37: the view whose intake has met a run of another slot than the current one. -/
def View.countStray (vw : View) : View := vw.count (fun c => { c with stray := c.stray + 1 })

theorem followRun_stray (env : Env) (br : Bridge) (v : Fin 4) (j k : Nat) (run : List (Nat × Byte))
    (hstart : isFrameStartRun run = false) (hin : (br.views.get v).intake.state = .inFrame)
    (hslot : (br.views.get v).intake.slot = some k) (hne : j ≠ k) :
    br.followRun env v j run = br.modView v View.countStray := by
  unfold Bridge.followRun
  rw [if_neg (by simp [hstart]), if_pos hin, if_neg (by simp [hslot, hne.symm])]
  rfl

/-- R31, R32, R145: the acceptance of a write into a slot, of a matching tag and with a payload byte. -/
theorem acceptWrite_followed (env : Env) (br : Bridge) (w : WriteRequest) (v : Fin 4) (j : Nat) (hw : w.bytes ≠ [])
    (hregion : ∀ n, n < w.bytes.length →
      regionOf env.straps (windowMap env br) (w.address.toNat + n) = .slot v j)
    (htag : tagMatches w.tag (br.views.get v).geometry.intakeTag (br.views.get v).geometry.intakeMask = true)
    (hrun : (br.views.get v).geometry.run ((br.views.get v).slotBase j) (writeCells w) ≠ []) :
    acceptWrite env br w = takeIfDue env ((br.forwardWrite w).followRun env v j
      ((br.views.get v).geometry.run ((br.views.get v).slotBase j) (writeCells w))).freePlaces := by
  have hviews : (br.forwardWrite w).views = br.views := rfl
  have hintake : (br.forwardWrite w).isIntakePiece { region := .slot v j, cells := writeCells w } = true := by
    simpa [Bridge.isIntakePiece, hviews] using hrun
  have hwatch : (br.forwardWrite w).watchPieces env w.tag false [{ region := .slot v j, cells := writeCells w }] =
      (br.forwardWrite w).followRun env v j
        ((br.views.get v).geometry.run ((br.views.get v).slotBase j) (writeCells w)) := by
    simp only [Bridge.watchPieces, hintake, if_true, Bridge.watchPiece, Bool.not_false, hviews, Bridge.intakePiece, htag]
  rw [acceptWrite_whole env br w (.slot v j) hw (by simp) hregion]
  exact congrArg (fun b => takeIfDue env (Bridge.freePlaces b)) hwatch

/-- A write accepted at an open port whose watching blocks do no more than the work of a frame (R145, R148). -/
theorem exec_write_of_frameWork (s : State) (w : WriteRequest) (c : Bridge) (hopen : s.open = true)
    (hw : w.wellFormed = true) (hwork : (s.bridge.forwardWrite w).FrameWork c)
    (haccept : acceptWrite s.env s.bridge w = takeIfDue s.env c.freePlaces) :
    exec (.write w) s = .next { s with bridge := c.freePlaces }
      ∧ s.Forwarded { s with bridge := c.freePlaces } w ∧ s.AcceptFrame { s with bridge := c.freePlaces } := by
  obtain ⟨op, hop, haddr, hkind⟩ := forwardWrite_stream s.bridge w
  have hdue : takeDue c.freePlaces = false :=
    takeDue_of_open s hopen _ hwork.commandShadow hwork.nextIndex hwork.inFlight
  refine ⟨exec_write_of_open s w hw hopen _ (haccept.trans (takeIfDue_of_not_due _ _ hdue)),
    ⟨⟨op, hwork.port.stream.trans hop, haddr, hkind⟩, hwork.port.assemblies, hwork.outOfRange⟩, ?_⟩
  exact
    { env := rfl, dram := rfl, readData := rfl, pending := rfl
      rota := hwork.timer.rota, rotb := hwork.timer.rotb, glitchA := hwork.timer.glitchA, glitchB := hwork.timer.glitchB
      inFlight := hwork.inFlight, nextIndex := hwork.nextIndex, busWait := hwork.port.busWait }

/-- The judgement in the bridge of a forwarded write: that in the bridge which has given the operation its birth and no
more. -/
theorem judgeRun_forwardWrite (env : Env) (br : Bridge) (w : WriteRequest) (v : Fin 4) (k : Nat)
    (run : List (Nat × Byte)) (h : (br.views.get v).intake.slot = some k) :
    (br.forwardWrite w).judgeRun env v k run =
      (({ br with births := br.births + 1 } : Bridge).judgeRun env v k run).withPort (br.forwardWrite w).requests
        (br.forwardWrite w).accepted (br.forwardWrite w).stream := by
  have hport : br.forwardWrite w = ({ br with births := br.births + 1 } : Bridge).withPort (br.forwardWrite w).requests
      (br.forwardWrite w).accepted (br.forwardWrite w).stream := rfl
  exact (congrArg (fun b : Bridge => b.judgeRun env v k run) hport).trans
    (judgeRun_withPort env { br with births := br.births + 1 } _ _ _ v k run h)

/-- What neither the port's contents nor its freed places change. -/
theorem withPort_freePlaces (br : Bridge) (requests : List PortEntry) (accepted : Nat) (stream : List UpOp) (c : Bridge)
    (h : c = (br.withPort requests accepted stream).freePlaces) :
    c.views = br.views ∧ c.events = br.events ∧ c.ownWrites = br.ownWrites ∧ c.owners = br.owners
      ∧ c.position = br.position ∧ c.solver = br.solver ∧ c.solverQueue = br.solverQueue := by
  subst h
  exact ⟨rfl, rfl, rfl, rfl, rfl, rfl, rfl⟩

/-- Settles O20: a run is a fault (`judgeRun_of_fault`) or accepted (`judgeRun_of_runFrom`, `takeRun_runTaken`), and a write
brings it to that judgement (`acceptWrite_followed`), which does not depend on the port (`judgeRun_forwardWrite`). -/
theorem runsAreJudgedAgainstThePointer : Obligations.RunsAreJudgedAgainstThePointer := by
  unfold Obligations.RunsAreJudgedAgainstThePointer
  refine ⟨?_, ?_, ?_⟩
  · intro env br v k run vw hslot hk hfault br' vt
    have hjudge : br' = br.intakeFault env v (vw.faultReason run) := judgeRun_of_fault env br v k run hfault
    obtain ⟨n, hn⟩ := intakeFault_view env br v (vw.faultReason run) k hslot
    have hview : vt = (vw.faulted k).count (fun c => { c with lost := n }) := by rw [← hn, ← hjudge]
    have hheld := intakeFault_of_held env br v (vw.faultReason run) k hslot
    rw [hn] at hheld
    obtain ⟨hsolver, hqueue⟩ := intakeFault_solver env br v (vw.faultReason run) k hslot
    rw [hview, hjudge, ← faultReason_code]
    exact ⟨faulted_slotIs vw k hk, rfl, rfl, rfl, rfl, rfl, faulted_noBuffer vw k, rfl,
      intakeFault_event env br v _ k hslot, intakeFault_report_of_free env br v _ k hslot, hheld,
      intakeFault_otherViews env br v _ k hslot, hsolver, hqueue⟩
  · intro env br v k run vw hne hrun
    have hfrom : RunFrom vw.intake.pointer run := ⟨hne, hrun⟩
    refine ⟨br.takeRun env v run, takeRun_runTaken env br v run hfrom, fun hshort => ?_, fun hwhole => ?_⟩
    · rw [judgeRun_of_runFrom env br v k run hfrom, acceptRun_eq, hfrom.runHigh, if_neg hshort]
    · rw [judgeRun_of_runFrom env br v k run hfrom, acceptRun_eq, hfrom.runHigh, if_pos hwhole]
  · intro s w v j k hopen hw vw run hregion htag hin hslot hne hstart judged
    have hbytes : w.bytes ≠ [] := fun h => by simp [WriteRequest.wellFormed, h] at hw
    have haccept := acceptWrite_followed s.env s.bridge w v j hbytes hregion htag hne
    have hnot := not_isFrameStartRun hstart
    by_cases hjk : j = k
    · subst hjk
      rw [followRun_current s.env (s.bridge.forwardWrite w) v j run hnot hin hslot] at haccept
      have hwork := judgeRun_frameWork s.env (s.bridge.forwardWrite w) v j run hslot
      obtain ⟨hexec, hforward, hframe⟩ := exec_write_of_frameWork s w _ hopen hw hwork haccept
      refine ⟨_, hexec, fun _ => ?_, fun h => (h rfl).elim, hwork.mask, hwork.descriptors, hwork.commandShadow, hforward,
        hframe⟩
      exact withPort_freePlaces judged _ _ _ _
        (congrArg Bridge.freePlaces (judgeRun_forwardWrite s.env s.bridge w v j run hslot))
    · rw [followRun_stray s.env (s.bridge.forwardWrite w) v j k run hnot hin hslot hjk] at haccept
      obtain ⟨hexec, hforward, hframe⟩ := exec_write_of_frameWork s w _ hopen hw (frameWork_modView ..) haccept
      refine ⟨_, hexec, fun h => (hjk h).elim, fun _ => ⟨(modView_get ..).trans (if_pos rfl), fun u hu => ?_, rfl, rfl, rfl,
        rfl, rfl, rfl⟩, rfl, rfl, rfl, hforward, hframe⟩
      exact (modView_get ..).trans (if_neg hu)

end Sys2Proof.Machine
end

section
/-! PROOF. Rotation timing (chapter 3): what an edge, a stale timeout and the EDGE command make of an input's record, and
what they leave alone. -/

namespace Sys2Proof.Machine

open Laws

/-! ### What a change of one input leaves alone -/

/-- Everything of the bridge but the record of input `i`, the glitch counters and the events. -/
structure Bridge.RotationFrame (br br' : Bridge) (i : RotId) : Prop where
  others : ∀ j, j ≠ i → br'.rot j = br.rot j
  views : br'.views = br.views
  ownWrites : br'.ownWrites = br.ownWrites
  mask : br'.mask = br.mask
  descriptors : br'.descriptors = br.descriptors
  commandShadow : br'.commandShadow = br.commandShadow
  owners : br'.owners = br.owners
  port : br.SamePort br'
  solver : br.SameSolver br'

theorem rotationFrame_setRot (br : Bridge) (i : RotId) (r : RotInput) : br.RotationFrame (br.setRot i r) i where
  others j hj := by simp [hj]
  views := setRot_views ..
  ownWrites := setRot_ownWrites ..
  mask := setRot_mask ..
  descriptors := setRot_descriptors ..
  commandShadow := setRot_commandShadow ..
  owners := setRot_owners ..
  port := ⟨setRot_requests .., setRot_busWait .., setRot_accepted .., setRot_stream .., setRot_assemblies ..⟩
  solver := ⟨setRot_solver .., setRot_solverQueue .., setRot_inFlight .., setRot_nextIndex .., setRot_outOfRange ..,
    setRot_position ..⟩

@[simp] theorem rot_countGlitch (br : Bridge) (i j : RotId) : (br.countGlitch i).rot j = br.rot j := by
  cases i <;> cases j <;> rfl

theorem countGlitch_glitchA (br : Bridge) (i : RotId) :
    (br.countGlitch i).glitchA = br.glitchA + (if i = .rota then 1 else 0) := by
  cases i <;> simp [Bridge.countGlitch]

theorem countGlitch_glitchB (br : Bridge) (i : RotId) :
    (br.countGlitch i).glitchB = br.glitchB + (if i = .rotb then 1 else 0) := by
  cases i <;> simp [Bridge.countGlitch]

theorem Bridge.RotationFrame.countGlitch {br b : Bridge} {i : RotId} (h : br.RotationFrame b i) (j : RotId) :
    br.RotationFrame (b.countGlitch j) i where
  others k hk := (rot_countGlitch ..).trans (h.others k hk)
  views := (countGlitch_views ..).trans h.views
  ownWrites := (countGlitch_ownWrites ..).trans h.ownWrites
  mask := (countGlitch_mask ..).trans h.mask
  descriptors := (countGlitch_descriptors ..).trans h.descriptors
  commandShadow := (countGlitch_commandShadow ..).trans h.commandShadow
  owners := (countGlitch_owners ..).trans h.owners
  port := ⟨(countGlitch_requests ..).trans h.port.requests, (countGlitch_busWait ..).trans h.port.busWait,
    (countGlitch_accepted ..).trans h.port.accepted, (countGlitch_stream ..).trans h.port.stream,
    (countGlitch_assemblies ..).trans h.port.assemblies⟩
  solver := ⟨(countGlitch_solver ..).trans h.solver.solver, (countGlitch_solverQueue ..).trans h.solver.solverQueue,
    (countGlitch_inFlight ..).trans h.solver.inFlight, (countGlitch_nextIndex ..).trans h.solver.nextIndex,
    (countGlitch_outOfRange ..).trans h.solver.outOfRange, (countGlitch_position ..).trans h.solver.position⟩

@[simp] theorem rot_raise (br : Bridge) (e : Event) (j : RotId) : (br.raise e).rot j = br.rot j := by
  cases j <;> rfl

theorem Bridge.RotationFrame.raise {br b : Bridge} {i : RotId} (h : br.RotationFrame b i) (e : Event) :
    br.RotationFrame (b.raise e) i :=
  { h with others := fun j hj => (rot_raise ..).trans (h.others j hj), port := { h.port with }, solver := { h.solver with } }

/-! ### The judgement of an edge (R56, R59) -/

/-- The record of an input whose level has changed, and nothing else (R56). -/
def RotInput.flipped (r : RotInput) : RotInput := { r with level := !r.level }

/-- R56: the modes RISE and FALL select one polarity each, NONE selects none. -/
theorem selects_iff_of_single (m : EdgeMode) (up : Bool) (h : m ≠ .both) :
    m.selects (polarityOf up) = true ↔ (m = .rise ∧ up = true) ∨ (m = .fall ∧ up = false) := by
  cases m <;> cases up <;> simp_all [EdgeMode.selects, polarityOf]

theorem rotationEdge_of_unselected (now : Stamp) (br : Bridge) (i : RotId) (tsref : TimeReference)
    (h : ¬ (br.rot i).mode.selects (polarityOf (!(br.rot i).level)) = true) :
    br.rotationEdge now ⟨i, tsref⟩ = br.setRot i (br.rot i).flipped :=
  if_pos (by simpa using h)

theorem rotationEdge_of_glitch (now : Stamp) (br : Bridge) (i : RotId) (tsref : TimeReference)
    (h : (br.rot i).mode.selects (polarityOf (!(br.rot i).level)) = true)
    (hg : (br.rot i).isGlitch tsref now = true) :
    br.rotationEdge now ⟨i, tsref⟩ = (br.setRot i (br.rot i).flipped).countGlitch i :=
  (if_neg (by simpa using h)).trans (if_pos hg)

theorem rotationEdge_of_accepted (now : Stamp) (br : Bridge) (i : RotId) (tsref : TimeReference)
    (h : (br.rot i).mode.selects (polarityOf (!(br.rot i).level)) = true)
    (hg : ¬ (br.rot i).isGlitch tsref now = true) :
    br.rotationEdge now ⟨i, tsref⟩ =
      br.setRot i ((br.rot i).flipped.accept (polarityOf (!(br.rot i).level)) now) :=
  (if_neg (by simpa using h)).trans (if_neg hg)

/-- An edge is one of the three: not selected, a glitch, or accepted. -/
theorem rotationEdge_cases (P : Bridge → Prop) (now : Stamp) (br : Bridge) (i : RotId) (tsref : TimeReference)
    (hplain : P (br.setRot i (br.rot i).flipped))
    (hglitch : P ((br.setRot i (br.rot i).flipped).countGlitch i))
    (haccept : P (br.setRot i ((br.rot i).flipped.accept (polarityOf (!(br.rot i).level)) now))) :
    P (br.rotationEdge now ⟨i, tsref⟩) := by
  by_cases h : (br.rot i).mode.selects (polarityOf (!(br.rot i).level)) = true
  · by_cases hg : (br.rot i).isGlitch tsref now = true
    · rwa [rotationEdge_of_glitch now br i tsref h hg]
    · rwa [rotationEdge_of_accepted now br i tsref h hg]
  · rwa [rotationEdge_of_unselected now br i tsref h]

theorem rotationEdge_frame (now : Stamp) (br : Bridge) (i : RotId) (tsref : TimeReference) :
    br.RotationFrame (br.rotationEdge now ⟨i, tsref⟩) i :=
  rotationEdge_cases (br.RotationFrame · i) now br i tsref (rotationFrame_setRot ..)
    ((rotationFrame_setRot ..).countGlitch i) (rotationFrame_setRot ..)

theorem rotationEdge_events (now : Stamp) (br : Bridge) (i : RotId) (tsref : TimeReference) :
    (br.rotationEdge now ⟨i, tsref⟩).events = br.events :=
  rotationEdge_cases (·.events = br.events) now br i tsref (setRot_events ..)
    ((countGlitch_events ..).trans (setRot_events ..)) (setRot_events ..)

/-! ### The acceptance of an edge (R60 to R62) -/

/-- R60: every acceptance in RISE or FALL mode enters the edge. -/
theorem acceptSingle_entered (r : RotInput) (p : Polarity) (now : Stamp) :
    ∃ st per org, r.acceptSingle p now = { r.enter p now with state := st, period := per, origin := org } := by
  unfold RotInput.acceptSingle
  split
  · exact ⟨_, _, _, rfl⟩
  · split <;> exact ⟨_, _, _, rfl⟩

theorem acceptSingle_of_first (r : RotInput) (p : Polarity) (now : Stamp) (h : r.count = 0) :
    r.acceptSingle p now = { r.enter p now with state := .acquire } := by
  unfold RotInput.acceptSingle
  split
  · rfl
  · exact if_pos h

theorem acceptSingle_of_later (r : RotInput) (p : Polarity) (now u : Stamp) (rest : List Stamp)
    (ht : r.times = u :: rest) (hc : 0 < r.count) :
    r.acceptSingle p now =
      { r.enter p now with state := .locked, period := some (now - u).toNat, origin := some now } := by
  simp only [RotInput.acceptSingle, ht]
  exact if_neg hc.ne'

/-- R61: every acceptance in BOTH mode enters the edge. -/
theorem acceptBoth_entered (r : RotInput) (p : Polarity) (now : Stamp) :
    ∃ st per org, r.acceptBoth p now = { r.enter p now with state := st, period := per, origin := org } := by
  unfold RotInput.acceptBoth
  split
  · split <;> exact ⟨_, _, _, rfl⟩
  · exact ⟨_, _, _, rfl⟩

theorem acceptBoth_of_early (r : RotInput) (p : Polarity) (now : Stamp) (h : r.count < 2) :
    r.acceptBoth p now = { r.enter p now with state := .acquire } := by
  unfold RotInput.acceptBoth
  split
  · exact if_pos h
  · rfl

theorem acceptBoth_of_later (r : RotInput) (p : Polarity) (now u1 u2 : Stamp) (rest : List Stamp)
    (ht : r.times = u1 :: u2 :: rest) (hc : 2 ≤ r.count) :
    r.acceptBoth p now =
      { r.enter p now with
        state := .locked, period := some (now - u2).toNat, origin := (r.enter p now).lastRising } := by
  simp only [RotInput.acceptBoth, ht]
  exact if_neg (by omega)

theorem accept_of_single (r : RotInput) (p : Polarity) (now : Stamp) (h : r.mode ≠ .both) :
    r.accept p now = r.acceptSingle p now := if_neg h

theorem accept_of_break (r : RotInput) (p : Polarity) (now : Stamp) (h : r.mode = .both) (hp : r.lastPolarity = some p) :
    r.accept p now = { r.restart.enter p now with state := .acquire } := (if_pos h).trans (if_pos hp)

theorem accept_of_alternate (r : RotInput) (p : Polarity) (now : Stamp) (h : r.mode = .both)
    (hp : r.lastPolarity ≠ some p) : r.accept p now = r.acceptBoth p now := (if_pos h).trans (if_neg hp)

/-- An acceptance changes neither level nor mode, and keeps the edge's polarity. -/
theorem accept_kept (r : RotInput) (p : Polarity) (now : Stamp) :
    (r.accept p now).level = r.level ∧ (r.accept p now).mode = r.mode ∧ (r.accept p now).lastPolarity = some p := by
  by_cases hm : r.mode = .both
  · by_cases hp : r.lastPolarity = some p
    · rw [accept_of_break r p now hm hp]
      exact ⟨rfl, rfl, rfl⟩
    · obtain ⟨st, per, org, h⟩ := acceptBoth_entered r p now
      rw [accept_of_alternate r p now hm hp, h]
      exact ⟨rfl, rfl, rfl⟩
  · obtain ⟨st, per, org, h⟩ := acceptSingle_entered r p now
    rw [accept_of_single r p now hm, h]
    exact ⟨rfl, rfl, rfl⟩

/-- R56: every edge flips the level, and none changes the mode. -/
theorem rotationEdge_level_mode (now : Stamp) (br : Bridge) (i : RotId) (tsref : TimeReference) :
    ((br.rotationEdge now ⟨i, tsref⟩).rot i).level = !(br.rot i).level
      ∧ ((br.rotationEdge now ⟨i, tsref⟩).rot i).mode = (br.rot i).mode := by
  refine rotationEdge_cases (fun b => (b.rot i).level = !(br.rot i).level ∧ (b.rot i).mode = (br.rot i).mode)
    now br i tsref ?_ ?_ ?_
  · rw [rot_setRot, if_pos rfl]
    exact ⟨rfl, rfl⟩
  · rw [rot_countGlitch, rot_setRot, if_pos rfl]
    exact ⟨rfl, rfl⟩
  · rw [rot_setRot, if_pos rfl]
    obtain ⟨hlevel, hmode, -⟩ := accept_kept (br.rot i).flipped (polarityOf (!(br.rot i).level)) now
    exact ⟨hlevel, hmode⟩

/-! ### ROTATION_EDGE -/

theorem exec_rotationEdge_of_quiet (s : State) (change : LevelChange) (hq : s.quiet = true)
    (hr : s.env.resetAsserted = false) :
    exec (.rotationEdge change) s = .next { s with bridge := s.bridge.rotationEdge s.env.timestamp change } := by
  change execRotationEdge change s = _
  rw [execRotationEdge, settle_of_quiet s hq, hr]
  rfl

theorem rotationEdge_shadowsAgree (s : State) (i : RotId) (tsref : TimeReference) :
    s.ShadowsAgree { s with bridge := s.bridge.rotationEdge s.env.timestamp ⟨i, tsref⟩ } :=
  have h := rotationEdge_frame s.env.timestamp s.bridge i tsref
  ⟨rotationEdge_events .., h.mask, h.descriptors, h.commandShadow, h.owners⟩

/-- A glitch changes the level alone and is counted once, for its own input (R59). -/
theorem rotationEdge_glitch_counted (now : Stamp) (br : Bridge) (i : RotId) (tsref : TimeReference)
    (h : (br.rot i).mode.selects (polarityOf (!(br.rot i).level)) = true)
    (hg : (br.rot i).isGlitch tsref now = true) :
    (br.rotationEdge now ⟨i, tsref⟩).rot i = (br.rot i).flipped
      ∧ (br.rotationEdge now ⟨i, tsref⟩).glitchA = br.glitchA + (if i = .rota then 1 else 0)
      ∧ (br.rotationEdge now ⟨i, tsref⟩).glitchB = br.glitchB + (if i = .rotb then 1 else 0) := by
  rw [rotationEdge_of_glitch now br i tsref h hg, rot_countGlitch, rot_setRot, if_pos rfl, countGlitch_glitchA,
    countGlitch_glitchB, setRot_glitchA, setRot_glitchB]
  exact ⟨rfl, rfl, rfl⟩

/-- An accepted edge counts no glitch. -/
theorem rotationEdge_accepted (now : Stamp) (br : Bridge) (i : RotId) (tsref : TimeReference)
    (h : (br.rot i).mode.selects (polarityOf (!(br.rot i).level)) = true)
    (hg : ¬ (br.rot i).isGlitch tsref now = true) :
    (br.rotationEdge now ⟨i, tsref⟩).rot i = (br.rot i).flipped.accept (polarityOf (!(br.rot i).level)) now
      ∧ (br.rotationEdge now ⟨i, tsref⟩).glitchA = br.glitchA
      ∧ (br.rotationEdge now ⟨i, tsref⟩).glitchB = br.glitchB := by
  rw [rotationEdge_of_accepted now br i tsref h hg, rot_setRot, if_pos rfl]
  exact ⟨rfl, setRot_glitchA .., setRot_glitchB ..⟩

/-- Settles O52: the three judgements of an edge (`rotationEdge_of_unselected`, `rotationEdge_glitch_counted`,
`rotationEdge_accepted`), the last with the acceptance of one polarity (`acceptSingle_of_first`, `acceptSingle_of_later`). -/
theorem edgesInSingleModesAreJudged : Obligations.EdgesInSingleModesAreJudged := by
  unfold Obligations.EdgesInSingleModesAreJudged
  intro s i tsref hq hr hm r up selected glitch
  have hsel : r.mode.selects (polarityOf up) = true ↔ selected := selects_iff_of_single r.mode up hm
  have hglitch : r.isGlitch tsref s.env.timestamp = true ↔ glitch := isGlitch_iff r tsref s.env.timestamp
  have hframe := rotationEdge_frame s.env.timestamp s.bridge i tsref
  obtain ⟨hlevel, hmode⟩ := rotationEdge_level_mode s.env.timestamp s.bridge i tsref
  refine ⟨_, exec_rotationEdge_of_quiet s ⟨i, tsref⟩ hq hr, hlevel, hmode, fun hs => ?_, fun hs hg => ?_, fun hs hg => ?_,
    hframe.others, hframe.views, hframe.ownWrites, hframe.port, hframe.solver, rotationEdge_shadowsAgree s i tsref,
    rfl, rfl, rfl, rfl⟩
  · have hedge := rotationEdge_of_unselected s.env.timestamp s.bridge i tsref (mt hsel.1 hs)
    simp only [hedge, rot_setRot, if_pos, setRot_glitchA, setRot_glitchB]
    exact ⟨rfl, trivial, trivial⟩
  · exact rotationEdge_glitch_counted _ _ i tsref (hsel.2 hs) (hglitch.2 hg)
  · obtain ⟨hrot, hA, hB⟩ := rotationEdge_accepted s.env.timestamp s.bridge i tsref (hsel.2 hs) (mt hglitch.1 hg)
    rw [accept_of_single (s.bridge.rot i).flipped _ _ hm] at hrot
    obtain ⟨st, per, org, hentered⟩ := acceptSingle_entered r.flipped (polarityOf up) s.env.timestamp
    refine ⟨?_, ?_, hA, hB, fun hc => ?_, fun u rest ht hc => ?_⟩
    · rw [hrot, hentered]; rfl
    · rw [hrot, hentered]; rfl
    · rw [hrot, acceptSingle_of_first (s.bridge.rot i).flipped _ _ hc]
    · rw [hrot, acceptSingle_of_later (s.bridge.rot i).flipped _ _ u rest ht hc]
      exact ⟨rfl, rfl, rfl⟩

/-- Settles O53: BOTH selects every edge; a glitch is counted (`rotationEdge_glitch_counted`), any other edge is a polarity
break (`accept_of_break`) or alternates (`acceptBoth_of_early`, `acceptBoth_of_later`). -/
theorem edgesInBothModeAlternate : Obligations.EdgesInBothModeAlternate := by
  unfold Obligations.EdgesInBothModeAlternate
  intro s i tsref hq hr hm r p glitch
  have hp : polarityOf (!r.level) = p := by cases hl : r.level <;> simp [polarityOf, p, hl]
  have hsel : r.mode.selects (polarityOf (!r.level)) = true := by
    rw [show r.mode = .both from hm]
    rfl
  have hglitch : r.isGlitch tsref s.env.timestamp = true ↔ glitch := isGlitch_iff r tsref s.env.timestamp
  have hframe := rotationEdge_frame s.env.timestamp s.bridge i tsref
  have haccepted (hg : ¬ glitch) := rotationEdge_accepted s.env.timestamp s.bridge i tsref hsel (mt hglitch.1 hg)
  rw [show polarityOf (!(s.bridge.rot i).level) = p from hp] at haccepted
  obtain ⟨hlevel, hmode⟩ := rotationEdge_level_mode s.env.timestamp s.bridge i tsref
  refine ⟨_, exec_rotationEdge_of_quiet s ⟨i, tsref⟩ hq hr, hlevel, hmode, fun hg => ?_, fun hg => ?_, fun hg hlast => ?_,
    fun hg hlast => ?_, hframe.others, hframe.views, hframe.ownWrites, hframe.port, hframe.solver,
    rotationEdge_shadowsAgree s i tsref, rfl, rfl, rfl, rfl⟩
  · exact rotationEdge_glitch_counted _ _ i tsref hsel (hglitch.2 hg)
  · obtain ⟨hrot, hA, hB⟩ := haccepted hg
    obtain ⟨-, -, hpol⟩ := accept_kept r.flipped p s.env.timestamp
    exact ⟨hA, hB, hrot ▸ hpol⟩
  · obtain ⟨hrot, -, -⟩ := haccepted hg
    rw [hrot, accept_of_break r.flipped p _ hm hlast]
    exact ⟨rfl, rfl, rfl, rfl, rfl, rfl⟩
  · obtain ⟨hrot, -, -⟩ := haccepted hg
    rw [accept_of_alternate r.flipped p _ hm hlast] at hrot
    obtain ⟨st, per, org, hentered⟩ := acceptBoth_entered r.flipped p s.env.timestamp
    refine ⟨?_, ?_, ?_, fun hc => ?_, fun u1 u2 rest ht hc => ?_⟩
    · rw [hrot, hentered]; rfl
    · rw [hrot, hentered]; rfl
    · rw [hrot, hentered]; rfl
    · rw [hrot, acceptBoth_of_early r.flipped _ _ hc]
    · rw [hrot, acceptBoth_of_later r.flipped _ _ u1 u2 rest ht hc]
      exact ⟨rfl, rfl, rfl⟩

/-! ### The stale timeout (R63) -/

/-- The record of an input whose stale timeout has expired (R63). -/
def RotInput.expired (r : RotInput) : RotInput :=
  { r.restart with state := if r.state = .locked then .stale else r.state }

theorem timedOut_iff (r : RotInput) (now : Stamp) :
    r.timedOut now = true ↔ ∃ u rest, r.times = u :: rest ∧ 0 < r.count ∧ 1048576 ≤ (now - u).toNat := by
  unfold RotInput.timedOut
  cases r.times with
  | nil => simp
  | cons u rest =>
    simp only [Bool.and_eq_true, decide_eq_true_eq, List.cons.injEq]
    exact ⟨fun ⟨hc, hold⟩ => ⟨u, rest, ⟨rfl, rfl⟩, hc, hold⟩, fun ⟨_, _, ⟨hu, _⟩, hc, hold⟩ => ⟨hc, hu ▸ hold⟩⟩

theorem expireIfDue_of_not_due (now : Stamp) (br : Bridge) (i : RotId) (h : (br.rot i).timedOut now = false) :
    br.expireIfDue now i = br := if_neg (by simp [h])

theorem expireIfDue_of_locked (now : Stamp) (br : Bridge) (i : RotId) (h : (br.rot i).timedOut now = true)
    (hl : (br.rot i).state = .locked) :
    br.expireIfDue now i = (br.setRot i (br.rot i).expired).raise (rotEvent i) := by
  rw [Bridge.expireIfDue, if_pos h, Bridge.staleExpiry]
  simp only [if_pos hl, RotInput.expired]

theorem expireIfDue_of_unlocked (now : Stamp) (br : Bridge) (i : RotId) (h : (br.rot i).timedOut now = true)
    (hl : (br.rot i).state ≠ .locked) : br.expireIfDue now i = br.setRot i (br.rot i).expired := by
  rw [Bridge.expireIfDue, if_pos h, Bridge.staleExpiry]
  simp only [if_neg hl, RotInput.expired, RotInput.restart]

/-- An expiry is one of the three: not due, from LOCKED, or from another state. -/
theorem expireIfDue_cases (P : Bridge → Prop) (now : Stamp) (br : Bridge) (i : RotId)
    (hnot : (br.rot i).timedOut now = false → P br)
    (hlocked : (br.rot i).timedOut now = true → (br.rot i).state = .locked →
      P ((br.setRot i (br.rot i).expired).raise (rotEvent i)))
    (hunlocked : (br.rot i).timedOut now = true → (br.rot i).state ≠ .locked →
      P (br.setRot i (br.rot i).expired)) :
    P (br.expireIfDue now i) := by
  cases hd : (br.rot i).timedOut now
  · rw [expireIfDue_of_not_due now br i hd]
    exact hnot hd
  · by_cases hl : (br.rot i).state = .locked
    · rw [expireIfDue_of_locked now br i hd hl]
      exact hlocked hd hl
    · rw [expireIfDue_of_unlocked now br i hd hl]
      exact hunlocked hd hl

theorem rot_expireIfDue (now : Stamp) (br : Bridge) (i j : RotId) :
    (br.expireIfDue now i).rot j =
      if j = i ∧ (br.rot i).timedOut now = true then (br.rot i).expired else br.rot j := by
  refine expireIfDue_cases (fun b => b.rot j = _) now br i (fun hd => ?_) (fun hd _ => ?_) (fun hd _ => ?_)
  · simp [hd]
  · simp [hd]
  · simp [hd]

theorem expireIfDue_bit (now : Stamp) (br : Bridge) (i : RotId) (n : Nat) :
    (br.expireIfDue now i).events.getLsbD n = (br.events.getLsbD n ||
      ((br.rot i).timedOut now && decide ((br.rot i).state = .locked) && decide (n = (rotEvent i).bit))) := by
  refine expireIfDue_cases (fun b => b.events.getLsbD n = _) now br i (fun hd => ?_) (fun hd hl => ?_) (fun hd hl => ?_)
  · simp [hd]
  · rw [raise_bit, setRot_events]
    simp [hd, hl]
  · simp [hl]

theorem expireIfDue_frame (now : Stamp) (br : Bridge) (i : RotId) :
    br.RotationFrame (br.expireIfDue now i) i := by
  refine expireIfDue_cases (br.RotationFrame · i) now br i (fun _ => ?_) (fun _ _ => ?_) (fun _ _ => ?_)
  · exact ⟨fun _ _ => rfl, rfl, rfl, rfl, rfl, rfl, rfl, ⟨rfl, rfl, rfl, rfl, rfl⟩, ⟨rfl, rfl, rfl, rfl, rfl, rfl⟩⟩
  · exact (rotationFrame_setRot ..).raise _
  · exact rotationFrame_setRot ..

theorem expireIfDue_glitches (now : Stamp) (br : Bridge) (i : RotId) :
    (br.expireIfDue now i).glitchA = br.glitchA ∧ (br.expireIfDue now i).glitchB = br.glitchB :=
  expireIfDue_cases (fun b => b.glitchA = br.glitchA ∧ b.glitchB = br.glitchB) now br i (fun _ => ⟨rfl, rfl⟩)
    (fun _ _ => ⟨setRot_glitchA .., setRot_glitchB ..⟩) (fun _ _ => ⟨setRot_glitchA .., setRot_glitchB ..⟩)

theorem expireIfDue_otherEvents (now : Stamp) (br : Bridge) (i : RotId) :
    br.OtherEvents (br.expireIfDue now i) [rotEvent i] := by
  intro n _ hne
  have hbit : n ≠ (rotEvent i).bit := fun h => hne _ (List.mem_singleton.2 rfl) h.symm
  rw [expireIfDue_bit]
  simp [hbit]

theorem exec_staleTimeout_of_quiet (s : State) (i : RotId) (hq : s.quiet = true) :
    exec (.staleTimeout i) s = .next { s with bridge := s.bridge.expireIfDue s.env.timestamp i } := by
  change execStaleTimeout i s = _
  rw [execStaleTimeout, settle_of_quiet s hq]

/-- Settles O54: an expiry that is due leaves the record `RotInput.expired`, from LOCKED with the event. -/
theorem staleTimeoutRestartsAcquisition : Obligations.StaleTimeoutRestartsAcquisition := by
  unfold Obligations.StaleTimeoutRestartsAcquisition
  intro s i hq r due
  have hdue : r.timedOut s.env.timestamp = true ↔ due := timedOut_iff r s.env.timestamp
  have hexec := exec_staleTimeout_of_quiet s i hq
  refine ⟨fun h => ?_, fun h => ?_⟩
  · rwa [expireIfDue_of_not_due _ _ _ (Bool.eq_false_iff.2 (mt hdue.1 h))] at hexec
  · have ht : (s.bridge.rot i).timedOut s.env.timestamp = true := hdue.2 h
    have hrot : (s.bridge.expireIfDue s.env.timestamp i).rot i = r.expired :=
      (rot_expireIfDue ..).trans (if_pos ⟨rfl, ht⟩)
    have hframe := expireIfDue_frame s.env.timestamp s.bridge i
    obtain ⟨hA, hB⟩ := expireIfDue_glitches s.env.timestamp s.bridge i
    refine ⟨_, hexec, congrArg (·.count) hrot, congrArg (·.times) hrot, congrArg (·.period) hrot,
      congrArg (·.origin) hrot, congrArg (·.lastPolarity) hrot, congrArg (·.lastRising) hrot, congrArg (·.mode) hrot,
      congrArg (·.level) hrot, fun hl => ⟨(congrArg (·.state) hrot).trans (if_pos hl), ?_⟩,
      fun hl => ⟨(congrArg (·.state) hrot).trans (if_neg hl), ?_⟩, hframe.others, hframe.views, hframe.mask,
      hframe.ownWrites, hA, hB, hframe.descriptors, hframe.commandShadow, hframe.owners, hframe.port, hframe.solver,
      expireIfDue_otherEvents _ _ _, rfl, rfl, rfl, rfl⟩
    · have hbit : (if i = .rota then 17 else 18) = (rotEvent i).bit := by cases i <;> rfl
      rw [hbit, expireIfDue_of_locked _ _ _ ht hl, raise_bit]
      simp
    · rw [expireIfDue_of_unlocked _ _ _ ht hl, setRot_events]

/-! ### The tick (R55, R63) -/

/-- The overdue expiries of both inputs, as a tick has them (log 10). -/
def Bridge.expireBoth (now : Stamp) (br : Bridge) : Bridge := (br.expireIfDue now .rota).expireIfDue now .rotb

theorem tick_bridge (s : State) : s.tick.bridge = s.bridge.expireBoth s.env.timestamp := rfl

theorem rot_expireBoth (now : Stamp) (br : Bridge) (i : RotId) :
    (br.expireBoth now).rot i = if (br.rot i).timedOut now = true then (br.rot i).expired else br.rot i := by
  unfold Bridge.expireBoth
  cases i <;> simp [rot_expireIfDue]

theorem expireBoth_bit (now : Stamp) (br : Bridge) (i : RotId) :
    (br.expireBoth now).events.getLsbD (rotEvent i).bit = (br.events.getLsbD (rotEvent i).bit ||
      ((br.rot i).timedOut now && decide ((br.rot i).state = .locked))) := by
  unfold Bridge.expireBoth
  rw [expireIfDue_bit, expireIfDue_bit, rot_expireIfDue]
  cases i <;> simp [rotEvent, Event.bit]

theorem expireBoth_otherEvents (now : Stamp) (br : Bridge) : br.OtherEvents (br.expireBoth now) [.rota, .rotb] :=
  ((expireIfDue_otherEvents now br .rota).mono (by simp [rotEvent])).trans
    ((expireIfDue_otherEvents now _ .rotb).mono (by simp [rotEvent]))

theorem expireBoth_views (now : Stamp) (br : Bridge) : (br.expireBoth now).views = br.views :=
  (expireIfDue_frame now _ .rotb).views.trans (expireIfDue_frame now br .rota).views

theorem expireBoth_of_not_due (now : Stamp) (br : Bridge) (h : ∀ i, (br.rot i).timedOut now = false) :
    br.expireBoth now = br := by
  unfold Bridge.expireBoth
  rw [expireIfDue_of_not_due now br .rota (h .rota), expireIfDue_of_not_due now br .rotb (h .rotb)]

theorem exec_timestampTick_of_quiet (s : State) (hq : s.quiet = true) (hr : s.env.resetAsserted = false) :
    exec .timestampTick s = .next s.tick := by
  change execTimestampTick s = _
  rw [execTimestampTick, settle_of_quiet s hq, hr]
  rfl

/-- Settles O7: the tick of a quiet machine (`exec_timestampTick_of_quiet`), whose bridge is that of the overdue expiries
(`rot_expireBoth`, `expireBoth_bit`). -/
theorem tickCountsAMicrosecond : Obligations.TickCountsAMicrosecond := by
  unfold Obligations.TickCountsAMicrosecond
  intro s hq hr
  refine ⟨s.tick, exec_timestampTick_of_quiet s hq hr, rfl, rfl, hr, rfl, rfl, fun hp => ?_, fun p hp => ?_, rfl, rfl,
    expireBoth_views .., fun i hi => ?_, fun i hi => ?_, fun i hi => ?_, expireBoth_otherEvents _ _,
    expireBoth_of_not_due _ _⟩
  · rw [tick_dram, pass_performing, hp]
    rfl
  · rw [tick_dram, pass_performing, hp]
    rfl
  · rw [tick_bridge, rot_expireBoth, if_neg (by simp [hi])]
  · rw [tick_bridge, rot_expireBoth, if_pos hi, expireBoth_bit, hi]
    exact ⟨rfl, rfl, rfl, rfl, rfl, rfl, rfl, rfl, fun hl => ⟨if_pos hl, by simp [hl]⟩,
      fun hl => ⟨if_neg hl, by simp [hl]⟩⟩
  · rw [tick_bridge, expireBoth_bit, hi]
    simp

end Sys2Proof.Machine
end

section
/-! PROOF. The EDGE command (R64): its operands, its effect on one input, and its completion. -/

namespace Sys2Proof.Machine

open Laws

/-! ### Operands (R201) -/

/-- A field of two bytes is its two bytes; a byte beyond the record counts as 0 in both. -/
theorem fieldOf_two (bs : List Byte) (off : Nat) :
    fieldOf bs off 2 = (entryByte bs off).toNat + 256 * (entryByte bs (off + 1)).toNat := by
  have hbyte (k : Nat) : entryByte bs (off + k) = ((bs.drop off)[k]?).getD 0 := by
    rw [entryByte, List.getElem?_drop]
  rw [fieldOf, hbyte 1, show entryByte bs off = _ from hbyte 0]
  match bs.drop off with
  | [] => rfl
  | [a] => simp [littleEndian]
  | a :: b :: rest => simp [littleEndian]

/-- The input that the target byte of the command at the next index names (R64). -/
def Bridge.edgeNames (br : Bridge) (i : RotId) : Prop :=
  ((br.shadowByte br.nextIndex 1).toNat = 0 ∧ i = .rota) ∨ ((br.shadowByte br.nextIndex 1).toNat = 1 ∧ i = .rotb)

theorem targetInput_of_edgeNames (br : Bridge) (i : RotId) (h : br.edgeNames i) : targetInput br.nextEntry = some i := by
  unfold targetInput
  rw [entryByte_nextEntry br 1 (by omega)]
  obtain ⟨h, rfl⟩ | ⟨h, rfl⟩ := h
  · rw [h]; rfl
  · rw [h]; rfl

theorem edgeNames_unique (br : Bridge) (i j : RotId) (hi : br.edgeNames i) (hj : br.edgeNames j) : j = i :=
  Option.some.inj ((targetInput_of_edgeNames br j hj).symm.trans (targetInput_of_edgeNames br i hi))

theorem edgeNames_lt (br : Bridge) (i : RotId) (h : br.edgeNames i) : (br.shadowByte br.nextIndex 1).toNat < 2 := by
  obtain ⟨h, -⟩ | ⟨h, -⟩ := h
  · omega
  · omega

theorem exists_edgeNames (br : Bridge) (h : (br.shadowByte br.nextIndex 1).toNat < 2) : ∃ i, br.edgeNames i := by
  obtain h | h : (br.shadowByte br.nextIndex 1).toNat = 0 ∨ (br.shadowByte br.nextIndex 1).toNat = 1 := by omega
  · exact ⟨.rota, .inl ⟨h, rfl⟩⟩
  · exact ⟨.rotb, .inr ⟨h, rfl⟩⟩

/-- The argument of the command at the next index (R201). -/
def Bridge.edgeArgument (br : Bridge) : Nat :=
  (br.shadowByte br.nextIndex 2).toNat + 256 * (br.shadowByte br.nextIndex 3).toNat

theorem entryArgument_nextEntry (br : Bridge) : entryArgument br.nextEntry = br.edgeArgument := by
  rw [entryArgument, fieldOf_two, entryByte_nextEntry br 2 (by omega), entryByte_nextEntry br (2 + 1) (by omega)]
  rfl

theorem edgeModeOf_eq_none_iff (code : Nat) : edgeModeOf code = .none ↔ code = 0 := by
  unfold edgeModeOf
  split <;> simp_all

/-! ### The take -/

theorem setRot_rot_self (br : Bridge) (i : RotId) : br.setRot i (br.rot i) = br := by
  cases i <;> rfl

/-- What an EDGE command leaves alone, whatever its status. -/
structure State.EdgeFrame (s t : State) : Prop where
  take : s.PlainTakeFrame t
  views : t.bridge.views = s.bridge.views
  queue : t.bridge.solverQueue = s.bridge.solverQueue
  glitchA : t.bridge.glitchA = s.bridge.glitchA
  glitchB : t.bridge.glitchB = s.bridge.glitchB
  events : s.bridge.OtherEvents t.bridge [.cmd]
  ownWrites : t.bridge.ownWrites.length = s.bridge.ownWrites.length + 1

/-- The state with the record of one input replaced and its command completed. -/
def State.edgeCompleted (s : State) (i : RotId) (r : RotInput) (st : Status) : State :=
  { s with bridge := (s.bridge.setRot i r).completeTaken s.env st }

theorem edgeCompleted_frame (s : State) (i : RotId) (r : RotInput) (st : Status) :
    s.EdgeFrame (s.edgeCompleted i r st) where
  take :=
    { env := rfl, dram := rfl, readData := rfl, pending := rfl
      solver := setRot_solver .., mask := setRot_mask .., descriptors := setRot_descriptors ..
      requests := setRot_requests .., busWait := setRot_busWait .., accepted := setRot_accepted ..
      stream := setRot_stream .., assemblies := setRot_assemblies .., owners := setRot_owners ..
      position := setRot_position .., outOfRange := setRot_outOfRange .. }
  views := setRot_views ..
  queue := setRot_solverQueue ..
  glitchA := setRot_glitchA ..
  glitchB := setRot_glitchB ..
  events := fun n hn hne =>
    (completeTaken_otherEvents (s.bridge.setRot i r) s.env st 0 n hn hne).trans (by rw [setRot_events])
  ownWrites := by
    have htail : (s.edgeCompleted i r st).bridge.ownWrites.length = (s.bridge.setRot i r).ownWrites.length + 1 :=
      List.length_append
    rw [htail, setRot_ownWrites]

theorem edgeCompleted_completed (s : State) (hs : s.Shaped) (i : RotId) (r : RotInput) (st : Status) :
    s.bridge.Completed (s.edgeCompleted i r st).bridge s.env st 0 :=
  completeTaken_completed s.bridge (s.bridge.setRot i r) s.env st 0 (setRot_commandShadow ..) (setRot_nextIndex ..)
    hs.bridge.commandShadow hs.bridge.nextIndex

theorem edgeCompleted_rot (s : State) (i j : RotId) (r : RotInput) (st : Status) :
    (s.edgeCompleted i r st).bridge.rot j = if j = i then r else s.bridge.rot j := by
  rw [← rot_setRot]
  cases j <;> rfl

theorem exec_edge_of_take (s : State) (hd : takeDueOf .edge s.bridge = true) (i : RotId) (r : RotInput) (st : Status)
    (htake : takeEdge s.env s.bridge = (s.bridge.setRot i r).completeTaken s.env st) :
    exec .edge s = .next (s.edgeCompleted i r st) := by
  have hnext : takeNext s.env s.bridge = takeEdge s.env s.bridge := by
    simp only [takeNext, (takeNext_of_dueOf _ _ hd).2]
  rw [exec_ringRow .edge .edge s (by simp [ringRows]) hd, hnext, htake]
  rfl

/-! ### The effect of the take -/

theorem takeEdge_of_badTarget (env : Env) (br : Bridge) (h : 2 ≤ (br.shadowByte br.nextIndex 1).toNat) :
    takeEdge env br = br.completeTaken env .badTarget := by
  simp only [takeEdge, targetInput_eq_none br h]

theorem takeEdge_of_badArgument (env : Env) (br : Bridge) (i : RotId) (hi : br.edgeNames i) (ha : 3 < br.edgeArgument) :
    takeEdge env br = br.completeTaken env .badArgument := by
  simp only [takeEdge, targetInput_of_edgeNames br i hi, entryArgument_nextEntry, if_pos ha]

theorem takeEdge_of_mode (env : Env) (br : Bridge) (i : RotId) (hi : br.edgeNames i) (ha : br.edgeArgument ≤ 3) :
    takeEdge env br =
      (br.setRot i ((br.rot i).setMode (edgeModeOf br.edgeArgument))).completeTaken env .done := by
  simp only [takeEdge, targetInput_of_edgeNames br i hi, entryArgument_nextEntry, if_neg (Nat.not_lt.2 ha)]

/-- The take of an EDGE command replaces the record `r` of an input `i` and completes with the status `st`; a refusal
replaces a record by itself. -/
structure Bridge.EdgeEffect (br : Bridge) (env : Env) (i : RotId) (r : RotInput) (st : Status) : Prop where
  take : takeEdge env br = (br.setRot i r).completeTaken env st
  badTarget : 2 ≤ (br.shadowByte br.nextIndex 1).toNat → st = .badTarget
  badArgument : (br.shadowByte br.nextIndex 1).toNat < 2 → 3 < br.edgeArgument → st = .badArgument
  done : (br.shadowByte br.nextIndex 1).toNat < 2 → br.edgeArgument ≤ 3 → st = .done
  set : ∀ j, br.edgeNames j → br.edgeArgument ≤ 3 → j = i ∧ r = (br.rot j).setMode (edgeModeOf br.edgeArgument)
  kept : ∀ j, ¬ (br.edgeNames j ∧ br.edgeArgument ≤ 3) → (if j = i then r else br.rot j) = br.rot j

theorem takeEdge_effect (env : Env) (br : Bridge) : ∃ i r st, br.EdgeEffect env i r st := by
  have hsame (i j : RotId) : (if j = i then br.rot i else br.rot j) = br.rot j := by
    split
    · rename_i h; rw [h]
    · rfl
  by_cases htarget : 2 ≤ (br.shadowByte br.nextIndex 1).toNat
  · refine ⟨.rota, br.rot .rota, .badTarget, ?_, fun _ => rfl, fun h => by omega, fun h => by omega, fun j hj => ?_,
      fun j _ => hsame _ j⟩
    · rw [takeEdge_of_badTarget env br htarget, setRot_rot_self]
    · have := edgeNames_lt br j hj
      omega
  · obtain ⟨i, hi⟩ := exists_edgeNames br (by omega)
    by_cases ha : br.edgeArgument ≤ 3
    · refine ⟨i, _, .done, takeEdge_of_mode env br i hi ha, fun h => (htarget h).elim, fun _ h => by omega,
        fun _ _ => rfl, fun j hj _ => ?_, fun j hj => if_neg ?_⟩
      · obtain rfl := edgeNames_unique br i j hi hj
        exact ⟨rfl, rfl⟩
      · rintro rfl
        exact hj ⟨hi, ha⟩
    · refine ⟨i, br.rot i, .badArgument, ?_, fun h => (htarget h).elim, fun _ _ => rfl, fun _ h => (ha h).elim,
        fun j _ h => (ha h).elim, fun j _ => hsame i j⟩
      rw [takeEdge_of_badArgument env br i hi (by omega), setRot_rot_self]

/-- Settles O43: the effect of the take (`takeEdge_effect`) and what its completion leaves (`edgeCompleted_frame`). -/
theorem edgeSetsTheMode : Obligations.EdgeSetsTheMode := by
  unfold Obligations.EdgeSetsTheMode
  intro s hs hd target argument
  obtain ⟨i, r, st, heffect⟩ := takeEdge_effect s.env s.bridge
  have hframe := edgeCompleted_frame s i r st
  have hcompleted := edgeCompleted_completed s hs i r st
  refine ⟨_, exec_edge_of_take s hd i r st heffect.take, hframe.take.toTakeFrame, hframe.views, hframe.queue,
    hframe.glitchA, hframe.glitchB, hframe.take.outOfRange, hframe.take.owners, hframe.take.position, hframe.events,
    hframe.ownWrites, fun h => heffect.badTarget h ▸ hcompleted, fun h ha => heffect.badArgument h ha ▸ hcompleted,
    fun h ha => heffect.done h ha ▸ hcompleted, fun j hj => ?_,
    fun j hj => (edgeCompleted_rot ..).trans (heffect.kept j hj)⟩
  obtain ⟨rfl, rfl⟩ := heffect.set j hj.1 hj.2
  rw [edgeCompleted_rot, if_pos rfl]
  exact ⟨rfl, if_congr (edgeModeOf_eq_none_iff _) rfl rfl, rfl, rfl, rfl, rfl, rfl, rfl, rfl⟩

end Sys2Proof.Machine
end

section
/-! PROOF. One axis of the motion solve (sections 4.3 to 4.6): the terms of its arithmetic, the prediction, the phase bin,
the cost as a sum over gradients, and the integration of the step. -/

namespace Sys2Proof.Machine

open Laws

/-! ### Clamps and rounding (00_scope.md) -/

theorem clamp_of_within (m : Nat) (a : Int) (h : within m a) : clamp (-(m : Int)) m a = a := by
  obtain ⟨hlo, hhi⟩ := h
  rw [clamp, if_neg (by omega), if_neg (by omega)]

theorem clamp_of_below (m : Nat) (a : Int) (h : a < -(m : Int)) : clamp (-(m : Int)) m a = -(m : Int) := if_pos h

theorem clamp_of_above (m : Nat) (a : Int) (h : (m : Int) < a) : clamp (-(m : Int)) m a = m := by
  rw [clamp, if_neg (by omega), if_pos h]

theorem within_clamp (m : Nat) (a : Int) : within m (clamp (-(m : Int)) m a) := by
  by_cases hlo : a < -(m : Int)
  · rw [clamp_of_below m a hlo]
    exact ⟨by omega, by omega⟩
  · by_cases hhi : (m : Int) < a
    · rw [clamp_of_above m a hhi]
      exact ⟨by omega, by omega⟩
    · have h : within m a := ⟨by omega, by omega⟩
      rwa [clamp_of_within m a h]

/-- R87: an offset lies within M where the displacement lies within 16·M. -/
theorem within_round16 (m : Nat) (a : Int) (h : within (16 * m) a) : within m (round16 a) := by
  obtain ⟨hnear, -⟩ := rounded_round16 a
  obtain ⟨hlo, hhi⟩ := h
  exact ⟨by omega, by omega⟩

/-! ### The phase table (R80, R88) -/

theorem updateTable_length (table : List Int) (b : Option Nat) (a : Int) :
    (updateTable table b a).length = table.length := by
  cases b with
  | none => rfl
  | some n => exact List.length_modify ..

theorem updateTable_of_ne (table : List Int) (b : Option Nat) (a : Int) (n : Nat) (h : b ≠ some n) :
    (updateTable table b a)[n]? = table[n]? := by
  cases b with
  | none => rfl
  | some k =>
    have hk : k ≠ n := fun hh => h (congrArg some hh)
    simp [updateTable, hk]

/-- R88: the entry of the bin moves a quarter of the way, rounded down. -/
theorem updateTable_self (table : List Int) (a x : Int) (n : Nat) (h : table[n]? = some x) :
    ∃ y, (updateTable table (some n) a)[n]? = some y ∧ 4 * (y - x) ≤ a - x ∧ a - x < 4 * (y - x) + 4 := by
  refine ⟨x + (a - x).fdiv 4, by simp [updateTable, h], ?_⟩
  rw [Int.fdiv_eq_ediv_of_nonneg _ (by decide)]
  omega

theorem prediction_eq_zero (table : List Int) (m : Nat) (bcur bref : Option Nat) (selected valid : Bool)
    (h : bcur = none ∨ bref = none ∨ selected = false ∨ valid = false) :
    prediction table m bcur bref selected valid = 0 := by
  unfold prediction
  split
  · rw [if_neg]
    obtain h | h | h | h := h <;> simp_all
  · rfl

theorem prediction_of_bins (table : List Int) (m c r : Nat) :
    prediction table m (some c) (some r) true true =
      clamp (-(m : Int)) m (round16 (table.getD c 0 - table.getD r 0)) := rfl

/-- R80: the prediction. -/
theorem prediction_spec (table : List Int) (m : Nat) (bcur bref : Option Nat) (selected valid : Bool) :
    let p := prediction table m bcur bref selected valid
    (bcur = none ∨ bref = none ∨ selected = false ∨ valid = false → p = 0)
    ∧ (∀ c r, bcur = some c → bref = some r → selected = true → valid = true →
        ∃ q, Rounded (table.getD c 0 - table.getD r 0) q ∧ (within m q → p = q)
          ∧ (q < -(m : Int) → p = -(m : Int)) ∧ ((m : Int) < q → p = m)) := by
  refine ⟨prediction_eq_zero table m bcur bref selected valid, ?_⟩
  rintro c r rfl rfl rfl rfl
  rw [prediction_of_bins]
  exact ⟨_, rounded_round16 _, clamp_of_within m _, clamp_of_below m _, clamp_of_above m _⟩

/-! ### The phase bin (R67) -/

theorem bin_spec (sn : Snapshot) (ph : PhasePart) (h : sn.phase = some ph) (hp : 0 < ph.period) :
    ∃ n, sn.bin = some n ∧ n < 16 ∧ n * ph.period ≤ 16 * ((sn.time - ph.origin).toNat % ph.period)
      ∧ 16 * ((sn.time - ph.origin).toNat % ph.period) < (n + 1) * ph.period := by
  have hmod : (sn.time - ph.origin).toNat % ph.period < ph.period := Nat.mod_lt _ hp
  refine ⟨16 * ((sn.time - ph.origin).toNat % ph.period) / ph.period, ?_, ?_, Nat.div_mul_le_self _ _,
    Nat.lt_mul_of_div_lt (Nat.lt_succ_self _) hp⟩
  · rw [Snapshot.bin, h]
    rfl
  · rw [Nat.div_lt_iff_lt_mul hp]
    omega

/-! ### The cost of a candidate (R78, R82) -/

theorem gradient_length (xs : List Nat) : (gradient xs).length = xs.length - 1 := by
  induction xs using gradient.induct with
  | case1 a b rest ih => simp [gradient, ih]
  | case2 xs h =>
    match xs, h with
    | [], _ => rfl
    | [a], _ => rfl
    | a :: b :: rest, h => exact (h a b rest rfl).elim

/-- R78: an item of a gradient. -/
theorem gradient_getD (xs : List Nat) (n : Nat) (h : n + 1 < xs.length) :
    (gradient xs).getD n 0 = (xs.getD (n + 1) 0 : Int) - xs.getD n 0 := by
  induction xs using gradient.induct generalizing n with
  | case1 a b rest ih =>
    cases n with
    | zero => rfl
    | succ n => exact ih n (by simpa using h)
  | case2 xs hshort =>
    match xs, hshort with
    | [], _ => simp at h
    | [a], _ => simp at h
    | a :: b :: rest, hshort => exact (hshort a b rest rfl).elim

theorem absDiffSum_eq_sum (as bs : List Int) :
    absDiffSum as bs =
      (Finset.range (min as.length bs.length)).sum (fun k => (as.getD k 0 - bs.getD k 0).natAbs) := by
  induction as generalizing bs with
  | nil => simp [absDiffSum]
  | cons a as ih =>
    cases bs with
    | nil => simp [absDiffSum]
    | cons b bs =>
      have hlen : min (a :: as).length (b :: bs).length = min as.length bs.length + 1 := by simp
      rw [absDiffSum, ih, hlen, Finset.sum_range_succ', Nat.add_comm]
      rfl

/-- R82: the cost as the sum over the lines m + 1 to n − 1 − m. -/
theorem axisCost_eq_sum (m : Nat) (cur ref : List Nat) (s : Int) (hlen : cur.length = ref.length) (hs : within m s) :
    axisCost m cur.length (gradient cur) (gradient ref) s
      = (Finset.Ico (m + 1) (cur.length - m)).sum (fun y =>
          (((cur.getD y 0 : Int) - cur.getD (y - 1) 0)
            - ((ref.getD ((y : Int) - s).toNat 0 : Int) - ref.getD ((y : Int) - s - 1).toNat 0)).natAbs) := by
  obtain ⟨hlo, hhi⟩ := hs
  have hterms : min (((gradient cur).drop m).take (cur.length - 1 - 2 * m)).length
      ((gradient ref).drop ((m : Int) - s).toNat).length = cur.length - m - (m + 1) := by
    rw [List.length_take, List.length_drop, List.length_drop, gradient_length, gradient_length]
    omega
  rw [axisCost, absDiffSum_eq_sum, hterms, Finset.sum_Ico_eq_sum_range]
  refine Finset.sum_congr rfl (fun k hk => ?_)
  have hk' : k < cur.length - m - (m + 1) := Finset.mem_range.1 hk
  have hcur : (((gradient cur).drop m).take (cur.length - 1 - 2 * m)).getD k 0 = (gradient cur).getD (m + k) 0 := by
    rw [List.getD_eq_getElem?_getD, List.getD_eq_getElem?_getD, List.getElem?_take_of_lt (by omega), List.getElem?_drop]
  have href : ((gradient ref).drop ((m : Int) - s).toNat).getD k 0 = (gradient ref).getD (((m : Int) - s).toNat + k) 0 := by
    rw [List.getD_eq_getElem?_getD, List.getD_eq_getElem?_getD, List.getElem?_drop]
  have hline : ((m + 1 + k : Nat) : Int) - s = ((((m : Int) - s).toNat + k + 1 : Nat) : Int) := by omega
  have hbefore : ((((m : Int) - s).toNat + k + 1 : Nat) : Int) - 1 = ((((m : Int) - s).toNat + k : Nat) : Int) := by omega
  rw [hcur, href, gradient_getD cur _ (by omega), gradient_getD ref _ (by omega), hline, hbefore, Int.toNat_natCast,
    Int.toNat_natCast, show m + 1 + k = m + k + 1 by omega, Nat.add_sub_cancel]

/-! ### The step of an axis (R77, R85 to R88) -/

/-- The measurement an axis that is on integrates (R79, R85): 0 without a reference. -/
def axisMeasured (m sr ft : Nat) (table : List Int) (cur : List Nat) (bcur bref : Option Nat) (selected : Bool) :
    Option (List Nat) → Measured
  | none => { d := 0, flat := false }
  | some rows => measureAxis (prediction table m bcur bref selected true) sr m ft cur rows

/-- R86: the displacement of an axis after a step. -/
def axisDisplacement (m l : Nat) (a d : Int) : Int := clamp (-(16 * (m : Int))) (16 * m) (integrate a d l)

theorem solveAxis_of_on (m sr ft l : Nat) (a : Int) (table : List Int) (cur : List Nat) (ref : Option (List Nat))
    (bcur bref : Option Nat) (selected : Bool) (hm : 0 < m) :
    let q := axisMeasured m sr ft table cur bcur bref selected ref
    let a' := axisDisplacement m l a q.d
    solveAxis m sr ft l a table cur ref bcur bref selected =
      { step := some q.d, flat := q.flat, clamped := decide (a' ≠ integrate a q.d l), a := a', offset := round16 a'
        table := updateTable table bcur a' } := by
  rw [solveAxis, if_neg hm.ne']
  cases ref <;> rfl

/-- R86: the clamped integral, and whether the clamp changed it. -/
theorem axisDisplacement_spec (m l : Nat) (a d : Int) :
    let raw := a + 16 * d - (a * l).tdiv 256
    let a' := axisDisplacement m l a d
    let clamped := decide (a' ≠ integrate a d l)
    (within (16 * m) raw → a' = raw ∧ clamped = false)
      ∧ (raw < -(16 * (m : Int)) → a' = -(16 * (m : Int)) ∧ clamped = true)
      ∧ (16 * (m : Int) < raw → a' = 16 * (m : Int) ∧ clamped = true) := by
  intro raw a' clamped
  have hclamp : a' = clamp (-((16 * m : Nat) : Int)) (16 * m : Nat) raw := by
    rw [Nat.cast_mul]
    rfl
  have hclamped : clamped = decide (a' ≠ raw) := rfl
  rw [hclamped, decide_eq_false_iff_not, decide_eq_true_iff, not_not]
  refine ⟨fun h => ?_, fun h => ?_, fun h => ?_⟩
  · have ha := hclamp.trans (clamp_of_within _ _ h)
    exact ⟨ha, ha⟩
  · have ha := hclamp.trans (clamp_of_below _ _ (by omega))
    exact ⟨by omega, by omega⟩
  · have ha := hclamp.trans (clamp_of_above _ _ (by omega))
    exact ⟨by omega, by omega⟩

theorem within_axisDisplacement (m l : Nat) (a d : Int) : within (16 * m) (axisDisplacement m l a d) := by
  have h := within_clamp (16 * m) (integrate a d l)
  rwa [Nat.cast_mul] at h

/-- R77 to R88: an axis that is on. -/
theorem solveAxis_spec (m sr ft l : Nat) (a : Int) (table : List Int) (cur : List Nat) (ref : Option (List Nat))
    (bcur bref : Option Nat) (selected : Bool) (hm : 0 < m) :
    let r := solveAxis m sr ft l a table cur ref bcur bref selected
    ∃ d, r.step = some d ∧ (ref = none → d = 0 ∧ r.flat = false)
      ∧ (∀ rows, ref = some rows →
          let q := measureAxis (prediction table m bcur bref selected true) sr m ft cur rows
          d = q.d ∧ r.flat = q.flat)
      ∧ (let raw := a + 16 * d - (a * l).tdiv 256
         (within (16 * m) raw → r.a = raw ∧ r.clamped = false)
          ∧ (raw < -(16 * (m : Int)) → r.a = -(16 * (m : Int)) ∧ r.clamped = true)
          ∧ (16 * (m : Int) < raw → r.a = 16 * (m : Int) ∧ r.clamped = true))
      ∧ within (16 * m) r.a ∧ within m r.offset ∧ Rounded r.a r.offset
      ∧ r.table.length = table.length
      ∧ (∀ n, bcur ≠ some n → r.table[n]? = table[n]?)
      ∧ (∀ n x, bcur = some n → table[n]? = some x →
          ∃ y, r.table[n]? = some y ∧ 4 * (y - x) ≤ r.a - x ∧ r.a - x < 4 * (y - x) + 4) := by
  intro r
  have hr : r = _ := solveAxis_of_on m sr ft l a table cur ref bcur bref selected hm
  have hwithin := within_axisDisplacement m l a (axisMeasured m sr ft table cur bcur bref selected ref).d
  rw [hr]
  refine ⟨_, rfl, ?_, ?_, axisDisplacement_spec m l a _, hwithin, within_round16 m _ hwithin, rounded_round16 _,
    updateTable_length table bcur _, updateTable_of_ne table bcur _, ?_⟩
  · rintro rfl
    exact ⟨rfl, rfl⟩
  · rintro rows rfl
    exact ⟨rfl, rfl⟩
  · rintro n x rfl hx
    exact updateTable_self table _ x n hx

/-- Settles O49, from what an axis does that is on (`solveAxis_spec`), and the prediction, the bin and the cost it rests
on (`prediction_spec`, `bin_spec`, `axisCost_eq_sum`). -/
theorem axisIntegratesItsStep : Obligations.AxisIntegratesItsStep := by
  unfold Obligations.AxisIntegratesItsStep
  refine ⟨fun m sr ft l a table cur ref bcur bref selected => ⟨fun hm => ?_, ?_⟩, prediction_spec,
    fun sn => ⟨fun h => ?_, bin_spec sn⟩, axisCost_eq_sum⟩
  · rw [solveAxis, if_pos hm]
    exact ⟨rfl, rfl, rfl, rfl, rfl, rfl⟩
  · exact solveAxis_spec m sr ft l a table cur ref bcur bref selected
  · rw [Snapshot.bin, h]
    rfl

end Sys2Proof.Machine
end

section
/-! PROOF. The measured step of an axis (R81 to R84): the three tie tests order the candidates, and the choice is the least
in that order. -/

namespace Sys2Proof.Machine

open Laws

/-! ### The order of the candidates (R83) -/

/-- The key by which a candidate is chosen: its cost, then its distance from p, then its size, then itself. -/
def candidateKey (p : Int) (c : Int × Nat) : ℕ ×ₗ ℕ ×ₗ ℕ ×ₗ ℤ :=
  toLex (c.2, toLex ((c.1 - p).natAbs, toLex (c.1.natAbs, c.1)))

theorem candidateKey_lt_iff (p s t : Int) (c d : Nat) :
    candidateKey p (s, c) < candidateKey p (t, d) ↔
      c < d ∨ (c = d ∧ ((s - p).natAbs < (t - p).natAbs ∨ ((s - p).natAbs = (t - p).natAbs ∧
        (s.natAbs < t.natAbs ∨ (s.natAbs = t.natAbs ∧ s < t))))) := by
  simp only [candidateKey, Prod.Lex.toLex_lt_toLex]

theorem candidateKey_ne (p : Int) {x y : Int × Nat} (h : x.1 ≠ y.1) : candidateKey p x ≠ candidateKey p y :=
  fun heq => h (congrArg (fun k => (ofLex (ofLex (ofLex k).2).2).2) heq)

/-- R83: the tests of `betterCandidate`, one after another, compare the keys. -/
theorem betterCandidate_iff (p s t : Int) (c d : Nat) :
    betterCandidate p s c t d = true ↔ candidateKey p (s, c) < candidateKey p (t, d) := by
  rw [candidateKey_lt_iff]
  unfold betterCandidate
  split
  case isTrue hcost => rw [decide_eq_true_eq]; omega
  case isFalse hcost =>
    split
    case isTrue hnear => rw [decide_eq_true_eq]; omega
    case isFalse hnear =>
      split
      case isTrue hsize => rw [decide_eq_true_eq]; omega
      case isFalse hsize => rw [decide_eq_true_eq]; omega

/-- R83: the choice is one of the candidates, and its key is the least. -/
theorem chooseCandidate_least (p : Int) (best : Int × Nat) (cs : List (Int × Nat)) :
    chooseCandidate p best cs ∈ best :: cs
      ∧ ∀ x ∈ best :: cs, candidateKey p (chooseCandidate p best cs) ≤ candidateKey p x := by
  induction cs generalizing best with
  | nil => simp [chooseCandidate]
  | cons c cs ih =>
    have hnext : (if betterCandidate p c.1 c.2 best.1 best.2 then c else best) ∈ [best, c]
        ∧ candidateKey p (if betterCandidate p c.1 c.2 best.1 best.2 then c else best) ≤ candidateKey p best
        ∧ candidateKey p (if betterCandidate p c.1 c.2 best.1 best.2 then c else best) ≤ candidateKey p c := by
      have hiff := betterCandidate_iff p c.1 best.1 c.2 best.2
      split
      case isTrue hb => exact ⟨by simp, (hiff.1 hb).le, le_rfl⟩
      case isFalse hb => exact ⟨by simp, le_rfl, not_lt.1 (mt hiff.2 hb)⟩
    obtain ⟨hone, hbest, hc⟩ := hnext
    obtain ⟨hmem, hleast⟩ := ih (if betterCandidate p c.1 c.2 best.1 best.2 then c else best)
    rw [chooseCandidate]
    refine ⟨?_, fun x hx => ?_⟩
    · rcases List.mem_cons.1 hmem with h | h
      · rw [h]
        simp only [List.mem_cons, List.not_mem_nil, or_false] at hone ⊢
        exact hone.imp_right .inl
      · simp [h]
    · rcases List.mem_cons.1 hx with rfl | hx
      · exact (hleast _ (by simp)).trans hbest
      · rcases List.mem_cons.1 hx with rfl | hx
        · exact (hleast _ (by simp)).trans hc
        · exact hleast x (by simp [hx])

/-! ### The measurement (R83, R84) -/

/-- The greatest of some numbers is one of them. -/
theorem foldl_max_greatest (xs : List Nat) (h : xs ≠ []) :
    xs.foldl max 0 ∈ xs ∧ ∀ x ∈ xs, x ≤ xs.foldl max 0 := by
  obtain ⟨x, rest, rfl⟩ := List.exists_cons_of_ne_nil h
  have hmax : (x :: rest).max? = some ((x :: rest).foldl max 0) := by
    rw [List.max?_cons', List.foldl_cons, Nat.zero_max]
  exact List.max?_eq_some_iff.1 hmax

/-- R83, R84: the measurement of an axis: the candidate of least key, or p where the valley is flat by the least and the
greatest cost. -/
theorem measureAxis_spec (p : Int) (sr m ft : Nat) (cur ref : List Nat) (hss : candidates p sr m ≠ []) :
    let cost := axisCost m cur.length (gradient cur) (gradient ref)
    ∃ lo ∈ candidates p sr m, ∃ hi ∈ candidates p sr m,
      (∀ s ∈ candidates p sr m, candidateKey p (lo, cost lo) ≤ candidateKey p (s, cost s) ∧ cost s ≤ cost hi)
      ∧ measureAxis p sr m ft cur ref =
          if cost hi = 0 ∨ cost hi * ft ≤ cost lo * 16 then { d := p, flat := true } else { d := lo, flat := false } := by
  intro cost
  obtain ⟨c, cs, hcs⟩ := List.exists_cons_of_ne_nil
    (List.map_eq_nil_iff.not.2 hss : (candidates p sr m).map (fun s => (s, cost s)) ≠ [])
  have hmem (x : Int × Nat) : x ∈ c :: cs ↔ ∃ s ∈ candidates p sr m, (s, cost s) = x := by rw [← hcs, List.mem_map]
  obtain ⟨hchosen, hleast⟩ := chooseCandidate_least p c cs
  obtain ⟨hgreatest, hgreater⟩ := foldl_max_greatest ((c :: cs).map (·.2)) (by simp)
  obtain ⟨lo, hlo, hlo'⟩ := (hmem _).1 hchosen
  obtain ⟨x, hx, hhi⟩ := List.mem_map.1 hgreatest
  obtain ⟨hi, hhi', rfl⟩ := (hmem x).1 hx
  refine ⟨lo, hlo, hi, hhi', fun s hs => ?_, ?_⟩
  · have hpair := (hmem _).2 ⟨s, hs, rfl⟩
    refine ⟨hlo' ▸ hleast _ hpair, ?_⟩
    rw [show cost hi = _ from hhi]
    exact hgreater _ (List.mem_map_of_mem hpair)
  · have hcosts : (candidates p sr m).map (fun s => (s, axisCost m cur.length (gradient cur) (gradient ref) s)) = c :: cs :=
      hcs
    simp only [measureAxis, hcosts, ← hhi, ← hlo']

/-- Settles O48: the least and the greatest cost of the candidates decide whether the valley is flat, and the least key is
the step where it is not (`measureAxis_spec`). -/
theorem measuredStepIsTheBestCandidate : Obligations.MeasuredStepIsTheBestCandidate := by
  unfold Obligations.MeasuredStepIsTheBestCandidate
  intro p sr m ft cur ref cost ss r hss
  obtain ⟨lo, hlo, hi, hhi, hbounds, hmeasure⟩ := measureAxis_spec p sr m ft cur ref hss
  have hr : r = if cost hi = 0 ∨ cost hi * ft ≤ cost lo * 16 then { d := p, flat := true }
      else { d := lo, flat := false } := hmeasure
  have hkey (s : Int) (hs : s ∈ ss) : candidateKey p (lo, cost lo) ≤ candidateKey p (s, cost s) := (hbounds s hs).1
  have hle (s : Int) (hs : s ∈ ss) : cost lo ≤ cost s := by
    by_contra hlt
    exact (hkey s hs).not_gt ((candidateKey_lt_iff p s lo _ _).2 (.inl (by omega)))
  have hge (s : Int) (hs : s ∈ ss) : cost s ≤ cost hi := (hbounds s hs).2
  have hflat : r.flat = true ↔ cost hi = 0 ∨ cost hi * ft ≤ cost lo * 16 := by
    rw [hr]
    split <;> simp_all
  refine ⟨hflat.trans ⟨fun h => ?_, fun h => ?_⟩, fun h => ?_, fun h => ?_⟩
  · refine h.imp (fun h0 s hs => ?_) fun hft => ⟨lo, hlo, hi, hhi, fun s hs => ⟨hle s hs, hge s hs⟩, hft⟩
    have := hge s hs
    omega
  · refine h.imp (fun h0 => h0 hi hhi) fun ⟨lo', hlo', hi', hhi', hbounds', hft⟩ => ?_
    have hleast : cost lo' = cost lo := le_antisymm (hbounds' lo hlo).1 (hle lo' hlo')
    have hgreatest : cost hi' = cost hi := le_antisymm (hge hi' hhi') (hbounds' hi hhi).2
    rwa [← hleast, ← hgreatest]
  · rw [hr, if_pos (hflat.1 h)]
  · have hnot : ¬ (cost hi = 0 ∨ cost hi * ft ≤ cost lo * 16) := mt hflat.2 (by simp [h])
    rw [if_neg hnot] at hr
    rw [hr]
    exact ⟨hlo, fun s hs hne =>
      (candidateKey_lt_iff p lo s _ _).1 (lt_of_le_of_ne (hkey s hs) (candidateKey_ne p (Ne.symm hne)))⟩

end Sys2Proof.Machine
end

section
/-! PROOF. Motion and offsets within the margins (R42, R86, R87): what each change of a view keeps of them, and the results
of a solve. -/

namespace Sys2Proof.Machine

open Laws

/-! ### The results of an axis (R77, R86 to R88) -/

/-- R88: a quarter of the way between two bounded values stays within their bound. -/
theorem within_quarter (m : Nat) (a x y : Int) (ha : within m a) (hx : within m x) (hlo : 4 * (y - x) ≤ a - x)
    (hhi : a - x < 4 * (y - x) + 4) : within m y := by
  obtain ⟨ha, ha'⟩ := ha
  obtain ⟨hx, hx'⟩ := hx
  exact ⟨by omega, by omega⟩

/-- R86 to R88: the displacement, the offset and the phase table of an axis after a solve, whether it is on or off. -/
theorem solveAxis_within (m sr ft l : Nat) (a : Int) (table : List Int) (cur : List Nat) (ref : Option (List Nat))
    (bcur bref : Option Nat) (selected : Bool) (htable : ∀ d ∈ table, within (16 * m) d) :
    let r := solveAxis m sr ft l a table cur ref bcur bref selected
    within (16 * m) r.a ∧ within m r.offset ∧ r.table.length = table.length ∧ ∀ d ∈ r.table, within (16 * m) d := by
  intro r
  rcases Nat.eq_zero_or_pos m with hm | hm
  · have hr : r = { step := none, flat := false, clamped := false, a := 0, offset := 0, table := table } := if_pos hm
    rw [hr]
    exact ⟨within_zero _, within_zero _, rfl, htable⟩
  · obtain ⟨-, -, -, -, -, ha, hoffset, -, hlength, hother, hself⟩ :=
      solveAxis_spec m sr ft l a table cur ref bcur bref selected hm
    refine ⟨ha, hoffset, hlength, fun d hd => ?_⟩
    obtain ⟨n, hn⟩ := List.mem_iff_getElem?.1 hd
    by_cases hbin : bcur = some n
    · have hlt : n < table.length := Nat.lt_of_lt_of_eq (List.getElem?_eq_some_iff.1 hn).1 hlength
      obtain ⟨y, hy, hlo, hhi⟩ := hself n _ hbin (List.getElem?_eq_getElem hlt)
      obtain rfl : y = d := Option.some.inj (hy.symm.trans hn)
      exact within_quarter _ _ _ _ ha (htable _ (List.getElem_mem hlt)) hlo hhi
    · exact htable d (List.mem_of_getElem? ((hother n hbin).symm.trans hn))

/-- Motion within the margins of a geometry (R76, R86): displacement and phase tables. -/
structure Motion.Within (mo : Motion) (g : Geometry) : Prop where
  ay : within (16 * g.my) mo.ay
  ax : within (16 * (g.mx / 2)) mo.ax
  dyLength : mo.dy.length = 16
  dxLength : mo.dx.length = 16
  dy : ∀ d ∈ mo.dy, within (16 * g.my) d
  dx : ∀ d ∈ mo.dx, within (16 * (g.mx / 2)) d

/-- R86 to R88: a solve on any buffers keeps motion within the margins, and its offsets lie within them. -/
theorem solveMotion_within (g : Geometry) (mo : Motion) (h : mo.Within g) (cur : ProfileBuffer) (ref : Option ProfileBuffer) :
    (mo.after (solveMotion g mo cur ref)).Within g
      ∧ Offsets.Within ⟨(solveMotion g mo cur ref).y.offset, (solveMotion g mo cur ref).x.offset⟩ g := by
  obtain ⟨hay, hoy, hdyLength, hdy⟩ := solveAxis_within g.my mo.active.sry mo.active.ft mo.active.l mo.ay mo.dy
    cur.rowSums (ref.map (·.rowSums)) (cur.snapshot.bind Snapshot.bin)
    (ref.bind (fun r => r.snapshot.bind Snapshot.bin)) g.rotation.isSome h.dy
  obtain ⟨hax, hox, hdxLength, hdx⟩ := solveAxis_within (g.mx / 2) mo.active.srx mo.active.ft mo.active.l mo.ax mo.dx
    cur.colSums (ref.map (·.colSums)) (cur.snapshot.bind Snapshot.bin)
    (ref.bind (fun r => r.snapshot.bind Snapshot.bin)) g.rotation.isSome h.dx
  exact ⟨⟨hay, hax, hdyLength.trans h.dyLength, hdxLength.trans h.dxLength, hdy, hdx⟩, hoy, hox⟩

/-! ### Changes of a view -/

theorem modSlot_mem (vw : View) (k : Nat) (f : Slot → Slot) (sl : Slot) (h : sl ∈ (vw.modSlot k f).slots) :
    sl ∈ vw.slots ∨ ∃ old ∈ vw.slots, sl = f old := by
  obtain ⟨n, hn⟩ := List.mem_iff_getElem?.1 h
  rw [modSlot_getElem?, Option.map_eq_some_iff] at hn
  obtain ⟨old, hold, hsl⟩ := hn
  have hmem := List.mem_of_getElem? hold
  split at hsl
  · exact .inr ⟨old, hmem, hsl.symm⟩
  · exact .inl (hsl ▸ hmem)

/-- R89, R90: what the solve of `e` stores in its view beside the slot: motion, reference and tiles. -/
def View.storeMotion (vw : View) (e : SolveEntry) (m : MotionResult) (t : TileResult) : View :=
  ((({ vw with motion := vw.motion.after m } : View).freeRole .ref).modBuffer e.buffer (·.withRole .ref)).withTiles t

/-- R89: the view whose solved slot is READY. -/
def View.storeSlot (vw : View) (e : SolveEntry) (m : MotionResult) (t : TileResult) : View :=
  (vw.modSlot e.frame.slot (fun sl =>
    { sl with state := .ready, offsets := some ⟨m.y.offset, m.x.offset⟩, map := t.map })).insertReady e.frame.slot

theorem storeSolve_eq (vw : View) (e : SolveEntry) (m : MotionResult) (t : TileResult) (reopened : Bool) :
    vw.storeSolve e m t reopened =
      if reopened then vw.storeMotion e m t else (vw.storeMotion e m t).storeSlot e m t := rfl

namespace View.Steady

variable {vw : View} (h : vw.Steady)
include h

theorem count (f : ViewCounters → ViewCounters) : (vw.count f).Steady := { h with }

theorem offsets : vw.motion.offsets.Within vw.geometry :=
  ⟨within_round16 _ _ h.ay, within_round16 _ _ h.ax⟩

theorem slotOffsets (k : Nat) (o : Offsets) (ho : vw.slotOffsets k = some o) : o.Within vw.geometry := by
  obtain ⟨sl, hsl, hoff⟩ := Option.bind_eq_some_iff.1 ho
  exact h.stored sl (List.mem_of_getElem? hsl) o hoff

/-- A slot record may change to one whose offsets, where it has any, are within the margins. -/
theorem modSlot (k : Nat) (f : Slot → Slot)
    (hf : ∀ sl ∈ vw.slots, ∀ o, (f sl).offsets = some o → o.Within vw.geometry) : (vw.modSlot k f).Steady :=
  { h with
    stored := fun sl hsl o ho => by
      rcases modSlot_mem vw k f sl hsl with hold | ⟨old, hold, rfl⟩
      · exact h.stored sl hold o ho
      · exact hf old hold o ho }

theorem setState (k : Nat) (st : SlotState) : (vw.setState k st).Steady := h.modSlot k _ h.stored

/-- R38: the end of a frame with a fault. -/
theorem faulted (j : Nat) : (vw.faulted j).Steady :=
  have hfree : (vw.freeRole .accum).Steady := { h with }
  { hfree.setState j .faulted with }

/-- R15, R25: breaking holds changes no offsets. -/
theorem liveEntries (p : MapEntry → Bool) : (vw.liveEntries p).Steady :=
  { h with
    stored := fun sl hsl o ho => by
      obtain ⟨old, hold, rfl⟩ := List.mem_map.1 hsl
      exact h.stored old hold o ho }

theorem readyUnsolved (k : Nat) (o : Offsets) (ho : o.Within vw.geometry) : (vw.readyUnsolved k o).Steady :=
  have hslot := h.modSlot k (fun sl => { sl with state := .ready, offsets := some o, map := allLive })
    (fun _ _ _ ho' => Option.some.inj ho' ▸ ho)
  { hslot with }

/-- R42: the offsets of an unsolved completion. -/
theorem unsolvedOffsets (parked : Bool) : (vw.motion.unsolvedOffsets parked).Within vw.geometry := by
  cases parked
  · exact h.offsets
  · exact ⟨within_zero _, within_zero _⟩

/-- R22: a slot in which a frame starts has no offsets. -/
theorem startSlot (k : Nat) : (vw.startSlot k).Steady :=
  have hslot := h.modSlot k (fun sl => sl.started vw.nextSequence vw.startCount) (fun _ _ _ ho => nomatch ho)
  { hslot with }

theorem startIntake (v : Fin 4) (k : Nat) : (vw.startIntake v k).Steady := by
  obtain ⟨buffers, hstart, -⟩ := startIntake_eq vw v k
  rw [hstart]
  exact { h with }

theorem takeRun (now : Stamp) (phase : Option PhasePart) (run : List (Nat × Byte)) : (vw.takeRun now phase run).Steady := by
  rw [takeRun_eq]
  exact { h with }

/-- R123: what an adoption records is the stored offsets of a slot. -/
theorem adopt : vw.adopt.Steady :=
  { h with
    recorded := fun o ho => by
      obtain ⟨k, -, hk⟩ := Option.bind_eq_some_iff.1 ho
      exact h.slotOffsets k o hk }

theorem displayRead (line : Nat) : (vw.displayRead line).Steady := by
  have hadopt := h.adopt
  unfold View.displayRead
  dsimp only
  split
  · exact { hadopt with }
  · exact { h with }

theorem scanRead (tag : Byte) (a : Nat) : (vw.scanRead tag a).Steady := by
  unfold View.scanRead
  split
  · exact h.displayRead _
  · exact h

/-- R13, R16: displacement and phase tables become 0. -/
theorem rebaseResets : vw.rebaseResets.Steady :=
  { h with
    ay := within_zero _
    ax := within_zero _
    dyLength := List.length_replicate
    dxLength := List.length_replicate
    dy := fun d hd => by rw [List.eq_of_mem_replicate hd]; exact within_zero _
    dx := fun d hd => by rw [List.eq_of_mem_replicate hd]; exact within_zero _ }

/-- R15: the offsets of READY slots and the recorded ones become 0. -/
theorem park : vw.park.Steady :=
  { h with
    stored := fun sl hsl o ho => by
      obtain ⟨old, hold, rfl⟩ := List.mem_map.1 hsl
      split at ho
      · exact Option.some.inj ho ▸ ⟨within_zero _, within_zero _⟩
      · exact h.stored old hold o ho
    recorded := fun o ho => by
      obtain ⟨-, -, rfl⟩ := Option.map_eq_some_iff.1 ho
      exact ⟨within_zero _, within_zero _⟩ }

/-- R17: a released view has no slots and records no offsets. -/
theorem release : vw.release.Steady :=
  { h with
    stored := fun _ hsl => nomatch hsl
    recorded := fun _ ho => nomatch ho }

theorem motion_within : vw.motion.Within vw.geometry := { h with }

/-- R86 to R88: the motion that a solve on any buffers stores. -/
theorem storeMotion (e : SolveEntry) (cur : ProfileBuffer) (ref : Option ProfileBuffer) (t : TileResult) :
    (vw.storeMotion e (solveMotion vw.geometry vw.motion cur ref) t).Steady := by
  obtain ⟨hmotion, -⟩ := solveMotion_within vw.geometry vw.motion h.motion_within cur ref
  exact { hmotion, h with }

theorem storeSlot (e : SolveEntry) (m : MotionResult) (t : TileResult)
    (ho : Offsets.Within ⟨m.y.offset, m.x.offset⟩ vw.geometry) : (vw.storeSlot e m t).Steady :=
  have hslot := h.modSlot e.frame.slot
    (fun sl => { sl with state := .ready, offsets := some ⟨m.y.offset, m.x.offset⟩, map := t.map })
    (fun _ _ _ ho' => Option.some.inj ho' ▸ ho)
  { hslot with }

/-- R89 to R91: the results of a solve, stored. -/
theorem storeSolve (e : SolveEntry) (cur : ProfileBuffer) (ref : Option ProfileBuffer) (t : TileResult) (reopened : Bool) :
    (vw.storeSolve e (solveMotion vw.geometry vw.motion cur ref) t reopened).Steady := by
  have hmotion := h.storeMotion e cur ref t
  obtain ⟨-, hoffsets⟩ := solveMotion_within vw.geometry vw.motion h.motion_within cur ref
  rw [storeSolve_eq]
  split
  · exact hmotion
  · exact hmotion.storeSlot e _ t hoffsets

end View.Steady

/-- R12: a configured view starts with motion 0 and no offsets. -/
theorem configure_steady (vw : View) (d : Descriptor) : (vw.configure d).Steady :=
  { viewReset_steady with
    ay := within_zero _
    ax := within_zero _
    dy := fun x hx => by rw [List.eq_of_mem_replicate hx]; exact within_zero _
    dx := fun x hx => by rw [List.eq_of_mem_replicate hx]; exact within_zero _
    stored := fun sl hsl o ho => by
      obtain ⟨-, -, -, hnone, -⟩ := newSlots_mem _ sl hsl
      exact nomatch hnone.symm.trans ho
    recorded := fun _ ho => nomatch ho }

end Sys2Proof.Machine
end

section
/-! PROOF. What the work of the intake monitor, the port and the command ring does at most: motion and offsets stay within the
margins, own writes are only placed, no solve starts, no command ends its wait, no request joins those that wait. -/

namespace Sys2Proof.Machine

open Laws

/-! ### Advances -/

theorem Bridge.Steady.modView {br : Bridge} (h : br.Steady) {v : Fin 4} {f : View → View}
    (hf : (br.views.get v).Steady → (f (br.views.get v)).Steady) : (br.modView v f).Steady := by
  intro u
  rw [modView_get]
  split
  · exact hf (h v)
  · exact h u

theorem Bridge.Steady.of_views {br br' : Bridge} (h : br.Steady) (hv : br'.views = br.views) : br'.Steady :=
  fun v => hv ▸ h v

/-- What every piece of the bridge's work but the end of a command's wait keeps. -/
structure Bridge.Advance (br br' : Bridge) : Prop where
  steady : br.Steady → br'.Steady
  busWait : br'.busWait = br.busWait
  inFlight : br.inFlight.isSome = true → br'.inFlight.isSome = true
  solver : br'.solverBusy = true → br.solverBusy = true
  ownWrites : br.ownWrites.length ≤ br'.ownWrites.length

namespace Bridge.Advance

theorem refl (br : Bridge) : br.Advance br := ⟨id, rfl, id, id, le_rfl⟩

theorem trans {a b c : Bridge} (h : a.Advance b) (g : b.Advance c) : a.Advance c where
  steady := g.steady ∘ h.steady
  busWait := g.busWait.trans h.busWait
  inFlight := g.inFlight ∘ h.inFlight
  solver := h.solver ∘ g.solver
  ownWrites := h.ownWrites.trans g.ownWrites

/-- A change of none of the five pieces. -/
theorem of_same {br br' : Bridge} (hv : br'.views = br.views) (hw : br'.busWait = br.busWait)
    (hf : br'.inFlight = br.inFlight) (hs : br'.solver = br.solver) (ho : br'.ownWrites = br.ownWrites) :
    br.Advance br' where
  steady := fun h => h.of_views hv
  busWait := hw
  inFlight := fun h => hf ▸ h
  solver := fun h => by
    unfold Bridge.solverBusy at h ⊢
    rwa [hs] at h
  ownWrites := (congrArg List.length ho).ge

theorem foldl {α : Type} (f : Bridge → α → Bridge) (hf : ∀ (br : Bridge) x, br.Advance (f br x)) (xs : List α) (br : Bridge) :
    br.Advance (xs.foldl f br) := by
  induction xs generalizing br with
  | nil => exact .refl br
  | cons x xs ih => exact (hf br x).trans (ih _)

end Bridge.Advance

/-! ### The shared operations -/

theorem advance_modView (br : Bridge) (v : Fin 4) (f : View → View)
    (hf : (br.views.get v).Steady → (f (br.views.get v)).Steady) : br.Advance (br.modView v f) :=
  ⟨fun h => h.modView hf, rfl, id, id, le_rfl⟩

/-- A change of counters, of which motion and offsets know nothing. -/
theorem advance_count (br : Bridge) (v : Fin 4) (f : ViewCounters → ViewCounters) :
    br.Advance (br.modView v (fun vw => vw.count f)) := advance_modView br v _ fun h => h.count f

theorem advance_raise (br : Bridge) (e : Event) : br.Advance (br.raise e) := .of_same rfl rfl rfl rfl rfl

theorem advance_raiseIf (br : Bridge) (c : Bool) (e : Event) : br.Advance (br.raiseIf c e) := by
  cases c
  · exact .refl br
  · exact advance_raise br e

theorem advance_dropWaiting (br : Bridge) (v : Fin 4) : br.Advance (br.dropWaiting v) := .of_same rfl rfl rfl rfl rfl

theorem advance_placeOwn (br : Bridge) (kind : OwnKind) (a : Nat) (bytes : List Byte) :
    br.Advance (br.placeOwn kind a bytes) :=
  ⟨fun h => h.of_views rfl, rfl, id, id, by simp⟩

theorem advance_report (env : Env) (br : Bridge) (r : Report) : br.Advance (br.report env r) := by
  cases h : br.reportFree
  · rw [report_of_held env br r h]
    exact (advance_count br _ _).trans (advance_raise ..)
  · rw [report_of_free env br r h]
    exact (advance_placeOwn br _ _ _).trans (.of_same rfl rfl rfl rfl rfl)

theorem advance_breakHolds (br : Bridge) (v : Fin 4) (p : MapEntry → Bool) (also : Bool) :
    br.Advance (br.breakHolds v p also) :=
  (advance_modView br v (fun vw => (vw.liveEntries p).count _) fun h => (h.liveEntries p).count _).trans
    (advance_raiseIf ..)

theorem advance_reachParked (br : Bridge) (v : Fin 4) : br.Advance (br.reachParked v) :=
  (advance_breakHolds ..).trans (advance_modView _ v _ fun h => h.park)

theorem advance_skipWaiting (env : Env) (br : Bridge) (e : SolveEntry) (reason : Reason) :
    br.Advance (br.skipWaiting env e reason) := by
  rw [skipWaiting_eq]
  exact ((advance_dropWaiting ..).trans (advance_modView _ _ (fun vw => vw.skipped e) fun h => { h with })).trans
    (advance_report ..)

theorem advance_unsolvedCompletion (env : Env) (br : Bridge) (f : FrameId) (time : Stamp) (parked : Bool) :
    br.Advance (br.unsolvedCompletion env f time parked) := by
  rw [unsolvedCompletion_steps]
  exact ((advance_modView br _ _ fun h => h.readyUnsolved _ _ (h.unsolvedOffsets parked)).trans
    (advance_report ..)).trans (advance_raise ..)

/-! ### The intake monitor -/

theorem advance_intakeFault (env : Env) (br : Bridge) (v : Fin 4) (reason : Reason) :
    br.Advance (br.intakeFault env v reason) := by
  cases h : (br.views.get v).intake.slot with
  | none =>
    rw [intakeFault_of_none env br v reason h]
    exact advance_modView br v _ fun h => { h with }
  | some j =>
    rw [intakeFault_of_some env br v reason j h]
    exact ((advance_modView br v _ fun h => h.faulted j).trans (advance_report ..)).trans (advance_raise ..)

theorem advance_abandonFollowed (env : Env) (br : Bridge) (v : Fin 4) : br.Advance (br.abandonFollowed env v) := by
  unfold Bridge.abandonFollowed
  split
  · exact advance_intakeFault ..
  · exact .refl br

/-- R27: a solve that is reopened goes on. -/
theorem advance_reopenSolve (br : Bridge) (v : Fin 4) (k : Nat) : br.Advance (br.reopenSolve v k) where
  steady := fun h => h.of_views rfl
  busWait := rfl
  inFlight := id
  solver := by
    unfold Bridge.solverBusy Bridge.reopenSolve Solver.reopen
    cases br.solver <;> exact id
  ownWrites := le_rfl

theorem advance_reopenSlot (env : Env) (br : Bridge) (v : Fin 4) (k : Nat) : br.Advance (br.reopenSlot env v k) := by
  by_cases h : ∃ e, br.waiting v = some e ∧ e.frame.slot = k
  · obtain ⟨e, he, hk⟩ := h
    rw [reopenSlot_of_waiting env br v k e he hk]
    exact (advance_skipWaiting ..).trans (advance_reopenSolve ..)
  · rw [reopenSlot_of_other env br v k fun e he hk => h ⟨e, he, hk⟩]
    exact advance_reopenSolve ..

theorem advance_supersede (env : Env) (br : Bridge) (v : Fin 4) : br.Advance (br.supersede env v) := by
  cases h : br.waiting v with
  | none =>
    rw [supersede_of_none env br v h]
    exact .refl br
  | some e =>
    rw [supersede_of_some env br v e h]
    exact (((advance_dropWaiting ..).trans (advance_modView _ v (fun vw => vw.skipped e) fun h => { h with })).trans
      (advance_report ..)).trans (advance_modView _ v _ fun h => h.setState _ _)

theorem advance_joinSolver (env : Env) (br : Bridge) (f : FrameId) (b : Fin 4) : br.Advance (br.joinSolver env f b) := by
  rw [joinSolver_eq]
  exact (((advance_modView br f.view _ fun h => h.setState _ _).trans (advance_supersede env _ f.view)).trans
    (advance_modView _ f.view (fun vw => vw.modBuffer b (·.withRole .wait)) fun h => { h with })).trans
    (.of_same rfl rfl rfl rfl rfl)

theorem advance_completeFrame (env : Env) (br : Bridge) (v : Fin 4) (k : Nat) :
    br.Advance (br.completeFrame env v k) := by
  have hbetween : br.Advance (br.betweenFrames v) := advance_modView br v _ fun h => { h with }
  cases h : (br.views.get v).intake.buffer with
  | none =>
    rw [completeFrame_of_no_buffer env br v k h]
    exact hbetween.trans (advance_unsolvedCompletion ..)
  | some b =>
    rw [completeFrame_of_buffer env br v k b h]
    exact hbetween.trans (advance_joinSolver ..)

theorem advance_acceptRun (env : Env) (br : Bridge) (v : Fin 4) (k : Nat) (run : List (Nat × Byte)) :
    br.Advance (br.acceptRun env v k run) := by
  have htake : br.Advance (br.takeRun env v run) := advance_modView br v _ fun h => h.takeRun _ _ _
  rw [acceptRun_eq]
  split
  · exact htake.trans (advance_completeFrame ..)
  · exact htake

theorem advance_beginFrame (env : Env) (br : Bridge) (v : Fin 4) (k : Nat) (run : List (Nat × Byte)) :
    br.Advance (br.beginFrame env v k run) := by
  unfold Bridge.beginFrame
  rw [beginFrame_started]
  refine ((advance_modView br v _ fun h => ?_).trans (advance_raiseIf ..)).trans (advance_acceptRun ..)
  have hdrop : ((br.views.get v).dropSource k).Steady := { h with }
  have hstart := hdrop.startSlot k
  have hcount : ((((br.views.get v).dropSource k).startSlot k).countOvertake k).Steady := { hstart with }
  exact hcount.startIntake v k

theorem advance_startFrame (env : Env) (br : Bridge) (v : Fin 4) (k : Nat) (run : List (Nat × Byte)) :
    br.Advance (br.startFrame env v k run) := by
  rw [startFrame_eq]
  exact (((advance_abandonFollowed ..).trans (advance_breakHolds ..)).trans (advance_reopenSlot ..)).trans
    (advance_beginFrame ..)

theorem advance_judgeRun (env : Env) (br : Bridge) (v : Fin 4) (k : Nat) (run : List (Nat × Byte)) :
    br.Advance (br.judgeRun env v k run) := by
  unfold Bridge.judgeRun
  dsimp only
  split
  · exact advance_intakeFault ..
  · split
    · exact advance_intakeFault ..
    · split
      · exact advance_intakeFault ..
      · exact advance_acceptRun ..

theorem advance_followRun (env : Env) (br : Bridge) (v : Fin 4) (k : Nat) (run : List (Nat × Byte)) :
    br.Advance (br.followRun env v k run) := by
  unfold Bridge.followRun
  split
  · exact advance_startFrame ..
  · split
    · split
      · exact advance_judgeRun ..
      · exact advance_count ..
    · exact .refl br

theorem advance_intakePiece (env : Env) (br : Bridge) (v : Fin 4) (k : Nat) (tag : Byte) (run : List (Nat × Byte)) :
    br.Advance (br.intakePiece env v k tag run) := by
  unfold Bridge.intakePiece
  dsimp only
  split
  · exact advance_followRun ..
  · exact advance_count ..

/-! ### The port -/

theorem advance_writeControlByte (br : Bridge) (off : Nat) (d : Byte) : br.Advance (br.writeControlByte off d) := by
  unfold Bridge.writeControlByte
  split_ifs <;> exact .of_same rfl rfl rfl rfl rfl

theorem advance_writeControl (br : Bridge) (base : Nat) (cells : List (Nat × WriteByte)) :
    br.Advance (br.writeControl base cells) := by
  refine .foldl _ (fun br c => ?_) cells br
  split
  · exact advance_writeControlByte ..
  · exact .refl br

theorem advance_watchPiece (env : Env) (tag : Byte) (br : Bridge) (p : WritePiece) (first : Bool) :
    br.Advance (br.watchPiece env tag p first) := by
  unfold Bridge.watchPiece
  split
  · exact advance_writeControl ..
  · split
    · exact advance_intakePiece ..
    · exact .refl br
  · exact .refl br

theorem advance_watchPieces (env : Env) (tag : Byte) (ps : List WritePiece) (br : Bridge) (taken : Bool) :
    br.Advance (br.watchPieces env tag taken ps) := by
  induction ps generalizing br taken with
  | nil => exact .refl br
  | cons p ps ih =>
    unfold Bridge.watchPieces
    split
    · exact (advance_watchPiece ..).trans (ih _ _)
    · exact (advance_watchPiece ..).trans (ih _ _)

theorem advance_takePlace (br : Bridge) (isRead : Bool) : br.Advance (br.takePlace isRead) :=
  .of_same rfl rfl rfl rfl rfl

theorem advance_freePlaces (br : Bridge) : br.Advance br.freePlaces := .of_same rfl rfl rfl rfl rfl

theorem advance_joinStream (br : Bridge) (q a : Nat) (kind : OpKind) : br.Advance (br.joinStream q a kind) :=
  .of_same rfl rfl rfl rfl rfl

theorem advance_countOutOfRange (env : Env) (br : Bridge) (regions : List Region) :
    br.Advance (br.countOutOfRange env regions) := by
  unfold Bridge.countOutOfRange
  split <;> exact .of_same rfl rfl rfl rfl rfl

theorem advance_joinWritePiece (br : Bridge) (q : Nat) (p : WritePiece) : br.Advance (br.joinWritePiece q p) := by
  unfold Bridge.joinWritePiece
  split
  · exact .refl br
  · exact .refl br
  · exact advance_joinStream ..

/-- R145: the acceptance of a write is work, and then the take it makes available. -/
theorem acceptWrite_advance (env : Env) (br : Bridge) (w : WriteRequest) :
    ∃ b, br.Advance b ∧ acceptWrite env br w = takeIfDue env b :=
  ⟨_, ((((advance_takePlace ..).trans (advance_countOutOfRange ..)).trans
    (.foldl _ (fun br p => advance_joinWritePiece br _ p) _ _)).trans (advance_watchPieces ..)).trans
    (advance_freePlaces _), rfl⟩

theorem advance_scanPiece (br : Bridge) (tag : Byte) (p : ReadPiece) : br.Advance (br.scanPiece tag p) := by
  unfold Bridge.scanPiece
  split
  · exact advance_modView br _ _ fun h => h.scanRead _ _
  · exact .refl br

theorem advance_answerPieces (env : Env) (tag : Byte) (ps : List ReadPiece) (br : Bridge) :
    br.Advance (br.answerPieces env tag ps).1 := by
  induction ps generalizing br with
  | nil => exact .refl br
  | cons p ps ih => exact (advance_scanPiece br tag p).trans (ih _)

theorem advance_openAssembly (br : Bridge) (q : Nat) (places : List (Option Byte)) :
    br.Advance (br.openAssembly q places) := .of_same rfl rfl rfl rfl rfl

theorem advance_joinMixed (br : Bridge) (q a place : Nat) (places : List (Option Byte)) :
    br.Advance (br.joinMixed q a place places) := by
  unfold Bridge.joinMixed
  dsimp only
  split
  · exact .refl br
  · exact advance_joinStream ..

theorem advance_joinReads (q : Nat) (ps : List Part) (br : Bridge) (place : Nat) :
    br.Advance (br.joinReads q place ps) := by
  induction ps generalizing br place with
  | nil => exact .refl br
  | cons p ps ih =>
    cases p with
    | fixed bytes => exact ih _ _
    | fetch a count => exact (advance_joinStream ..).trans (ih _ _)
    | mixed a places => exact (advance_joinMixed br q a place places).trans (ih _ _)

theorem advance_acceptRead (env : Env) (br : Bridge) (r : ReadRequest) : br.Advance (acceptRead env br r) :=
  ((((advance_takePlace ..).trans (advance_countOutOfRange ..)).trans (advance_answerPieces ..)).trans
    (advance_openAssembly ..)).trans (advance_joinReads ..)

/-! ### The takes (R181) -/

/-- The take of a command is work, and then the command completes or waits (R182, R183). -/
inductive Bridge.Taken (env : Env) (br : Bridge) : Bridge → Prop
  | completed (b : Bridge) (st : Status) (detail : Nat) (h : br.Advance b) : Taken env br (b.completeTaken env st detail)
  | waits (b : Bridge) (w : Wait) (h : br.Advance b) : Taken env br (b.waitTaken w)

theorem taken_refused (env : Env) (br : Bridge) (st : Status) (detail : Nat) :
    br.Taken env (br.completeTaken env st detail) := .completed br st detail (.refl br)

theorem taken_modView (env : Env) (br : Bridge) (v : Fin 4) (f : View → View) (st : Status) (detail : Nat)
    (hf : (br.views.get v).Steady → (f (br.views.get v)).Steady) :
    br.Taken env ((br.modView v f).completeTaken env st detail) := .completed _ _ _ (advance_modView br v f hf)

theorem takeConfigure_taken (env : Env) (br : Bridge) : br.Taken env (takeConfigure env br) := by
  unfold takeConfigure
  split
  · exact taken_refused ..
  · split
    · dsimp only
      split
      · exact taken_refused ..
      · exact taken_modView _ _ _ _ _ _ fun _ => configure_steady _ _
    · exact taken_refused ..

theorem takeTrack_taken (env : Env) (br : Bridge) : br.Taken env (takeTrack env br) := by
  unfold takeTrack
  split
  · exact taken_refused ..
  · split
    · exact taken_modView _ _ _ _ _ _ fun h =>
        have hreset := h.rebaseResets
        { hreset with }
    · exact taken_refused ..

theorem advance_parkWaiting (env : Env) (br : Bridge) (v : Fin 4) : br.Advance (br.parkWaiting env v) := by
  unfold Bridge.parkWaiting
  split
  · exact .refl br
  · rename_i e _
    exact ((advance_dropWaiting ..).trans
      (advance_modView _ v (fun vw => vw.modBuffer e.buffer (·.withRole .free)) fun h => { h with })).trans
      (advance_unsolvedCompletion ..)

theorem takePark_taken (env : Env) (br : Bridge) : br.Taken env (takePark env br) := by
  unfold takePark
  split
  · exact taken_refused ..
  · rename_i v _
    have hstopped : br.Advance ((br.parkWaiting env v).modView v View.dropAccum) :=
      (advance_parkWaiting ..).trans (advance_modView _ _ _ fun h => { h with })
    split
    · dsimp only
      split
      · exact .waits _ _ (hstopped.trans (advance_modView _ _ _ fun h => { h with }))
      · exact .completed _ _ _ (hstopped.trans (advance_reachParked ..))
    · exact taken_refused ..

theorem takeRelease_taken (env : Env) (br : Bridge) : br.Taken env (takeRelease env br) := by
  unfold takeRelease
  split
  · exact taken_refused ..
  · split
    · exact taken_modView _ _ _ _ _ _ fun h => h.release
    · exact taken_refused ..

theorem advance_releaseAll (br : Bridge) : br.Advance br.releaseAll where
  steady := fun h v => by
    rw [releaseAll_views_get]
    split
    · exact h v
    · exact (h v).release
  busWait := rfl
  inFlight := id
  solver := id
  ownWrites := le_rfl

theorem takeReleaseAll_taken (env : Env) (br : Bridge) : br.Taken env (takeReleaseAll env br) := by
  unfold takeReleaseAll
  split
  · exact .waits _ _ (.refl br)
  · exact .completed _ _ _ (advance_releaseAll br)

theorem takeRebase_taken (env : Env) (br : Bridge) : br.Taken env (takeRebase env br) := by
  unfold takeRebase
  split
  · exact taken_refused ..
  · rename_i v _
    have hdrop : br.Advance (br.modView v View.dropAccum) := advance_modView _ _ _ fun h => { h with }
    split
    · dsimp only
      split
      · exact .waits _ _ hdrop
      · exact .completed _ _ _ (hdrop.trans (advance_modView _ _ _ fun h => h.rebaseResets))
    · exact taken_refused ..

theorem takeTune_taken (env : Env) (br : Bridge) : br.Taken env (takeTune env br) := by
  unfold takeTune
  split
  · exact taken_refused ..
  · split
    · dsimp only
      split
      · exact taken_modView _ _ _ _ _ _ fun h => { h with }
      · exact taken_refused ..
    · exact taken_refused ..

/-- R195: counters of every view, and the global ones, become 0. -/
theorem advance_zeroAll (br : Bridge) :
    br.Advance
      { br with
        views := br.views.map (fun vw => vw.count (fun _ => ViewCounters.zero))
        glitchA := 0, glitchB := 0, outOfRange := 0 } where
  steady := fun h v => by
    rw [Four.get_map]
    exact (h v).count _
  busWait := rfl
  inFlight := id
  solver := id
  ownWrites := le_rfl

theorem takeZero_taken (env : Env) (br : Bridge) : br.Taken env (takeZero env br) := by
  unfold takeZero
  split
  · exact .completed _ _ _ (advance_count ..)
  · split
    · exact .completed _ _ _ (advance_zeroAll br)
    · exact taken_refused ..

theorem advance_setRot (br : Bridge) (i : RotId) (r : RotInput) : br.Advance (br.setRot i r) :=
  .of_same (setRot_views ..) (setRot_busWait ..) (setRot_inFlight ..) (setRot_solver ..) (setRot_ownWrites ..)

theorem takeEdge_taken (env : Env) (br : Bridge) : br.Taken env (takeEdge env br) := by
  unfold takeEdge
  split
  · exact taken_refused ..
  · split
    · exact taken_refused ..
    · exact .completed _ _ _ (advance_setRot ..)

theorem takeNext_taken (env : Env) (br : Bridge) : br.Taken env (takeNext env br) := by
  unfold takeNext
  split
  · exact takeConfigure_taken env br
  · exact takeTrack_taken env br
  · exact takePark_taken env br
  · exact takeRelease_taken env br
  · exact takeReleaseAll_taken env br
  · exact takeRebase_taken env br
  · exact takeTune_taken env br
  · exact takeZero_taken env br
  · exact takeEdge_taken env br
  · exact taken_refused ..

theorem Bridge.Taken.steady {env : Env} {br br' : Bridge} (h : br.Taken env br') (hs : br.Steady) : br'.Steady := by
  cases h with
  | completed b st detail hb => exact hb.steady hs
  | waits b w hb => exact hb.steady hs

/-! ### The completion of a solve (R73, R89 to R93) -/

/-- What the solve of `e` computes for its view (R77 to R88). -/
def View.solveOf (vw : View) (e : SolveEntry) : MotionResult :=
  solveMotion vw.geometry vw.motion (vw.buffers.get e.buffer) ((vw.bufferWith .ref).map vw.buffers.get)

/-- The tile step of the solve of `e` (R98). -/
def View.tilesOf (vw : View) (e : SolveEntry) (reopened : Bool) : TileResult :=
  tileStep vw (vw.buffers.get e.buffer) (if reopened then none else some e.frame.slot)

/-- The FRAME report of the solve of `e` (R92). -/
def View.reportOf (vw : View) (e : SolveEntry) (reopened : Bool) : Report :=
  solvedReport e.frame (vw.buffers.get e.buffer).midTime (vw.solveOf e) (vw.tilesOf e reopened) reopened

/-- The bridge in which the results of the solve of `e` are stored, before its report. -/
def Bridge.solveStored (br : Bridge) (e : SolveEntry) (reopened : Bool) : Bridge :=
  (br.modView e.frame.view (fun vw =>
      vw.storeSolve e ((br.views.get e.frame.view).solveOf e) ((br.views.get e.frame.view).tilesOf e reopened)
        reopened)).raiseIf
    (((br.views.get e.frame.view).tilesOf e reopened).whiteout != (br.views.get e.frame.view).whiteout)
    (.hold e.frame.view)

/-- The bridge in which the results of the solve of `e` are stored and reported, before the command that waits for it. -/
def Bridge.solveResults (br : Bridge) (env : Env) (e : SolveEntry) (reopened : Bool) : Bridge :=
  { ((br.solveStored e reopened).report env ((br.views.get e.frame.view).reportOf e reopened)).raise
      (.frame e.frame.view) with
    solver := .idle }

theorem completeSolve_of_busy (env : Env) (br : Bridge) (e : SolveEntry) (reopened ended : Bool)
    (h : br.solver = .busy e reopened ended) :
    br.completeSolve env = (br.solveResults env e reopened).finishWaiting env e.frame.view := by
  simp only [Bridge.completeSolve, h]
  rfl

theorem advance_solveStored (br : Bridge) (e : SolveEntry) (reopened : Bool) : br.Advance (br.solveStored e reopened) :=
  (advance_modView br _ _ fun h => h.storeSolve e _ _ _ reopened).trans (advance_raiseIf ..)

/-- The end of a solve is work that leaves the solver IDLE. -/
theorem advance_solveResults (env : Env) (br : Bridge) (e : SolveEntry) (reopened : Bool) :
    br.Advance (br.solveResults env e reopened) := by
  have hidle (b : Bridge) : b.Advance { b with solver := .idle } :=
    ⟨fun h => h.of_views rfl, rfl, id, fun h => Bool.noConfusion h, le_rfl⟩
  exact (((advance_solveStored br e reopened).trans (advance_report ..)).trans (advance_raise ..)).trans (hidle _)

/-- The command that waits is left alone, or it has its effect, which is work, and completes (R182). -/
theorem finishWaiting_cases (env : Env) (br : Bridge) (v : Fin 4) :
    br.finishWaiting env v = br ∨ ∃ (b : Bridge) (f : InFlight), br.Advance b
      ∧ br.finishWaiting env v = b.completeCommand env f.index f.entry .done 0 := by
  unfold Bridge.finishWaiting
  split
  · exact .inl rfl
  · split
    · split
      · exact .inr ⟨_, _, advance_reachParked .., rfl⟩
      · exact .inl rfl
    · split
      · exact .inr ⟨_, _, advance_modView _ _ _ fun h => h.rebaseResets, rfl⟩
      · exact .inl rfl
    · exact .inr ⟨_, _, advance_releaseAll _, rfl⟩

end Sys2Proof.Machine
end

section
/-! PROOF. Every step keeps motion and offsets within the margins (R42, R86, R87): urgent work does, and then each row of the
table. -/

namespace Sys2Proof.Machine

open Laws

/-! ### Urgent work -/

theorem completeSolve_steady (env : Env) (br : Bridge) (h : br.Steady) : (br.completeSolve env).Steady := by
  cases hs : br.solver with
  | idle => rwa [Bridge.completeSolve, hs]
  | busy e reopened ended =>
    have hresults := (advance_solveResults env br e reopened).steady h
    rw [completeSolve_of_busy env br e reopened ended hs]
    obtain hsame | ⟨b, f, hb, hdone⟩ := finishWaiting_cases env (br.solveResults env e reopened) e.frame.view
    · rwa [hsame]
    · rw [hdone]
      exact (hb.steady hresults).of_views rfl

theorem takeIfDue_steady (env : Env) (br : Bridge) (h : br.Steady) : (takeIfDue env br).Steady :=
  takeIfDue_keeps Bridge.Steady env br h fun _ => (takeNext_taken env br).steady h

theorem acceptRequest_steady (env : Env) (br : Bridge) (r : Request) (h : br.Steady) :
    (acceptRequest env br r).Steady := by
  cases r with
  | write w =>
    obtain ⟨b, hb, haccept⟩ := acceptWrite_advance env br w
    exact (takeIfDue_steady env b (hb.steady h)).of_views (congrArg Bridge.views haccept)
  | read r => exact (advance_acceptRead env br r).steady h

theorem acceptWaiting_steady (env : Env) (br : Bridge) (h : br.Steady) : (acceptWaiting env br).Steady := by
  unfold acceptWaiting
  split
  · exact h
  · exact acceptRequest_steady env _ _ (h.of_views rfl)

theorem urgent_steady (env : Env) (br br' : Bridge) (h : br.Steady) (hu : urgent env br = some br') : br'.Steady :=
  urgent_keeps Bridge.Steady env (fun br h _ => completeSolve_steady env br h)
    (fun br h _ => (takeNext_taken env br).steady h) (fun br h _ => acceptWaiting_steady env br h) br br' h hu

theorem settle_steady (s : State) (h : s.bridge.Steady) : s.settle.bridge.Steady :=
  settle_keeps Bridge.Steady s (urgent_steady s.env) h

theorem settleTo_steady (s : State) (stop : Bridge → Bool) (h : s.bridge.Steady) : (s.settleTo stop).bridge.Steady :=
  settleTo_keeps Bridge.Steady s stop (urgent_steady s.env) h

/-! ### Rows -/

theorem issueUpstream_views (s : State) : s.issueUpstream.bridge.views = s.bridge.views := by
  unfold State.issueUpstream
  split <;> rfl

theorem issueOwn_views (s : State) : s.issueOwn.bridge.views = s.bridge.views := by
  unfold State.issueOwn
  split <;> rfl

theorem returnData_views (s : State) : s.returnData.bridge.views = s.bridge.views := by
  unfold State.returnData
  split <;> rfl

theorem respond_views (s : State) : s.respond.bridge.views = s.bridge.views := by
  unfold State.respond
  split
  · rfl
  · dsimp only
    split_ifs <;> rfl

theorem rotationEdge_views (now : Stamp) (br : Bridge) (change : LevelChange) :
    (br.rotationEdge now change).views = br.views := by
  unfold Bridge.rotationEdge
  dsimp only
  split_ifs <;> simp

/-- R73: the end of the arithmetic touches no view. -/
theorem endArithmetic_views (br : Bridge) : br.endArithmetic.views = br.views := by
  unfold Bridge.endArithmetic
  split <;> rfl

section
variable (s t : State) (h : s.bridge.Steady)
include h

theorem offerRequest_steady (r : Request) (ht : offerRequest r s = .next t) : t.bridge.Steady := by
  obtain ⟨-, rfl⟩ := offerRequest_next s t r ht
  have hs := settle_steady s h
  unfold State.offer
  dsimp only
  split
  · exact hs
  · split
    · exact acceptRequest_steady _ _ r hs
    · exact hs.of_views rfl

theorem takeRow_steady (kind : CommandKind) (ht : takeRow kind (takeOf kind) s = .next t) : t.bridge.Steady := by
  have hs := settleTo_steady s (takeDueOf kind) h
  obtain ⟨hd, rfl⟩ | rfl := takeRow_cases kind _ s t ht
  · obtain ⟨-, hk⟩ := takeNext_of_dueOf _ _ hd
    have htaken := takeNext_taken s.env (s.settleTo (takeDueOf kind)).bridge
    rw [takeNext_eq_takeOf, hk] at htaken
    exact htaken.steady hs
  · exact hs

theorem resetAssert_steady (ht : execResetAssert s = .next t) : t.bridge.Steady := by
  unfold execResetAssert at ht
  split at ht <;> cases ht
  · exact h
  · exact fun v => (reset_views_get _ _ v).symm ▸ viewReset_steady

theorem resetRelease_steady (straps : Straps) (rota rotb : Bool) (ht : execResetRelease straps rota rotb s = .next t) :
    t.bridge.Steady := by
  unfold execResetRelease at ht
  split at ht <;> cases ht
  · exact fun v => (reset_views_get _ _ v).symm ▸ viewReset_steady
  · exact h

theorem timestampTick_steady (ht : execTimestampTick s = .next t) : t.bridge.Steady := by
  unfold execTimestampTick at ht
  split at ht <;> cases ht
  · exact h
  · exact (settle_steady s h).of_views (expireBoth_views ..)

theorem upstreamOperationIssue_steady (ht : execUpstreamOperationIssue s = .next t) : t.bridge.Steady := by
  unfold execUpstreamOperationIssue at ht
  split at ht <;> cases ht
  · exact (settle_steady s h).of_views (issueUpstream_views _)
  · exact settle_steady s h

theorem ownWriteIssue_steady (ht : execOwnWriteIssue s = .next t) : t.bridge.Steady := by
  unfold execOwnWriteIssue at ht
  split at ht <;> cases ht
  · exact (settle_steady s h).of_views (issueOwn_views _)
  · exact settle_steady s h

theorem rotationEdge_steady (change : LevelChange) (ht : execRotationEdge change s = .next t) : t.bridge.Steady := by
  unfold execRotationEdge at ht
  split at ht <;> cases ht
  · exact h
  · exact (settle_steady s h).of_views (rotationEdge_views ..)

theorem solveCompletion_steady (ht : execSolveCompletion s = .next t) : t.bridge.Steady := by
  have hs := settleTo_steady s completionDue h
  unfold execSolveCompletion at ht
  dsimp only at ht
  split at ht <;> cases ht
  · exact completeSolve_steady _ _ hs
  · exact hs

end

/-- R71, R72: the start of a solve takes over tunables and gives a buffer its role. -/
theorem startSolve_steady (br : Bridge) (h : br.Steady) : br.startSolve.Steady := by
  unfold Bridge.startSolve
  split
  · split
    · exact h
    · rename_i e rest _
      have hqueue : ({ br with solverQueue := rest, solver := .busy e false false } : Bridge).Steady := h.of_views rfl
      exact hqueue.modView fun hv => by
        unfold Motion.adoptPending
        split <;> exact { hv with }
  · exact h

theorem exec_steady (c : Instr) (s t : State) (h : s.bridge.Steady) (ht : exec c s = .next t) : t.bridge.Steady := by
  have hring (kind : CommandKind) (hc : (c, kind) ∈ ringRows) : t.bridge.Steady :=
    takeRow_steady s t h kind ((exec_eq_takeRow c kind s hc).symm.trans ht)
  cases c with
  | resetAssert => exact resetAssert_steady s t h ht
  | resetRelease straps rota rotb => exact resetRelease_steady s t h straps rota rotb ht
  | memoryInitializationComplete => cases ht; exact h
  | timestampTick => exact timestampTick_steady s t h ht
  | write w => exact offerRequest_steady s t h _ ht
  | controlWrite w => exact offerRequest_steady s t h _ ht
  | acknowledge w => exact offerRequest_steady s t h _ ht
  | mask w => exact offerRequest_steady s t h _ ht
  | reportOwnerWrite w => exact offerRequest_steady s t h _ ht
  | read r => exact offerRequest_steady s t h _ ht
  | presentationRead r => exact offerRequest_steady s t h _ ht
  | upstreamOperationIssue => exact upstreamOperationIssue_steady s t h ht
  | ownWriteIssue => exact ownWriteIssue_steady s t h ht
  | operationDataReturn => cases ht; exact (settle_steady s h).of_views (returnData_views _)
  | readResponse => cases ht; exact (settle_steady s h).of_views (respond_views _)
  | configure => exact hring .configure (by simp [ringRows, viewRows])
  | track => exact hring .track (by simp [ringRows, viewRows])
  | park => exact hring .park (by simp [ringRows, viewRows])
  | release => exact hring .release (by simp [ringRows, viewRows])
  | releaseAll => exact hring .releaseAll (by simp [ringRows])
  | rebase => exact hring .rebase (by simp [ringRows, viewRows])
  | tune => exact hring .tune (by simp [ringRows, viewRows])
  | zero => exact hring .zero (by simp [ringRows])
  | edge => exact hring .edge (by simp [ringRows])
  | badCode => exact hring .badCode (by simp [ringRows])
  | solveStart => cases ht; exact startSolve_steady _ (settleTo_steady s _ h)
  | solveArithmeticEnd => cases ht; exact (settle_steady s h).of_views (endArithmetic_views _)
  | solveCompletion => exact solveCompletion_steady s t h ht
  | rotationEdge change => exact rotationEdge_steady s t h change ht
  | staleTimeout input => cases ht; exact (settle_steady s h).of_views (expireIfDue_frame ..).views

/-- Settles O58, by the row at the front of the queue (`exec_steady`), or urgent work where there is none. -/
theorem stepsKeepMotionInBounds : Obligations.StepsKeepMotionInBounds := by
  unfold Obligations.StepsKeepMotionInBounds
  intro s t h ht
  unfold step at ht
  split at ht
  · cases ht
    exact settle_steady s h
  · rename_i c rest _
    exact exec_steady c { s with pending := rest } t h ht

end Sys2Proof.Machine
end

section
/-! PROOF. Urgent work comes to an end (log 2, log 3): each piece of it uses up a request that waits, a place for an own write,
the solve in progress, or the place of the command in flight. -/

namespace Sys2Proof.Machine

open Laws

/-! ### What urgent work uses up -/

/-- How much urgent work can still be done at most. -/
def Bridge.weight (br : Bridge) : Nat :=
  br.busWait.length + br.ownFree + br.solverBusy.toNat + br.inFlight.isNone.toNat

theorem weight_lt_settleBound (br : Bridge) : br.weight < settleBound br := by
  have hown : br.ownFree ≤ 16 := Nat.sub_le ..
  have hbusy := Bool.toNat_le br.solverBusy
  have hnone := Bool.toNat_le br.inFlight.isNone
  unfold Bridge.weight settleBound
  omega

namespace Bridge.Advance

variable {a b : Bridge} (h : a.Advance b)
include h

theorem ownFree_le : b.ownFree ≤ a.ownFree := Nat.sub_le_sub_left h.ownWrites _

theorem busy_le : b.solverBusy.toNat ≤ a.solverBusy.toNat := Bool.toNat_le_toNat h.solver

theorem none_le : b.inFlight.isNone.toNat ≤ a.inFlight.isNone.toNat := by
  refine Bool.toNat_le_toNat fun hb => ?_
  rw [Option.isNone_iff_eq_none] at hb ⊢
  by_contra ha
  have hsome := h.inFlight (Option.isSome_iff_ne_none.2 ha)
  rw [hb] at hsome
  cases hsome

theorem weight_le : b.weight ≤ a.weight := by
  have hbus := congrArg List.length h.busWait
  have hown := h.ownFree_le
  have hbusy := h.busy_le
  have hnone := h.none_le
  unfold Bridge.weight
  omega

/-- The own write of a command that completes takes up a place. -/
theorem completeCommand_ownFree_lt (hfree : 3 ≤ a.ownFree) (env : Env) (i : Nat) (entry : List Byte) (st : Status)
    (detail : Nat) : (b.completeCommand env i entry st detail).ownFree < a.ownFree := by
  have hgrown := h.ownWrites
  have hplaced : (b.completeCommand env i entry st detail).ownWrites.length = b.ownWrites.length + 1 := List.length_append
  unfold Bridge.ownFree at hfree ⊢
  omega

end Bridge.Advance

/-- A take that is due uses up a place for an own write, or the place of the command in flight. -/
theorem takeNext_weight_lt (env : Env) (br : Bridge) (hd : takeDue br = true) :
    (takeNext env br).weight < br.weight := by
  simp only [takeDue, Bool.and_eq_true, decide_eq_true_eq] at hd
  obtain ⟨⟨-, hnone⟩, hfree⟩ := hd
  have htaken := takeNext_taken env br
  generalize takeNext env br = br' at htaken
  cases htaken with
  | completed b st detail hb =>
    have hbus : (b.completeTaken env st detail).busWait.length = br.busWait.length := congrArg List.length hb.busWait
    have hown := hb.completeCommand_ownFree_lt hfree env b.nextIndex (b.commandEntry b.nextIndex) st detail
    have hbusy : (b.completeTaken env st detail).solverBusy.toNat ≤ br.solverBusy.toNat := hb.busy_le
    unfold Bridge.weight
    rw [hnone]
    unfold Bridge.completeTaken at hbus hbusy ⊢
    simp only [completeCommand_inFlight, Option.isNone_none]
    omega
  | waits b w hb =>
    have hbus : (b.waitTaken w).busWait.length = br.busWait.length := congrArg List.length hb.busWait
    have hown : (b.waitTaken w).ownFree ≤ br.ownFree := hb.ownFree_le
    have hbusy : (b.waitTaken w).solverBusy.toNat ≤ br.solverBusy.toNat := hb.busy_le
    unfold Bridge.weight
    rw [hnone, waitTaken_inFlight]
    simp only [Option.isNone_some, Bool.toNat_false, Bool.toNat_true]
    omega

theorem takeIfDue_weight_le (env : Env) (br : Bridge) : (takeIfDue env br).weight ≤ br.weight :=
  takeIfDue_keeps (fun b => b.weight ≤ br.weight) env br le_rfl fun hd => (takeNext_weight_lt env br hd).le

/-- A completion that is due uses up the solve in progress; the command that it ends uses up a place for an own write. -/
theorem completeSolve_weight_lt (env : Env) (br : Bridge) (hd : completionDue br = true) :
    (br.completeSolve env).weight < br.weight := by
  unfold completionDue at hd
  cases hs : br.solver with
  | idle => simp [hs] at hd
  | busy e reopened ended =>
    have hfree : 3 ≤ br.ownFree := by simp_all
    have hresults := advance_solveResults env br e reopened
    have hbefore : br.solverBusy = true := by rw [Bridge.solverBusy, hs]
    have hidle : (br.solveResults env e reopened).solverBusy = false := rfl
    rw [completeSolve_of_busy env br e reopened ended hs]
    obtain hsame | ⟨b, f, hb, hdone⟩ := finishWaiting_cases env (br.solveResults env e reopened) e.frame.view
    · have hbus := congrArg List.length hresults.busWait
      have hown := hresults.ownFree_le
      have hnone := hresults.none_le
      rw [hsame]
      unfold Bridge.weight
      rw [hbefore, hidle, Bool.toNat_true, Bool.toNat_false]
      omega
    · have hall := hresults.trans hb
      have hbus : (b.completeCommand env f.index f.entry .done 0).busWait.length = br.busWait.length :=
        congrArg List.length hall.busWait
      have hown := hall.completeCommand_ownFree_lt hfree env f.index f.entry .done 0
      have hbusy : (b.completeCommand env f.index f.entry .done 0).solverBusy.toNat ≤ 0 :=
        hb.busy_le.trans_eq (congrArg Bool.toNat hidle)
      have hnone := Bool.toNat_le (b.completeCommand env f.index f.entry .done 0).inFlight.isNone
      rw [hdone]
      unfold Bridge.weight
      rw [hbefore, Bool.toNat_true]
      omega

theorem acceptRequest_weight_le (env : Env) (br : Bridge) (r : Request) : (acceptRequest env br r).weight ≤ br.weight := by
  cases r with
  | write w =>
    obtain ⟨b, hb, haccept⟩ := acceptWrite_advance env br w
    exact (congrArg Bridge.weight haccept).trans_le ((takeIfDue_weight_le env b).trans hb.weight_le)
  | read r => exact (advance_acceptRead env br r).weight_le

/-- An acceptance that is due uses up a request that waits. -/
theorem acceptWaiting_weight_lt (env : Env) (br : Bridge) (hd : acceptDue env br = true) :
    (acceptWaiting env br).weight < br.weight := by
  unfold acceptDue at hd
  cases hw : br.busWait with
  | nil => simp [hw] at hd
  | cons r rest =>
    have haccept : acceptWaiting env br = acceptRequest env { br with busWait := rest } r := by
      simp only [acceptWaiting, hw]
    calc (acceptWaiting env br).weight
        ≤ Bridge.weight { br with busWait := rest } := haccept ▸ acceptRequest_weight_le env _ r
      _ < br.weight := by
        change rest.length + br.ownFree + br.solverBusy.toNat + br.inFlight.isNone.toNat < br.weight
        rw [Bridge.weight, hw, List.length_cons]
        omega

theorem urgent_weight_lt (env : Env) (br br' : Bridge) (hu : urgent env br = some br') : br'.weight < br.weight := by
  unfold urgent at hu
  split at hu
  case isTrue hc =>
    cases hu
    exact completeSolve_weight_lt env br hc
  case isFalse =>
    split at hu
    case isTrue ht =>
      cases hu
      exact takeNext_weight_lt env br ht
    case isFalse =>
      split at hu
      case isTrue ha =>
        cases hu
        exact acceptWaiting_weight_lt env br ha
      case isFalse => cases hu

/-- Urgent work that is done as often as it can be at most leaves none. -/
theorem urgent_settleUntil (env : Env) (n : Nat) (br : Bridge) (h : br.weight < n) :
    urgent env (settleUntil env (fun _ => false) n br) = none := by
  induction n generalizing br with
  | zero => omega
  | succ n ih =>
    cases hu : urgent env br with
    | none => rw [settleUntil_of_none _ _ _ _ hu, hu]
    | some br' =>
      have hless := urgent_weight_lt env br br' hu
      simp only [settleUntil, hu, Bool.false_eq_true, if_false]
      exact ih br' (by omega)

/-- No urgent work is due once all of it has been done. -/
theorem settle_quiet (s : State) : s.settle.quiet = true :=
  (quiet_iff _).2 (urgent_settleUntil s.env _ s.bridge (weight_lt_settleBound s.bridge))

theorem settle_settle (s : State) : s.settle.settle = s.settle := settle_of_quiet _ (settle_quiet s)

/-! ### The step -/

/-- Settles O2, by what urgent work uses up (`settle_quiet`). -/
theorem idleStepLeavesNothingDue : Obligations.IdleStepLeavesNothingDue := by
  unfold Obligations.IdleStepLeavesNothingDue
  intro s hp
  refine ⟨s.settle, ?_, settle_quiet s, rfl, rfl, rfl, hp, settle_of_quiet s⟩
  rw [step, hp]

theorem offerRequest_settle (r : Request) (s : State) : offerRequest r s = offerRequest r s.settle := by
  unfold offerRequest State.offer
  rw [settle_settle]

/-- Settles O3: each of these rows begins by settling, which changes nothing the second time (`settle_settle`). -/
theorem urgentWorkComesFirst : Obligations.UrgentWorkComesFirst := by
  unfold Obligations.UrgentWorkComesFirst
  intro c s hc hr
  cases c with
  | timestampTick => simp only [exec, execTimestampTick, settle_settle, settle_env, hr, Bool.false_eq_true, if_false]
  | write w => exact offerRequest_settle _ s
  | controlWrite w => exact offerRequest_settle _ s
  | acknowledge w => exact offerRequest_settle _ s
  | mask w => exact offerRequest_settle _ s
  | reportOwnerWrite w => exact offerRequest_settle _ s
  | read r => exact offerRequest_settle _ s
  | presentationRead r => exact offerRequest_settle _ s
  | upstreamOperationIssue => simp only [exec, execUpstreamOperationIssue, settle_settle]
  | ownWriteIssue => simp only [exec, execOwnWriteIssue, settle_settle]
  | operationDataReturn => simp only [exec, execOperationDataReturn, settle_settle]
  | readResponse => simp only [exec, execReadResponse, settle_settle]
  | solveArithmeticEnd => simp only [exec, execSolveArithmeticEnd, settle_settle]
  | rotationEdge change =>
    simp only [exec, execRotationEdge, settle_settle, settle_env, hr, Bool.false_eq_true, if_false]
  | staleTimeout input => simp only [exec, execStaleTimeout, settle_settle, settle_env]
  | _ => cases hc

end Sys2Proof.Machine
end

section
/-! PROOF. The rows of the solve: its start, the end of its arithmetic and its completion, with the command that waits for it
(R71 to R73, R89 to R93, R182). -/

namespace Sys2Proof.Machine

open Laws

/-! ### The start (R71, R72) -/

theorem canStartSolve_iff (br : Bridge) :
    canStartSolve br = true ↔ br.solver = .idle ∧ br.solverQueue ≠ [] ∧ br.releasingAll = false := by
  unfold canStartSolve Bridge.solverBusy
  cases br.solver <;> cases br.solverQueue <;> simp

theorem startSolve_of_head (br : Bridge) (e : SolveEntry) (rest : List SolveEntry) (hc : canStartSolve br = true)
    (hq : br.solverQueue = e :: rest) :
    br.startSolve =
      ({ br with solverQueue := rest, solver := .busy e false false } : Bridge).modView e.frame.view (fun vw =>
        { vw.modBuffer e.buffer (·.withRole .solve) with motion := vw.motion.adoptPending }) := by
  simp only [Bridge.startSolve, hc, if_true, hq]

theorem startSolve_of_not (br : Bridge) (hc : canStartSolve br = false) : br.startSolve = br := by
  rw [Bridge.startSolve, if_neg (by simp [hc])]

/-- R72: the tunables of a solve that starts; displacement and countdown are as before. -/
theorem adoptPending_spec (mo : Motion) :
    mo.adoptPending.active = mo.pending.getD mo.active ∧ mo.adoptPending.pending = none
      ∧ mo.adoptPending.ay = mo.ay ∧ mo.adoptPending.ax = mo.ax ∧ mo.adoptPending.countdown = mo.countdown := by
  unfold Motion.adoptPending
  cases h : mo.pending with
  | none => exact ⟨rfl, h, rfl, rfl, rfl⟩
  | some u => exact ⟨rfl, rfl, rfl, rfl, rfl⟩

theorem exec_solveStart_of_can (s : State) (hc : canStartSolve s.bridge = true) :
    exec .solveStart s = .next { s with bridge := s.bridge.startSolve } := by
  simp only [exec, execSolveStart, settleTo_of_stop s canStartSolve hc]

/-- Settles O44: where a solve can start, urgent work that is due does not come before it (`exec_solveStart_of_can`). -/
theorem solveStartTakesTheHead : Obligations.SolveStartTakesTheHead := by
  unfold Obligations.SolveStartTakesTheHead
  intro s
  constructor
  · intro e rest hidle hq hreleasing
    have hc : canStartSolve s.bridge = true := (canStartSolve_iff _).2 ⟨hidle, by simp [hq], hreleasing⟩
    have hstart := startSolve_of_head s.bridge e rest hc hq
    have hview : s.bridge.startSolve.views.get e.frame.view =
        { (s.bridge.views.get e.frame.view).modBuffer e.buffer (·.withRole .solve) with
          motion := (s.bridge.views.get e.frame.view).motion.adoptPending } := by
      rw [hstart, modView_get, if_pos rfl]
    obtain ⟨hactive, hpending, hay, hax, hcountdown⟩ := adoptPending_spec (s.bridge.views.get e.frame.view).motion
    refine ⟨_, exec_solveStart_of_can s hc, ?_, ?_, ?_, ?_, ?_⟩
    · rw [hstart, modView_solver]
    · rw [hstart, modView_solverQueue]
    · simp only [hview]
      refine ⟨?_, hactive, hpending, hay, hax, hcountdown, rfl, rfl, rfl⟩
      rw [modBuffer_get, if_pos rfl]
      rfl
    · rw [hstart]
      have hqueue : s.bridge.OtherViews { s.bridge with solverQueue := rest, solver := .busy e false false }
          e.frame.view := fun _ _ => rfl
      exact hqueue.modView _
    · rw [hstart]
      exact ⟨⟨rfl, rfl, rfl, rfl, rfl⟩, rfl, ⟨rfl, rfl, rfl, rfl, rfl⟩, ⟨rfl, rfl, rfl, rfl⟩, rfl, rfl, rfl, rfl, rfl, rfl⟩
  · intro hq hnot
    have hc : canStartSolve s.bridge = false := by
      rw [← Bool.not_eq_true, canStartSolve_iff]
      rintro ⟨hidle, hqueue, hreleasing⟩
      rcases hnot with h | h | h
      · exact h hidle
      · exact hqueue h
      · rw [hreleasing] at h
        cases h
    simp only [exec, execSolveStart, settleTo_of_quiet s _ hq, startSolve_of_not _ hc]

/-! ### The end of the arithmetic (R73) -/

/-- Settles O45. -/
theorem arithmeticEndIsNoted : Obligations.ArithmeticEndIsNoted := by
  unfold Obligations.ArithmeticEndIsNoted
  intro s hq
  have hexec : exec .solveArithmeticEnd s = .next { s with bridge := s.bridge.endArithmetic } := by
    simp only [exec, execSolveArithmeticEnd, settle_of_quiet s hq]
  refine ⟨fun e r n hs => ?_, fun hs => ?_⟩
  · rw [hexec, Bridge.endArithmetic, hs]
  · rw [hexec, Bridge.endArithmetic, hs]

/-! ### The command that waits for the solve (R93, R182) -/

/-- What the effect of a command that waits leaves alone, its completion included: all but views, solver queue, events, own
writes and the command ring. -/
structure Bridge.ServedFrame (br br' : Bridge) : Prop where
  solver : br'.solver = br.solver
  port : br.SamePort br'
  timer : br.SameTimer br'
  mask : br'.mask = br.mask
  descriptors : br'.descriptors = br.descriptors
  owners : br'.owners = br.owners
  position : br'.position = br.position
  outOfRange : br'.outOfRange = br.outOfRange

theorem servedFrame_refl (br : Bridge) : br.ServedFrame br :=
  ⟨rfl, ⟨rfl, rfl, rfl, rfl, rfl⟩, ⟨rfl, rfl, rfl, rfl⟩, rfl, rfl, rfl, rfl, rfl⟩

theorem servedFrame_completeCommand {br b : Bridge} (h : br.ServedFrame b) (env : Env) (f : InFlight) :
    br.ServedFrame (b.completeCommand env f.index f.entry .done 0) where
  solver := h.solver
  port := ⟨h.port.requests, h.port.busWait, h.port.accepted, h.port.stream, h.port.assemblies⟩
  timer := ⟨h.timer.rota, h.timer.rotb, h.timer.glitchA, h.timer.glitchB⟩
  mask := h.mask
  descriptors := h.descriptors
  owners := h.owners
  position := h.position
  outOfRange := h.outOfRange

theorem servedFrame_modView (br : Bridge) (v : Fin 4) (f : View → View) : br.ServedFrame (br.modView v f) :=
  ⟨rfl, ⟨rfl, rfl, rfl, rfl, rfl⟩, ⟨rfl, rfl, rfl, rfl⟩, rfl, rfl, rfl, rfl, rfl⟩

theorem servedFrame_releaseAll (br : Bridge) : br.ServedFrame br.releaseAll :=
  ⟨rfl, ⟨rfl, rfl, rfl, rfl, rfl⟩, ⟨rfl, rfl, rfl, rfl⟩, rfl, rfl, rfl, rfl, rfl⟩

theorem servedFrame_reachParked (br : Bridge) (v : Fin 4) : br.ServedFrame (br.reachParked v) :=
  have hwork := frameWork_reachParked br v
  { solver := reachParked_solver .., port := hwork.port, timer := hwork.timer, mask := hwork.mask
    descriptors := hwork.descriptors, owners := reachParked_owners .., position := reachParked_position ..
    outOfRange := hwork.outOfRange }

/-- R183: the bytes that the completion of a command in flight writes. -/
theorem completedEntry_getElem? (f : InFlight) (hl : f.entry.length = 16) (off : Nat) (ho : off < 16) :
    (completedEntry f.entry .done 0)[off]? = some (f.statusByte off) := by
  unfold completedEntry InFlight.statusByte
  simp only [List.getElem?_set, hl, List.length_set]
  by_cases h4 : off = 4
  · subst h4; rfl
  · by_cases h5 : off = 5
    · subst h5; rfl
    · by_cases h15 : off = 15
      · subst h15; rfl
      · rw [if_neg (Ne.symm h15), if_neg (Ne.symm h5), if_neg (Ne.symm h4), if_neg h4, if_neg h5, if_neg h15,
          List.getElem?_eq_getElem (by omega)]
        rfl

/-- R183: the completion of the command in flight, after an effect that left the command ring and the own writes alone. -/
theorem completeCommand_waitCompleted (br b : Bridge) (env : Env) (f : InFlight)
    (hshadow : b.commandShadow = br.commandShadow) (hindex : b.nextIndex = br.nextIndex) (hown : b.ownWrites = br.ownWrites)
    (hl : br.commandShadow.length = 256) (hf : f.index < 16) (he : f.entry.length = 16) :
    br.WaitCompleted (b.completeCommand env f.index f.entry .done 0) env f := by
  have hlen : (completedEntry f.entry .done 0).length = 16 := (completedEntry_length ..).trans he
  have hbyte (i off : Nat) (ho : off < 16) :
      (b.completeCommand env f.index f.entry .done 0).shadowByte i off =
        if i = f.index then f.statusByte off else br.shadowByte i off := by
    unfold Bridge.shadowByte
    rw [completeCommand_commandShadow, hshadow, overwrite_getElem? _ _ _ _ (by omega), hlen]
    by_cases hi : i = f.index
    · subst hi
      rw [if_pos (by omega), if_pos rfl, Nat.add_sub_cancel_left, completedEntry_getElem? f he off ho]
      rfl
    · rw [if_neg (by omega), if_neg hi]
  refine ⟨⟨⟨.status, b.births, controlBase env.straps + 0x800 + 16 * f.index, completedEntry f.entry .done 0, 0⟩,
      congrArg (· ++ _) hown, rfl, rfl, rfl, hlen, fun off ho => ⟨completedEntry_getElem? f he off ho, ?_⟩⟩,
    fun i off hi ho => ?_, ?_, rfl, congrArg (fun i => (i + 1) % 16) hindex⟩
  · rw [hbyte _ _ ho, if_pos rfl]
  · rw [hbyte _ _ ho, if_neg hi]
  · rw [completeCommand_events]
    simp [Event.word, Event.bit]

theorem completeCommand_otherEvents {br b : Bridge} {es : List Event} (h : br.OtherEvents b es) (hc : Event.cmd ∈ es)
    (env : Env) (i : Nat) (entry : List Byte) (st : Status) (detail : Nat) :
    br.OtherEvents (b.completeCommand env i entry st detail) es := h.raise hc

/-- R15: reaching PARKED and the completion of the command. -/
theorem reachParked_reachedParked (br : Bridge) (env : Env) (v : Fin 4) (f : InFlight) :
    br.ReachedParked ((br.reachParked v).completeCommand env f.index f.entry .done 0) v := by
  have hview : ((br.reachParked v).completeCommand env f.index f.entry .done 0).views.get v
      = (br.views.get v).reachParked := by
    rw [completeCommand_views, reachParked_view]
  have hcmd : (Event.hold v).bit ≠ Event.cmd.bit := by simp only [Event.bit]; omega
  have hbit : ((br.reachParked v).completeCommand env f.index f.entry .done 0).events.getLsbD (Event.hold v).bit =
      (br.events.getLsbD (Event.hold v).bit ||
        (decide (0 < entriesOf (br.views.get v).slots MapEntry.isHeld) || (br.views.get v).whiteout)) := by
    have hraise := raise_bit (br.reachParked v) .cmd (Event.hold v).bit
    rw [reachParked_bit] at hraise
    simpa [hcmd] using hraise
  refine ⟨?_, ?_, fun h => ?_, fun hnone hclear => ?_, fun u hu => ?_, ?_⟩
  · rw [hview]
    exact reachParked_parked _ _ rfl rfl rfl
  · rw [hview]
    rfl
  · rw [hbit]
    rcases h with h | h <;> simp [h]
  · rw [hbit, hnone, hclear]
    simp
  · rw [completeCommand_views]
    exact reachParked_otherViews br v u hu
  · exact completeCommand_otherEvents ((Bridge.OtherEvents.refl br [.cmd, .hold v]).reachParked (v := v) (by simp)) (by simp)
      _ _ _ _ _

theorem finishWaiting_of_none (env : Env) (br : Bridge) (v : Fin 4) (h : br.inFlight = none) :
    br.finishWaiting env v = br := by
  simp only [Bridge.finishWaiting, h]

theorem finishWaiting_of_other (env : Env) (br : Bridge) (v u : Fin 4) (f : InFlight) (h : br.inFlight = some f)
    (hw : f.wait = .park u ∨ f.wait = .rebase u) (hu : u ≠ v) : br.finishWaiting env v = br := by
  rcases hw with hw | hw <;> simp only [Bridge.finishWaiting, h, hw, if_neg hu]

theorem finishWaiting_of_park (env : Env) (br : Bridge) (v : Fin 4) (f : InFlight) (h : br.inFlight = some f)
    (hw : f.wait = .park v) :
    br.finishWaiting env v = (br.reachParked v).completeCommand env f.index f.entry .done 0 := by
  simp only [Bridge.finishWaiting, h, hw, if_true]

theorem finishWaiting_of_rebase (env : Env) (br : Bridge) (v : Fin 4) (f : InFlight) (h : br.inFlight = some f)
    (hw : f.wait = .rebase v) :
    br.finishWaiting env v = (br.modView v View.rebaseResets).completeCommand env f.index f.entry .done 0 := by
  simp only [Bridge.finishWaiting, h, hw, if_true]

theorem finishWaiting_of_releaseAll (env : Env) (br : Bridge) (v : Fin 4) (f : InFlight) (h : br.inFlight = some f)
    (hw : f.wait = .releaseAll) :
    br.finishWaiting env v = br.releaseAll.completeCommand env f.index f.entry .done 0 := by
  simp only [Bridge.finishWaiting, h, hw]

theorem finishWaiting_servedFrame (env : Env) (br : Bridge) (v : Fin 4) : br.ServedFrame (br.finishWaiting env v) := by
  unfold Bridge.finishWaiting
  split
  · exact servedFrame_refl br
  · split
    · split
      · exact servedFrame_completeCommand (servedFrame_reachParked ..) ..
      · exact servedFrame_refl br
    · split
      · exact servedFrame_completeCommand (servedFrame_modView ..) ..
      · exact servedFrame_refl br
    · exact servedFrame_completeCommand (servedFrame_releaseAll br) ..

theorem finishWaiting_solverQueue (env : Env) (br : Bridge) (v : Fin 4)
    (h : ∀ f, br.inFlight = some f → f.wait ≠ .releaseAll) : (br.finishWaiting env v).solverQueue = br.solverQueue := by
  unfold Bridge.finishWaiting
  split
  · rfl
  · rename_i f hf
    split
    · split
      · rw [completeCommand_solverQueue, reachParked_solverQueue]
      · rfl
    · split
      · rfl
      · rfl
    · rename_i hw
      exact (h f hf hw).elim

/-- R93, R182: what the end of a solve of view `v` does for the command that waits, in a bridge with a ring of its shape. -/
theorem finishWaiting_waitingServed (env : Env) (br : Bridge) (v : Fin 4) (hl : br.commandShadow.length = 256)
    (hi : br.nextIndex < 16) (hf : br.inFlightShaped) : br.WaitingServed (br.finishWaiting env v) env v := by
  have hcompleted (f : InFlight) (h : br.inFlight = some f) (b : Bridge) (hshadow : b.commandShadow = br.commandShadow)
      (hindex : b.nextIndex = br.nextIndex) (hown : b.ownWrites = br.ownWrites) :
      br.WaitCompleted (b.completeCommand env f.index f.entry .done 0) env f := by
    obtain ⟨hnext, hentry⟩ := hf f h
    exact completeCommand_waitCompleted br b env f hshadow hindex hown hl (hnext ▸ hi) hentry
  have hframe := finishWaiting_servedFrame env br v
  refine
    { none := finishWaiting_of_none env br v
      other := fun f u h hw hu => finishWaiting_of_other env br v u f h hw hu
      park := fun f h hw => ?park, rebase := fun f h hw => ?rebase, releaseAll := fun f h hw => ?releaseAll
      queue := finishWaiting_solverQueue env br v
      solver := hframe.solver, port := hframe.port, timer := hframe.timer, mask := hframe.mask
      descriptors := hframe.descriptors, owners := hframe.owners, position := hframe.position
      outOfRange := hframe.outOfRange }
  case park =>
    rw [finishWaiting_of_park env br v f h hw]
    exact ⟨hcompleted f h _ (reachParked_commandShadow ..) (reachParked_nextIndex ..) (reachParked_ownWrites ..),
      reachParked_reachedParked br env v f⟩
  case rebase =>
    rw [finishWaiting_of_rebase env br v f h hw]
    have hview : ((br.modView v View.rebaseResets).completeCommand env f.index f.entry .done 0).views.get v =
        (br.views.get v).rebaseResets := by
      rw [completeCommand_views, modView_get, if_pos rfl]
    refine ⟨hcompleted f h _ rfl rfl rfl, hview ▸ rfl, ?_, fun u hu => ?_,
      completeCommand_otherEvents (b := br.modView v _) (.refl br _) (List.mem_singleton.2 rfl) _ _ _ _ _⟩
    · rw [hview]
      exact rebaseResets_rebaseReset (br.views.get v) (br.views.get v).state (br.views.get v).buffers
        (br.views.get v).intake
    · rw [completeCommand_views]
      exact (Bridge.OtherViews.refl br v).modView _ u hu
  case releaseAll =>
    rw [finishWaiting_of_releaseAll env br v f h hw]
    refine ⟨hcompleted f h _ rfl rfl rfl, releaseAll_unconfigured br, fun u hu => ?_, rfl,
      completeCommand_otherEvents (b := br.releaseAll) (.refl br _) (List.mem_singleton.2 rfl) _ _ _ _ _⟩
    rw [completeCommand_views, releaseAll_views_get, if_neg hu]
    exact release_released _

/-! ### The results (R89 to R92) -/

/-- The completion row of a solve that has ended, with places free for its own writes (R73). -/
theorem exec_solveCompletion_of_ended (s : State) (e : SolveEntry) (reopened : Bool)
    (hs : s.bridge.solver = .busy e reopened true) (hfree : s.bridge.ownWrites.length ≤ 13) :
    exec .solveCompletion s =
      .next { s with bridge := (s.bridge.solveResults s.env e reopened).finishWaiting s.env e.frame.view } := by
  have hdue : completionDue s.bridge = true := by
    have hplaces : 3 ≤ s.bridge.ownFree := by
      unfold Bridge.ownFree Config.ownPlaces
      omega
    simp [completionDue, hs, hplaces]
  simp only [exec, execSolveCompletion, settleTo_of_stop s completionDue hdue, hdue, if_true,
    completeSolve_of_busy s.env s.bridge e reopened true hs]

section
variable (env : Env) (br : Bridge) (e : SolveEntry) (reopened : Bool)

theorem solveStored_view :
    (br.solveStored e reopened).views.get e.frame.view =
      (br.views.get e.frame.view).storeSolve e ((br.views.get e.frame.view).solveOf e)
        ((br.views.get e.frame.view).tilesOf e reopened) reopened := by
  unfold Bridge.solveStored
  rw [raiseIf_views, modView_get, if_pos rfl]

theorem solveStored_frameWork : br.FrameWork (br.solveStored e reopened) := by
  have hmod := frameWork_modView br e.frame.view (fun vw => vw.storeSolve e ((br.views.get e.frame.view).solveOf e)
    ((br.views.get e.frame.view).tilesOf e reopened) reopened)
  unfold Bridge.solveStored Bridge.raiseIf
  split
  · exact hmod.trans (frameWork_raise ..)
  · exact hmod

theorem solveResults_frameWork : br.FrameWork (br.solveResults env e reopened) := by
  have hidle (b : Bridge) : b.FrameWork { b with solver := .idle } :=
    ⟨⟨rfl, rfl, rfl, rfl⟩, ⟨rfl, rfl, rfl, rfl, rfl⟩, rfl, rfl, rfl, rfl, rfl, rfl⟩
  exact (((solveStored_frameWork br e reopened).trans (frameWork_report ..)).trans (frameWork_raise ..)).trans (hidle _)

theorem solveResults_solverQueue : (br.solveResults env e reopened).solverQueue = br.solverQueue :=
  (report_solverQueue ..).trans (raiseIf_solverQueue ..)

/-- The view of a solve after it: what the solve stores, and LOST as its report leaves it. -/
theorem solveResults_view :
    ∃ n, (br.solveResults env e reopened).views.get e.frame.view =
      ((br.views.get e.frame.view).storeSolve e ((br.views.get e.frame.view).solveOf e)
        ((br.views.get e.frame.view).tilesOf e reopened) reopened).count (fun c => { c with lost := n }) := by
  obtain ⟨n, hn⟩ := report_view_lost env (br.solveStored e reopened) ((br.views.get e.frame.view).reportOf e reopened)
    e.frame.view
  rw [solveStored_view] at hn
  exact ⟨n, hn⟩

theorem solveResults_otherViews : br.OtherViews (br.solveResults env e reopened) e.frame.view := by
  have hstored : br.OtherViews (br.solveStored e reopened) e.frame.view := fun u hu => by
    unfold Bridge.solveStored
    rw [raiseIf_views]
    exact (Bridge.OtherViews.refl br e.frame.view).modView _ u hu
  exact hstored.report env ((br.views.get e.frame.view).reportOf e reopened) rfl

/-- The events of a solve: HOLD on a change of the whiteout flag, LOST where the report is lost, FRAME. -/
theorem solveResults_bit (n : Nat) :
    (br.solveResults env e reopened).events.getLsbD n =
      (br.events.getLsbD n
        || ((((br.views.get e.frame.view).tilesOf e reopened).whiteout != (br.views.get e.frame.view).whiteout)
          && decide (n = (Event.hold e.frame.view).bit))
        || (!br.reportFree && decide (n = (Event.lost e.frame.view).bit))
        || decide (n = (Event.frame e.frame.view).bit)) := by
  have hfree : (br.solveStored e reopened).reportFree = br.reportFree := by
    unfold Bridge.reportFree Bridge.solveStored
    rw [raiseIf_owners, raiseIf_position]
    rfl
  refine (raise_bit ..).trans ?_
  rw [report_bit, hfree, Bridge.solveStored, raiseIf_bit]
  rfl

theorem solveResults_frame_bit : (br.solveResults env e reopened).events.getLsbD (Event.frame e.frame.view).bit = true := by
  rw [solveResults_bit]
  simp

theorem solveResults_hold_bit :
    (br.solveResults env e reopened).events.getLsbD (Event.hold e.frame.view).bit =
      (br.events.getLsbD (Event.hold e.frame.view).bit
        || (((br.views.get e.frame.view).tilesOf e reopened).whiteout != (br.views.get e.frame.view).whiteout)) := by
  have hlost : (Event.hold e.frame.view).bit ≠ (Event.lost e.frame.view).bit := by simp only [Event.bit]; omega
  have hframe : (Event.hold e.frame.view).bit ≠ (Event.frame e.frame.view).bit := by simp only [Event.bit]; omega
  rw [solveResults_bit]
  simp [hlost, hframe]

theorem solveResults_otherEvents :
    br.OtherEvents (br.solveResults env e reopened) [.frame e.frame.view, .hold e.frame.view, .lost e.frame.view] := by
  intro n _ hne
  have hframe : n ≠ (Event.frame e.frame.view).bit := fun h => hne (.frame e.frame.view) (by simp) h.symm
  have hhold : n ≠ (Event.hold e.frame.view).bit := fun h => hne (.hold e.frame.view) (by simp) h.symm
  have hlost : n ≠ (Event.lost e.frame.view).bit := fun h => hne (.lost e.frame.view) (by simp) h.symm
  rw [solveResults_bit]
  simp [hframe, hhold, hlost]

/-- R92, R187: the FRAME report that finds a free entry. -/
theorem solveResults_ownWrites_of_free (hfree : br.reportFree = true) :
    ∃ o : OwnWrite, (br.solveResults env e reopened).ownWrites = br.ownWrites ++ [o] ∧ o.kind = .report
      ∧ o.address = controlBase env.straps + 0x1000 + 32 * br.position
      ∧ o.bytes = ((br.views.get e.frame.view).reportOf e reopened).bytes := by
  have hown : (br.solveStored e reopened).ownWrites = br.ownWrites := raiseIf_ownWrites ..
  have hposition : (br.solveStored e reopened).position = br.position := raiseIf_position ..
  have howners : (br.solveStored e reopened).owners = br.owners := raiseIf_owners ..
  have hreport := report_ownWrites_of_free env (br.solveStored e reopened)
    ((br.views.get e.frame.view).reportOf e reopened) (by rw [Bridge.reportFree, howners, hposition]; exact hfree)
  rw [hown, hposition] at hreport
  exact ⟨_, hreport, rfl, rfl, rfl⟩

/-- R188: the FRAME report that is lost. -/
theorem solveResults_ownWrites_of_held (hheld : br.reportFree = false) :
    (br.solveResults env e reopened).ownWrites = br.ownWrites := by
  have hposition : (br.solveStored e reopened).position = br.position := raiseIf_position ..
  have howners : (br.solveStored e reopened).owners = br.owners := raiseIf_owners ..
  have hreport := report_of_held env (br.solveStored e reopened)
    ((br.views.get e.frame.view).reportOf e reopened) (by rw [Bridge.reportFree, howners, hposition]; exact hheld)
  exact (congrArg Bridge.ownWrites hreport).trans (raiseIf_ownWrites ..)

/-- R93: the command that waits, after the results of a solve. -/
theorem solveResults_waitingServed (hs : br.Shaped) :
    (br.solveResults env e reopened).WaitingServed
      ((br.solveResults env e reopened).finishWaiting env e.frame.view) env e.frame.view := by
  have hwork := solveResults_frameWork env br e reopened
  refine finishWaiting_waitingServed env _ _ (hwork.commandShadow ▸ hs.commandShadow) (hwork.nextIndex ▸ hs.nextIndex)
    fun f hf => ?_
  rw [hwork.nextIndex]
  exact hs.inFlight f (hwork.inFlight.symm.trans hf)

end

/-- R90: the solved buffer is the view's only reference. -/
theorem storeMotion_reference (vw : View) (e : SolveEntry) (m : MotionResult) (t : TileResult) (i : Fin 4) :
    ((vw.storeMotion e m t).buffers.get i).role = .ref ↔ i = e.buffer := by
  have hget : (vw.storeMotion e m t).buffers.get i =
      if i = e.buffer then ((vw.freeRole .ref).buffers.get e.buffer).withRole .ref
      else (vw.freeRole .ref).buffers.get i := modBuffer_get (vw.freeRole .ref) e.buffer i _
  rw [hget]
  by_cases hi : i = e.buffer
  · simp [hi, ProfileBuffer.withRole]
  · rw [if_neg hi]
    exact iff_of_false (freeRole_noBuffer vw .ref (by decide) i) hi

theorem storeSlot_slot (vw : View) (e : SolveEntry) (m : MotionResult) (t : TileResult)
    (hk : e.frame.slot < vw.slots.length) :
    ∃ sl, (vw.storeSlot e m t).slots[e.frame.slot]? = some sl ∧ sl.state = .ready
      ∧ sl.offsets = some ⟨m.y.offset, m.x.offset⟩ ∧ sl.map = t.map := by
  refine ⟨{ vw.slots[e.frame.slot] with state := .ready, offsets := some ⟨m.y.offset, m.x.offset⟩, map := t.map }, ?_,
    rfl, rfl, rfl⟩
  refine (modSlot_getElem? vw e.frame.slot e.frame.slot _).trans ?_
  rw [List.getElem?_eq_getElem hk]
  simp

theorem storeSlot_slot_of_ne (vw : View) (e : SolveEntry) (m : MotionResult) (t : TileResult) (k : Nat)
    (hk : k ≠ e.frame.slot) : (vw.storeSlot e m t).slots[k]? = vw.slots[k]? := by
  refine (modSlot_getElem? vw e.frame.slot k _).trans ?_
  simp [hk]

/-- R202: the first bytes of the report of a solve. -/
theorem reportOf_take4 (vw : View) (e : SolveEntry) (reopened : Bool) :
    (vw.reportOf e reopened).bytes.take 4 = [1, BitVec.ofNat 8 e.frame.view.val, BitVec.ofNat 8 e.frame.slot, 0] := by
  have hsix := report_bytes_take6 (vw.reportOf e reopened)
  calc (vw.reportOf e reopened).bytes.take 4 = ((vw.reportOf e reopened).bytes.take 6).take 4 := by rw [List.take_take]; rfl
    _ = _ := by rw [hsix]; rfl

/-- R89, R90, R98: what the results of a solve `m` and `t` make of a view `vw`, beside its slots. -/
structure View.Solved (vw vt : View) (e : SolveEntry) (m : MotionResult) (t : TileResult) : Prop where
  ay : vt.motion.ay = m.y.a
  ax : vt.motion.ax = m.x.a
  dy : vt.motion.dy = m.y.table
  dx : vt.motion.dx = m.x.table
  countdown : vt.motion.countdown = t.countdown
  tiles : vt.tiles = t.tiles
  seed : vt.seed = t.seed
  whiteout : vt.whiteout = t.whiteout
  reference : ∀ i, (vt.buffers.get i).role = .ref ↔ i = e.buffer
  intake : vt.intake = vw.intake
  scan : vt.scan = vw.scan
  state : vt.state = vw.state

theorem storeMotion_solved (vw : View) (e : SolveEntry) (m : MotionResult) (t : TileResult) :
    vw.Solved (vw.storeMotion e m t) e m t :=
  ⟨rfl, rfl, rfl, rfl, rfl, rfl, rfl, rfl, storeMotion_reference vw e m t, rfl, rfl, rfl⟩

theorem storeMotion_slots (vw : View) (e : SolveEntry) (m : MotionResult) (t : TileResult) :
    (vw.storeMotion e m t).slots = vw.slots ∧ (vw.storeMotion e m t).ready = vw.ready := ⟨rfl, rfl⟩

theorem storeSlot_solved {vw vt : View} {e : SolveEntry} {m : MotionResult} {t : TileResult} (h : vw.Solved vt e m t) :
    vw.Solved (vt.storeSlot e m t) e m t := { h with }

theorem count_solved {vw vt : View} {e : SolveEntry} {m : MotionResult} {t : TileResult} (h : vw.Solved vt e m t)
    (f : ViewCounters → ViewCounters) : vw.Solved (vt.count f) e m t := { h with }

/-- Settles O46: the results of the solve (`storeSlot_solved`, `solveResults_bit`) and what they do for the command that
waits (`solveResults_waitingServed`). -/
theorem solveCompletionMakesReady : Obligations.SolveCompletionMakesReady := by
  unfold Obligations.SolveCompletionMakesReady
  intro s e hs hsolver hown hk vw cur m r
  obtain ⟨n, hn⟩ := solveResults_view s.env s.bridge e false
  have hview : (s.bridge.solveResults s.env e false).views.get e.frame.view =
      ((vw.storeMotion e m r).storeSlot e m r).count (fun c => { c with lost := n }) := hn
  have hsolved := count_solved (storeSlot_solved (storeMotion_solved vw e m r)) (fun c => { c with lost := n })
  have hwork := solveResults_frameWork s.env s.bridge e false
  have hhold := solveResults_hold_bit s.env s.bridge e false
  have hwhiteout : (vw.tilesOf e false).whiteout = r.whiteout := rfl
  obtain ⟨sl, hsl, hready, hoffsets, hmap⟩ := storeSlot_slot (vw.storeMotion e m r) e m r hk
  refine ⟨_, s.bridge.solveResults s.env e false, sl, exec_solveCompletion_of_ended s e false hsolver hown, rfl,
    solveResults_solverQueue .., ?_, solveResults_frame_bit .., fun h => ?_, fun h => ?_, fun hfree => ?_,
    solveResults_ownWrites_of_held s.env s.bridge e false, solveResults_otherViews s.env s.bridge e false, hwork.timer,
    hwork.port, hwork.mask, hwork.descriptors, hwork.commandShadow, hwork.nextIndex, hwork.inFlight, hwork.outOfRange,
    solveResults_otherEvents s.env s.bridge e false, solveResults_waitingServed s.env s.bridge e false hs.bridge, rfl, rfl,
    rfl, rfl⟩
  · rw [hview]
    exact ⟨hsl, hready, hoffsets, hmap, insertReady_mem _ _, storeSlot_slot_of_ne (vw.storeMotion e m r) e m r,
      hsolved.ay, hsolved.ax, hsolved.dy, hsolved.dx, hsolved.countdown, hsolved.tiles, hsolved.seed, hsolved.whiteout,
      hsolved.reference, hsolved.intake, hsolved.scan, hsolved.state⟩
  · rw [hhold, hwhiteout]
    simp [h, vw]
  · rw [hhold, hwhiteout]
    simp [h, vw]
  · obtain ⟨o, ho, hkind, haddress, hbytes⟩ := solveResults_ownWrites_of_free s.env s.bridge e false hfree
    exact ⟨o, ho, hkind, haddress, hbytes ▸ reportOf_take4 vw e false⟩

/-- Settles O47: the results of a reopened solve leave the slots alone (`storeSolve_eq`), and serve the command that waits
as any others (`solveResults_waitingServed`). -/
theorem reopenedCompletionLeavesTheSlot : Obligations.ReopenedCompletionLeavesTheSlot := by
  unfold Obligations.ReopenedCompletionLeavesTheSlot
  intro s e hs hsolver hown vw cur m r
  obtain ⟨n, hn⟩ := solveResults_view s.env s.bridge e true
  have hview : (s.bridge.solveResults s.env e true).views.get e.frame.view =
      (vw.storeMotion e m r).count (fun c => { c with lost := n }) := hn
  have hsolved := count_solved (storeMotion_solved vw e m r) (fun c => { c with lost := n })
  obtain ⟨hslots, hready⟩ := storeMotion_slots vw e m r
  have hwork := solveResults_frameWork s.env s.bridge e true
  refine ⟨_, s.bridge.solveResults s.env e true, exec_solveCompletion_of_ended s e true hsolver hown, rfl, ?_,
    solveResults_frame_bit .., solveResults_otherViews s.env s.bridge e true, hwork.timer, hwork.port,
    solveResults_solverQueue .., hwork.commandShadow, hwork.inFlight,
    solveResults_waitingServed s.env s.bridge e true hs.bridge, rfl, rfl, rfl, rfl⟩
  rw [hview]
  exact ⟨hslots, hready, hsolved.state, hsolved.ay, hsolved.ax, hsolved.dy, hsolved.dx, hsolved.tiles, hsolved.countdown,
    hsolved.seed, hsolved.whiteout, hsolved.reference⟩

end Sys2Proof.Machine
end

section
/-! PROOF. The tile step (chapter 5): what it makes of the tile at a place, of its map entry and of the counts, and the
statements about tile decisions. -/

namespace Sys2Proof.Machine

open Laws

/-! ### Baselines and one tile (R100 to R107) -/

/-- R103: a baseline that moves an eighth of the way toward a value that is not negative does not become negative. -/
theorem updateBaseline_eq (b v : Nat) : (updateBaseline b v : Int) = b + ((16 * (v : Int)) - b).fdiv 8 := by
  unfold updateBaseline
  rw [Int.fdiv_eq_ediv_of_nonneg _ (by decide)]
  omega

/-- R103: both baselines of `y` are those of `x`, moved an eighth of the way toward `m` and `c`. -/
def Tile.Moved (x y : Tile) (m c : Nat) : Prop :=
  (y.bm : Int) = x.bm + ((16 * (m : Int)) - x.bm).fdiv 8 ∧ (y.bc : Int) = x.bc + ((16 * (c : Int)) - x.bc).fdiv 8

theorem updateBaselines_moved (x : Tile) (m c : Nat) : x.Moved (x.updateBaselines m c) m c :=
  ⟨updateBaseline_eq .., updateBaseline_eq ..⟩

/-- The clean source that a clean tile keeps: the solved slot, unless it was reopened (R105). -/
theorem orElse_source (source old : Option Nat) :
    source.orElse (fun _ => old) = match source with
      | some k => some k
      | none => old := by
  cases source <;> rfl

theorem isDusty_iff (x : Tile) (cr mt m c : Nat) :
    x.isDusty cr mt m c = true ↔ c * 256 ≤ x.bc * cr ∧ 16 * mt ≤ ((16 * (m : Int)) - (x.bm : Int)).natAbs := by
  simp [Tile.isDusty]

theorem mayHold_iff (x : Tile) (ha age : Nat) (whiteout : Bool) :
    x.mayHold ha age whiteout = true ↔ 1 ≤ ha ∧ age ≤ ha ∧ whiteout = false ∧ x.source.isSome = true := by
  simp [Tile.mayHold, and_assoc]

theorem beDusty_state (x : Tile) (ha : Nat) (whiteout : Bool) (m c : Nat) :
    (x.beDusty ha whiteout m c).state =
      if x.mayHold ha (min (x.age + 1) 255) whiteout then .held else .exposed := rfl

theorem beDusty_held_iff (x : Tile) (ha : Nat) (whiteout : Bool) (m c : Nat) :
    (x.beDusty ha whiteout m c).state = .held ↔ x.mayHold ha (min (x.age + 1) 255) whiteout = true := by
  rw [beDusty_state]
  split <;> simp [*]

theorem beDusty_held_or_exposed (x : Tile) (ha : Nat) (whiteout : Bool) (m c : Nat) :
    (x.beDusty ha whiteout m c).state = .held ∨ (x.beDusty ha whiteout m c).state = .exposed := by
  rw [beDusty_state]
  split
  · exact .inl rfl
  · exact .inr rfl

/-- A dusty tile is not made clean. -/
theorem beDusty_ne_clean (x : Tile) (ha : Nat) (whiteout : Bool) (m c : Nat) :
    (x.beDusty ha whiteout m c).state ≠ .clean := by
  rw [beDusty_state]
  split <;> exact TileState.noConfusion

theorem beDusty_source (x : Tile) (ha : Nat) (whiteout : Bool) (m c : Nat) :
    (x.beDusty ha whiteout m c).source = x.source := by
  unfold Tile.beDusty
  dsimp only
  split <;> rfl

/-- R107: up to HA the baselines of a dusty tile stand still. -/
theorem beDusty_kept (x : Tile) (ha : Nat) (whiteout : Bool) (m c : Nat) (h : min (x.age + 1) 255 ≤ ha) :
    (x.beDusty ha whiteout m c).bm = x.bm ∧ (x.beDusty ha whiteout m c).bc = x.bc := by
  have hage : ¬ ha < min (x.age + 1) 255 := Nat.not_lt.2 h
  simp [Tile.beDusty, hage]

/-- R107: above HA a dusty tile is learned again. -/
theorem beDusty_moved (x : Tile) (ha : Nat) (whiteout : Bool) (m c : Nat) (h : ha < min (x.age + 1) 255) :
    x.Moved (x.beDusty ha whiteout m c) m c := by
  have hmoved := updateBaselines_moved x m c
  simpa only [Tile.Moved, Tile.beDusty, if_pos h] using hmoved

/-- The map entry of a HELD tile names the tile's source (R97). -/
theorem entry_of_held (t : Tile) (k : Nat) (hst : t.state = .held) (hsource : t.source = some k) : t.entry = .held k := by
  simp [Tile.entry, hst, hsource]

theorem entry_of_not_held (t : Tile) (hst : t.state ≠ .held) : t.entry = .live := by
  unfold Tile.entry
  split
  · exact (hst ‹_›).elim
  · rfl

/-- An entry that is not LIVE names the tile's source. -/
theorem entry_cases (t : Tile) : t.entry = .live ∨ ∃ k, t.entry = .held k ∧ t.source = some k := by
  unfold Tile.entry
  split
  · exact .inr ⟨_, rfl, ‹_›⟩
  · exact .inl rfl

/-! ### The tile at a place -/

/-- The tile of place `n` with its mean and contrast in a frame (R99). -/
def tileCaseAt (p : ProfileBuffer) (n : Nat) (x : Tile) : TileCase :=
  { place := n, tile := x, m := tileValue (p.tileS.getD n 0), c := tileValue (p.tileG.getD n 0) }

theorem tileCases_getElem? (tiles : List Tile) (p : ProfileBuffer) (n : Nat) :
    (tileCases tiles p.tileS p.tileG)[n]? = (tiles[n]?).map (tileCaseAt p n) := by
  simp only [tileCases, List.getElem?_map, List.getElem?_zipIdx, Option.map_map, Function.comp_def, Nat.zero_add]
  rfl

/-- R102: whether the step decides a tile dusty. -/
def View.isDustyCase (vw : View) (q : TileCase) : Bool :=
  vw.geometry.inGrid q.place && q.tile.isDusty vw.motion.active.cr vw.motion.active.mt q.m q.c

/-- R102 to R107: what the step after learning makes of a tile. -/
def View.decideTile (vw : View) (whiteout : Bool) (source : Option Nat) (q : TileCase) : Tile :=
  if vw.isDustyCase q then q.tile.beDusty vw.motion.active.ha whiteout q.m q.c
  else if vw.geometry.inGrid q.place then q.tile.beClean source q.m q.c
  else q.tile

/-- R97: the map entry the step after learning writes for a tile. -/
def View.decideEntry (vw : View) (whiteout : Bool) (source : Option Nat) (q : TileCase) : MapEntry :=
  if vw.isDustyCase q then (vw.decideTile whiteout source q).entry else .live

/-- R104: how many tiles are dusty. -/
def View.dustyCount (vw : View) (p : ProfileBuffer) : Nat :=
  (tileCases vw.tiles p.tileS p.tileG).countP vw.isDustyCase

/-- R104: whether they are too many to be dust. -/
def View.whiteoutFor (vw : View) (p : ProfileBuffer) : Bool :=
  decide (vw.geometry.tw * vw.geometry.th * vw.motion.active.wf < vw.dustyCount p * 16)

/-- R115: how many of the dusty tiles are HELD. -/
def View.heldCount (vw : View) (p : ProfileBuffer) (source : Option Nat) : Nat :=
  (tileCases vw.tiles p.tileS p.tileG).countP (fun q =>
    vw.isDustyCase q && (vw.decideTile (vw.whiteoutFor p) source q).state == .held)

/-- R98, R102 to R107: the tile step after learning. -/
theorem tileStep_of_learned (vw : View) (p : ProfileBuffer) (source : Option Nat) (h : vw.motion.countdown = 0) :
    tileStep vw p source =
      { tiles := (tileCases vw.tiles p.tileS p.tileG).map (vw.decideTile (vw.whiteoutFor p) source)
        map := (tileCases vw.tiles p.tileS p.tileG).map (vw.decideEntry (vw.whiteoutFor p) source)
        countdown := vw.motion.countdown
        seed := vw.seed
        whiteout := vw.whiteoutFor p
        learning := false
        dusty := vw.dustyCount p
        held := vw.heldCount p source
        exposed := vw.dustyCount p - vw.heldCount p source } :=
  if_neg (by omega)

/-- What a learning solve makes of a tile (R100, R101). -/
def View.learnTile (vw : View) (source : Option Nat) (q : TileCase) : Tile :=
  if vw.geometry.inGrid q.place then q.tile.learn vw.seed (decide (vw.motion.countdown = 1)) source q.m q.c else q.tile

/-- R98, R100, R101: the tile step of a learning solve. -/
theorem tileStep_of_learning (vw : View) (p : ProfileBuffer) (source : Option Nat) (h : 0 < vw.motion.countdown) :
    tileStep vw p source =
      { tiles := (tileCases vw.tiles p.tileS p.tileG).map (vw.learnTile source)
        map := allLive
        countdown := vw.motion.countdown - 1
        seed := false
        whiteout := false
        learning := true
        dusty := 0
        held := 0
        exposed := 0 } :=
  if_pos h

section
variable {vw : View} {p : ProfileBuffer} (source : Option Nat) {n : Nat} {x : Tile}

theorem tileStep_tile_of_learned (h : vw.motion.countdown = 0) (hx : vw.tiles[n]? = some x) :
    (tileStep vw p source).tiles[n]? = some (vw.decideTile (vw.whiteoutFor p) source (tileCaseAt p n x)) := by
  rw [tileStep_of_learned vw p source h, List.getElem?_map, tileCases_getElem?, hx]
  rfl

theorem tileStep_entry_of_learned (h : vw.motion.countdown = 0) (hx : vw.tiles[n]? = some x) :
    (tileStep vw p source).map[n]? = some (vw.decideEntry (vw.whiteoutFor p) source (tileCaseAt p n x)) := by
  rw [tileStep_of_learned vw p source h, List.getElem?_map, tileCases_getElem?, hx]
  rfl

theorem tileStep_tile_of_learning (h : 0 < vw.motion.countdown) (hx : vw.tiles[n]? = some x) :
    (tileStep vw p source).tiles[n]? = some (vw.learnTile source (tileCaseAt p n x)) := by
  rw [tileStep_of_learning vw p source h, List.getElem?_map, tileCases_getElem?, hx]
  rfl

end

/-! ### Dusty, clean and outside the grid -/

section
variable {vw : View} {q : TileCase} (whiteout : Bool) (source : Option Nat)

theorem decideTile_of_dusty (h : vw.isDustyCase q = true) :
    vw.decideTile whiteout source q = q.tile.beDusty vw.motion.active.ha whiteout q.m q.c := if_pos h

theorem decideTile_of_clean (h : vw.isDustyCase q = false) (hg : vw.geometry.inGrid q.place = true) :
    vw.decideTile whiteout source q = q.tile.beClean source q.m q.c := by
  rw [View.decideTile, if_neg (by simp [h]), if_pos hg]

theorem isDustyCase_of_outside (hg : vw.geometry.inGrid q.place = false) : vw.isDustyCase q = false := by
  rw [View.isDustyCase, hg, Bool.false_and]

theorem decideTile_of_outside (hg : vw.geometry.inGrid q.place = false) : vw.decideTile whiteout source q = q.tile := by
  rw [View.decideTile, if_neg (by simp [isDustyCase_of_outside hg]), if_neg (by simp [hg])]

theorem isDustyCase_iff (hg : vw.geometry.inGrid q.place = true) :
    vw.isDustyCase q = true ↔ q.c * 256 ≤ q.tile.bc * vw.motion.active.cr
      ∧ 16 * vw.motion.active.mt ≤ ((16 * (q.m : Int)) - (q.tile.bm : Int)).natAbs := by
  rw [View.isDustyCase, hg, Bool.true_and, isDusty_iff]

/-- R102: HELD and EXPOSED are the decisions about dusty tiles, and no others. -/
theorem decideTile_held_or_exposed_iff (hg : vw.geometry.inGrid q.place = true) :
    ((vw.decideTile whiteout source q).state = .held ∨ (vw.decideTile whiteout source q).state = .exposed)
      ↔ vw.isDustyCase q = true := by
  cases hd : vw.isDustyCase q
  · rw [decideTile_of_clean whiteout source hd hg]
    simp [Tile.beClean]
  · rw [decideTile_of_dusty whiteout source hd]
    simpa using beDusty_held_or_exposed ..

theorem decideTile_clean_iff (hg : vw.geometry.inGrid q.place = true) :
    (vw.decideTile whiteout source q).state = .clean ↔ vw.isDustyCase q = false := by
  cases hd : vw.isDustyCase q
  · rw [decideTile_of_clean whiteout source hd hg]
    simp [Tile.beClean]
  · rw [decideTile_of_dusty whiteout source hd]
    exact iff_of_false (beDusty_ne_clean _ _ _ _ _) Bool.noConfusion

end

/-- Settles O50, by the case of the tile at its place (`isDustyCase_iff`, `decideTile_held_or_exposed_iff`). -/
theorem dustNeedsBothTests : Obligations.DustNeedsBothTests := by
  unfold Obligations.DustNeedsBothTests
  intro vw p source n x y hcountdown hx hg hy m c
  obtain rfl : vw.decideTile (vw.whiteoutFor p) source (tileCaseAt p n x) = y :=
    Option.some.inj ((tileStep_tile_of_learned source hcountdown hx).symm.trans hy)
  have hdusty := decideTile_held_or_exposed_iff (q := tileCaseAt p n x) (vw.whiteoutFor p) source hg
  refine ⟨hdusty.trans (isDustyCase_iff hg), ?_⟩
  cases hd : vw.isDustyCase (tileCaseAt p n x)
  · exact .inl ((decideTile_clean_iff _ source hg).2 hd)
  · exact .inr (hdusty.2 hd)

/-! ### The counts (R104, R115) -/

/-- The places of a list stay with the items when each item is replaced. -/
theorem zipIdx_map_zipIdx {α β : Type} (xs : List α) (f : α × Nat → β) :
    (xs.zipIdx.map f).zipIdx = xs.zipIdx.map (fun a => (f a, a.2)) := by
  apply List.ext_getElem?
  intro n
  simp only [List.getElem?_zipIdx, List.getElem?_map, Option.map_map, Nat.zero_add]
  rfl

/-- R104: the dusty tiles are those of the grid that are decided HELD or EXPOSED. -/
theorem dustyCount_eq (vw : View) (p : ProfileBuffer) (whiteout : Bool) (source : Option Nat) :
    (((tileCases vw.tiles p.tileS p.tileG).map (vw.decideTile whiteout source)).zipIdx).countP (fun q =>
      vw.geometry.inGrid q.2 && (q.1.state == .held || q.1.state == .exposed)) = vw.dustyCount p := by
  have hcases : tileCases vw.tiles p.tileS p.tileG = vw.tiles.zipIdx.map (fun a => tileCaseAt p a.2 a.1) := rfl
  rw [View.dustyCount, hcases, List.map_map, zipIdx_map_zipIdx, List.countP_map, List.countP_map]
  refine List.countP_congr fun a _ => ?_
  simp only [Function.comp_apply, Bool.and_eq_true, Bool.or_eq_true, beq_iff_eq]
  cases hg : vw.geometry.inGrid a.2
  · simp [isDustyCase_of_outside (q := tileCaseAt p a.2 a.1) hg]
  · simpa using decideTile_held_or_exposed_iff (q := tileCaseAt p a.2 a.1) whiteout source hg

theorem heldCount_le (vw : View) (p : ProfileBuffer) (source : Option Nat) : vw.heldCount p source ≤ vw.dustyCount p :=
  List.countP_mono_left fun _ _ h => (Bool.and_eq_true _ _ ▸ h).1

/-! ### A tile in a learning solve (R100, R101) -/

section
variable (x : Tile) (ends : Bool) (source : Option Nat) (m c : Nat)

theorem learn_age (seed : Bool) : (x.learn seed ends source m c).age = 0 := by
  cases ends <;> rfl

theorem learn_seeded : (x.learn true ends source m c).bm = 16 * m ∧ (x.learn true ends source m c).bc = 16 * c := by
  cases ends <;> exact ⟨rfl, rfl⟩

theorem learn_moved : x.Moved (x.learn false ends source m c) m c := by
  cases ends <;> exact updateBaselines_moved x m c

theorem learn_last (seed : Bool) :
    (x.learn seed true source m c).state = .clean ∧ (x.learn seed true source m c).source = source.orElse (fun _ => x.source) := by
  cases seed <;> exact ⟨rfl, rfl⟩

theorem learn_not_last (seed : Bool) :
    (x.learn seed false source m c).state = .learning ∧ (x.learn seed false source m c).source = x.source := by
  cases seed <;> exact ⟨rfl, rfl⟩

end

/-! ### The decisions -/

/-- R105: what the step makes of a clean tile of the grid. -/
theorem beClean_spec (x : Tile) (source : Option Nat) (m c : Nat) :
    (x.beClean source m c).age = 0 ∧ x.Moved (x.beClean source m c) m c
      ∧ (x.beClean source m c).source = source.orElse (fun _ => x.source) :=
  ⟨rfl, updateBaselines_moved x m c, rfl⟩

/-- R106, R107: what the step makes of a dusty tile. -/
theorem beDusty_spec (x : Tile) (ha : Nat) (whiteout : Bool) (m c : Nat) :
    let y := x.beDusty ha whiteout m c
    y.age = min (x.age + 1) 255 ∧ y.source = x.source
      ∧ (y.state = .held ↔ 1 ≤ ha ∧ y.age ≤ ha ∧ whiteout = false ∧ x.source.isSome = true)
      ∧ (y.age ≤ ha → y.bm = x.bm ∧ y.bc = x.bc) ∧ (ha < y.age → x.Moved y m c) :=
  ⟨rfl, beDusty_source .., (beDusty_held_iff ..).trans (mayHold_iff ..), beDusty_kept x ha whiteout m c,
    beDusty_moved x ha whiteout m c⟩

/-- R97: the map entry of a tile of the grid says what was decided about the tile. -/
theorem decideEntry_spec (vw : View) (whiteout : Bool) (source : Option Nat) (q : TileCase)
    (hg : vw.geometry.inGrid q.place = true) :
    ((vw.decideTile whiteout source q).state = .held →
        ∃ k, q.tile.source = some k ∧ vw.decideEntry whiteout source q = .held k)
      ∧ ((vw.decideTile whiteout source q).state ≠ .held → vw.decideEntry whiteout source q = .live) := by
  cases hd : vw.isDustyCase q
  · have hentry : vw.decideEntry whiteout source q = .live := if_neg (by simp [hd])
    have hclean := (decideTile_clean_iff whiteout source hg).2 hd
    exact ⟨fun hheld => (nomatch hclean.symm.trans hheld), fun _ => hentry⟩
  · have hentry : vw.decideEntry whiteout source q = (vw.decideTile whiteout source q).entry := if_pos hd
    rw [hentry, decideTile_of_dusty whiteout source hd]
    refine ⟨fun hheld => ?_, entry_of_not_held _⟩
    obtain ⟨-, -, -, hsome⟩ := (mayHold_iff ..).1 ((beDusty_held_iff ..).1 hheld)
    obtain ⟨k, hk⟩ := Option.isSome_iff_exists.1 hsome
    exact ⟨k, hk, entry_of_held _ k hheld ((beDusty_source ..).trans hk)⟩

/-- Settles O51: after learning by the tile's case (`beClean_spec`, `beDusty_spec`, `decideEntry_spec`, `dustyCount_eq`),
while learning by that of the solve (`learn_seeded`, `learn_moved`, `learn_last`, `learn_not_last`). -/
theorem tileDecisionsFollowTheRules : Obligations.TileDecisionsFollowTheRules := by
  unfold Obligations.TileDecisionsFollowTheRules
  intro vw p source r
  refine ⟨?_, ?_, ?_, ?_⟩
  · intro n x y en hcountdown hx hg hy hen m c ha
    obtain rfl : vw.decideTile (vw.whiteoutFor p) source (tileCaseAt p n x) = y :=
      Option.some.inj ((tileStep_tile_of_learned source hcountdown hx).symm.trans hy)
    obtain rfl : vw.decideEntry (vw.whiteoutFor p) source (tileCaseAt p n x) = en :=
      Option.some.inj ((tileStep_entry_of_learned source hcountdown hx).symm.trans hen)
    have hwhiteout : r.whiteout = vw.whiteoutFor p := congrArg TileResult.whiteout (tileStep_of_learned vw p source hcountdown)
    have hclean := decideTile_clean_iff (q := tileCaseAt p n x) (vw.whiteoutFor p) source hg
    obtain ⟨hheld, hlive⟩ := decideEntry_spec vw (vw.whiteoutFor p) source (tileCaseAt p n x) hg
    refine ⟨fun hst => ?_, fun hst => ?_, hheld, hlive⟩
    · rw [decideTile_of_clean (vw.whiteoutFor p) source (hclean.1 hst) hg]
      obtain ⟨hage, ⟨hbm, hbc⟩, hsource⟩ := beClean_spec x source m c
      exact ⟨hage, hbm, hbc, hsource.trans (orElse_source ..)⟩
    · have hd : vw.isDustyCase (tileCaseAt p n x) = true := by simpa using fun h => hst (hclean.2 h)
      rw [decideTile_of_dusty (vw.whiteoutFor p) source hd, hwhiteout]
      exact beDusty_spec x ha (vw.whiteoutFor p) m c
  · intro n x hx hg
    rcases Nat.eq_zero_or_pos vw.motion.countdown with hcountdown | hcountdown
    · refine ⟨(tileStep_tile_of_learned source hcountdown hx).trans ?_, fun en hen => ?_⟩
      · rw [decideTile_of_outside _ _ hg]
        rfl
      · obtain rfl := Option.some.inj ((tileStep_entry_of_learned source hcountdown hx).symm.trans hen)
        exact if_neg (by simp [isDustyCase_of_outside (q := tileCaseAt p n x) hg])
    · refine ⟨(tileStep_tile_of_learning source hcountdown hx).trans (congrArg some (if_neg ?_)), fun en hen => ?_⟩
      · simp [tileCaseAt, hg]
      · have hmap : r.map = allLive := congrArg TileResult.map (tileStep_of_learning vw p source hcountdown)
        exact List.eq_of_mem_replicate (hmap ▸ List.mem_of_getElem? hen)
  · intro hcountdown dusty
    have hstep : r = _ := tileStep_of_learned vw p source hcountdown
    have hdusty : dusty = vw.dustyCount p := by
      rw [← dustyCount_eq vw p (vw.whiteoutFor p) source]
      exact congrArg (fun t : TileResult => t.tiles.zipIdx.countP _) hstep
    rw [hdusty, hstep]
    have hle := heldCount_le vw p source
    refine ⟨rfl, ?_, by simp; omega, rfl, rfl, hcountdown⟩
    simp [View.whiteoutFor, Nat.mul_comm]
  · intro hcountdown
    have hstep : r = _ := tileStep_of_learning vw p source hcountdown
    rw [hstep]
    refine ⟨rfl, fun en hen => List.eq_of_mem_replicate hen, List.length_replicate, rfl, rfl, rfl, rfl, rfl, rfl, ?_⟩
    intro n x y hx hg hy m c
    have hy : (tileStep vw p source).tiles[n]? = some y := (congrArg (fun t : TileResult => t.tiles[n]?) hstep).trans hy
    obtain rfl : vw.learnTile source (tileCaseAt p n x) = y :=
      Option.some.inj ((tileStep_tile_of_learning source hcountdown hx).symm.trans hy)
    have htile : vw.learnTile source (tileCaseAt p n x) = x.learn vw.seed (decide (vw.motion.countdown = 1)) source m c :=
      if_pos hg
    rw [htile]
    refine ⟨learn_age .., fun hseed => ?_, fun hseed => ?_, fun hlast => ?_, fun hlast => ?_⟩
    · rw [hseed]
      exact learn_seeded ..
    · rw [hseed]
      exact learn_moved ..
    · obtain ⟨hstate, hsource⟩ := learn_last x source m c vw.seed
      rw [decide_eq_true hlast]
      exact ⟨hstate, hsource.trans (orElse_source ..)⟩
    · rw [decide_eq_false hlast]
      exact learn_not_last ..

end Sys2Proof.Machine
end

section
/-! PROOF. The law of held tiles for one view (R108, R111): what each change of a view keeps of it. -/

namespace Sys2Proof.Machine

open Laws

/-! ### Slot states (R20) -/

theorem slotIs_unique {vw : View} {k : Nat} {a b : SlotState} (ha : vw.slotIs k a) (hb : vw.slotIs k b) : a = b := by
  obtain ⟨x, hx, rfl⟩ := ha
  obtain ⟨y, hy, rfl⟩ := hb
  rw [Option.some.inj (hx.symm.trans hy)]

theorem slotIs_lt {vw : View} {k : Nat} {st : SlotState} (h : vw.slotIs k st) : k < vw.slots.length := by
  obtain ⟨sl, hsl, -⟩ := h
  exact (List.getElem?_eq_some_iff.1 hsl).1

/-- Slots in different states are different slots. -/
theorem slotIs_ne {vw : View} {j k : Nat} {a b : SlotState} (ha : vw.slotIs j a) (hb : vw.slotIs k b) (hne : a ≠ b) :
    j ≠ k := by
  rintro rfl
  exact hne (slotIs_unique ha hb)

theorem slotIs_modSlot_of_ne {vw : View} {j k : Nat} {st : SlotState} (h : vw.slotIs j st) (hne : j ≠ k)
    (f : Slot → Slot) : (vw.modSlot k f).slotIs j st := by
  obtain ⟨sl, hsl, hst⟩ := h
  refine ⟨sl, (modSlot_getElem? vw k j f).trans ?_, hst⟩
  rw [hsl]
  simp [hne]

theorem slotIs_modSlot_self {vw : View} {k : Nat} {st : SlotState} {f : Slot → Slot} (hk : k < vw.slots.length)
    (hf : ∀ sl, (f sl).state = st) : (vw.modSlot k f).slotIs k st := by
  refine ⟨f vw.slots[k], (modSlot_getElem? vw k k f).trans ?_, hf _⟩
  rw [List.getElem?_eq_getElem hk]
  simp

/-- A change of every slot record that keeps its state. -/
theorem slotIs_mapSlots {vw : View} {k : Nat} {st : SlotState} (h : vw.slotIs k st) (g : Slot → Slot)
    (hg : ∀ sl, (g sl).state = sl.state) : ({ vw with slots := vw.slots.map g } : View).slotIs k st := by
  obtain ⟨sl, hsl, hst⟩ := h
  refine ⟨g sl, ?_, (hg sl).trans hst⟩
  rw [List.getElem?_map, hsl]
  rfl

/-! ### What names a slot -/

/-- A HELD entry of some map or a clean source of the view names slot `k`. -/
def View.names (vw : View) (k : Nat) : Prop :=
  (∃ sl ∈ vw.slots, MapEntry.held k ∈ sl.map) ∨ ∃ t ∈ vw.tiles, t.source = some k

theorem tile_mem_of_tileCases {tiles : List Tile} {ss gs : List Nat} {q : TileCase} (h : q ∈ tileCases tiles ss gs) :
    q.tile ∈ tiles := by
  obtain ⟨⟨x, n⟩, hx, rfl⟩ := List.mem_map.1 h
  exact List.mem_of_getElem? (List.mem_zipIdx_iff_getElem?.1 hx)

/-- R108: the tile step names a slot as clean source that is the solved one or was a clean source before. -/
theorem tileStep_source (vw : View) (p : ProfileBuffer) (source : Option Nat) (t : Tile) (k : Nat)
    (ht : t ∈ (tileStep vw p source).tiles) (hk : t.source = some k) :
    source = some k ∨ ∃ x ∈ vw.tiles, x.source = some k := by
  have horElse (x : Tile) (hx : x ∈ vw.tiles) (hs : source.orElse (fun _ => x.source) = some k) :
      source = some k ∨ ∃ x ∈ vw.tiles, x.source = some k := by
    cases source with
    | none => exact .inr ⟨x, hx, hs⟩
    | some j => exact .inl hs
  rcases Nat.eq_zero_or_pos vw.motion.countdown with h | h
  · rw [tileStep_of_learned vw p source h] at ht
    obtain ⟨q, hq, rfl⟩ := List.mem_map.1 ht
    have hmem := tile_mem_of_tileCases hq
    unfold View.decideTile at hk
    split at hk
    · exact .inr ⟨q.tile, hmem, (beDusty_source ..).symm.trans hk⟩
    · split at hk
      · exact horElse q.tile hmem hk
      · exact .inr ⟨q.tile, hmem, hk⟩
  · rw [tileStep_of_learning vw p source h] at ht
    obtain ⟨q, hq, rfl⟩ := List.mem_map.1 ht
    have hmem := tile_mem_of_tileCases hq
    unfold View.learnTile at hk
    split at hk
    · cases hends : decide (vw.motion.countdown = 1)
      · rw [hends, (learn_not_last ..).2] at hk
        exact .inr ⟨q.tile, hmem, hk⟩
      · rw [hends, (learn_last ..).2] at hk
        exact horElse q.tile hmem hk
    · exact .inr ⟨q.tile, hmem, hk⟩

/-- R106, R108: a map entry the tile step writes is LIVE or names a slot that was a clean source before. -/
theorem tileStep_entry (vw : View) (p : ProfileBuffer) (source : Option Nat) (en : MapEntry)
    (hen : en ∈ (tileStep vw p source).map) :
    en = .live ∨ ∃ k, en = .held k ∧ ∃ x ∈ vw.tiles, x.source = some k := by
  rcases Nat.eq_zero_or_pos vw.motion.countdown with h | h
  · rw [tileStep_of_learned vw p source h] at hen
    obtain ⟨q, hq, rfl⟩ := List.mem_map.1 hen
    unfold View.decideEntry
    split
    case isTrue hd =>
      rw [decideTile_of_dusty _ source hd]
      obtain hlive | ⟨k, hheld, hsource⟩ :=
        entry_cases (q.tile.beDusty vw.motion.active.ha (vw.whiteoutFor p) q.m q.c)
      · exact .inl hlive
      · exact .inr ⟨k, hheld, q.tile, tile_mem_of_tileCases hq, (beDusty_source ..).symm.trans hsource⟩
    case isFalse => exact .inl rfl
  · rw [tileStep_of_learning vw p source h] at hen
    exact .inl (List.eq_of_mem_replicate hen)

/-- R120: the scan state is all of a view that a read changes. -/
theorem scanRead_scan (vw : View) (tag : Byte) (a : Nat) : ∃ scan, vw.scanRead tag a = { vw with scan := scan } := by
  unfold View.scanRead View.displayRead
  dsimp only
  split_ifs
  · exact ⟨_, rfl⟩
  · exact ⟨_, rfl⟩
  · exact ⟨vw.scan, rfl⟩

namespace View.HoldLaw

variable {vw : View} (h : vw.HoldLaw)
include h

/-! ### Slots -/

/-- R108, R111: what is named is READY. -/
theorem ready_of_names {k : Nat} (hk : vw.names k) : vw.slotIs k .ready := by
  rcases hk with ⟨sl, hsl, he⟩ | ⟨t, ht, hs⟩
  · obtain ⟨n, hn⟩ := List.mem_iff_getElem?.1 hsl
    exact (h.held n sl k hn he).2
  · exact h.source t ht k hs

theorem not_names {k : Nat} {st : SlotState} (hk : vw.slotIs k st) (hst : st ≠ .ready) : ¬ vw.names k :=
  fun hn => hst (slotIs_unique hk (h.ready_of_names hn))

/-- The followed slot is not one in another state than FILLING. -/
theorem intake_ne {k : Nat} {st : SlotState} (hk : vw.slotIs k st) (hst : st ≠ .filling) : vw.intake.slot ≠ some k :=
  fun hs => hst (slotIs_unique hk (h.filling k hs))

/-- A slot that is not followed may change its record: to READY, or to any state where nothing names it; its new map is LIVE
or, where it is READY, names other READY slots. -/
theorem modSlot {k : Nat} {f : Slot → Slot} (hready : vw.names k → ∀ sl, (f sl).state = .ready)
    (hmap : ∀ sl, vw.slots[k]? = some sl → ∀ e ∈ (f sl).map, e = .live
      ∨ (f sl).state = .ready ∧ ∃ m, e = .held m ∧ m ≠ k ∧ vw.slotIs m .ready)
    (hintake : vw.intake.slot ≠ some k) : (vw.modSlot k f).HoldLaw := by
  have hkeep : ∀ m, vw.names m → (vw.modSlot k f).slotIs m .ready := fun m hm => by
    have hm' := h.ready_of_names hm
    by_cases hmk : m = k
    · subst hmk
      exact slotIs_modSlot_self (slotIs_lt hm') (hready hm)
    · exact slotIs_modSlot_of_ne hm' hmk f
  have hcases : ∀ (n : Nat) sl, (vw.modSlot k f).slots[n]? = some sl →
      (n = k ∧ ∃ old, vw.slots[k]? = some old ∧ sl = f old) ∨ vw.slots[n]? = some sl := fun n sl hsl => by
    rw [modSlot_getElem?, Option.map_eq_some_iff] at hsl
    obtain ⟨old, hold, rfl⟩ := hsl
    split
    case isTrue hn => exact .inl ⟨hn, old, hn ▸ hold, rfl⟩
    case isFalse => exact .inr hold
  exact
    { held := fun n sl m hsl he => by
        obtain ⟨rfl, old, hold, rfl⟩ | hold := hcases n sl hsl
        · obtain hlive | ⟨-, m', hm', hne, hm⟩ := hmap old hold _ he
          · exact nomatch hlive
          · cases hm'
            exact ⟨hne, slotIs_modSlot_of_ne hm hne f⟩
        · exact ⟨(h.held n sl m hold he).1, hkeep m (.inl ⟨sl, List.mem_of_getElem? hold, he⟩)⟩
      live := fun n sl hsl hst e he => by
        obtain ⟨rfl, old, hold, rfl⟩ | hold := hcases n sl hsl
        · exact (hmap old hold e he).resolve_right fun hr => hst hr.1
        · exact h.live n sl hold hst e he
      source := fun t ht j hj => hkeep j (.inr ⟨t, ht, hj⟩)
      filling := fun j hj => slotIs_modSlot_of_ne (h.filling j hj) (fun hjk => hintake (hj.trans (congrArg some hjk))) f
      buffer := h.buffer
      count := fun hst => (modSlot_length ..).trans (h.count hst) }

/-- A slot that is not READY and not followed may go to any state. -/
theorem setState {k : Nat} {st : SlotState} (hk : vw.slotIs k st) (hst : st ≠ .ready) (hintake : vw.intake.slot ≠ some k)
    (st' : SlotState) : (vw.setState k st').HoldLaw := by
  refine h.modSlot (fun hn => (h.not_names hk hst hn).elim) (fun sl hsl e he => .inl ?_) hintake
  obtain ⟨sl', hsl', rfl⟩ := hk
  cases hsl.symm.trans hsl'
  exact h.live k sl hsl hst e he

/-- A change of every slot record that keeps states and adds no HELD entry. -/
theorem mapSlots {g : Slot → Slot} (hstate : ∀ sl, (g sl).state = sl.state)
    (hmap : ∀ sl, ∀ e ∈ (g sl).map, e = .live ∨ e ∈ sl.map) : ({ vw with slots := vw.slots.map g } : View).HoldLaw := by
  have hold : ∀ (n : Nat) sl, (vw.slots.map g)[n]? = some sl → ∃ old, vw.slots[n]? = some old ∧ g old = sl :=
    fun n sl hsl => by rwa [List.getElem?_map, Option.map_eq_some_iff] at hsl
  exact
    { held := fun n sl m hsl he => by
        obtain ⟨old, hn, rfl⟩ := hold n sl hsl
        obtain ⟨hne, hm⟩ := h.held n old m hn ((hmap old _ he).resolve_left MapEntry.noConfusion)
        exact ⟨hne, slotIs_mapSlots hm g hstate⟩
      live := fun n sl hsl hst e he => by
        obtain ⟨old, hn, rfl⟩ := hold n sl hsl
        exact (hmap old e he).elim id (h.live n old hn (hstate old ▸ hst) e)
      source := fun t ht k hk => slotIs_mapSlots (h.source t ht k hk) g hstate
      filling := fun k hk => slotIs_mapSlots (h.filling k hk) g hstate
      buffer := h.buffer
      count := fun hst => List.length_map g |>.trans (h.count hst) }

/-! ### The other fields -/

theorem count_counters (f : ViewCounters → ViewCounters) : (vw.count f).HoldLaw := { h with }

/-- A configured view may go to another configured state, to one that is not TRACKING only without a buffer (R40). -/
theorem withState (st : ViewState) (hst : vw.state ≠ .unconfigured)
    (hbuffer : st = .tracking ∨ vw.intake.buffer = none) : ({ vw with state := st } : View).HoldLaw :=
  { h with
    buffer := fun hb => hbuffer.resolve_right fun hnone => by simp [hnone] at hb
    count := fun _ => h.count hst }

/-- An intake record that follows no frame. -/
theorem withIntake (n : Intake) (hslot : n.slot = none) (hbuffer : n.buffer = none) :
    ({ vw with intake := n } : View).HoldLaw :=
  { h with
    filling := fun _ hk => nomatch hslot.symm.trans hk
    buffer := fun hb => by simp [hbuffer] at hb }

/-- Tiles whose clean sources are READY. -/
theorem withTiles (tiles : List Tile) (ht : ∀ t ∈ tiles, ∀ k, t.source = some k → vw.slotIs k .ready) :
    ({ vw with tiles := tiles } : View).HoldLaw := { h with source := ht }

/-- A view that is not TRACKING follows its frame without a buffer (R40). -/
theorem buffer_none (hst : vw.state ≠ .tracking) : vw.intake.buffer = none :=
  Option.not_isSome_iff_eq_none.1 fun hb => hst (h.buffer hb)

/-! ### The intake monitor -/

/-- R38: the followed slot is FILLING, so nothing names it when it becomes FAULTED. -/
theorem faulted {j : Nat} (hj : vw.intake.slot = some j) : (vw.faulted j).HoldLaw :=
  have hfree := h.withIntake (vw.intake.endFrame .hunt) rfl rfl
  have hslot := hfree.setState (h.filling j hj) SlotState.noConfusion (nomatch ·) .faulted
  { hslot with }

theorem liveEntries (p : MapEntry → Bool) : (vw.liveEntries p).HoldLaw :=
  h.mapSlots (fun _ => rfl) fun sl e he => by
    obtain ⟨e', he', rfl⟩ := List.mem_map.1 he
    split
    · exact .inl rfl
    · exact .inr he'

/-- R42: a slot READY without a solve has a LIVE map. -/
theorem readyUnsolved {k : Nat} (hintake : vw.intake.slot ≠ some k) (o : Offsets) : (vw.readyUnsolved k o).HoldLaw :=
  have hslot := h.modSlot (k := k) (f := fun sl => { sl with state := .ready, offsets := some o, map := allLive })
    (fun _ _ => rfl) (fun _ _ _ he => .inl (List.eq_of_mem_replicate he)) hintake
  { hslot with }

/-- R25: no clean source names slot `k` any more. -/
theorem dropSource (k : Nat) : (vw.dropSource k).HoldLaw :=
  h.withTiles _ fun t ht j hj => by
    obtain ⟨x, hx, rfl⟩ := List.mem_map.1 ht
    split at hj
    · exact nomatch hj
    · exact h.source x hx j hj

/-- R22, R25: the slot in which a frame starts is FILLING, where no HELD entry names it; the view followed no other. -/
theorem startSlot {k : Nat} (hheld : ∀ sl ∈ vw.slots, MapEntry.held k ∉ sl.map) (hintake : vw.intake.slot ≠ some k) :
    ((vw.dropSource k).startSlot k).HoldLaw := by
  have hnames : ¬ (vw.dropSource k).names k := by
    rintro (⟨sl, hsl, he⟩ | ⟨t, ht, hk⟩)
    · exact hheld sl hsl he
    · obtain ⟨x, -, rfl⟩ := List.mem_map.1 ht
      split at hk
      · exact nomatch hk
      · exact ‹¬ _› hk
  have hslot := (h.dropSource k).modSlot (k := k) (f := fun sl => sl.started vw.nextSequence vw.startCount)
    (fun hn => (hnames hn).elim) (fun _ _ _ he => .inl (List.eq_of_mem_replicate he)) hintake
  exact { hslot with }

/-- R35: a frame start in slot `k` of a view in which no HELD entry names it: the slot it follows is FILLING, and it has a
buffer only while TRACKING. -/
theorem started {k : Nat} (hk : k < vw.slots.length) (hheld : ∀ sl ∈ vw.slots, MapEntry.held k ∉ sl.map) (v : Fin 4) :
    ((((vw.dropSource k).startSlot k).countOvertake k).startIntake v k).HoldLaw := by
  have hstart := (h.withIntake Intake.reset rfl rfl).startSlot hheld (nomatch ·)
  obtain ⟨buffers, hbegun, -⟩ := startIntake_eq (((vw.dropSource k).startSlot k).countOvertake k) v k
  rw [hbegun]
  exact
    { hstart with
      filling := fun j hj => Option.some.inj hj ▸ slotIs_modSlot_self (vw := vw) hk (fun _ => rfl)
      buffer := fun hb => by
        by_contra hst
        rw [View.startBuffer, if_neg hst] at hb
        exact nomatch hb }

theorem takeRun (now : Stamp) (phase : Option PhasePart) (run : List (Nat × Byte)) :
    (vw.takeRun now phase run).HoldLaw := by
  rw [takeRun_eq]
  exact { h with }

theorem scanRead (tag : Byte) (a : Nat) : (vw.scanRead tag a).HoldLaw := by
  obtain ⟨scan, hscan⟩ := scanRead_scan vw tag a
  rw [hscan]
  exact { h with }

/-! ### Commands -/

/-- R13, R16: no tile has a clean source. -/
theorem rebaseResets : vw.rebaseResets.HoldLaw :=
  { h with
    source := fun t ht k hk => by
      obtain ⟨x, -, rfl⟩ := List.mem_map.1 ht
      exact nomatch hk }

theorem dropAccum : vw.dropAccum.HoldLaw := { h with buffer := (nomatch ·) }

/-- R15: a view that has no buffer reaches PARKED. -/
theorem reachParked (hst : vw.state ≠ .unconfigured) (hbuffer : vw.intake.buffer = none) : vw.reachParked.HoldLaw := by
  have hlive := (h.liveEntries MapEntry.isHeld).mapSlots
    (g := fun sl => if sl.state = .ready then { sl with offsets := some ⟨0, 0⟩ } else sl)
    (fun sl => by split <;> rfl) (fun sl e he => by split at he <;> exact .inr he)
  have hparked := hlive.withState .parked hst (.inr hbuffer)
  exact { hparked with }

/-! ### The solve -/

/-- R108: the tile step of a solve whose slot was reopened names no new clean source. -/
theorem storeMotion (e : SolveEntry) (m : MotionResult) (p : ProfileBuffer) :
    (vw.storeMotion e m (tileStep vw p none)).HoldLaw :=
  have htiles := h.withTiles (tileStep vw p none).tiles fun t ht k hk => by
    obtain hnone | ⟨x, hx, hxk⟩ := tileStep_source vw p none t k ht hk
    · exact nomatch hnone
    · exact h.source x hx k hxk
  { htiles with }

/-- R106, R108: the solved slot becomes READY with the map of the tile step, whose HELD entries name clean sources, READY
slots other than the one that was SOLVING. -/
theorem storeSlot (e : SolveEntry) (m : MotionResult) (p : ProfileBuffer) (hk : vw.slotIs e.frame.slot .solving) :
    ((vw.storeMotion e m (tileStep vw p (some e.frame.slot))).storeSlot e m
      (tileStep vw p (some e.frame.slot))).HoldLaw := by
  have hslot := h.modSlot (k := e.frame.slot)
    (f := fun sl => { sl with
      state := .ready, offsets := some ⟨m.y.offset, m.x.offset⟩, map := (tileStep vw p (some e.frame.slot)).map })
    (fun _ _ => rfl) (fun _ _ en hen => by
      obtain hlive | ⟨j, hj, x, hx, hxj⟩ := tileStep_entry vw p _ en hen
      · exact .inl hlive
      · have hready := h.source x hx j hxj
        exact .inr ⟨rfl, j, hj, slotIs_ne hready hk SlotState.noConfusion, hready⟩)
    (h.intake_ne hk SlotState.noConfusion)
  have htiles := hslot.withTiles (tileStep vw p (some e.frame.slot)).tiles fun t ht k hs => by
    obtain hsolved | ⟨x, hx, hxk⟩ := tileStep_source vw p _ t k ht hs
    · cases hsolved
      exact slotIs_modSlot_self (slotIs_lt hk) fun _ => rfl
    · exact hslot.source x hx k hxk
  exact { htiles with }

end View.HoldLaw

/-- R17: a released view has no slots and no clean sources. -/
theorem release_holdLaw (vw : View) : vw.release.HoldLaw where
  held := fun _ _ _ hsl => nomatch hsl
  live := fun _ _ hsl => nomatch hsl
  source := fun t ht k hk => by
    obtain ⟨x, -, rfl⟩ := List.mem_map.1 ht
    exact nomatch hk
  filling := fun _ hk => nomatch hk
  buffer := fun hb => nomatch hb
  count := fun hst => (hst rfl).elim

/-- R12, R20: a configured view has one EMPTY slot with a LIVE map for each of its list, and no clean sources. -/
theorem configure_holdLaw (vw : View) (d : Descriptor) : (vw.configure d).HoldLaw :=
  have hlive : ∀ (n : Nat) sl, (newSlots d.slotBases)[n]? = some sl → ∀ e ∈ sl.map, e = MapEntry.live := fun n sl hsl => by
    obtain ⟨-, -, -, -, hlive⟩ := newSlots_mem _ sl (List.mem_of_getElem? hsl)
    exact hlive
  { held := fun n sl _ hsl he => nomatch hlive n sl hsl _ he
    live := fun n sl hsl _ => hlive n sl hsl
    source := fun t ht k hk => by
      rw [List.eq_of_mem_replicate ht] at hk
      exact nomatch hk
    filling := fun _ hk => nomatch hk
    buffer := fun hb => nomatch hb
    count := fun _ => List.length_map _ }

end Sys2Proof.Machine
end

section
/-! PROOF. The law of held tiles for the bridge (R111, with R21, R27, R70): what the bridge asks of a view, and the work of the
shared operations and of the intake monitor, which keeps it. -/

namespace Sys2Proof.Machine

open Laws

/-! ### What the bridge asks of a view -/

/-- Slot `k` of view `v` waits for a solve or is under one that was not reopened. -/
def Bridge.uses (br : Bridge) (v : Fin 4) (k : Nat) : Prop :=
  (∃ e ∈ br.solverQueue, e.frame.view = v ∧ e.frame.slot = k)
    ∨ ∃ e n, br.solver = .busy e false n ∧ e.frame.view = v ∧ e.frame.slot = k

/-- The law of R111 for the bridge allows `vt` as its view `v`: solver, solver queue and command in flight find in it what
they rest on. -/
structure Bridge.Admits (br : Bridge) (v : Fin 4) (vt : View) : Prop where
  law : vt.HoldLaw
  solving : ∀ k, br.uses v k → vt.slotIs k .solving
  tracking : ∀ e ∈ br.solverQueue, e.frame.view = v → vt.state = .tracking
  busy : ∀ e r n, br.solver = .busy e r n → e.frame.view = v → vt.state = .tracking ∨ vt.state = .parking
  parking : ∀ f, br.inFlight = some f → f.wait = .park v → vt.state = .parking

/-- The views are the same, and solver, solver queue and command in flight rest on no more than before. -/
structure Bridge.Relaxed (br br' : Bridge) : Prop where
  views : br'.views = br.views
  queue : br'.solverQueue.Sublist br.solverQueue
  solver : ∀ e r n, br'.solver = .busy e r n → ∃ r' n', br.solver = .busy e r' n' ∧ (r = false → r' = false)
  inFlight : ∀ f, br'.inFlight = some f → br.inFlight = some f

namespace Bridge.Relaxed

theorem of_same {br br' : Bridge} (hv : br'.views = br.views) (hq : br'.solverQueue = br.solverQueue)
    (hs : br'.solver = br.solver) (hf : br'.inFlight = br.inFlight) : br.Relaxed br' where
  views := hv
  queue := hq ▸ List.Sublist.refl _
  solver := fun _ r n h => ⟨r, n, hs ▸ h, id⟩
  inFlight := fun _ h => hf ▸ h

theorem refl (br : Bridge) : br.Relaxed br := .of_same rfl rfl rfl rfl

theorem trans {a b c : Bridge} (h : a.Relaxed b) (g : b.Relaxed c) : a.Relaxed c where
  views := g.views.trans h.views
  queue := g.queue.trans h.queue
  solver := fun e r n hs => by
    obtain ⟨r', n', hs', hr'⟩ := g.solver e r n hs
    obtain ⟨r'', n'', hs'', hr''⟩ := h.solver e r' n' hs'
    exact ⟨r'', n'', hs'', hr'' ∘ hr'⟩
  inFlight := fun f hf => h.inFlight f (g.inFlight f hf)

theorem foldl {α : Type} (f : Bridge → α → Bridge) (hf : ∀ (br : Bridge) x, br.Relaxed (f br x)) (xs : List α) (br : Bridge) :
    br.Relaxed (xs.foldl f br) := by
  induction xs generalizing br with
  | nil => exact .refl br
  | cons x xs ih => exact (hf br x).trans (ih _)

end Bridge.Relaxed

theorem relaxed_raise (br : Bridge) (e : Event) : br.Relaxed (br.raise e) := .of_same rfl rfl rfl rfl

theorem relaxed_raiseIf (br : Bridge) (c : Bool) (e : Event) : br.Relaxed (br.raiseIf c e) := by
  cases c
  · exact .refl br
  · exact relaxed_raise br e

/-- R70: a view's waiting entry leaves the queue. -/
theorem relaxed_dropWaiting (br : Bridge) (v : Fin 4) : br.Relaxed (br.dropWaiting v) :=
  { Bridge.Relaxed.refl br with queue := List.filter_sublist }

/-- R27: a solve that was reopened before stays so; one of slot `k` is reopened now. -/
theorem reopen_eq_busy {sv : Solver} {v : Fin 4} {k : Nat} {e : SolveEntry} {r n : Bool}
    (h : sv.reopen v k = .busy e r n) :
    ∃ r', sv = .busy e r' n ∧ (r = false → r' = false ∧ ¬ (e.frame.view = v ∧ e.frame.slot = k)) := by
  cases sv with
  | idle => exact nomatch h
  | busy e' r' n' =>
    cases h
    exact ⟨r', rfl, by simp⟩

theorem relaxed_reopenSolve (br : Bridge) (v : Fin 4) (k : Nat) : br.Relaxed (br.reopenSolve v k) :=
  { Bridge.Relaxed.refl br with
    solver := fun _ _ n h => by
      obtain ⟨r', hs, hr⟩ := reopen_eq_busy h
      exact ⟨r', n, hs, fun h => (hr h).1⟩ }

/-- Which slots wait or are under solve depends on solver and solver queue alone. -/
theorem uses_congr {br br' : Bridge} (hq : br'.solverQueue = br.solverQueue) (hs : br'.solver = br.solver) (v : Fin 4)
    (k : Nat) : br'.uses v k ↔ br.uses v k := by
  unfold Bridge.uses
  rw [hq, hs]

theorem slotIs_report (env : Env) {br : Bridge} {v : Fin 4} (r : Report) (k : Nat) {st : SlotState}
    (h : (br.views.get v).slotIs k st) : ((br.report env r).views.get v).slotIs k st := by
  obtain ⟨n, hn⟩ := report_view_lost env br r v
  exact hn ▸ h

/-- R35: the intake record of a frame start follows its slot; slots and state of the view are as before. -/
theorem startIntake_keeps (vw : View) (v : Fin 4) (k : Nat) :
    (vw.startIntake v k).state = vw.state ∧ (vw.startIntake v k).slots = vw.slots
      ∧ (vw.startIntake v k).intake.slot = some k := by
  obtain ⟨buffers, hstart, -⟩ := startIntake_eq vw v k
  rw [hstart]
  exact ⟨rfl, rfl, rfl⟩

/-- R41: a superseded entry changes its view's state no more than the solver. -/
theorem supersede_state (env : Env) (br : Bridge) (v : Fin 4) :
    ((br.supersede env v).views.get v).state = (br.views.get v).state ∧ (br.supersede env v).solver = br.solver := by
  cases h : br.waiting v with
  | none =>
    rw [supersede_of_none env br v h]
    exact ⟨rfl, rfl⟩
  | some e =>
    obtain ⟨n, hn⟩ := supersede_view env br v e h
    refine ⟨(congrArg View.state hn :), ?_⟩
    rw [supersede_of_some env br v e h, modView_solver, report_solver]
    rfl

theorem readyToJoin_state (env : Env) (br : Bridge) (f : FrameId) :
    ((br.readyToJoin env f).views.get f.view).state = (br.views.get f.view).state
      ∧ (br.readyToJoin env f).solver = br.solver := by
  obtain ⟨hstate, hsolver⟩ := supersede_state env (br.modView f.view (fun vw => vw.setState f.slot .solving)) f.view
  rw [modView_get, if_pos rfl] at hstate
  exact ⟨hstate, hsolver⟩

namespace Bridge.HoldLaw

variable {br : Bridge} (h : br.HoldLaw)
include h

theorem admits (v : Fin 4) : br.Admits v (br.views.get v) where
  law := h.views v
  solving := by
    rintro k (⟨e, he, rfl, rfl⟩ | ⟨e, n, hb, rfl, rfl⟩)
    · exact (h.waiting e he).1
    · exact (h.solving e n hb).1
  tracking := by
    rintro e he rfl
    exact (h.waiting e he).2
  busy := by
    rintro e r n hb rfl
    exact h.busy e r n hb
  parking := fun f => h.parking f v

/-- A view may become one that the bridge admits. -/
theorem modView {v : Fin 4} {f : View → View} (hf : br.Admits v (f (br.views.get v))) : (br.modView v f).HoldLaw := by
  have hadmits : ∀ u, br.Admits u ((br.modView v f).views.get u) := fun u => by
    rw [modView_get]
    split
    case isTrue hu => exact hu ▸ hf
    case isFalse => exact h.admits u
  exact
    { views := fun u => (hadmits u).law
      waiting := fun e he => ⟨(hadmits _).solving _ (.inl ⟨e, he, rfl, rfl⟩), (hadmits _).tracking e he rfl⟩
      single := h.single
      solving := fun e n hb => ⟨(hadmits _).solving _ (.inr ⟨e, n, hb, rfl, rfl⟩), (h.solving e n hb).2⟩
      busy := fun e r n hb => (hadmits _).busy e r n hb rfl
      parking := fun f' u => (hadmits u).parking f' }

/-- A view may change in a way that keeps its state and the slots that are waiting or under solve. -/
theorem modView_of_state {v : Fin 4} {f : View → View} (hlaw : (f (br.views.get v)).HoldLaw)
    (hstate : (f (br.views.get v)).state = (br.views.get v).state)
    (hsolving : ∀ k, br.uses v k → (br.views.get v).slotIs k .solving → (f (br.views.get v)).slotIs k .solving) :
    (br.modView v f).HoldLaw :=
  h.modView
    { law := hlaw
      solving := fun k hk => hsolving k hk ((h.admits v).solving k hk)
      tracking := fun e he hv => hstate.trans ((h.admits v).tracking e he hv)
      busy := fun e r n hb hv => hstate ▸ (h.admits v).busy e r n hb hv
      parking := fun f' hf hw => hstate.trans ((h.admits v).parking f' hf hw) }

/-- A view may change in a way that keeps its state and its slots. -/
theorem modView_of_slots {v : Fin 4} {f : View → View} (hlaw : (f (br.views.get v)).HoldLaw)
    (hstate : (f (br.views.get v)).state = (br.views.get v).state)
    (hslots : (f (br.views.get v)).slots = (br.views.get v).slots) : (br.modView v f).HoldLaw :=
  h.modView_of_state hlaw hstate fun _ _ ⟨sl, hsl, hst⟩ => ⟨sl, hslots ▸ hsl, hst⟩

/-- A slot that neither waits nor is under solve may change, and with it whatever keeps the view's state. -/
theorem modView_of_slot {v : Fin 4} {f : View → View} {k : Nat} {g : Slot → Slot} (hlaw : (f (br.views.get v)).HoldLaw)
    (hstate : (f (br.views.get v)).state = (br.views.get v).state)
    (hslots : (f (br.views.get v)).slots = ((br.views.get v).modSlot k g).slots) (huses : ¬ br.uses v k) :
    (br.modView v f).HoldLaw := by
  refine h.modView_of_state hlaw hstate fun j hj hs => ?_
  have hne : j ≠ k := by
    rintro rfl
    exact huses hj
  obtain ⟨sl, hsl, hst⟩ := slotIs_modSlot_of_ne hs hne g
  exact ⟨sl, hslots ▸ hsl, hst⟩

theorem count (v : Fin 4) (f : ViewCounters → ViewCounters) : (br.modView v (fun vw => vw.count f)).HoldLaw :=
  h.modView_of_slots ((h.views v).count_counters f) rfl rfl

theorem relax {br' : Bridge} (hr : br.Relaxed br') : br'.HoldLaw where
  views := fun v => hr.views ▸ h.views v
  waiting := fun e he => hr.views ▸ h.waiting e (hr.queue.subset he)
  single := h.single.sublist (hr.queue.map _)
  solving := fun e n hb => by
    obtain ⟨r', n', hb', hr'⟩ := hr.solver e false n hb
    obtain ⟨hslot, hother⟩ := h.solving e n' (hr' rfl ▸ hb')
    exact ⟨hr.views ▸ hslot, fun q hq => hother q (hr.queue.subset hq)⟩
  busy := fun e r n hb => by
    obtain ⟨r', n', hb', -⟩ := hr.solver e r n hb
    exact hr.views ▸ h.busy e r' n' hb'
  parking := fun f v hf hw => hr.views ▸ h.parking f v (hr.inFlight f hf) hw

/-! ### Waiting entries -/

/-- R70: an entry of the queue is its view's waiting entry. -/
theorem waiting_eq {e : SolveEntry} (he : e ∈ br.solverQueue) : br.waiting e.frame.view = some e := by
  cases hw : br.waiting e.frame.view with
  | none => simpa using List.find?_eq_none.1 hw e he
  | some q => rw [List.inj_on_of_nodup_map h.single (List.mem_of_find?_eq_some hw) he (waiting_view hw)]

theorem waiting_solving {v : Fin 4} {e : SolveEntry} (hw : br.waiting v = some e) :
    (br.views.get v).slotIs e.frame.slot .solving :=
  (h.admits v).solving _ (.inl ⟨e, List.mem_of_find?_eq_some hw, waiting_view hw, rfl⟩)

/-- A slot that is not SOLVING neither waits nor is under solve. -/
theorem not_uses {v : Fin 4} {k : Nat} {st : SlotState} (hk : (br.views.get v).slotIs k st) (hst : st ≠ .solving) :
    ¬ br.uses v k := fun hu => hst (slotIs_unique hk ((h.admits v).solving k hu))

/-- R70: the slot of a waiting entry that has left the queue is not under solve either. -/
theorem not_uses_dropWaiting {v : Fin 4} {e : SolveEntry} (hw : br.waiting v = some e) :
    ¬ (br.dropWaiting v).uses v e.frame.slot := by
  rintro (⟨q, hq, hv, -⟩ | ⟨q, n, hb, hv, hk⟩)
  · exact absurd hv (by simpa using (List.mem_filter.1 hq).2)
  · exact (h.solving q n hb).2 e (List.mem_of_find?_eq_some hw) ((waiting_view hw).trans hv.symm) hk.symm

/-! ### Reports, holds, unsolved completions -/

theorem report (env : Env) (r : Report) : (br.report env r).HoldLaw := by
  cases hfree : br.reportFree
  · rw [report_of_held env br r hfree]
    exact (h.count _ _).relax (relaxed_raise ..)
  · rw [report_of_free env br r hfree]
    exact h.relax (.of_same rfl rfl rfl rfl)

theorem breakHolds (v : Fin 4) (p : MapEntry → Bool) (also : Bool) : (br.breakHolds v p also).HoldLaw :=
  (h.modView_of_state (f := fun vw => (vw.liveEntries p).count _) (((h.views v).liveEntries p).count_counters _) rfl
    fun _ _ hs => slotIs_mapSlots hs _ fun _ => rfl).relax (relaxed_raiseIf ..)

/-- R42: a slot that is neither followed nor waiting nor under solve becomes READY. -/
theorem unsolvedCompletion (env : Env) (f : FrameId) (time : Stamp) (parked : Bool)
    (hintake : (br.views.get f.view).intake.slot ≠ some f.slot) (huses : ¬ br.uses f.view f.slot) :
    (br.unsolvedCompletion env f time parked).HoldLaw := by
  have hready : (br.unsolvedReady f parked).HoldLaw :=
    h.modView_of_slot ((h.views f.view).readyUnsolved hintake _) rfl rfl huses
  rw [unsolvedCompletion_steps]
  exact (hready.report env _).relax (relaxed_raise ..)

/-- R27, R41: the waiting entry of a view is dropped with a report. -/
theorem skipWaiting (env : Env) (e : SolveEntry) (reason : Reason) : (br.skipWaiting env e reason).HoldLaw := by
  have hdrop := h.relax (relaxed_dropWaiting br e.frame.view)
  rw [skipWaiting_eq]
  exact (hdrop.modView_of_slots (f := fun vw => vw.skipped e) { h.views e.frame.view with } rfl rfl).report env _

/-! ### The end of a followed frame (R38 to R42) -/

theorem intakeFault (env : Env) (v : Fin 4) (reason : Reason) : (br.intakeFault env v reason).HoldLaw := by
  cases hj : (br.views.get v).intake.slot with
  | none =>
    rw [intakeFault_of_none env br v reason hj]
    exact h.modView_of_slots ((h.views v).withIntake _ rfl rfl) rfl rfl
  | some j =>
    have huses := h.not_uses ((h.views v).filling j hj) SlotState.noConfusion
    have hfaulted : (br.faulted v j).HoldLaw := h.modView_of_slot ((h.views v).faulted hj) rfl rfl huses
    rw [intakeFault_of_some env br v reason j hj]
    exact (hfaulted.report env _).relax (relaxed_raise ..)

theorem abandonFollowed (env : Env) (v : Fin 4) : (br.abandonFollowed env v).HoldLaw := by
  unfold Bridge.abandonFollowed
  split
  · exact h.intakeFault env v .abandoned
  · exact h

/-- A slot that is neither READY nor FILLING, nor waits, nor is under solve, may go to any state. -/
theorem setState {v : Fin 4} {k : Nat} {st : SlotState} (hslot : (br.views.get v).slotIs k st) (hready : st ≠ .ready)
    (hfilling : st ≠ .filling) (huses : ¬ br.uses v k) (st' : SlotState) :
    (br.modView v (fun vw => vw.setState k st')).HoldLaw :=
  h.modView_of_slot ((h.views v).setState hslot hready ((h.views v).intake_ne hslot hfilling) st') rfl rfl huses

/-- R41: the slot of the superseded entry, which was SOLVING, becomes EMPTY. -/
theorem supersede (env : Env) (v : Fin 4) : (br.supersede env v).HoldLaw := by
  cases hw : br.waiting v with
  | none => rwa [supersede_of_none env br v hw]
  | some e =>
    have hskip : ((br.dropWaiting v).modView v (fun vw => vw.skipped e)).HoldLaw :=
      (h.relax (relaxed_dropWaiting br v)).modView_of_slots { h.views v with } rfl rfl
    have hslot : (((br.dropWaiting v).modView v (fun vw => vw.skipped e)).views.get v).slotIs e.frame.slot .solving := by
      rw [modView_get, if_pos rfl]
      exact h.waiting_solving hw
    rw [supersede_of_some env br v e hw]
    refine (hskip.report env _).setState (slotIs_report env _ _ hslot) SlotState.noConfusion SlotState.noConfusion ?_ .empty
    rw [uses_congr (report_solverQueue ..) (report_solver ..)]
    exact h.not_uses_dropWaiting hw

/-- R41: a frame joins the queue whose slot is SOLVING, in a TRACKING view with no other entry. -/
theorem enqueue {e : SolveEntry} (hslot : (br.views.get e.frame.view).slotIs e.frame.slot .solving)
    (hstate : (br.views.get e.frame.view).state = .tracking) (hnone : ∀ q ∈ br.solverQueue, q.frame.view ≠ e.frame.view)
    (huses : ¬ br.uses e.frame.view e.frame.slot) : ({ br with solverQueue := br.solverQueue ++ [e] } : Bridge).HoldLaw where
  views := h.views
  waiting := fun q hq => by
    rcases List.mem_append.1 hq with hq | hq
    · exact h.waiting q hq
    · rw [List.mem_singleton.1 hq]
      exact ⟨hslot, hstate⟩
  single := by
    rw [List.map_append, List.nodup_append]
    refine ⟨h.single, List.nodup_singleton _, fun u hu w hw => ?_⟩
    obtain ⟨q, hq, rfl⟩ := List.mem_map.1 hu
    rw [List.mem_singleton.1 hw]
    exact hnone q hq
  solving := fun q n hb => by
    obtain ⟨hs, hother⟩ := h.solving q n hb
    refine ⟨hs, fun p hp hv => ?_⟩
    rcases List.mem_append.1 hp with hp | hp
    · exact hother p hp hv
    · rw [List.mem_singleton.1 hp] at hv ⊢
      exact fun hk => huses (.inr ⟨q, n, hb, hv.symm, hk.symm⟩)
  busy := h.busy
  parking := h.parking

/-- R41: a frame that is complete with a buffer joins the queue: its slot was FILLING, the view is TRACKING. -/
theorem joinSolver (env : Env) (f : FrameId) (b : Fin 4) (hfilling : (br.views.get f.view).slotIs f.slot .filling)
    (hintake : (br.views.get f.view).intake.slot ≠ some f.slot) (hstate : (br.views.get f.view).state = .tracking) :
    (br.joinSolver env f b).HoldLaw := by
  have huses := h.not_uses hfilling SlotState.noConfusion
  have hother : ∀ e, br.waiting f.view = some e → e.frame.slot ≠ f.slot := fun e he =>
    slotIs_ne (h.waiting_solving he) hfilling SlotState.noConfusion
  have hsolving : (br.modView f.view (fun vw => vw.setState f.slot .solving)).HoldLaw :=
    h.modView_of_slot ((h.views f.view).setState hfilling SlotState.noConfusion hintake .solving) rfl rfl huses
  have hready : (br.readyToJoin env f).HoldLaw := hsolving.supersede env f.view
  have hslot := readyToJoin_solving env br f (slotIs_lt hfilling) hother
  obtain ⟨hstate', hsolver⟩ := readyToJoin_state env br f
  have hnone : ∀ q ∈ (br.readyToJoin env f).solverQueue, q.frame.view ≠ f.view := fun q hq => by
    rw [Bridge.readyToJoin, supersede_solverQueue] at hq
    simpa using (List.mem_filter.1 hq).2
  have hjoin : ((br.readyToJoin env f).modView f.view (fun vw => vw.modBuffer b (·.withRole .wait))).HoldLaw :=
    hready.modView_of_slots { hready.views f.view with } rfl rfl
  rw [joinSolver_eq]
  refine hjoin.enqueue (e := ⟨f, b⟩) ?_ ?_ hnone ?_
  · rw [modView_get, if_pos rfl]
    exact hslot
  · rw [modView_get, if_pos rfl]
    exact hstate'.trans hstate
  · rintro (⟨q, hq, hv, -⟩ | ⟨q, n, hb, hv, hk⟩)
    · exact hnone q hq hv
    · exact huses (.inr ⟨q, n, hsolver.symm.trans hb, hv, hk⟩)

/-- R40: the followed frame is complete. -/
theorem completeFrame (env : Env) {v : Fin 4} {k : Nat} (hk : (br.views.get v).intake.slot = some k) :
    (br.completeFrame env v k).HoldLaw := by
  have hfilling := (h.views v).filling k hk
  have hbetween : (br.betweenFrames v).HoldLaw := h.modView_of_slots ((h.views v).withIntake _ rfl rfl) rfl rfl
  have hview := betweenFrames_view br v
  have hfilling' : ((br.betweenFrames v).views.get v).slotIs k .filling := hview ▸ hfilling
  have hintake : ((br.betweenFrames v).views.get v).intake.slot ≠ some k := by rw [hview]; exact (nomatch ·)
  cases hb : (br.views.get v).intake.buffer with
  | none =>
    rw [completeFrame_of_no_buffer env br v k hb]
    exact hbetween.unsolvedCompletion env _ _ _ hintake (hbetween.not_uses hfilling' SlotState.noConfusion)
  | some b =>
    have hstate : ((br.betweenFrames v).views.get v).state = .tracking :=
      (congrArg View.state hview).trans ((h.views v).buffer (hb ▸ rfl))
    rw [completeFrame_of_buffer env br v k b hb]
    exact hbetween.joinSolver env ⟨v, k, _⟩ b hfilling' hintake hstate

/-! ### Runs (R35 to R40) -/

theorem acceptRun (env : Env) {v : Fin 4} {k : Nat} (hk : (br.views.get v).intake.slot = some k)
    (run : List (Nat × Byte)) : (br.acceptRun env v k run).HoldLaw := by
  have htaken : (br.takeRun env v run).HoldLaw :=
    h.modView_of_slots ((h.views v).takeRun _ _ _) (by rw [takeRun_eq]) (by rw [takeRun_eq])
  rw [acceptRun_eq]
  split
  · exact htaken.completeFrame env ((congrArg (fun vw : View => vw.intake.slot) (takeRun_view ..)).trans hk)
  · exact htaken

/-- R25, R27: what ends before a frame starts in slot `k`. -/
theorem endForStart (env : Env) (v : Fin 4) (k : Nat) : (br.endForStart env v k).HoldLaw := by
  have hbreak := (h.abandonFollowed env v).breakHolds v (MapEntry.names k) false
  unfold Bridge.endForStart
  by_cases hw : ∃ e, (((br.abandonFollowed env v).breakHolds v (MapEntry.names k) false)).waiting v = some e
      ∧ e.frame.slot = k
  · obtain ⟨e, he, hk⟩ := hw
    rw [reopenSlot_of_waiting env _ v k e he hk]
    exact (hbreak.skipWaiting env e .reopened).relax (relaxed_reopenSolve ..)
  · rw [reopenSlot_of_other env _ v k fun e he hk => hw ⟨e, he, hk⟩]
    exact hbreak.relax (relaxed_reopenSolve ..)

/-- R27: before a frame starts in slot `k`, no entry of the slot waits and no solve of it goes on unless reopened. -/
theorem endForStart_not_uses (env : Env) (v : Fin 4) (k : Nat) : ¬ (br.endForStart env v k).uses v k := by
  obtain ⟨_, _, _, _, hE⟩ := endForStart_ended env br v k
  rintro (⟨q, hq, hv, hk⟩ | ⟨q, n, hb, hv, hk⟩)
  · by_cases hw : ∃ e, br.waiting v = some e ∧ e.frame.slot = k
    · obtain ⟨e, he, hek⟩ := hw
      rw [(hE.skipped e he hek).1] at hq
      exact absurd hv (by simpa using (List.mem_filter.1 hq).2)
    · rw [(hE.unskipped fun e he hek => hw ⟨e, he, hek⟩).1] at hq
      exact hw ⟨q, hv ▸ h.waiting_eq hq, hk⟩
  · obtain ⟨_, _, hnot⟩ := reopen_eq_busy (hE.solver.symm.trans hb)
    exact (hnot rfl).2 ⟨hv, hk⟩

/-- R35: a frame starts in a slot of the view. -/
theorem startFrame (env : Env) {v : Fin 4} {k : Nat} (hk : k < (br.views.get v).slots.length) (run : List (Nat × Byte)) :
    (br.startFrame env v k run).HoldLaw := by
  obtain ⟨_, _, _, _, hE⟩ := endForStart_ended env br v k
  have hended := h.endForStart env v k
  have hslots : ((br.endForStart env v k).views.get v).slots =
      (faultSlot (br.views.get v).followed (br.views.get v).slots).map (Slot.unhold k) := (congrArg View.slots hE.view :)
  have hlt : k < ((br.endForStart env v k).views.get v).slots.length := by
    rw [hslots]
    cases hf : (br.views.get v).followed <;> simpa [faultSlot] using hk
  have hheld : ∀ sl ∈ ((br.endForStart env v k).views.get v).slots, MapEntry.held k ∉ sl.map := fun sl hsl he => by
    rw [hslots] at hsl
    obtain ⟨old, -, rfl⟩ := List.mem_map.1 hsl
    obtain ⟨e, -, hek⟩ := List.mem_map.1 he
    split at hek
    · exact nomatch hek
    · exact ‹¬ _› (by simp [hek, MapEntry.names])
  obtain ⟨hstate, hslots', hslot⟩ := startIntake_keeps
    (((((br.endForStart env v k).views.get v).dropSource k).startSlot k).countOvertake k) v k
  have hbegun : ((br.endForStart env v k).modView v (fun vw =>
      (((vw.dropSource k).startSlot k).countOvertake k).startIntake v k)).HoldLaw :=
    hended.modView_of_slot (k := k) (g := fun sl => sl.started _ _) ((hended.views v).started hlt hheld v) hstate hslots'
      (h.endForStart_not_uses env v k)
  have hstarted := hbegun.relax (relaxed_raiseIf _
    (decide (((br.endForStart env v k).views.get v).scan.presented = some k)) (.fault v))
  rw [startFrame_eq, ← Bridge.endForStart, Bridge.beginFrame, beginFrame_started]
  refine hstarted.acceptRun env ?_ run
  rw [raiseIf_views, modView_get, if_pos rfl]
  exact hslot

theorem judgeRun (env : Env) {v : Fin 4} {k : Nat} (hk : (br.views.get v).intake.slot = some k) (run : List (Nat × Byte)) :
    (br.judgeRun env v k run).HoldLaw := by
  unfold Bridge.judgeRun
  dsimp only
  split
  · exact h.intakeFault env v _
  · split
    · exact h.intakeFault env v _
    · split
      · exact h.intakeFault env v _
      · exact h.acceptRun env hk run

theorem followRun (env : Env) {v : Fin 4} {k : Nat} (hk : k < (br.views.get v).slots.length) (run : List (Nat × Byte)) :
    (br.followRun env v k run).HoldLaw := by
  unfold Bridge.followRun
  split
  · exact h.startFrame env hk run
  · split
    · split
      case isTrue hslot => exact h.judgeRun env hslot run
      case isFalse => exact h.count v _
    · exact h

theorem intakePiece (env : Env) {v : Fin 4} {k : Nat} (hk : k < (br.views.get v).slots.length) (tag : Byte)
    (run : List (Nat × Byte)) : (br.intakePiece env v k tag run).HoldLaw := by
  unfold Bridge.intakePiece
  dsimp only
  split
  · exact h.followRun env hk run
  · exact h.count v _

end Bridge.HoldLaw

end Sys2Proof.Machine
end

section
/-! PROOF. The law of held tiles and the port, the command ring and the solve (R111, with R9, R20, R71, R182): the acceptance of
a request, each take, the start and the completion of a solve keep it. -/

namespace Sys2Proof.Machine

open Laws

/-! ### Slots of the window map (R146, R147) -/

/-- R20, R146: a slot range of the window map is that of a slot the view has. -/
theorem slot_lt_of_windowMap {env : Env} {br : Bridge} (h : br.HoldLaw) {r : MapRange} (hr : r ∈ windowMap env br)
    {v : Fin 4} {k : Nat} (hk : r.region = .slot v k) : k < (br.views.get v).slots.length := by
  have hview : ∃ u, r ∈ br.viewRanges u := by
    simp only [windowMap, List.mem_append] at hr
    rcases hr with (((hcontrol | h0) | h1) | h2) | h3
    · split at hcontrol
      · rw [List.mem_singleton.1 hcontrol] at hk
        exact nomatch hk
      · exact nomatch hcontrol
    · exact ⟨0, h0⟩
    · exact ⟨1, h1⟩
    · exact ⟨2, h2⟩
    · exact ⟨3, h3⟩
  obtain ⟨u, hu⟩ := hview
  unfold Bridge.viewRanges at hu
  split at hu
  case isTrue => exact nomatch hu
  case isFalse hst =>
    rcases List.mem_append.1 hu with hslot | hwindow
    · obtain ⟨⟨b, n⟩, hn, rfl⟩ := List.mem_map.1 hslot
      cases hk
      rw [(h.views v).count hst]
      exact (List.getElem?_eq_some_iff.1 (List.mem_zipIdx_iff_getElem?.1 hn)).1
    · rw [List.mem_singleton.1 hwindow] at hk
      exact nomatch hk

theorem slot_lt_of_regionOf {env : Env} {br : Bridge} (h : br.HoldLaw) {a : Nat} {v : Fin 4} {k : Nat}
    (hk : regionOf env.straps (windowMap env br) a = .slot v k) : k < (br.views.get v).slots.length := by
  unfold regionOf at hk
  split at hk
  · exact nomatch hk
  · split at hk
    case h_1 r hr => exact slot_lt_of_windowMap h (List.mem_of_find?_eq_some hr) hk
    case h_2 => exact nomatch hk

/-- R147: a piece of a write that lies in a slot range lies in a slot the view has. -/
theorem slot_lt_of_writePieces {env : Env} {br : Bridge} (h : br.HoldLaw) {w : WriteRequest} {p : WritePiece}
    (hp : p ∈ writePieces env.straps (windowMap env br) w) {v : Fin 4} {k : Nat} (hk : p.region = .slot v k) :
    k < (br.views.get v).slots.length := by
  obtain ⟨g, -, rfl⟩ := List.mem_map.1 hp
  cases hg : g.head? with
  | none =>
    rw [hg] at hk
    exact nomatch hk
  | some c =>
    rw [hg] at hk
    exact slot_lt_of_regionOf h hk

/-! ### The port (R144 to R149) -/

theorem relaxed_writeControl (br : Bridge) (base : Nat) (cells : List (Nat × WriteByte)) :
    br.Relaxed (br.writeControl base cells) := by
  refine .foldl _ (fun br c => ?_) cells br
  split
  · unfold Bridge.writeControlByte
    split_ifs <;> exact .of_same rfl rfl rfl rfl
  · exact .refl br

theorem relaxed_joinStream (br : Bridge) (q a : Nat) (kind : OpKind) : br.Relaxed (br.joinStream q a kind) :=
  .of_same rfl rfl rfl rfl

theorem relaxed_takePlace (br : Bridge) (isRead : Bool) : br.Relaxed (br.takePlace isRead) := .of_same rfl rfl rfl rfl

theorem relaxed_freePlaces (br : Bridge) : br.Relaxed br.freePlaces := .of_same rfl rfl rfl rfl

theorem relaxed_countOutOfRange (env : Env) (br : Bridge) (regions : List Region) :
    br.Relaxed (br.countOutOfRange env regions) := by
  unfold Bridge.countOutOfRange
  split <;> exact .of_same rfl rfl rfl rfl

theorem relaxed_joinWritePiece (br : Bridge) (q : Nat) (p : WritePiece) : br.Relaxed (br.joinWritePiece q p) := by
  unfold Bridge.joinWritePiece
  split
  · exact .refl br
  · exact .refl br
  · exact relaxed_joinStream ..

theorem relaxed_joinMixed (br : Bridge) (q a place : Nat) (places : List (Option Byte)) :
    br.Relaxed (br.joinMixed q a place places) := by
  unfold Bridge.joinMixed
  dsimp only
  split
  · exact .refl br
  · exact relaxed_joinStream ..

theorem relaxed_joinReads (q : Nat) (ps : List Part) (br : Bridge) (place : Nat) : br.Relaxed (br.joinReads q place ps) := by
  induction ps generalizing br place with
  | nil => exact .refl br
  | cons p ps ih =>
    cases p with
    | fixed bytes => exact ih _ _
    | fetch a count => exact (relaxed_joinStream ..).trans (ih _ _)
    | mixed a places => exact (relaxed_joinMixed br q a place places).trans (ih _ _)

/-- R145: a piece that is not the write's intake piece touches the shadows alone. -/
theorem relaxed_watchPiece (env : Env) (tag : Byte) (br : Bridge) (p : WritePiece) :
    br.Relaxed (br.watchPiece env tag p false) := by
  unfold Bridge.watchPiece
  split
  · exact relaxed_writeControl ..
  · exact .refl br
  · exact .refl br

theorem relaxed_watchPieces (env : Env) (tag : Byte) (ps : List WritePiece) (br : Bridge) :
    br.Relaxed (br.watchPieces env tag true ps) := by
  induction ps generalizing br with
  | nil => exact .refl br
  | cons p ps ih =>
    unfold Bridge.watchPieces
    split
    · exact (relaxed_watchPiece ..).trans (ih _)
    · exact (relaxed_watchPiece ..).trans (ih _)

/-- Of a view of which no solve is in progress the entry under solve is none (R69). -/
theorem view_ne_of_solving {br : Bridge} {v : Fin 4} (h : br.solving v = false) (e : SolveEntry) (r n : Bool)
    (hb : br.solver = .busy e r n) : e.frame.view ≠ v := by
  simpa [Bridge.solving, hb] using h

/-- The bridge with no command in flight. -/
def Bridge.landed (br : Bridge) : Bridge := { br with inFlight := none }

theorem relaxed_landed (br : Bridge) : br.Relaxed br.landed :=
  { Bridge.Relaxed.refl br with inFlight := fun _ hf => nomatch hf }

/-- R183: the command in flight lands by its completion, so that its effect may rest on it no more. -/
theorem completeCommand_of_landed {br : Bridge} (h : br.landed.HoldLaw) (env : Env) (i : Nat) (entry : List Byte)
    (st : Status) (detail : Nat) : (br.completeCommand env i entry st detail).HoldLaw :=
  h.relax (.of_same rfl rfl rfl rfl)

theorem reachParked_landed (br : Bridge) (v : Fin 4) : (br.reachParked v).landed = br.landed.reachParked v := by
  have hraise (b : Bridge) (c : Bool) (e : Event) : (b.raiseIf c e).landed = b.landed.raiseIf c e := by cases c <;> rfl
  rw [Bridge.reachParked, Bridge.reachParked, Bridge.breakHolds, Bridge.breakHolds, raiseIf_modView, raiseIf_modView, hraise]
  rfl

theorem storeSolve_state (vw : View) (e : SolveEntry) (m : MotionResult) (t : TileResult) (reopened : Bool) :
    (vw.storeSolve e m t reopened).state = vw.state := by cases reopened <;> rfl

theorem storeSolve_reopened_slots (vw : View) (e : SolveEntry) (m : MotionResult) (t : TileResult) :
    (vw.storeSolve e m t true).slots = vw.slots := rfl

theorem storeSolve_solved_slots (vw : View) (e : SolveEntry) (m : MotionResult) (t : TileResult) :
    (vw.storeSolve e m t false).slots = (vw.modSlot e.frame.slot fun sl =>
      { sl with state := .ready, offsets := some ⟨m.y.offset, m.x.offset⟩, map := t.map }).slots := rfl

theorem View.HoldLaw.storeSolve_reopened {vw : View} (h : vw.HoldLaw) (e : SolveEntry) (m : MotionResult) :
    (vw.storeSolve e m (vw.tilesOf e true) true).HoldLaw := by
  rw [storeSolve_eq, if_pos rfl, View.tilesOf, if_pos rfl]
  exact h.storeMotion e m _

theorem View.HoldLaw.storeSolve_solved {vw : View} (h : vw.HoldLaw) (e : SolveEntry) (m : MotionResult)
    (hk : vw.slotIs e.frame.slot .solving) : (vw.storeSolve e m (vw.tilesOf e false) false).HoldLaw := by
  rw [storeSolve_eq, if_neg Bool.noConfusion, View.tilesOf, if_neg Bool.noConfusion]
  exact h.storeSlot e m _ hk

/-- The bridge with its solver IDLE. -/
def Bridge.idle (br : Bridge) : Bridge := { br with solver := .idle }

theorem relaxed_idle (br : Bridge) : br.Relaxed br.idle :=
  { Bridge.Relaxed.refl br with solver := fun _ _ _ hb => nomatch hb }

theorem report_idle (env : Env) (br : Bridge) (r : Report) : (br.report env r).idle = br.idle.report env r := by
  cases h : br.reportFree
  · rw [report_of_held env br r h, report_of_held env br.idle r h]
    rfl
  · rw [report_of_free env br r h, report_of_free env br.idle r h]
    rfl

theorem solveStored_idle (br : Bridge) (e : SolveEntry) (reopened : Bool) :
    (br.solveStored e reopened).idle = br.idle.solveStored e reopened := by
  have hraise (b : Bridge) (c : Bool) (ev : Event) : (b.raiseIf c ev).idle = b.idle.raiseIf c ev := by cases c <;> rfl
  exact hraise ..

/-- R73: that the solver becomes IDLE may come before the results are stored and reported, since these do not read it. -/
theorem solveResults_idle (env : Env) (br : Bridge) (e : SolveEntry) (reopened : Bool) :
    br.solveResults env e reopened =
      ((br.idle.solveStored e reopened).report env ((br.views.get e.frame.view).reportOf e reopened)).raise
        (.frame e.frame.view) := by
  rw [← solveStored_idle, ← report_idle]
  rfl

namespace Bridge.HoldLaw

variable {br : Bridge} (h : br.HoldLaw)
include h

/-- R31, R145: the first intake piece of a write is its only one, and up to it the views are as they were. -/
theorem watchPieces (env : Env) (tag : Byte) (ps : List WritePiece)
    (hps : ∀ p ∈ ps, ∀ v k, p.region = .slot v k → k < (br.views.get v).slots.length) :
    (br.watchPieces env tag false ps).HoldLaw := by
  induction ps generalizing br with
  | nil => exact h
  | cons p ps ih =>
    unfold Bridge.watchPieces
    split
    case isTrue =>
      refine HoldLaw.relax ?_ (relaxed_watchPieces env tag ps _)
      unfold Bridge.watchPiece
      split
      case h_1 => exact h.relax (relaxed_writeControl ..)
      case h_2 v k hregion => exact h.intakePiece env (hps p List.mem_cons_self v k hregion) tag _
      case h_3 => exact h
    case isFalse =>
      have hp := relaxed_watchPiece env tag br p
      exact ih (h.relax hp) fun q hq v k hk => hp.views ▸ hps q (List.mem_cons_of_mem p hq) v k hk

/-- R145: the acceptance of a write is work that keeps the law, and then the take it makes available. -/
theorem acceptWrite (env : Env) (w : WriteRequest) : ∃ b : Bridge, b.HoldLaw ∧ acceptWrite env br w = takeIfDue env b := by
  have hforward : br.Relaxed ((writePieces env.straps (windowMap env br) w).foldl
      (fun b p => b.joinWritePiece br.accepted p)
      ((br.takePlace false).countOutOfRange env ((writePieces env.straps (windowMap env br) w).map (·.region)))) :=
    ((relaxed_takePlace ..).trans (relaxed_countOutOfRange ..)).trans
      (.foldl _ (fun b p => relaxed_joinWritePiece b _ p) _ _)
  have hwatched := (h.relax hforward).watchPieces env w.tag (writePieces env.straps (windowMap env br) w)
    fun p hp v k hk => hforward.views ▸ slot_lt_of_writePieces h hp hk
  exact ⟨_, hwatched.relax (relaxed_freePlaces _), rfl⟩

theorem scanPiece (tag : Byte) (p : ReadPiece) : (br.scanPiece tag p).HoldLaw := by
  unfold Bridge.scanPiece
  split
  case h_1 v a _ _ _ =>
    obtain ⟨scan, hscan⟩ := scanRead_scan (br.views.get v) tag a
    exact h.modView_of_slots ((h.views v).scanRead tag a) (hscan ▸ rfl) (hscan ▸ rfl)
  case h_2 => exact h

theorem answerPieces (env : Env) (tag : Byte) (ps : List ReadPiece) : (br.answerPieces env tag ps).1.HoldLaw := by
  induction ps generalizing br with
  | nil => exact h
  | cons p ps ih => exact ih (h.scanPiece tag p)

theorem acceptRead (env : Env) (r : ReadRequest) : (acceptRead env br r).HoldLaw := by
  have hplace := h.relax ((relaxed_takePlace br true).trans (relaxed_countOutOfRange env _
    ((readPieces env.straps (windowMap env br) r).map (·.region))))
  have hopen : ∀ (b : Bridge) q places, b.Relaxed (b.openAssembly q places) := fun _ _ _ => .of_same rfl rfl rfl rfl
  exact ((hplace.answerPieces env r.tag _).relax (hopen ..)).relax (relaxed_joinReads ..)

/-! ### The takes (R181) -/

theorem completeCommand (env : Env) (i : Nat) (entry : List Byte) (st : Status) (detail : Nat) :
    (br.completeCommand env i entry st detail).HoldLaw :=
  h.relax ⟨rfl, List.Sublist.refl _, fun _ r n hs => ⟨r, n, hs, id⟩, fun _ hf => nomatch hf⟩

theorem completeTaken (env : Env) (st : Status) (detail : Nat) : (br.completeTaken env st detail).HoldLaw :=
  h.completeCommand ..

/-- R182: a command waits; a PARK that waits holds its view in PARKING. -/
theorem waitTaken (w : Wait) (hw : ∀ v, w = .park v → (br.views.get v).state = .parking) : (br.waitTaken w).HoldLaw :=
  { h with
    parking := fun f v hf hv => by
      cases hf
      exact hw v hv }

/-- A view of which no solve is waiting or in progress may become any view that keeps the law, while no command is in
flight. -/
theorem modView_of_unused {v : Fin 4} {f : View → View} (hf : br.inFlight = none)
    (hwaiting : ∀ e ∈ br.solverQueue, e.frame.view ≠ v) (hbusy : ∀ e r n, br.solver = .busy e r n → e.frame.view ≠ v)
    (hlaw : (f (br.views.get v)).HoldLaw) : (br.modView v f).HoldLaw :=
  h.modView
    { law := hlaw
      solving := by
        rintro k (⟨e, he, hv, -⟩ | ⟨e, n, hb, hv, -⟩)
        · exact (hwaiting e he hv).elim
        · exact (hbusy e false n hb hv).elim
      tracking := fun e he hv => (hwaiting e he hv).elim
      busy := fun e r n hb hv => (hbusy e r n hb hv).elim
      parking := fun f hf' => nomatch hf.symm.trans hf' }

/-- R9, R71: no solve waits or is in progress of a view that is neither TRACKING nor PARKING. -/
theorem modView_of_rest {v : Fin 4} {f : View → View} (hf : br.inFlight = none)
    (htracking : (br.views.get v).state ≠ .tracking) (hparking : (br.views.get v).state ≠ .parking)
    (hlaw : (f (br.views.get v)).HoldLaw) : (br.modView v f).HoldLaw :=
  h.modView_of_unused hf (fun e he hv => htracking ((h.admits v).tracking e he hv))
    (fun e r n hb hv => ((h.admits v).busy e r n hb hv).elim htracking hparking) hlaw

/-- R15: a view reaches PARKED of which no solve is waiting or in progress, while no command is in flight. -/
theorem reachParked {v : Fin 4} (hf : br.inFlight = none) (hwaiting : ∀ e ∈ br.solverQueue, e.frame.view ≠ v)
    (hbusy : ∀ e r n, br.solver = .busy e r n → e.frame.view ≠ v) (hst : (br.views.get v).state ≠ .unconfigured)
    (hbuffer : (br.views.get v).intake.buffer = none) : (br.reachParked v).HoldLaw := by
  have hparked : (br.modView v View.reachParked).HoldLaw :=
    h.modView_of_unused hf hwaiting hbusy ((h.views v).reachParked hst hbuffer)
  rw [Bridge.reachParked, Bridge.breakHolds, raiseIf_modView, modView_modView]
  exact hparked.relax (relaxed_raiseIf ..)

/-- R18: every view is released while the solver is IDLE and no command is in flight. -/
theorem releaseAll (hf : br.inFlight = none) (hs : br.solver = .idle) : br.releaseAll.HoldLaw where
  views := fun v => by
    rw [releaseAll_views_get]
    split
    · exact h.views v
    · exact release_holdLaw _
  waiting := fun _ he => nomatch he
  single := List.nodup_nil
  solving := fun _ _ hb => nomatch hs.symm.trans hb
  busy := fun _ _ _ hb => nomatch hs.symm.trans hb
  parking := fun _ _ hf' => nomatch hf.symm.trans hf'

theorem takeConfigure (env : Env) (hf : br.inFlight = none) : (takeConfigure env br).HoldLaw := by
  unfold Machine.takeConfigure
  split
  · exact h.completeTaken ..
  · split
    case isTrue hst =>
      dsimp only
      split
      · exact h.completeTaken ..
      · refine (h.modView_of_rest hf ?_ ?_ (configure_holdLaw _ _)).completeTaken env _ _ <;>
          rcases hst with hst | hst <;> simp [hst]
    case isFalse => exact h.completeTaken ..

theorem takeTrack (env : Env) (hf : br.inFlight = none) : (takeTrack env br).HoldLaw := by
  unfold Machine.takeTrack
  split
  · exact h.completeTaken ..
  · rename_i v _
    split
    case isTrue hst =>
      exact (h.modView_of_rest hf (by simp [hst]) (by simp [hst])
        ((h.views v).rebaseResets.withState .tracking (by simp [rebaseResets_state, hst]) (.inl rfl))).completeTaken env _ _
    case isFalse => exact h.completeTaken ..

theorem takeRelease (env : Env) (hf : br.inFlight = none) : (takeRelease env br).HoldLaw := by
  unfold Machine.takeRelease
  split
  · exact h.completeTaken ..
  · split
    case isTrue hst =>
      exact (h.modView_of_rest hf (by simp [hst]) (by simp [hst]) (release_holdLaw _)).completeTaken env _ _
    case isFalse => exact h.completeTaken ..

theorem takeReleaseAll (env : Env) (hf : br.inFlight = none) : (takeReleaseAll env br).HoldLaw := by
  unfold Machine.takeReleaseAll
  split
  case isTrue => exact h.waitTaken _ fun _ hw => nomatch hw
  case isFalse hidle =>
    refine (h.releaseAll hf ?_).completeTaken env _ _
    cases hs : br.solver with
    | idle => rfl
    | busy e r n => simp [Bridge.solverBusy, hs] at hidle

theorem dropAccum (v : Fin 4) : (br.modView v View.dropAccum).HoldLaw :=
  h.modView_of_slots (h.views v).dropAccum rfl rfl

theorem rebaseResets (v : Fin 4) : (br.modView v View.rebaseResets).HoldLaw :=
  h.modView_of_slots (h.views v).rebaseResets rfl rfl

theorem takeRebase (env : Env) : (takeRebase env br).HoldLaw := by
  unfold Machine.takeRebase
  split
  · exact h.completeTaken ..
  · rename_i v _
    split
    · dsimp only
      split
      · exact (h.dropAccum v).waitTaken _ fun _ hw => nomatch hw
      · exact ((h.dropAccum v).rebaseResets v).completeTaken env _ _
    · exact h.completeTaken ..

theorem takeTune (env : Env) : (takeTune env br).HoldLaw := by
  unfold Machine.takeTune
  split
  · exact h.completeTaken ..
  · rename_i v _
    split
    · dsimp only
      split
      · exact (h.modView_of_slots { h.views v with } rfl rfl).completeTaken env _ _
      · exact h.completeTaken ..
    · exact h.completeTaken ..

/-- R195: counters of every view, and the global ones, become 0. -/
theorem zeroAll : ({ br with
    views := br.views.map (fun vw => vw.count (fun _ => ViewCounters.zero))
    glitchA := 0, glitchB := 0, outOfRange := 0 } : Bridge).HoldLaw := by
  have hview (v : Fin 4) := Four.get_map br.views (fun vw => vw.count (fun _ => ViewCounters.zero)) v
  exact
    { views := fun v => (hview v).symm ▸ (h.views v).count_counters _
      waiting := fun e he => (hview e.frame.view).symm ▸ h.waiting e he
      single := h.single
      solving := fun e n hb => (hview e.frame.view).symm ▸ h.solving e n hb
      busy := fun e r n hb => (hview e.frame.view).symm ▸ h.busy e r n hb
      parking := fun f v hf hw => (hview v).symm ▸ h.parking f v hf hw }

theorem takeZero (env : Env) : (takeZero env br).HoldLaw := by
  unfold Machine.takeZero
  split
  · exact (h.count _ _).completeTaken env _ _
  · split
    · exact h.zeroAll.completeTaken env _ _
    · exact h.completeTaken ..

theorem takeEdge (env : Env) : (takeEdge env br).HoldLaw := by
  unfold Machine.takeEdge
  split
  · exact h.completeTaken ..
  · rename_i i _
    split
    · exact h.completeTaken ..
    · exact (h.relax (.of_same (setRot_views ..) (setRot_solverQueue ..) (setRot_solver ..) (setRot_inFlight ..))).completeTaken
        env _ _

/-- R14: the waiting entry, whose slot is SOLVING, leaves the queue, and its slot is READY unsolved. -/
theorem parkWaiting (env : Env) (v : Fin 4) : (br.parkWaiting env v).HoldLaw := by
  cases hw : br.waiting v with
  | none => rwa [parkWaiting_of_none env br v hw]
  | some e =>
    have hintake := (h.views v).intake_ne (h.waiting_solving hw) SlotState.noConfusion
    have hbuffer : ((br.views.get v).modBuffer e.buffer (·.withRole .free)).HoldLaw := { h.views v with }
    have hready : (br.parkReady v e).HoldLaw := (h.relax (relaxed_dropWaiting br v)).modView_of_slot
      (hbuffer.readyUnsolved hintake _) rfl rfl (h.not_uses_dropWaiting hw)
    rw [parkWaiting_of_some env br v e hw]
    exact (hready.report env _).relax (relaxed_raise ..)

/-- R14: the view that PARK has stopped is TRACKING without a buffer, and none of its frames waits. -/
theorem parkStopped (env : Env) {v : Fin 4} (hst : (br.views.get v).state = .tracking) :
    (br.parkStopped env v).HoldLaw ∧ ((br.parkStopped env v).views.get v).state = .tracking
      ∧ ((br.parkStopped env v).views.get v).intake.buffer = none
      ∧ ∀ e ∈ (br.parkStopped env v).solverQueue, e.frame.view ≠ v := by
  obtain ⟨_, _, _, _, hview, -⟩ := parkWaiting_view env br v
  refine ⟨(h.parkWaiting env v).dropAccum v, ?_, ?_, fun e he => ?_⟩
  · rw [parkStopped_view, dropAccum_state, hview]
    exact hst
  · rw [parkStopped_view]
    rfl
  · have he : e ∈ (br.parkWaiting env v).solverQueue := he
    rw [(parkWaiting_waitingParked env br v).queue] at he
    simpa using (List.mem_filter.1 he).2

/-- R14, R182: PARK reaches PARKED where no solve of the view is in progress, and waits in PARKING for one that is. -/
theorem takePark (env : Env) (hf : br.inFlight = none) : (takePark env br).HoldLaw := by
  cases ht : targetView br.nextEntry with
  | none =>
    simp only [Machine.takePark, ht]
    exact h.completeTaken ..
  | some v =>
    by_cases hst : (br.views.get v).state = .tracking
    case neg =>
      simp only [Machine.takePark, ht, if_neg hst]
      exact h.completeTaken ..
    case pos =>
      obtain ⟨hstopped, htracking, hbuffer, hwaiting⟩ := h.parkStopped env hst
      have hsolving := parkStopped_solving br env v v
      cases hb : br.solving v with
      | false =>
        rw [takePark_at_once env br v ht hst hb]
        exact (hstopped.reachParked ((parkStopped_frameWork env br v).inFlight.trans hf) hwaiting
          (view_ne_of_solving (hsolving.trans hb)) (by simp [htracking]) hbuffer).completeTaken env _ _
      | true =>
        have hparking : ((br.parkStopped env v).modView v (fun vw => { vw with state := .parking })).HoldLaw :=
          hstopped.modView
            { law := (hstopped.views v).withState .parking (by simp [htracking]) (.inr hbuffer)
              solving := (hstopped.admits v).solving
              tracking := fun e he hv => (hwaiting e he hv).elim
              busy := fun _ _ _ _ _ => .inr rfl
              parking := fun _ _ _ => rfl }
        rw [takePark_waits env br v ht hst hb]
        refine hparking.waitTaken _ fun u hu => ?_
        cases hu
        rw [modView_get, if_pos rfl]

/-- R181: each take keeps the law. -/
theorem takeNext (env : Env) (hf : br.inFlight = none) : (takeNext env br).HoldLaw := by
  unfold Machine.takeNext
  split
  · exact h.takeConfigure env hf
  · exact h.takeTrack env hf
  · exact h.takePark env hf
  · exact h.takeRelease env hf
  · exact h.takeReleaseAll env hf
  · exact h.takeRebase env
  · exact h.takeTune env
  · exact h.takeZero env
  · exact h.takeEdge env
  · exact h.completeTaken ..

/-! ### The solve (R71, R73, R89 to R93) -/

/-- R71: the head of the queue goes under solve: its slot is SOLVING, its view TRACKING, and no other entry is the view's. -/
theorem startSolve : br.startSolve.HoldLaw := by
  unfold Bridge.startSolve
  split
  case isFalse => exact h
  case isTrue =>
    split
    case h_1 => exact h
    case h_2 e rest hq =>
      have he : e ∈ br.solverQueue := by simp [hq]
      obtain ⟨hslot, hstate⟩ := h.waiting e he
      have hsingle := h.single
      rw [hq, List.map_cons, List.nodup_cons] at hsingle
      obtain ⟨hnot, hrest⟩ := hsingle
      have hbusy : ({ br with solverQueue := rest, solver := .busy e false false } : Bridge).HoldLaw :=
        { views := h.views
          waiting := fun q hr => h.waiting q (hq ▸ List.mem_cons_of_mem e hr)
          single := hrest
          solving := fun q n hb => by
            cases hb
            exact ⟨hslot, fun q hr hv => (hnot (List.mem_map.2 ⟨q, hr, hv⟩)).elim⟩
          busy := fun q r n hb => by
            cases hb
            exact .inl hstate
          parking := h.parking }
      exact hbusy.modView_of_slots { h.views e.frame.view with } rfl rfl

/-- R89 to R92: the results of a solve that was reopened change no slot; those of another make the solved slot READY, which
was SOLVING. -/
theorem solveStored {e : SolveEntry} (reopened : Bool) (hsolved : reopened = false →
    (br.views.get e.frame.view).slotIs e.frame.slot .solving ∧ ¬ br.uses e.frame.view e.frame.slot) :
    (br.solveStored e reopened).HoldLaw := by
  have hview := h.views e.frame.view
  have hmod : (br.modView e.frame.view fun vw => vw.storeSolve e ((br.views.get e.frame.view).solveOf e)
      ((br.views.get e.frame.view).tilesOf e reopened) reopened).HoldLaw := by
    cases reopened with
    | true => exact h.modView_of_slots (hview.storeSolve_reopened e _) (storeSolve_state ..) (storeSolve_reopened_slots ..)
    | false =>
      obtain ⟨hslot, huses⟩ := hsolved rfl
      exact h.modView_of_slot (hview.storeSolve_solved e _ hslot) (storeSolve_state ..) (storeSolve_solved_slots ..) huses
  exact hmod.relax (relaxed_raiseIf _ _ _)

/-- R73: with the solver IDLE nothing rests on the slot of the solve that completes. -/
theorem solveResults (env : Env) {e : SolveEntry} {reopened ended : Bool} (hs : br.solver = .busy e reopened ended) :
    (br.solveResults env e reopened).HoldLaw := by
  have hstored := (h.relax (relaxed_idle br)).solveStored reopened fun hr => by
    obtain ⟨hslot, hother⟩ := h.solving e ended (hr ▸ hs)
    refine ⟨hslot, ?_⟩
    rintro (⟨q, hq, hv, hk⟩ | ⟨q, n, hb, -, -⟩)
    · exact hother q hq hv hk
    · exact nomatch hb
  rw [solveResults_idle]
  exact (hstored.report env _).relax (relaxed_raise ..)

/-- R93, R182: the command that waits for a solve has its effect once the solver is IDLE. -/
theorem finishWaiting (env : Env) (v : Fin 4) (hs : br.solver = .idle) : (br.finishWaiting env v).HoldLaw := by
  cases hf : br.inFlight with
  | none => rwa [finishWaiting_of_none env br v hf]
  | some f =>
    have hlanded : br.landed.HoldLaw := h.relax (relaxed_landed br)
    cases hw : f.wait with
    | park u =>
      by_cases hu : u = v
      · subst hu
        have hst : (br.landed.views.get u).state = .parking := h.parking f u hf hw
        have hparked : (br.reachParked u).landed.HoldLaw := by
          rw [reachParked_landed]
          exact hlanded.reachParked rfl (fun e he hv => nomatch hst.symm.trans ((hlanded.admits u).tracking e he hv))
            (fun _ _ _ hb => nomatch hs.symm.trans hb) (by simp [hst]) ((hlanded.views u).buffer_none (by simp [hst]))
        rw [finishWaiting_of_park env br u f hf hw]
        exact completeCommand_of_landed hparked ..
      · rwa [finishWaiting_of_other env br v u f hf (.inl hw) hu]
    | rebase u =>
      by_cases hu : u = v
      · subst hu
        rw [finishWaiting_of_rebase env br u f hf hw]
        exact (h.rebaseResets u).completeCommand ..
      · rwa [finishWaiting_of_other env br v u f hf (.inr hw) hu]
    | releaseAll =>
      have hreleased : br.releaseAll.landed.HoldLaw := hlanded.releaseAll rfl hs
      rw [finishWaiting_of_releaseAll env br v f hf hw]
      exact completeCommand_of_landed hreleased ..

theorem completeSolve (env : Env) : (br.completeSolve env).HoldLaw := by
  cases hs : br.solver with
  | idle => rwa [Bridge.completeSolve, hs]
  | busy e reopened ended =>
    rw [completeSolve_of_busy env br e reopened ended hs]
    exact (h.solveResults env hs).finishWaiting env e.frame.view rfl

end Bridge.HoldLaw

end Sys2Proof.Machine
end

section
/-! PROOF. Every step keeps the law of held tiles (R108, R111): urgent work does, and then each row of the table. -/

namespace Sys2Proof.Machine

open Laws

/-! ### Urgent work -/

/-- R181: a command is taken only while none is in flight. -/
theorem inFlight_of_takeDue {br : Bridge} (h : takeDue br = true) : br.inFlight = none := by
  unfold takeDue at h
  simp only [Bool.and_eq_true, Option.isNone_iff_eq_none] at h
  obtain ⟨⟨-, hnone⟩, -⟩ := h
  exact hnone

namespace Bridge.HoldLaw

variable {br : Bridge} (h : br.HoldLaw)
include h

theorem takeOfDue (env : Env) (hd : takeDue br = true) : (Machine.takeNext env br).HoldLaw :=
  h.takeNext env (inFlight_of_takeDue hd)

theorem acceptRequest (env : Env) (r : Request) : (acceptRequest env br r).HoldLaw := by
  cases r with
  | write w =>
    obtain ⟨b, hb, haccept⟩ := h.acceptWrite env w
    change (Machine.acceptWrite env br w).HoldLaw
    rw [haccept]
    exact takeIfDue_keeps Bridge.HoldLaw env b hb (hb.takeOfDue env)
  | read r => exact h.acceptRead env r

theorem acceptWaiting (env : Env) : (acceptWaiting env br).HoldLaw := by
  unfold Machine.acceptWaiting
  split
  case h_1 => exact h
  case h_2 r rest _ =>
    have hrest : ({ br with busWait := rest } : Bridge).HoldLaw := h.relax (.of_same rfl rfl rfl rfl)
    exact hrest.acceptRequest env r

theorem urgent (env : Env) (br' : Bridge) (hu : urgent env br = some br') : br'.HoldLaw :=
  urgent_keeps Bridge.HoldLaw env (fun _ h _ => h.completeSolve env) (fun _ h hd => h.takeOfDue env hd)
    (fun _ h _ => h.acceptWaiting env) br br' h hu

end Bridge.HoldLaw

/-! ### Work that the law does not rest on -/

theorem relaxed_issueUpstream (s : State) : s.bridge.Relaxed s.issueUpstream.bridge := by
  unfold State.issueUpstream
  split <;> exact .of_same rfl rfl rfl rfl

theorem relaxed_issueOwn (s : State) : s.bridge.Relaxed s.issueOwn.bridge := by
  unfold State.issueOwn
  split <;> exact .of_same rfl rfl rfl rfl

theorem relaxed_returnData (s : State) : s.bridge.Relaxed s.returnData.bridge := by
  unfold State.returnData
  split <;> exact .of_same rfl rfl rfl rfl

theorem relaxed_respond (s : State) : s.bridge.Relaxed s.respond.bridge := by
  unfold State.respond
  split
  · exact .refl _
  · dsimp only
    split_ifs <;> exact .of_same rfl rfl rfl rfl

theorem Bridge.RotationFrame.relaxed {br br' : Bridge} {i : RotId} (h : br.RotationFrame br' i) : br.Relaxed br' :=
  .of_same h.views h.solver.solverQueue h.solver.solver h.solver.inFlight

theorem relaxed_expireBoth (now : Stamp) (br : Bridge) : br.Relaxed (br.expireBoth now) :=
  (expireIfDue_frame now br .rota).relaxed.trans (expireIfDue_frame now _ .rotb).relaxed

/-- R73: the end of the arithmetic leaves the entry under solve as it is. -/
theorem relaxed_endArithmetic (br : Bridge) : br.Relaxed br.endArithmetic := by
  unfold Bridge.endArithmetic
  split
  case h_1 => exact .refl br
  case h_2 e r n hs =>
    exact
      { Bridge.Relaxed.refl br with
        solver := fun _ _ _ hb => by
          cases hb
          exact ⟨r, n, hs, id⟩ }

/-! ### Rows -/

section
variable (s t : State) (h : s.bridge.HoldLaw)
include h

theorem settle_holdLaw : s.settle.bridge.HoldLaw := settle_keeps Bridge.HoldLaw s (fun _ br' h => h.urgent s.env br') h

theorem settleTo_holdLaw (stop : Bridge → Bool) : (s.settleTo stop).bridge.HoldLaw :=
  settleTo_keeps Bridge.HoldLaw s stop (fun _ br' h => h.urgent s.env br') h

theorem offerRequest_holdLaw (r : Request) (ht : offerRequest r s = .next t) : t.bridge.HoldLaw := by
  obtain ⟨-, rfl⟩ := offerRequest_next s t r ht
  have hs := settle_holdLaw s h
  unfold State.offer
  dsimp only
  split
  · exact hs
  · split
    · exact hs.acceptRequest _ r
    · exact hs.relax (.of_same rfl rfl rfl rfl)

theorem takeRow_holdLaw (kind : CommandKind) (ht : takeRow kind (takeOf kind) s = .next t) : t.bridge.HoldLaw := by
  have hs := settleTo_holdLaw s h (takeDueOf kind)
  obtain ⟨hd, rfl⟩ | rfl := takeRow_cases kind _ s t ht
  · obtain ⟨hdue, hk⟩ := takeNext_of_dueOf _ _ hd
    have htaken := hs.takeOfDue s.env hdue
    rw [takeNext_eq_takeOf, hk] at htaken
    exact htaken
  · exact hs

theorem resetAssert_holdLaw (ht : execResetAssert s = .next t) : t.bridge.HoldLaw := by
  unfold execResetAssert at ht
  split at ht <;> cases ht
  · exact h
  · exact reset_holdLaw ..

theorem resetRelease_holdLaw (straps : Straps) (rota rotb : Bool) (ht : execResetRelease straps rota rotb s = .next t) :
    t.bridge.HoldLaw := by
  unfold execResetRelease at ht
  split at ht <;> cases ht
  · exact reset_holdLaw ..
  · exact h

theorem timestampTick_holdLaw (ht : execTimestampTick s = .next t) : t.bridge.HoldLaw := by
  unfold execTimestampTick at ht
  split at ht <;> cases ht
  · exact h
  · exact (settle_holdLaw s h).relax (relaxed_expireBoth ..)

theorem upstreamOperationIssue_holdLaw (ht : execUpstreamOperationIssue s = .next t) : t.bridge.HoldLaw := by
  unfold execUpstreamOperationIssue at ht
  split at ht <;> cases ht
  · exact (settle_holdLaw s h).relax (relaxed_issueUpstream _)
  · exact settle_holdLaw s h

theorem ownWriteIssue_holdLaw (ht : execOwnWriteIssue s = .next t) : t.bridge.HoldLaw := by
  unfold execOwnWriteIssue at ht
  split at ht <;> cases ht
  · exact (settle_holdLaw s h).relax (relaxed_issueOwn _)
  · exact settle_holdLaw s h

theorem rotationEdge_holdLaw (change : LevelChange) (ht : execRotationEdge change s = .next t) : t.bridge.HoldLaw := by
  unfold execRotationEdge at ht
  split at ht <;> cases ht
  · exact h
  · exact (settle_holdLaw s h).relax (rotationEdge_frame ..).relaxed

theorem solveCompletion_holdLaw (ht : execSolveCompletion s = .next t) : t.bridge.HoldLaw := by
  have hs := settleTo_holdLaw s h completionDue
  unfold execSolveCompletion at ht
  dsimp only at ht
  split at ht <;> cases ht
  · exact hs.completeSolve _
  · exact hs

end

theorem exec_holdLaw (c : Instr) (s t : State) (h : s.bridge.HoldLaw) (ht : exec c s = .next t) : t.bridge.HoldLaw := by
  have hring (kind : CommandKind) (hc : (c, kind) ∈ ringRows) : t.bridge.HoldLaw :=
    takeRow_holdLaw s t h kind ((exec_eq_takeRow c kind s hc).symm.trans ht)
  cases c with
  | resetAssert => exact resetAssert_holdLaw s t h ht
  | resetRelease straps rota rotb => exact resetRelease_holdLaw s t h straps rota rotb ht
  | memoryInitializationComplete => cases ht; exact h
  | timestampTick => exact timestampTick_holdLaw s t h ht
  | write w => exact offerRequest_holdLaw s t h _ ht
  | controlWrite w => exact offerRequest_holdLaw s t h _ ht
  | acknowledge w => exact offerRequest_holdLaw s t h _ ht
  | mask w => exact offerRequest_holdLaw s t h _ ht
  | reportOwnerWrite w => exact offerRequest_holdLaw s t h _ ht
  | read r => exact offerRequest_holdLaw s t h _ ht
  | presentationRead r => exact offerRequest_holdLaw s t h _ ht
  | upstreamOperationIssue => exact upstreamOperationIssue_holdLaw s t h ht
  | ownWriteIssue => exact ownWriteIssue_holdLaw s t h ht
  | operationDataReturn => cases ht; exact (settle_holdLaw s h).relax (relaxed_returnData _)
  | readResponse => cases ht; exact (settle_holdLaw s h).relax (relaxed_respond _)
  | configure => exact hring .configure (by simp [ringRows, viewRows])
  | track => exact hring .track (by simp [ringRows, viewRows])
  | park => exact hring .park (by simp [ringRows, viewRows])
  | release => exact hring .release (by simp [ringRows, viewRows])
  | releaseAll => exact hring .releaseAll (by simp [ringRows])
  | rebase => exact hring .rebase (by simp [ringRows, viewRows])
  | tune => exact hring .tune (by simp [ringRows, viewRows])
  | zero => exact hring .zero (by simp [ringRows])
  | edge => exact hring .edge (by simp [ringRows])
  | badCode => exact hring .badCode (by simp [ringRows])
  | solveStart => cases ht; exact (settleTo_holdLaw s h _).startSolve
  | solveArithmeticEnd => cases ht; exact (settle_holdLaw s h).relax (relaxed_endArithmetic _)
  | solveCompletion => exact solveCompletion_holdLaw s t h ht
  | rotationEdge change => exact rotationEdge_holdLaw s t h change ht
  | staleTimeout input => cases ht; exact (settle_holdLaw s h).relax (expireIfDue_frame ..).relaxed

/-- Settles O59, by the row at the front of the queue (`exec_holdLaw`), or urgent work where there is none. -/
theorem stepsKeepTheHoldLaw : Obligations.StepsKeepTheHoldLaw := by
  unfold Obligations.StepsKeepTheHoldLaw
  intro s t h ht
  unfold step at ht
  split at ht
  · cases ht
    exact settle_holdLaw s h
  · rename_i c rest _
    exact exec_holdLaw c { s with pending := rest } t h ht

end Sys2Proof.Machine
end

section
/-! PROOF. The presentation mapper (chapter 6): the adoption test of a display read, and the source lines and pixels within
the frame. -/

namespace Sys2Proof.Machine

open Laws

/-! ### Adoption (R120 to R123) -/

/-- R121, R122: the adoption points. -/
theorem adopts_iff (swap : SwapMode) (last : Option Nat) (line : Nat) :
    adopts swap last line = true ↔ (line = 0 ∧ last ≠ some 0) ∨ (swap = .line ∧ last ≠ some line) := by
  simp [adopts]

/-- R123: a display read at an adoption point. -/
theorem displayRead_of_adopts (vw : View) (line : Nat) (h : adopts vw.geometry.swap vw.scan.lastLine line = true) :
    vw.displayRead line =
      { vw with scan := ⟨some line, vw.ready.getLast?, vw.ready.getLast?.bind vw.slotOffsets⟩ } := by
  unfold View.displayRead
  rw [if_pos h]
  rfl

/-- R120: a display read at no adoption point. -/
theorem displayRead_of_not_adopts (vw : View) (line : Nat)
    (h : ¬ adopts vw.geometry.swap vw.scan.lastLine line = true) :
    vw.displayRead line = { vw with scan := { vw.scan with lastLine := some line } } := by
  unfold View.displayRead
  rw [if_neg h]

theorem displayRead_lastLine (vw : View) (line : Nat) : (vw.displayRead line).scan.lastLine = some line := rfl

/-- A display read of a view that has nothing to present and nothing to adopt (R123). -/
theorem displayRead_presented_of_none (vw : View) (line : Nat) (hpresented : vw.scan.presented = none)
    (hready : vw.ready = []) : (vw.displayRead line).scan.presented = none := by
  by_cases h : adopts vw.geometry.swap vw.scan.lastLine line = true
  · rw [displayRead_of_adopts vw line h, hready]
    rfl
  · rw [displayRead_of_not_adopts vw line h]
    exact hpresented

/-- Settles O25, by whether the line is an adoption point (`adopts_iff`). -/
theorem adoptionTakesTheTail : Obligations.AdoptionTakesTheTail := by
  unfold Obligations.AdoptionTakesTheTail
  intro vw line vt
  rw [← adopts_iff]
  by_cases h : adopts vw.geometry.swap vw.scan.lastLine line = true
  · have hvt : vt = _ := displayRead_of_adopts vw line h
    rw [hvt]
    exact ⟨rfl, fun _ => ⟨rfl, rfl⟩, fun hn => absurd h hn, rfl, rfl, rfl⟩
  · have hvt : vt = _ := displayRead_of_not_adopts vw line h
    rw [hvt]
    exact ⟨rfl, fun hy => absurd hy h, fun _ => ⟨rfl, rfl⟩, rfl, rfl, rfl⟩

/-! ### Source lines and pixels (R128 to R130) -/

/-- R128: a source coordinate is the exact sum where that is not negative. -/
theorem sourceCoordinate_of_eq (c margin y : Nat) (shift : Int) (h : (y : Int) = c + margin + shift) :
    sourceCoordinate c margin shift = y := by
  unfold sourceCoordinate
  omega

/-- R130: a shift within the margin keeps the sum from being negative. -/
theorem sourceCoordinate_of_within (c margin : Nat) (shift : Int) (h : within margin shift) :
    ((sourceCoordinate c margin shift : Nat) : Int) = c + margin + shift := by
  obtain ⟨hlo, -⟩ := h
  unfold sourceCoordinate
  omega

/-- R130: what lies inside the frame less both its margins is mapped into the frame. -/
theorem sourceCoordinate_lt (c margin size : Nat) (shift : Int) (h : within margin shift) (hc : c < size - 2 * margin) :
    sourceCoordinate c margin shift < size := by
  have heq := sourceCoordinate_of_within c margin shift h
  obtain ⟨-, hhi⟩ := h
  omega

/-- A shift by pairs within half a margin of pairs is a shift by pixels within the margin (R42, R129). -/
theorem within_two_mul (m : Nat) (a : Int) (h : within (m / 2) a) : within m (2 * a) := by
  obtain ⟨hlo, hhi⟩ := h
  exact ⟨by omega, by omega⟩

/-- Settles O26: offsets within the margins shift lines and pixels within them, and a picture byte's pixel lies in the
presentation width. -/
theorem pictureBytesStayInThePayload : Obligations.PictureBytesStayInThePayload := by
  unfold Obligations.PictureBytesStayInThePayload
  rintro vw o line b ⟨hoy, hox⟩ - - - hline hb
  have hshift := within_two_mul _ _ hox
  have hpixel : b / vw.geometry.bpp < vw.geometry.pw := Nat.div_lt_of_lt_mul (Nat.mul_comm .. ▸ hb)
  exact ⟨sourceCoordinate_lt _ _ _ _ hoy hline, sourceCoordinate_lt _ _ _ _ hshift hpixel,
    sourceCoordinate_of_within _ _ _ hoy, sourceCoordinate_of_within _ _ _ hshift⟩

end Sys2Proof.Machine
end

section
/-! PROOF. A read of the presentation window (R120, R124 to R133): what its acceptance makes of the machine, and the parts
of a beat of picture bytes, which is fill or one tile column of a slot. -/

namespace Sys2Proof.Machine

open Laws

/-! ### The acceptance (R131, R145) -/

/-- R149, R158: the read of a control piece changes the stream and the births alone. -/
theorem joinMixed_eq (br : Bridge) (q a place : Nat) (places : List (Option Byte)) :
    ∃ stream births, br.joinMixed q a place places = { br with stream := stream, births := births } := by
  unfold Bridge.joinMixed
  dsimp only
  split
  · exact ⟨_, _, rfl⟩
  · exact ⟨_, _, rfl⟩

/-- R158, R165: the read operations of a request change the stream and the births alone. -/
theorem joinReads_eq (br : Bridge) (q place : Nat) (ps : List Part) :
    ∃ stream births, br.joinReads q place ps = { br with stream := stream, births := births } := by
  induction ps generalizing br place with
  | nil => exact ⟨_, _, rfl⟩
  | cons p ps ih =>
    cases p with
    | fixed bytes => exact ih br _
    | fetch a count => exact ih (br.joinRead q a count place) _
    | mixed a places =>
      obtain ⟨_, _, hmixed⟩ := joinMixed_eq br q a place places
      obtain ⟨stream, births, hrest⟩ := ih (br.joinMixed q a place places) (place + places.length)
      refine ⟨stream, births, hrest.trans ?_⟩
      rw [hmixed]

/-- R165: the read of some bytes fetches the beats that hold them, and no more. -/
theorem joinRead_stream (br : Bridge) (q a count place : Nat) :
    ∃ op length skip, (br.joinRead q a count place).stream = br.stream ++ [op]
      ∧ op.kind = .read length skip count place ∧ op.address + skip = a ∧ op.address % 4 = 0 ∧ length % 4 = 0
      ∧ skip < 4 ∧ skip + count ≤ length ∧ length < skip + count + 4 :=
  ⟨_, _, _, rfl, rfl, by dsimp only; omega, by dsimp only; omega, by omega, by omega, by omega, by omega⟩

/-- The view after the scan test of a read (R120, R124). -/
def View.scanned (vw : View) (r : ReadRequest) : View := vw.scanRead r.tag r.address.toNat

/-- The parts that answer a read of the view's window (R132). -/
def View.readParts (vw : View) (r : ReadRequest) : List Part := (vw.scanned r).windowParts (readAddresses r)

/-- The bridge that has accepted a read of view `v`'s window. -/
def Bridge.windowRead (br : Bridge) (v : Fin 4) (r : ReadRequest) : Bridge :=
  let parts := (br.views.get v).readParts r
  (((br.takePlace true).modView v (·.scanned r)).openAssembly br.accepted (partPlaces parts)).joinReads br.accepted 0 parts

/-- R120, R131, R145: the acceptance of a read that lies whole in the window of view `v`. -/
theorem acceptRead_window (env : Env) (br : Bridge) (v : Fin 4) (r : ReadRequest) (hr : 1 ≤ r.beats)
    (h : ∀ n, n < 4 * r.beats → regionOf env.straps (windowMap env br) (r.address.toNat + n) = .window v) :
    acceptRead env br r = br.windowRead v r := by
  obtain ⟨rest, hrest⟩ := readAddresses_cons r hr
  have hscan : (br.takePlace true).scanPiece r.tag ⟨.window v, readAddresses r⟩
      = (br.takePlace true).modView v (·.scanned r) := by
    rw [hrest]
    rfl
  have hparts : ((br.takePlace true).modView v (·.scanned r)).pieceParts env ⟨.window v, readAddresses r⟩
      = (br.views.get v).readParts r := by
    have hview : ((br.takePlace true).modView v (·.scanned r)).views.get v = (br.views.get v).scanned r :=
      (modView_get ..).trans (if_pos rfl)
    unfold View.readParts
    rw [← hview, hrest]
    rfl
  rw [acceptRead_whole env br r (.window v) hr (by simp) h]
  dsimp only
  rw [hscan, hparts]
  rfl

/-- What a read of view `v`'s window makes of a bridge: an assembly record, the scan test of the view, and nothing besides
but the stream with its births and the request queue. -/
structure Bridge.WindowRead (br br' : Bridge) (v : Fin 4) (r : ReadRequest) : Prop where
  bridge : br' = { br with
    views := br'.views, requests := br'.requests, accepted := br'.accepted, stream := br'.stream, births := br'.births
    assemblies := br'.assemblies }
  view : br'.views.get v = (br.views.get v).scanned r
  others : br.OtherViews br' v
  assemblies : br'.assemblies = br.assemblies ++ [⟨br.accepted, partPlaces ((br.views.get v).readParts r), 0⟩]

theorem windowRead_spec (br : Bridge) (v : Fin 4) (r : ReadRequest) : br.WindowRead (br.windowRead v r) v r := by
  obtain ⟨stream, births, h⟩ := joinReads_eq
    (((br.takePlace true).modView v (·.scanned r)).openAssembly br.accepted (partPlaces ((br.views.get v).readParts r)))
    br.accepted 0 ((br.views.get v).readParts r)
  unfold Bridge.windowRead
  rw [h]
  exact
    { bridge := rfl
      view := (modView_get ..).trans (if_pos rfl)
      others := (Bridge.OtherViews.refl br v).modView _
      assemblies := rfl }

/-- R131: a read of the window offered to an open port. -/
theorem exec_presentationRead_window (s : State) (v : Fin 4) (r : ReadRequest) (hopen : s.open = true)
    (hw : r.wellFormed = true) (hr : 1 ≤ r.beats)
    (h : ∀ n, n < 4 * r.beats → regionOf s.env.straps (windowMap s.env s.bridge) (r.address.toNat + n) = .window v) :
    exec (.presentationRead r) s = .next { s with bridge := s.bridge.windowRead v r } :=
  acceptRead_window s.env s.bridge v r hr h ▸ offerRequest_of_open s (.read r) hw hopen

/-- A read of a window leaves alone what every request does, and the shadows. -/
theorem windowRead_frame (s : State) (v : Fin 4) (r : ReadRequest) :
    s.AcceptFrame { s with bridge := s.bridge.windowRead v r }
      ∧ s.ShadowsAgree { s with bridge := s.bridge.windowRead v r } := by
  have hbridge := (windowRead_spec s.bridge v r).bridge
  refine ⟨⟨rfl, rfl, rfl, rfl, ?_, ?_, ?_, ?_, ?_, ?_, ?_⟩, ⟨?_, ?_, ?_, ?_, ?_⟩⟩ <;> (dsimp only; rw [hbridge])

/-- R126: a read answered by fixed bytes places no operation. -/
theorem windowRead_stream_of_fixed (br : Bridge) (v : Fin 4) (r : ReadRequest) (bytes : List Byte)
    (h : (br.views.get v).readParts r = [.fixed bytes]) : (br.windowRead v r).stream = br.stream := by
  unfold Bridge.windowRead
  rw [h]
  rfl

/-- R133: a read answered by one run of DRAM bytes places one operation, which reads the beats that hold them. -/
theorem windowRead_stream_of_fetch (br : Bridge) (v : Fin 4) (r : ReadRequest) (a count : Nat)
    (h : (br.views.get v).readParts r = [.fetch a count]) :
    ∃ op length skip, (br.windowRead v r).stream = br.stream ++ [op] ∧ op.kind = .read length skip count 0
      ∧ op.address + skip = a ∧ op.address % 4 = 0 ∧ length % 4 = 0 ∧ skip < 4 ∧ skip + count ≤ length
      ∧ length < skip + count + 4 := by
  unfold Bridge.windowRead
  rw [h]
  exact joinRead_stream _ br.accepted a count 0

/-! ### A beat of picture bytes (R126 to R129, R132) -/

/-- The byte of its line that an address of the window is (R119). -/
def Geometry.windowByte (g : Geometry) (a : Nat) : Nat := (a - g.base) % g.pp

/-- The beat at address `a` of the window lies in the picture bytes of one line (R126). -/
structure Geometry.PictureBeat (g : Geometry) (a : Nat) : Prop where
  base : g.base ≤ a
  pitch : g.pw * g.bpp ≤ g.pp
  picture : g.windowByte a + 4 ≤ g.pw * g.bpp

/-- R119: the bytes of the beat lie side by side in the line of the first. -/
theorem Geometry.PictureBeat.coordinates {g : Geometry} {a : Nat} (h : g.PictureBeat a) {n : Nat} (hn : n < 4) :
    g.windowLine (a + n) = g.windowLine a ∧ g.windowByte (a + n) = g.windowByte a + n := by
  obtain ⟨hbase, hpitch, hpicture⟩ := h
  unfold Geometry.windowLine
  unfold Geometry.windowByte at hpicture ⊢
  have hlt : (a - g.base) % g.pp + n < g.pp := by omega
  have hsplit : a + n - g.base = g.pp * ((a - g.base) / g.pp) + ((a - g.base) % g.pp + n) := by
    have := Nat.div_add_mod (a - g.base) g.pp
    omega
  rw [hsplit, Nat.mul_add_div (by omega), Nat.mul_add_mod, Nat.div_eq_of_lt hlt, Nat.mod_eq_of_lt hlt]
  exact ⟨rfl, rfl⟩

/-- R132: addresses of one segment are answered by one part. -/
theorem windowParts_of_const (vw : View) (addrs : List Nat) (seg : Segment) (hne : addrs ≠ [])
    (h : ∀ a ∈ addrs, vw.segmentOf a = seg) : vw.windowParts addrs = [vw.segmentPart addrs] := by
  unfold View.windowParts
  rw [cutBy_const _ seg addrs hne h]
  rfl

/-- The addresses of a read of one beat. -/
theorem readAddresses_of_beat (r : ReadRequest) (hr : r.beats = 1) :
    readAddresses r = (List.range 4).map (r.address.toNat + ·) := by
  unfold readAddresses
  rw [hr]

/-- R132, R133: a read of one beat whose bytes lie in one segment is answered by that segment's part. -/
theorem readParts_of_beat (r : ReadRequest) (vw : View) (seg : Segment) (hr : r.beats = 1)
    (h : ∀ n, n < 4 → (vw.scanned r).segmentOf (r.address.toNat + n) = seg) :
    vw.readParts r = [(vw.scanned r).segmentPart ((List.range 4).map (r.address.toNat + ·))] := by
  unfold View.readParts
  rw [readAddresses_of_beat r hr]
  refine windowParts_of_const _ _ seg (by simp) fun a ha => ?_
  obtain ⟨n, hn, rfl⟩ := List.mem_map.1 ha
  exact h n (List.mem_range.1 hn)

/-- R126, R132: the segment of a picture byte. -/
theorem segmentOf_of_picture (vw : View) (a : Nat) (h : vw.geometry.windowByte a < vw.geometry.pw * vw.geometry.bpp) :
    vw.segmentOf a =
      if vw.scan.presented.isNone then .fill (vw.geometry.windowLine a)
      else .slotRead (vw.geometry.windowLine a)
        (sourceCoordinate (vw.geometry.windowByte a / vw.geometry.bpp) vw.geometry.mx (2 * vw.recordedOffsets.ox) / 64) :=
  if_neg (Nat.not_le.2 h)

/-- R127, R133: a segment of fill is answered by the fill bytes of its addresses. -/
theorem segmentPart_of_fill (vw : View) (a line : Nat) (rest : List Nat) (h : vw.segmentOf a = .fill line) :
    vw.segmentPart (a :: rest) =
      .fixed ((a :: rest).map (fun x => fillByte vw.geometry.format (vw.geometry.windowByte x))) := by
  unfold View.segmentPart
  dsimp only
  rw [h]
  rfl

/-- R133: a segment of a tile column is answered by a run of DRAM bytes from its first byte's address on. -/
theorem segmentPart_of_slotRead (vw : View) (a line column k : Nat) (rest : List Nat)
    (h : vw.segmentOf a = .slotRead line column) (hk : vw.scan.presented = some k) :
    vw.segmentPart (a :: rest) =
      .fetch (vw.pictureAddress k line (vw.geometry.windowByte a)) (a :: rest).length := by
  unfold View.segmentPart
  dsimp only
  rw [h, hk]
  rfl

/-! ### Fill (R124, R127) -/

theorem fillByte_eq (format : PixelFormat) (b : Nat) :
    fillByte format b = if format = .yc16 ∧ b % 2 = 1 then (0x80 : Byte) else 0x00 := by
  cases format with
  | y8 => rfl
  | yc16 =>
    unfold fillByte
    rcases Nat.mod_two_eq_zero_or_one b with hb | hb <;> simp [hb]

/-- R119, R127: the fill bytes of a beat of picture bytes. -/
theorem fillBytes_of_beat (g : Geometry) (a : Nat) (h : g.PictureBeat a) :
    ((List.range 4).map (a + ·)).map (fun x => fillByte g.format (g.windowByte x))
      = (List.range 4).map (fun n => fillByte g.format (g.windowByte a + n)) := by
  rw [List.map_map]
  exact List.map_congr_left fun n hn => congrArg (fillByte g.format) (h.coordinates (List.mem_range.1 hn)).2

/-- R120: the scan record is all that the test of a read changes, so the geometry stands. -/
theorem scanned_geometry (r : ReadRequest) (vw : View) : (vw.scanned r).geometry = vw.geometry := by
  obtain ⟨scan, hscan⟩ := scanRead_scan vw r.tag r.address.toNat
  unfold View.scanned
  rw [hscan]

/-- R120, R123, R124: the scan test of a view that has nothing to present and nothing to adopt. -/
theorem scanned_of_none (r : ReadRequest) (vw : View) (hpresented : vw.scan.presented = none) (hready : vw.ready = []) :
    (vw.scanned r).scan.presented = none
      ∧ (vw.scanned r).scan.lastLine =
          (if tagMatches r.tag vw.geometry.displayTag vw.geometry.displayMask
            then some (vw.geometry.windowLine r.address.toNat) else vw.scan.lastLine) := by
  unfold View.scanned View.scanRead
  split
  · exact ⟨displayRead_presented_of_none vw _ hpresented hready, displayRead_lastLine vw _⟩
  · exact ⟨hpresented, rfl⟩

/-- R124, R127: a read of one beat of picture bytes while nothing is presented after the scan test. -/
theorem readParts_of_fill (r : ReadRequest) (vw : View) (hr : r.beats = 1) (h : vw.geometry.PictureBeat r.address.toNat)
    (hpresented : (vw.scanned r).scan.presented = none) :
    vw.readParts r = [.fixed ((List.range 4).map (fun n =>
      fillByte vw.geometry.format (vw.geometry.windowByte r.address.toNat + n)))] := by
  have hgeometry := scanned_geometry r vw
  rw [← hgeometry] at h ⊢
  have hpicture := h.picture
  have hseg : ∀ n, n < 4 → (vw.scanned r).segmentOf (r.address.toNat + n)
      = .fill ((vw.scanned r).geometry.windowLine r.address.toNat) := by
    intro n hn
    obtain ⟨hline, hbyte⟩ := h.coordinates hn
    rw [segmentOf_of_picture _ _ (by omega), hpresented, hline]
    rfl
  rw [readParts_of_beat r vw _ hr hseg, ← fillBytes_of_beat _ _ h]
  exact congrArg (fun p => [p]) (segmentPart_of_fill _ _ _ _ (hseg 0 (by omega)))

/-- Settles O23, by the scan test (`scanned_of_none`) and the one part that answers the beat (`readParts_of_fill`). -/
theorem presentationReadGivesFill : Obligations.PresentationReadGivesFill := by
  unfold Obligations.PresentationReadGivesFill
  intro s r v hopen hw hr vw g o hregion hbase hpitch hpicture hpresented hready
  obtain ⟨hnone, hlast⟩ := scanned_of_none r vw hpresented hready
  have hparts := readParts_of_fill r vw hr ⟨hbase, hpitch, hpicture⟩ hnone
  have hread := windowRead_spec s.bridge v r
  obtain ⟨haccept, hshadows⟩ := windowRead_frame s v r
  obtain ⟨scan, hscan⟩ := scanRead_scan vw r.tag r.address.toNat
  have hview : (s.bridge.windowRead v r).views.get v = { vw with scan := scan } := hread.view.trans hscan
  refine ⟨_, _, exec_presentationRead_window s v r hopen hw (by omega) (by rwa [hr]),
    windowRead_stream_of_fixed _ _ _ _ hparts, hread.assemblies, ?_, ?_, ?_, ?_, ?_, haccept, hshadows, hread.others⟩
  · dsimp only
    rw [hparts]
    simp only [partPlaces, List.append_nil, List.map_map]
    exact List.map_congr_left fun n _ => congrArg some (fillByte_eq ..)
  · exact (congrArg (·.scan.presented) hread.view).trans hnone
  · exact (congrArg (·.scan.lastLine) hread.view).trans hlast
  · dsimp only
    rw [hview]
  · exact (congrArg View.ready hview).trans hready

/-! ### A beat of one tile column (R128, R129, R133) -/

theorem recordedOffsets_of_some (vw : View) (o : Offsets) (h : vw.scan.recorded = some o) : vw.recordedOffsets = o := by
  unfold View.recordedOffsets
  rw [h]
  rfl

/-- R128: the address of a picture byte in a slot, where the source line is `y` and the source pixel `x`. -/
theorem sourceAddress_of_eq (vw : View) (m line b y x : Nat) (o : Offsets)
    (hy : (y : Int) = line + vw.geometry.my + o.oy)
    (hx : (x : Int) = (b / vw.geometry.bpp : Nat) + vw.geometry.mx + 2 * o.ox) :
    vw.sourceAddress m o line b =
      vw.slotBase m + y * vw.geometry.sp + x * vw.geometry.bpp + b % vw.geometry.bpp := by
  unfold View.sourceAddress
  dsimp only
  rw [sourceCoordinate_of_eq _ _ _ _ hy, sourceCoordinate_of_eq _ _ _ _ hx]

/-- R129: the slot and the offsets that a decision map entry of slot `k` sends a picture byte to: `k` itself at the
recorded offsets, or the slot that is named at its stored offsets. -/
def View.SentTo (vw : View) (k : Nat) (o : Offsets) (e : MapEntry) (m : Nat) (om : Offsets) : Prop :=
  e = .live ∧ m = k ∧ om = o ∨ e = .held m ∧ vw.slotOffsets m = some om

/-- R128, R129: the address of a picture byte of slot `k` is that of the slot and offsets its entry sends it to. -/
theorem pictureAddress_of_sentTo (vw : View) (k line b y x m : Nat) (o om : Offsets) (ho : vw.scan.recorded = some o)
    (hy : (y : Int) = line + vw.geometry.my + o.oy)
    (hx : (x : Int) = (b / vw.geometry.bpp : Nat) + vw.geometry.mx + 2 * o.ox)
    (h : vw.SentTo k o (vw.entryAt k y x) m om) :
    vw.pictureAddress k line b = vw.sourceAddress m om line b := by
  unfold View.pictureAddress
  dsimp only
  rw [recordedOffsets_of_some vw o ho, sourceCoordinate_of_eq _ _ _ _ hy, sourceCoordinate_of_eq _ _ _ _ hx]
  obtain ⟨hlive, rfl, rfl⟩ | ⟨hheld, hoffsets⟩ := h
  · rw [hlive]
  · rw [hheld]
    dsimp only
    rw [hoffsets]
    rfl

/-- R129, R132: the source pixels of the bytes of a beat rise from the first, so they lie in one tile column where the
last does. -/
theorem tileColumn_const (b bpp mx x n : Nat) (shift : Int) (hn : n < 4) (hx : (x : Int) = (b / bpp : Nat) + mx + shift)
    (hcolumn : (x + ((b + 3) / bpp - b / bpp)) / 64 = x / 64) :
    sourceCoordinate ((b + n) / bpp) mx shift / 64 = x / 64 := by
  have hfirst : b / bpp ≤ (b + n) / bpp := Nat.div_le_div_right (by omega)
  have hlast : (b + n) / bpp ≤ (b + 3) / bpp := Nat.div_le_div_right (by omega)
  rw [sourceCoordinate_of_eq _ _ (x + ((b + n) / bpp - b / bpp)) _ (by omega)]
  omega

/-- R128, R132, R133: a read of one beat of picture bytes in one tile column of the slot presented after the scan test. -/
theorem readParts_of_tileColumn (r : ReadRequest) (vw : View) (k x : Nat) (o : Offsets) (hr : r.beats = 1)
    (h : vw.geometry.PictureBeat r.address.toNat) (hk : (vw.scanned r).scan.presented = some k)
    (ho : (vw.scanned r).scan.recorded = some o)
    (hx : (x : Int) = (vw.geometry.windowByte r.address.toNat / vw.geometry.bpp : Nat) + vw.geometry.mx + 2 * o.ox)
    (hcolumn : (x + ((vw.geometry.windowByte r.address.toNat + 3) / vw.geometry.bpp
      - vw.geometry.windowByte r.address.toNat / vw.geometry.bpp)) / 64 = x / 64) :
    vw.readParts r = [.fetch ((vw.scanned r).pictureAddress k (vw.geometry.windowLine r.address.toNat)
      (vw.geometry.windowByte r.address.toNat)) 4] := by
  have hgeometry := scanned_geometry r vw
  rw [← hgeometry] at h hx hcolumn ⊢
  have hpicture := h.picture
  have hseg : ∀ n, n < 4 → (vw.scanned r).segmentOf (r.address.toNat + n)
      = .slotRead ((vw.scanned r).geometry.windowLine r.address.toNat) (x / 64) := by
    intro n hn
    obtain ⟨hline, hbyte⟩ := h.coordinates hn
    rw [segmentOf_of_picture _ _ (by omega), hk, hline, hbyte, recordedOffsets_of_some _ o ho,
      tileColumn_const _ _ _ x n _ hn hx hcolumn]
    rfl
  rw [readParts_of_beat r vw _ hr hseg]
  exact congrArg (fun p => [p]) (segmentPart_of_slotRead _ _ _ _ k _ (hseg 0 (by omega)) hk)

/-- Settles O24: the beat is one run of DRAM bytes (`readParts_of_tileColumn`), at the address of the slot its map entry
sends it to (`pictureAddress_of_sentTo`, `sourceAddress_of_eq`). -/
theorem presentationReadMapsTiles : Obligations.PresentationReadMapsTiles := by
  unfold Obligations.PresentationReadMapsTiles
  intro s r v k y x m ym xm o om hopen hw hr g line b vw hregion hbase hpitch hpicture hk ho hy hx hcolumn hsent hym hxm
  have hgeometry : vw.geometry = g := scanned_geometry r _
  have haddress : vw.pictureAddress k line b = vw.slotBase m + ym * g.sp + xm * g.bpp + b % g.bpp := by
    rw [← hgeometry] at hy hx hym hxm ⊢
    exact (pictureAddress_of_sentTo vw k line b y x m o om ho hy hx hsent).trans
      (sourceAddress_of_eq vw m line b ym xm om hym hxm)
  have hparts := readParts_of_tileColumn r (s.bridge.views.get v) k x o hr ⟨hbase, hpitch, hpicture⟩ hk ho hx hcolumn
  have hread := windowRead_spec s.bridge v r
  obtain ⟨haccept, hshadows⟩ := windowRead_frame s v r
  obtain ⟨op, length, skip, hstream, hkind, hop, halign, hlength, hskip, hcovers, htight⟩ :=
    windowRead_stream_of_fetch _ _ _ _ _ hparts
  refine ⟨_, op, _, length, skip, exec_presentationRead_window s v r hopen hw (by omega) (by rwa [hr]), hstream, hkind,
    hop.trans haddress, halign, hlength, hskip, hcovers, htight, hread.assemblies, ?_, hread.view, hread.others, haccept,
    hshadows, ?_⟩
  · dsimp only
    rw [hparts]
    rfl
  · dsimp only
    rw [hread.bridge]
    exact ⟨rfl, rfl, rfl, rfl, rfl⟩

end Sys2Proof.Machine
end

section
/-! PROOF. Requests that no block of the bridge watches (R145, R147): their pieces lie in plain addresses or above the
capacity, and their acceptance changes the port's own records alone. -/

namespace Sys2Proof.Machine

open Laws

/-! ### What changes the port's own records alone -/

/-- From `br` to `br'` no more has changed than the request queue, the stream and the assembly records, with the numbers
they are given. -/
def Bridge.Through (br br' : Bridge) : Prop :=
  ∃ requests accepted stream births assemblies, br' =
    { br with requests := requests, accepted := accepted, stream := stream, births := births, assemblies := assemblies }

namespace Bridge.Through

theorem refl (br : Bridge) : br.Through br := ⟨_, _, _, _, _, rfl⟩

theorem trans {a b c : Bridge} (h : a.Through b) (g : b.Through c) : a.Through c := by
  obtain ⟨_, _, _, _, _, rfl⟩ := h
  obtain ⟨_, _, _, _, _, rfl⟩ := g
  exact ⟨_, _, _, _, _, rfl⟩

theorem foldl {α : Type} (f : Bridge → α → Bridge) (hf : ∀ (br : Bridge) x, br.Through (f br x)) (xs : List α) (br : Bridge) :
    br.Through (xs.foldl f br) := by
  induction xs generalizing br with
  | nil => exact .refl br
  | cons x xs ih => exact (hf br x).trans (ih _)

theorem outOfRange {br b : Bridge} (h : br.Through b) : b.outOfRange = br.outOfRange := by
  obtain ⟨_, _, _, _, _, rfl⟩ := h
  rfl

/-- What changes the port's own records alone, and OUT_OF_RANGE besides, leaves alone what a forwarded request does. -/
theorem passFrame {s : State} {b : Bridge} (h : s.bridge.Through b) (n : Count16) :
    s.PassFrame { s with bridge := { b with outOfRange := n } } := by
  obtain ⟨_, _, _, _, _, rfl⟩ := h
  exact ⟨⟨rfl, rfl, rfl, rfl, rfl, rfl, rfl, rfl, rfl, rfl, rfl⟩, rfl, rfl, rfl, rfl, rfl⟩

theorem shadowsAgree {s : State} {b : Bridge} (h : s.bridge.Through b) (n : Count16) :
    s.ShadowsAgree { s with bridge := { b with outOfRange := n } } := by
  obtain ⟨_, _, _, _, _, rfl⟩ := h
  exact ⟨rfl, rfl, rfl, rfl, rfl⟩

/-- The port's own records have no part in whether a take is due: at an open port none is (R180). -/
theorem takeDue_of_open {s : State} {b : Bridge} (h : s.bridge.Through b) (hopen : s.open = true) (n : Count16) :
    takeDue { b with outOfRange := n } = false := by
  obtain ⟨_, _, _, _, _, rfl⟩ := h
  exact Machine.takeDue_of_open s hopen _ rfl rfl rfl

end Bridge.Through

theorem through_takePlace (br : Bridge) (isRead : Bool) : br.Through (br.takePlace isRead) := ⟨_, _, _, _, _, rfl⟩

theorem through_freePlaces (br : Bridge) : br.Through br.freePlaces := ⟨_, _, _, _, _, rfl⟩

theorem through_joinStream (br : Bridge) (q a : Nat) (kind : OpKind) : br.Through (br.joinStream q a kind) :=
  ⟨_, _, _, _, _, rfl⟩

theorem through_openAssembly (br : Bridge) (q : Nat) (places : List (Option Byte)) :
    br.Through (br.openAssembly q places) := ⟨_, _, _, _, _, rfl⟩

theorem through_joinWritePiece (br : Bridge) (q : Nat) (p : WritePiece) : br.Through (br.joinWritePiece q p) := by
  unfold Bridge.joinWritePiece
  split
  · exact .refl br
  · exact .refl br
  · exact through_joinStream ..

theorem through_joinReads (br : Bridge) (q place : Nat) (ps : List Part) : br.Through (br.joinReads q place ps) := by
  obtain ⟨_, _, h⟩ := joinReads_eq br q place ps
  rw [h]
  exact ⟨_, _, _, _, _, rfl⟩

theorem through_forwardWrite (br : Bridge) (w : WriteRequest) : br.Through (br.forwardWrite w) :=
  (through_takePlace ..).trans (through_joinStream ..)

/-- An accepted read, once its scan tests are done: its assembly record and its operations. -/
theorem through_openRead (br : Bridge) (q : Nat) (parts : List Part) :
    br.Through ((br.openAssembly q (partPlaces parts)).joinReads q 0 parts) :=
  (through_openAssembly ..).trans (through_joinReads ..)

/-! ### OUT_OF_RANGE (R151) -/

theorem countOutOfRange_of_inactive (env : Env) (br : Bridge) (regions : List Region)
    (h : controlActive env.straps = false) : br.countOutOfRange env regions = br := by
  simp [Bridge.countOutOfRange, h]

/-- The bridge that has counted a request with an out-of-range piece, which it does while the control region is active. -/
def Bridge.countedOutside (br : Bridge) (env : Env) : Bridge :=
  { br with outOfRange := br.outOfRange + (if controlActive env.straps then 1 else 0) }

theorem countOutOfRange_of_outside (env : Env) (br : Bridge) :
    br.countOutOfRange env [.outOfRange] = br.countedOutside env := by
  unfold Bridge.countOutOfRange Bridge.countedOutside
  cases controlActive env.straps <;> simp

/-! ### Regions that no block watches (R145, R147) -/

/-- A piece in this region concerns neither the control unit nor the intake monitor nor the presentation mapper. -/
def Region.Unwatched (r : Region) : Prop := r = .plain ∨ r = .outOfRange

theorem watchPiece_of_unwatched (env : Env) (tag : Byte) (br : Bridge) (p : WritePiece) (first : Bool)
    (h : p.region.Unwatched) : br.watchPiece env tag p first = br := by
  unfold Bridge.watchPiece
  rcases h with h | h <;> rw [h]

theorem watchPieces_of_unwatched (env : Env) (tag : Byte) (br : Bridge) (taken : Bool) (ps : List WritePiece)
    (h : ∀ p ∈ ps, p.region.Unwatched) : br.watchPieces env tag taken ps = br := by
  induction ps generalizing taken with
  | nil => rfl
  | cons p ps ih =>
    have hp := h p (by simp)
    have hps (taken : Bool) := ih taken fun q hq => h q (by simp [hq])
    unfold Bridge.watchPieces
    split
    · rw [watchPiece_of_unwatched env tag br p _ hp, hps]
    · rw [watchPiece_of_unwatched env tag br p _ hp, hps]

theorem scanPiece_of_unwatched (tag : Byte) (br : Bridge) (p : ReadPiece) (h : p.region.Unwatched) :
    br.scanPiece tag p = br := by
  unfold Bridge.scanPiece
  rcases h with h | h <;> rw [h]

theorem answerPieces_of_unwatched (env : Env) (tag : Byte) (br : Bridge) (ps : List ReadPiece)
    (h : ∀ p ∈ ps, p.region.Unwatched) : (br.answerPieces env tag ps).1 = br := by
  induction ps with
  | nil => rfl
  | cons p ps ih =>
    unfold Bridge.answerPieces
    dsimp only
    rw [scanPiece_of_unwatched tag br p (h p (by simp))]
    exact ih fun q hq => h q (by simp [hq])

/-! ### Acceptance while the control region is inactive (R153) -/

/-- The acceptance of a write that no block watches and that is not counted is the port's own work. -/
theorem acceptWrite_of_unwatched (env : Env) (br : Bridge) (w : WriteRequest) (ha : controlActive env.straps = false)
    (h : ∀ p ∈ writePieces env.straps (windowMap env br) w, p.region.Unwatched) :
    ∃ b, br.Through b ∧ acceptWrite env br w = takeIfDue env b := by
  refine ⟨_, ?_, rfl⟩
  rw [watchPieces_of_unwatched _ _ _ _ _ h, countOutOfRange_of_inactive env _ _ ha]
  exact ((through_takePlace ..).trans (.foldl _ (fun br p => through_joinWritePiece br _ p) _ _)).trans
    (through_freePlaces _)

theorem acceptRead_of_unwatched (env : Env) (br : Bridge) (r : ReadRequest) (ha : controlActive env.straps = false)
    (h : ∀ p ∈ readPieces env.straps (windowMap env br) r, p.region.Unwatched) : br.Through (acceptRead env br r) := by
  unfold acceptRead
  dsimp only
  rw [answerPieces_of_unwatched _ _ _ _ h, countOutOfRange_of_inactive env _ _ ha]
  exact (through_takePlace ..).trans (through_openRead ..)

end Sys2Proof.Machine
end

section
/-! PROOF. Every step keeps a bridge silent whose control region is inactive, or whose RESETn is asserted (R153): its window
map is empty, so that no block watches a request, and no urgent work but acceptances is ever due. -/

namespace Sys2Proof.Machine

open Laws

/-- The control region is inactive, or RESETn is asserted (R153). -/
def Env.Inactive (env : Env) : Prop := controlActive env.straps = false ∨ env.resetAsserted = true

/-- A port that accepts is out of reset, so that the control region is what is inactive (R143). -/
theorem Env.Inactive.controlActive {env : Env} (h : env.Inactive) {br : Bridge} (hc : canAccept env br = true) :
    Machine.controlActive env.straps = false := by
  refine h.resolve_right fun hr => ?_
  simp [canAccept, hr] at hc

/-- A window map without ranges has plain addresses below the capacity, and no others (R147). -/
theorem regionOf_nil (straps : Straps) (a : Nat) : (regionOf straps [] a).Unwatched := by
  unfold regionOf
  split
  · exact .inr rfl
  · exact .inl rfl

theorem writePieces_nil_unwatched (straps : Straps) (w : WriteRequest) :
    ∀ p ∈ writePieces straps [] w, p.region.Unwatched := by
  intro p hp
  obtain ⟨g, -, rfl⟩ := List.mem_map.1 hp
  cases hg : g.head? with
  | none => exact .inl rfl
  | some c => exact regionOf_nil straps c.1

theorem readPieces_nil_unwatched (straps : Straps) (r : ReadRequest) :
    ∀ p ∈ readPieces straps [] r, p.region.Unwatched := by
  intro p hp
  obtain ⟨g, -, rfl⟩ := List.mem_map.1 hp
  cases hg : g.head? with
  | none => exact .inl rfl
  | some a => exact regionOf_nil straps a

namespace Bridge.Silent

variable {br : Bridge} (h : br.Silent)
include h

/-! ### What is never due -/

theorem windowMap_eq_nil (env : Env) (ha : controlActive env.straps = false) : windowMap env br = [] := by
  have hview (v : Fin 4) : br.viewRanges v = [] := by
    obtain ⟨hstate, -⟩ := h.views v
    exact if_pos hstate
  simp [windowMap, ha, hview]

theorem completionDue : completionDue br = false := by
  unfold Machine.completionDue
  rw [h.solver]

/-- R179: a command shadow of zeros holds no entry of the bridge. -/
theorem takeDue : takeDue br = false := by
  have hbyte : entryByte br.nextEntry 15 = 0 := by
    rw [entryByte_nextEntry br 15 (by omega), Bridge.shadowByte]
    cases hx : br.commandShadow[16 * br.nextIndex + 15]? with
    | none => rfl
    | some x => exact h.commandShadow x (List.mem_of_getElem? hx)
  have howner : ownerOf (entryByte br.nextEntry 15) = .software := by
    rw [hbyte]
    rfl
  simp [Machine.takeDue, howner]

theorem canStartSolve : canStartSolve br = false := by
  simp [Machine.canStartSolve, h.solverQueue]

theorem untouched (i : RotId) : (br.rot i).Untouched := by
  cases i with
  | rota => exact h.rota
  | rotb => exact h.rotb

theorem timedOut (now : Stamp) (i : RotId) : (br.rot i).timedOut now = false := by
  obtain ⟨-, -, -, htimes⟩ := h.untouched i
  simp [RotInput.timedOut, htimes]

/-! ### Work that keeps silence -/

theorem through {b : Bridge} (hb : br.Through b) : b.Silent := by
  obtain ⟨_, _, _, _, _, rfl⟩ := hb
  exact { h with }

theorem offered (waiting : List Request) : ({ br with busWait := waiting } : Bridge).Silent := { h with }

theorem acceptRequest (env : Env) (ha : controlActive env.straps = false) (r : Request) :
    (acceptRequest env br r).Silent := by
  have hmap := h.windowMap_eq_nil env ha
  cases r with
  | write w =>
    obtain ⟨b, hb, haccept⟩ := acceptWrite_of_unwatched env br w ha (by
      rw [hmap]
      exact writePieces_nil_unwatched env.straps w)
    change (acceptWrite env br w).Silent
    rw [haccept, takeIfDue_of_not_due env b (h.through hb).takeDue]
    exact h.through hb
  | read r =>
    exact h.through (acceptRead_of_unwatched env br r ha (by
      rw [hmap]
      exact readPieces_nil_unwatched env.straps r))

theorem acceptWaiting (env : Env) (ha : controlActive env.straps = false) : (acceptWaiting env br).Silent := by
  unfold Machine.acceptWaiting
  split
  case h_1 => exact h
  case h_2 r rest _ => exact (h.offered rest).acceptRequest env ha r

/-- A level that changes is no edge of an input whose mode is NONE (R56). -/
theorem rotationEdge (now : Stamp) (change : LevelChange) : (br.rotationEdge now change).Silent := by
  obtain ⟨input, tsref⟩ := change
  obtain ⟨hmode, -⟩ := h.untouched input
  rw [rotationEdge_of_unselected now br input tsref (by simp [hmode, EdgeMode.selects])]
  cases input with
  | rota => exact { h with rota := h.rota }
  | rotb => exact { h with rotb := h.rotb }

theorem startSolve : br.startSolve.Silent := by
  unfold Bridge.startSolve
  rw [h.canStartSolve]
  exact h

theorem endArithmetic : br.endArithmetic.Silent := by
  unfold Bridge.endArithmetic
  rw [h.solver]
  exact h

theorem expireIfDue (now : Stamp) (i : RotId) : (br.expireIfDue now i).Silent := by
  rw [expireIfDue_of_not_due now br i (h.timedOut now i)]
  exact h

end Bridge.Silent

/-! ### Urgent work -/

/-- The one urgent work of a silent bridge is the acceptance of a request, and that only out of reset. -/
theorem urgent_silent {env : Env} (hi : env.Inactive) (br br' : Bridge) (h : br.Silent) (hu : urgent env br = some br') :
    br'.Silent :=
  urgent_keeps Bridge.Silent env
    (fun _ h hdue => (Bool.false_ne_true (h.completionDue.symm.trans hdue)).elim)
    (fun _ h hdue => (Bool.false_ne_true (h.takeDue.symm.trans hdue)).elim)
    (fun _ h hdue => h.acceptWaiting env (hi.controlActive (Bool.and_eq_true_iff.1 hdue).2)) br br' h hu

theorem settle_silent (s : State) (h : s.SilentWhenInactive) (hi : s.env.Inactive) : s.settle.bridge.Silent :=
  settle_keeps Bridge.Silent s (urgent_silent hi) (h hi)

theorem settleTo_silent (s : State) (h : s.SilentWhenInactive) (stop : Bridge → Bool) (hi : s.env.Inactive) :
    (s.settleTo stop).bridge.Silent :=
  settleTo_keeps Bridge.Silent s stop (urgent_silent hi) (h hi)

/-! ### The sequencer -/

theorem issueUpstream_silent {s : State} (h : s.bridge.Silent) : s.issueUpstream.bridge.Silent := by
  unfold State.issueUpstream
  split
  case h_1 => exact h
  case h_2 op rest _ =>
    have hissued : ({ s.bridge with stream := rest, ownWrites := s.bridge.ownWrites.map OwnWrite.pass } : Bridge).Silent :=
      { h with ownWrites := by rw [h.ownWrites]; rfl }
    exact hissued.through (through_freePlaces _)

theorem issueOwn_of_none {s : State} (h : s.bridge.ownWrites = []) : s.issueOwn = s := by
  unfold State.issueOwn
  rw [h]

theorem through_returnData (s : State) : s.bridge.Through s.returnData.bridge := by
  unfold State.returnData
  split <;> exact ⟨_, _, _, _, _, rfl⟩

theorem through_respond (s : State) : s.bridge.Through s.respond.bridge := by
  unfold State.respond
  split
  · exact .refl _
  · dsimp only
    split_ifs <;> exact ⟨_, _, _, _, _, rfl⟩

/-! ### Rows -/

section
variable (s t : State) (h : s.SilentWhenInactive)
include h

theorem offerRequest_silent (r : Request) (ht : offerRequest r s = .next t) : t.SilentWhenInactive := by
  obtain ⟨-, rfl⟩ := offerRequest_next s t r ht
  obtain ⟨henv, -⟩ := offer_frame s r
  intro hi
  rw [henv] at hi
  have hs := settle_silent s h hi
  unfold State.offer
  dsimp only
  split
  · exact hs
  · split
    case isTrue haccept => exact hs.acceptRequest _ (Env.Inactive.controlActive hi (Bool.and_eq_true_iff.1 haccept).2) r
    case isFalse => exact hs.offered _

/-- No take is ever due, so a ring row is urgent work alone. -/
theorem takeRow_silent (kind : CommandKind) (take : Env → Bridge → Bridge) (ht : takeRow kind take s = .next t) :
    t.SilentWhenInactive := by
  obtain ⟨hdue, rfl⟩ | rfl := takeRow_cases kind take s t ht
  · intro hi
    have hnot := (settleTo_silent s h (takeDueOf kind) hi).takeDue
    exact (Bool.false_ne_true (hnot.symm.trans (takeNext_of_dueOf _ _ hdue).1)).elim
  · exact settleTo_silent s h _

theorem resetAssert_silent (ht : execResetAssert s = .next t) : t.SilentWhenInactive := by
  unfold execResetAssert at ht
  split at ht <;> cases ht
  · exact h
  · exact fun _ => reset_silent ..

theorem resetRelease_silent (straps : Straps) (rota rotb : Bool) (ht : execResetRelease straps rota rotb s = .next t) :
    t.SilentWhenInactive := by
  unfold execResetRelease at ht
  split at ht <;> cases ht
  · exact fun _ => reset_silent ..
  · exact h

theorem timestampTick_silent (ht : execTimestampTick s = .next t) : t.SilentWhenInactive := by
  unfold execTimestampTick at ht
  split at ht <;> cases ht
  · exact h
  · exact fun hi => ((settle_silent s h hi).expireIfDue _ .rota).expireIfDue _ .rotb

theorem upstreamOperationIssue_silent (ht : execUpstreamOperationIssue s = .next t) : t.SilentWhenInactive := by
  have henv : s.settle.issueUpstream.env = s.env := by
    unfold State.issueUpstream
    split <;> rfl
  unfold execUpstreamOperationIssue at ht
  split at ht <;> cases ht
  · intro hi
    rw [henv] at hi
    exact issueUpstream_silent (settle_silent s h hi)
  · exact settle_silent s h

theorem ownWriteIssue_silent (ht : execOwnWriteIssue s = .next t) : t.SilentWhenInactive := by
  have henv : s.settle.issueOwn.env = s.env := by
    unfold State.issueOwn
    split <;> rfl
  unfold execOwnWriteIssue at ht
  split at ht <;> cases ht
  · intro hi
    rw [henv] at hi
    have hs := settle_silent s h hi
    rw [issueOwn_of_none hs.ownWrites]
    exact hs
  · exact settle_silent s h

theorem returnData_silent : s.settle.returnData.SilentWhenInactive := by
  have henv : s.settle.returnData.env = s.env := by
    unfold State.returnData
    split <;> rfl
  intro hi
  rw [henv] at hi
  exact (settle_silent s h hi).through (through_returnData _)

theorem respond_silent : s.settle.respond.SilentWhenInactive := by
  have henv : s.settle.respond.env = s.env := by
    unfold State.respond
    split
    · rfl
    · dsimp only
      split_ifs <;> rfl
  intro hi
  rw [henv] at hi
  exact (settle_silent s h hi).through (through_respond _)

theorem rotationEdge_silent (change : LevelChange) (ht : execRotationEdge change s = .next t) : t.SilentWhenInactive := by
  unfold execRotationEdge at ht
  split at ht <;> cases ht
  · exact h
  · exact fun hi => (settle_silent s h hi).rotationEdge _ change

/-- No solve is ever in progress, so no completion is due. -/
theorem solveCompletion_silent (ht : execSolveCompletion s = .next t) : t.SilentWhenInactive := by
  unfold execSolveCompletion at ht
  dsimp only at ht
  split at ht <;> cases ht
  case isTrue hdue =>
    intro hi
    have hnot := (settleTo_silent s h completionDue hi).completionDue
    exact (Bool.false_ne_true (hnot.symm.trans hdue)).elim
  case isFalse => exact settleTo_silent s h _

end

theorem exec_silent (c : Instr) (s t : State) (h : s.SilentWhenInactive) (ht : exec c s = .next t) :
    t.SilentWhenInactive := by
  have hring (kind : CommandKind) (hc : (c, kind) ∈ ringRows) : t.SilentWhenInactive :=
    takeRow_silent s t h kind _ ((exec_eq_takeRow c kind s hc).symm.trans ht)
  cases c with
  | resetAssert => exact resetAssert_silent s t h ht
  | resetRelease straps rota rotb => exact resetRelease_silent s t h straps rota rotb ht
  | memoryInitializationComplete => cases ht; exact h
  | timestampTick => exact timestampTick_silent s t h ht
  | write w => exact offerRequest_silent s t h _ ht
  | controlWrite w => exact offerRequest_silent s t h _ ht
  | acknowledge w => exact offerRequest_silent s t h _ ht
  | mask w => exact offerRequest_silent s t h _ ht
  | reportOwnerWrite w => exact offerRequest_silent s t h _ ht
  | read r => exact offerRequest_silent s t h _ ht
  | presentationRead r => exact offerRequest_silent s t h _ ht
  | upstreamOperationIssue => exact upstreamOperationIssue_silent s t h ht
  | ownWriteIssue => exact ownWriteIssue_silent s t h ht
  | operationDataReturn => cases ht; exact returnData_silent s h
  | readResponse => cases ht; exact respond_silent s h
  | configure => exact hring .configure (by simp [ringRows, viewRows])
  | track => exact hring .track (by simp [ringRows, viewRows])
  | park => exact hring .park (by simp [ringRows, viewRows])
  | release => exact hring .release (by simp [ringRows, viewRows])
  | releaseAll => exact hring .releaseAll (by simp [ringRows])
  | rebase => exact hring .rebase (by simp [ringRows, viewRows])
  | tune => exact hring .tune (by simp [ringRows, viewRows])
  | zero => exact hring .zero (by simp [ringRows])
  | edge => exact hring .edge (by simp [ringRows])
  | badCode => exact hring .badCode (by simp [ringRows])
  | solveStart => cases ht; exact fun hi => (settleTo_silent s h _ hi).startSolve
  | solveArithmeticEnd => cases ht; exact fun hi => (settle_silent s h hi).endArithmetic
  | solveCompletion => exact solveCompletion_silent s t h ht
  | rotationEdge change => exact rotationEdge_silent s t h change ht
  | staleTimeout input => cases ht; exact fun hi => (settle_silent s h hi).expireIfDue _ input

/-- Settles O60, by the row at the front of the queue (`exec_silent`), or urgent work where there is none. -/
theorem stepsKeepAnInactiveBridgeSilent : Obligations.StepsKeepAnInactiveBridgeSilent := by
  unfold Obligations.StepsKeepAnInactiveBridgeSilent
  intro s t h ht
  unfold step at ht
  split at ht
  · cases ht
    exact settle_silent s h
  · rename_i c rest _
    exact exec_silent c { s with pending := rest } t h ht

end Sys2Proof.Machine
end

section
/-! PROOF. The port is closed and opened (R143, R154, R168): the assertion of RESETn, the end of memory initialization, and a
request that the port does not take. -/

namespace Sys2Proof.Machine

open Laws

/-! ### The assertion of RESETn (R154, R168, R169) -/

/-- R168: DRAM keeps every byte but those of the operation being performed. -/
theorem readByte_assertReset (d : Dram) (a : Nat)
    (h : ∀ p, d.performing = some p → 0 < p.left → ¬ (p.address ≤ a ∧ a < p.address + p.length)) :
    Memory.readByte d.assertReset.cells a = Memory.readByte d.cells a := by
  cases hp : d.beingPerformed with
  | none => rw [assertReset_cells_of_none d hp]
  | some p =>
    obtain ⟨hperforming, hleft⟩ := (beingPerformed_iff d p).1 hp
    have hcells : d.assertReset.cells = Memory.tear d.cells d.freeCount p.address p.length := by
      simp only [Dram.assertReset, hp]
    rw [hcells, readByte_tear _ _ _ _ _ (h p hperforming hleft)]

/-- The machine after the assertion of RESETn. -/
def State.assertReset (s : State) : State :=
  { s with
    env := { s.env with resetAsserted := true, initializing := false, timestamp := 0 }
    bridge := Bridge.reset s.bridge.rota.level s.bridge.rotb.level
    dram := s.dram.assertReset
    readData := [] }

theorem exec_resetAssert (s : State) (h : s.env.resetAsserted = false) : exec .resetAssert s = .next s.assertReset := by
  change execResetAssert s = _
  unfold execResetAssert
  rw [if_neg (by simp [h])]
  rfl

theorem canAccept_of_resetAsserted (env : Env) (br : Bridge) (h : env.resetAsserted = true) : canAccept env br = false := by
  simp [canAccept, h]

/-- R175: with no event pending ATTN is deasserted, whatever the mask. -/
theorem attn_of_no_event (br : Bridge) (h : br.events = 0) : br.attn = false := by
  simp [Bridge.attn, h]

/-- Settles O4: the bridge has its reset values, and DRAM its bytes (`readByte_assertReset`). -/
theorem resetAssertClearsTheBridge : Obligations.ResetAssertClearsTheBridge := by
  unfold Obligations.ResetAssertClearsTheBridge
  intro s hs
  refine ⟨_, exec_resetAssert s hs, rfl, rfl, rfl, attn_of_no_event _ rfl, canAccept_of_resetAsserted _ _ rfl, rfl,
    rfl, rfl, rfl, rfl, rfl, rfl, fun v => ?_, fun a ha => readByte_assertReset s.dram a ha⟩
  exact congrArg View.state (reset_views_get _ _ v)

/-! ### The end of memory initialization (R143, R168) -/

/-- R143: the port takes a request out of reset and initialization, with a free request place and four free places for own
writes. -/
theorem canAccept_iff (env : Env) (br : Bridge) :
    canAccept env br = true ↔ env.resetAsserted = false ∧ env.initializing = false ∧ br.requests.length < 8
      ∧ br.ownWrites.length ≤ 12 := by
  have hfree : 4 ≤ br.ownFree ↔ br.ownWrites.length ≤ 12 := by
    unfold Bridge.ownFree Config.ownPlaces
    omega
  have hplaces : br.requests.length < Config.requestPlaces ↔ br.requests.length < 8 := Iff.rfl
  simp only [canAccept, hfree, hplaces, Bool.and_eq_true, Bool.not_eq_true', decide_eq_true_eq, and_assoc]

/-- Settles O6: of the conditions of the port (`canAccept_iff`) the row establishes the one about initialization. -/
theorem initializationOpensThePort : Obligations.InitializationOpensThePort := by
  unfold Obligations.InitializationOpensThePort
  intro s
  exact ⟨_, rfl, rfl, rfl, rfl, rfl, rfl, fun hreset hrequests hown =>
    (canAccept_iff _ _).2 ⟨hreset, rfl, hrequests, hown⟩⟩

/-! ### A request that is not taken (R142, R143) -/

/-- R147: every bus row offers the request it carries, whatever its name (log 4). -/
theorem exec_busRow (r : Request) (c : Instr) (s : State)
    (h : (∃ w, r = .write w ∧ (c = .write w ∨ c = .controlWrite w ∨ c = .acknowledge w ∨ c = .mask w
        ∨ c = .reportOwnerWrite w)) ∨ ∃ q, r = .read q ∧ (c = .read q ∨ c = .presentationRead q)) :
    exec c s = offerRequest r s := by
  rcases h with ⟨w, rfl, rfl | rfl | rfl | rfl | rfl⟩ | ⟨q, rfl, rfl | rfl⟩ <;> rfl

/-- R143: a request that the port cannot take waits on the bus. -/
theorem offer_of_closed (s : State) (r : Request) (hq : s.quiet = true) (hreset : s.env.resetAsserted = false)
    (hclosed : canAccept s.env s.bridge = false) :
    s.offer r = { s with bridge := { s.bridge with busWait := s.bridge.busWait ++ [r] } } := by
  unfold State.offer
  dsimp only
  rw [settle_of_quiet s hq, if_neg (by simp [hreset]), if_neg (by simp [hclosed])]

/-- Settles O8, by the offer that each bus row is (`exec_busRow`). -/
theorem requestsNotTakenStopOrWait : Obligations.RequestsNotTakenStopOrWait := by
  unfold Obligations.RequestsNotTakenStopOrWait
  intro s r c hc
  rw [exec_busRow r c s hc]
  refine ⟨offerRequest_malformed s r, fun hw hq hreset hclosed => ?_⟩
  unfold offerRequest
  rw [if_pos hw, offer_of_closed s r hq hreset hclosed]

end Sys2Proof.Machine
end

section
/-! PROOF. Requests that pass through (R148, R149, R151): a write or read of plain addresses becomes one operation, and one
wholly above the capacity none. -/

namespace Sys2Proof.Machine

open Laws

/-! ### Requests of the bus (R142) -/

theorem bytes_ne_nil_of_wellFormed {w : WriteRequest} (h : w.wellFormed = true) : w.bytes ≠ [] := by
  intro hnil
  simp [WriteRequest.wellFormed, hnil] at h

theorem readRequest_wellFormed_iff (r : ReadRequest) :
    r.wellFormed = true ↔ r.address.toNat % 4 = 0 ∧ 1 ≤ r.beats ∧ r.beats ≤ 64 := by
  simp [ReadRequest.wellFormed, and_assoc]

/-- A read offered to an open port, and what its acceptance makes of the bridge. -/
theorem exec_read_of_open (s : State) (r : ReadRequest) (hw : r.wellFormed = true) (hopen : s.open = true) (br : Bridge)
    (h : acceptRead s.env s.bridge r = br) : exec (.read r) s = .next { s with bridge := br } :=
  h ▸ offerRequest_of_open s (.read r) hw hopen

@[simp] theorem readAddresses_length (r : ReadRequest) : (readAddresses r).length = 4 * r.beats := by
  simp [readAddresses]

/-! ### Plain addresses (R148, R149) -/

/-- R148: a write to plain addresses is forwarded, and no block watches it. -/
theorem acceptWrite_plain (s : State) (w : WriteRequest) (hopen : s.open = true) (hw : w.bytes ≠ [])
    (h : ∀ n, n < w.bytes.length → regionOf s.env.straps (windowMap s.env s.bridge) (w.address.toNat + n) = .plain) :
    acceptWrite s.env s.bridge w = (s.bridge.forwardWrite w).freePlaces := by
  have hthrough := (through_forwardWrite s.bridge w).trans (through_freePlaces _)
  have hwatch := watchPieces_of_unwatched s.env w.tag (s.bridge.forwardWrite w) false
    [{ region := .plain, cells := writeCells w }] (fun p hp => .inl (by rw [List.mem_singleton.1 hp]))
  rw [acceptWrite_whole s.env s.bridge w .plain hw (by simp) h, ← Bridge.forwardWrite, hwatch]
  exact takeIfDue_of_not_due _ _ (hthrough.takeDue_of_open hopen _)

/-- Settles O9: the write is forwarded (`acceptWrite_plain`), which changes the port's own records alone. -/
theorem plainWriteIsForwarded : Obligations.PlainWriteIsForwarded := by
  unfold Obligations.PlainWriteIsForwarded
  intro s w hopen hw hplain
  have hne := bytes_ne_nil_of_wellFormed hw
  have hthrough := (through_forwardWrite s.bridge w).trans (through_freePlaces _)
  exact ⟨_, _, exec_write_of_open s w hw hopen _ (acceptWrite_plain s w hopen hne hplain), rfl, rfl, rfl, rfl, rfl,
    hthrough.passFrame _, hthrough.shadowsAgree _, rfl, rfl, rfl⟩

/-- R149, R165: a read of plain addresses opens a record without a filled place and has one operation. -/
theorem acceptRead_plain (env : Env) (br : Bridge) (r : ReadRequest) (hr : 1 ≤ r.beats)
    (h : ∀ n, n < 4 * r.beats → regionOf env.straps (windowMap env br) (r.address.toNat + n) = .plain) :
    acceptRead env br r = ((br.takePlace true).openAssembly br.accepted (List.replicate (4 * r.beats) none)).joinRead
      br.accepted r.address.toNat (4 * r.beats) 0 := by
  obtain ⟨rest, hrest⟩ := readAddresses_cons r hr
  have hparts : (br.takePlace true).pieceParts env ⟨.plain, readAddresses r⟩ = [.fetch r.address.toNat (4 * r.beats)] := by
    rw [← readAddresses_length r, hrest]
    rfl
  have hscan := scanPiece_of_unwatched r.tag (br.takePlace true) ⟨.plain, readAddresses r⟩ (.inl rfl)
  rw [acceptRead_whole env br r .plain hr (by simp) h]
  dsimp only
  rw [hscan, hparts]
  simp only [partPlaces, Bridge.joinReads, List.append_nil]

/-- R158: a read of whole beats fetches these and no other byte. -/
theorem joinRead_of_beats (br : Bridge) (q a count place : Nat) (ha : a % 4 = 0) (hcount : count % 4 = 0) :
    br.joinRead q a count place = br.joinStream q a (.read count 0 count place) := by
  have hstart : a / 4 * 4 = a := by omega
  have hstop : (a + count + 3) / 4 * 4 = a + count := by omega
  unfold Bridge.joinRead
  simp only [hstart, hstop, Nat.add_sub_cancel_left, Nat.sub_self]

/-- Settles O10: the record and the one operation of the read (`acceptRead_plain`), whose beats are its own
(`joinRead_of_beats`). -/
theorem plainReadPassesThrough : Obligations.PlainReadPassesThrough := by
  unfold Obligations.PlainReadPassesThrough
  intro s r hopen hw hplain
  obtain ⟨halign, hbeats, -⟩ := (readRequest_wellFormed_iff r).1 hw
  have haccept := acceptRead_plain s.env s.bridge r hbeats hplain
  rw [joinRead_of_beats _ _ _ _ _ halign (by omega)] at haccept
  have hthrough := ((through_takePlace s.bridge true).trans
    (through_openAssembly _ s.bridge.accepted (List.replicate (4 * r.beats) none))).trans
    (through_joinStream _ s.bridge.accepted r.address.toNat (.read (4 * r.beats) 0 (4 * r.beats) 0))
  exact ⟨_, _, exec_read_of_open s r hw hopen _ haccept, rfl, rfl, rfl, rfl, rfl, rfl, rfl, hthrough.passFrame _,
    hthrough.shadowsAgree _, rfl⟩

/-! ### Above the capacity (R151) -/

theorem regionOf_of_capacity_le (straps : Straps) (ranges : List MapRange) {a : Nat} (h : capacity straps ≤ a) :
    regionOf straps ranges a = .outOfRange := if_pos h

/-- R151: a write wholly above the capacity takes its place, is counted, and is gone. -/
theorem acceptWrite_outside (s : State) (w : WriteRequest) (hopen : s.open = true) (hw : w.bytes ≠ [])
    (h : capacity s.env.straps ≤ w.address.toNat) :
    acceptWrite s.env s.bridge w = ((s.bridge.takePlace false).countedOutside s.env).freePlaces := by
  have hpieces := writePieces_single s.env.straps (windowMap s.env s.bridge) w .outOfRange hw
    (fun n _ => regionOf_of_capacity_le _ _ (by omega))
  have hwatch := watchPieces_of_unwatched s.env w.tag ((s.bridge.takePlace false).countedOutside s.env) false
    [{ region := .outOfRange, cells := writeCells w }] (fun p hp => .inr (by rw [List.mem_singleton.1 hp]))
  have hdue : takeDue ((s.bridge.takePlace false).countedOutside s.env).freePlaces = false :=
    takeDue_of_open s hopen _ rfl rfl rfl
  unfold acceptWrite
  dsimp only
  rw [hpieces, List.map_singleton, countOutOfRange_of_outside]
  exact (congrArg (fun b => takeIfDue s.env (Bridge.freePlaces b)) hwatch).trans (takeIfDue_of_not_due _ _ hdue)

/-- R151: a read wholly above the capacity takes its place, is counted, and its record is filled with zeros. -/
theorem acceptRead_outside (env : Env) (br : Bridge) (r : ReadRequest) (hr : 1 ≤ r.beats)
    (h : capacity env.straps ≤ r.address.toNat) :
    acceptRead env br r =
      ((br.takePlace true).countedOutside env).openAssembly br.accepted (List.replicate (4 * r.beats) (some 0)) := by
  obtain ⟨rest, hrest⟩ := readAddresses_cons r hr
  have hpieces := readPieces_single env.straps (windowMap env br) r .outOfRange hr
    (fun n _ => regionOf_of_capacity_le _ _ (by omega))
  have hparts (b : Bridge) : b.answerPieces env r.tag [⟨.outOfRange, readAddresses r⟩] =
      (b, [.fixed (List.replicate (4 * r.beats) 0)]) := by
    rw [← readAddresses_length r, ← List.map_const', hrest]
    rfl
  unfold acceptRead
  dsimp only
  rw [hpieces, List.map_singleton, countOutOfRange_of_outside, hparts]
  simp only [partPlaces, Bridge.joinReads, List.append_nil, List.map_replicate]

/-- Settles O11: the request is counted, and discarded (`acceptWrite_outside`) or answered with zeros
(`acceptRead_outside`). -/
theorem outOfRangeRequestsReachNoDram : Obligations.OutOfRangeRequestsReachNoDram := by
  unfold Obligations.OutOfRangeRequestsReachNoDram
  refine ⟨fun s w hopen hw houtside => ?_, fun s r hopen hw houtside => ?_⟩
  · have hthrough := (through_takePlace s.bridge false).trans (through_freePlaces _)
    exact ⟨_, exec_write_of_open s w hw hopen _ (acceptWrite_outside s w hopen (bytes_ne_nil_of_wellFormed hw) houtside),
      rfl, rfl, hthrough.passFrame _, hthrough.shadowsAgree _, rfl⟩
  · obtain ⟨-, hbeats, -⟩ := (readRequest_wellFormed_iff r).1 hw
    have hthrough := (through_takePlace s.bridge true).trans
      (through_openAssembly _ s.bridge.accepted (List.replicate (4 * r.beats) (some 0)))
    exact ⟨_, exec_read_of_open s r hw hopen _ (acceptRead_outside s.env s.bridge r hbeats houtside), rfl, rfl, rfl,
      hthrough.passFrame _, hthrough.shadowsAgree _⟩

end Sys2Proof.Machine
end

section
/-! PROOF. A read of the control region (R149, R158, R171): its served bytes are filled at the acceptance, and one read
operation brings the others. -/

namespace Sys2Proof.Machine

open Laws

/-! ### Filled and unfilled places (R165) -/

theorem filledAtHead_le (places : List (Option Byte)) : filledAtHead places ≤ places.length := by
  induction places with
  | nil => simp [filledAtHead]
  | cons p places ih =>
    cases p with
    | none => simp [filledAtHead]
    | some x => simpa [filledAtHead] using ih

/-- The places before the first unfilled one are filled. -/
theorem getElem?_of_lt_filledAtHead (places : List (Option Byte)) (n : Nat) (h : n < filledAtHead places) :
    ∃ x, places[n]? = some (some x) := by
  induction places generalizing n with
  | nil => simp [filledAtHead] at h
  | cons p places ih =>
    cases p with
    | none => simp [filledAtHead] at h
    | some x =>
      cases n with
      | zero => exact ⟨x, rfl⟩
      | succ n => exact ih n (by simpa [filledAtHead] using h)

/-- The place behind the filled ones at the head is unfilled. -/
theorem getElem?_filledAtHead (places : List (Option Byte)) (h : filledAtHead places < places.length) :
    places[filledAtHead places]? = some none := by
  induction places with
  | nil => simp at h
  | cons p places ih =>
    cases p with
    | none => rfl
    | some x => exact ih (by simpa [filledAtHead] using h)

/-- The `length` places from `first` on run from the first unfilled place to the last. -/
structure UnfilledStretch (places : List (Option Byte)) (first length : Nat) : Prop where
  pos : 0 < length
  fits : first + length ≤ places.length
  begins : places[first]? = some none
  ends : places[first + length - 1]? = some none
  before : ∀ n, n < first → ∃ x, places[n]? = some (some x)
  behind : ∀ n, first + length ≤ n → n < places.length → ∃ x, places[n]? = some (some x)

/-- Where some place is unfilled, counting the filled ones at both ends finds the stretch. -/
theorem unfilledStretch (places : List (Option Byte)) (h : filledAtHead places ≠ places.length) :
    UnfilledStretch places (filledAtHead places)
      (places.length - filledAtHead places.reverse - filledAtHead places) := by
  have hle := filledAtHead_le places
  have hbegins := getElem?_filledAtHead places (by omega)
  have hbehind (n : Nat) (hn : places.length - filledAtHead places.reverse ≤ n) (hlt : n < places.length) :
      ∃ x, places[n]? = some (some x) := by
    obtain ⟨x, hx⟩ := getElem?_of_lt_filledAtHead places.reverse (places.length - 1 - n) (by omega)
    rw [List.getElem?_reverse (by omega), show places.length - 1 - (places.length - 1 - n) = n by omega] at hx
    exact ⟨x, hx⟩
  have hfirst : filledAtHead places < places.length - filledAtHead places.reverse := by
    by_contra hge
    obtain ⟨x, hx⟩ := hbehind (filledAtHead places) (by omega) (by omega)
    simp [hbegins] at hx
  have hends := getElem?_filledAtHead places.reverse (by rw [List.length_reverse]; omega)
  rw [List.getElem?_reverse (by omega)] at hends
  exact
    { pos := by omega
      fits := by omega
      begins := hbegins
      ends := by rw [← hends]; congr 1; omega
      before := getElem?_of_lt_filledAtHead places
      behind := fun n hn hlt => hbehind n (by omega) hlt }

theorem joinMixed_of_filled (br : Bridge) (q a place : Nat) (places : List (Option Byte))
    (h : filledAtHead places = places.length) : br.joinMixed q a place places = br := if_pos h

theorem joinMixed_of_unfilled (br : Bridge) (q a place : Nat) (places : List (Option Byte))
    (h : filledAtHead places ≠ places.length) :
    ∃ first length, UnfilledStretch places first length
      ∧ br.joinMixed q a place places = br.joinRead q (a + first) length (place + first) :=
  ⟨_, _, unfilledStretch places h, if_neg h⟩

theorem through_joinMixed (br : Bridge) (q a place : Nat) (places : List (Option Byte)) :
    br.Through (br.joinMixed q a place places) := by
  obtain ⟨_, _, h⟩ := joinMixed_eq br q a place places
  rw [h]
  exact ⟨_, _, _, _, _, rfl⟩

/-! ### Served bytes (R199, R203) -/

theorem isServed_iff (off : Nat) : isServed off = true ↔ Served off := by
  simp [isServed, Served, or_assoc]

/-- The bytes of one beat are served together. -/
theorem served_of_beat {off off' : Nat} (h : Served off) (hbeat : off / 4 = off' / 4) : Served off' := by
  unfold Served at h ⊢
  omega

/-- The places of a read of the control region, from offset `off` on, at its acceptance (R165, R171). -/
def Bridge.controlPlaces (br : Bridge) (off beats : Nat) : List (Option Byte) :=
  (List.range (4 * beats)).map (fun n => if isServed (off + n) then some (br.servedByte (off + n)) else none)

@[simp] theorem controlPlaces_length (br : Bridge) (off beats : Nat) : (br.controlPlaces off beats).length = 4 * beats := by
  simp [Bridge.controlPlaces]

theorem controlPlaces_getElem? (br : Bridge) (off beats n : Nat) (hn : n < 4 * beats) :
    (br.controlPlaces off beats)[n]? =
      some (if isServed (off + n) then some (br.servedByte (off + n)) else none) := by
  simp [Bridge.controlPlaces, List.getElem?_range hn]

theorem controlPlaces_of_served (br : Bridge) (off beats n : Nat) (hn : n < 4 * beats) (h : Served (off + n)) :
    (br.controlPlaces off beats)[n]? = some (some (br.servedByte (off + n))) := by
  rw [controlPlaces_getElem? br off beats n hn, if_pos ((isServed_iff _).2 h)]

theorem controlPlaces_of_unserved (br : Bridge) (off beats n : Nat) (hn : n < 4 * beats) (h : ¬ Served (off + n)) :
    (br.controlPlaces off beats)[n]? = some none := by
  rw [controlPlaces_getElem? br off beats n hn, if_neg (mt (isServed_iff _).1 h)]

theorem unserved_of_controlPlaces (br : Bridge) (off beats n : Nat) (hn : n < 4 * beats)
    (h : (br.controlPlaces off beats)[n]? = some none) : ¬ Served (off + n) := by
  intro hs
  simp [controlPlaces_of_served br off beats n hn hs] at h

theorem served_of_controlPlaces (br : Bridge) (off beats n : Nat) (hn : n < 4 * beats)
    (h : ∃ x, (br.controlPlaces off beats)[n]? = some (some x)) : Served (off + n) := by
  by_contra hs
  simp [controlPlaces_of_unserved br off beats n hn hs] at h

theorem filledAtHead_controlPlaces_iff (br : Bridge) (off beats : Nat) :
    filledAtHead (br.controlPlaces off beats) = (br.controlPlaces off beats).length ↔
      ∀ n, n < 4 * beats → Served (off + n) := by
  have hle := filledAtHead_le (br.controlPlaces off beats)
  rw [controlPlaces_length] at hle ⊢
  refine ⟨fun h n hn => ?_, fun h => ?_⟩
  · exact served_of_controlPlaces br off beats n hn (getElem?_of_lt_filledAtHead _ n (by omega))
  · by_contra hne
    have hnone := getElem?_filledAtHead (br.controlPlaces off beats) (by rw [controlPlaces_length]; omega)
    exact unserved_of_controlPlaces br off beats _ (by omega) hnone (h _ (by omega))

/-- The unserved stretch of whole beats is whole beats, since bytes are served by beats. -/
theorem controlPlaces_stretch_aligned (br : Bridge) (off beats first length : Nat) (hoff : off % 4 = 0)
    (h : UnfilledStretch (br.controlPlaces off beats) first length) : first % 4 = 0 ∧ length % 4 = 0 := by
  obtain ⟨hpos, hfits, hbegins, hends, hbefore, hbehind⟩ := h
  rw [controlPlaces_length] at hfits hbehind
  have hfirst : first % 4 = 0 := by
    by_contra hne
    have hs := served_of_controlPlaces br off beats (first - 1) (by omega) (hbefore _ (by omega))
    exact unserved_of_controlPlaces br off beats first (by omega) hbegins (served_of_beat hs (by omega))
  refine ⟨hfirst, ?_⟩
  by_contra hne
  have hs := served_of_controlPlaces br off beats (first + length) (by omega) (hbehind _ le_rfl (by omega))
  exact unserved_of_controlPlaces br off beats (first + length - 1) (by omega) hends (served_of_beat hs (by omega))

/-! ### The acceptance (R145, R149) -/

/-- The bridge that has accepted a read of the control region from offset `off` on. -/
def Bridge.controlRead (br : Bridge) (r : ReadRequest) (off : Nat) : Bridge :=
  ((br.takePlace true).openAssembly br.accepted (br.controlPlaces off r.beats)).joinMixed br.accepted r.address.toNat 0
    (br.controlPlaces off r.beats)

/-- A request place has no part in what is served (R203). -/
theorem servedByte_takePlace (br : Bridge) (isRead : Bool) (off : Nat) :
    (br.takePlace isRead).servedByte off = br.servedByte off := by
  simp only [Bridge.servedByte, Bridge.globalBlock, takePlace_views, takePlace_events, takePlace_rota, takePlace_rotb,
    takePlace_glitchA, takePlace_glitchB, takePlace_outOfRange]

theorem controlPlace_takePlace (br : Bridge) (isRead : Bool) (base off : Nat) :
    (br.takePlace isRead).controlPlace base (base + off) = if isServed off then some (br.servedByte off) else none := by
  unfold Bridge.controlPlace
  rw [Nat.add_sub_cancel_left, servedByte_takePlace]

/-- R149, R171: a read that lies whole in the control region. -/
theorem acceptRead_control (env : Env) (br : Bridge) (r : ReadRequest) (off : Nat) (hr : 1 ≤ r.beats)
    (ha : controlActive env.straps = true) (haddr : r.address.toNat = controlBase env.straps + off)
    (hfit : off + 4 * r.beats ≤ 0x2000) : acceptRead env br r = br.controlRead r off := by
  obtain ⟨rest, hrest⟩ := readAddresses_cons r hr
  have hregion : ∀ n, n < 4 * r.beats →
      regionOf env.straps (windowMap env br) (r.address.toNat + n) = .control := by
    intro n hn
    rw [haddr, Nat.add_assoc]
    exact regionOf_control env br (off + n) ha (by omega)
  have hplaces : (readAddresses r).map ((br.takePlace true).controlPlace (controlBase env.straps)) =
      br.controlPlaces off r.beats := by
    unfold readAddresses Bridge.controlPlaces
    rw [List.map_map]
    refine List.map_congr_left fun n _ => ?_
    rw [Function.comp_apply, haddr, Nat.add_assoc, controlPlace_takePlace]
  have hparts : (br.takePlace true).pieceParts env ⟨.control, readAddresses r⟩ =
      [.mixed r.address.toNat (br.controlPlaces off r.beats)] := by
    rw [← hplaces, hrest]
    rfl
  have hscan : (br.takePlace true).scanPiece r.tag ⟨.control, readAddresses r⟩ = br.takePlace true := rfl
  rw [acceptRead_whole env br r .control hr (by simp) hregion]
  dsimp only
  rw [hscan, hparts]
  simp only [partPlaces, Bridge.joinReads, List.append_nil, Bridge.controlRead]

theorem through_controlRead (br : Bridge) (r : ReadRequest) (off : Nat) : br.Through (br.controlRead r off) :=
  ((through_takePlace ..).trans (through_openAssembly ..)).trans (through_joinMixed ..)

theorem controlRead_assemblies (br : Bridge) (r : ReadRequest) (off : Nat) :
    (br.controlRead r off).assemblies =
      br.assemblies ++ [{ request := br.accepted, places := br.controlPlaces off r.beats, returned := 0 }] := by
  obtain ⟨_, _, h⟩ := joinMixed_eq ((br.takePlace true).openAssembly br.accepted (br.controlPlaces off r.beats))
    br.accepted r.address.toNat 0 (br.controlPlaces off r.beats)
  unfold Bridge.controlRead
  rw [h]
  rfl

/-- R171: a read of served bytes alone has no operation. -/
theorem controlRead_stream_of_served (br : Bridge) (r : ReadRequest) (off : Nat)
    (h : ∀ n, n < 4 * r.beats → Served (off + n)) : (br.controlRead r off).stream = br.stream := by
  unfold Bridge.controlRead
  rw [joinMixed_of_filled _ _ _ _ _ ((filledAtHead_controlPlaces_iff br off r.beats).2 h)]
  rfl

/-- R149, R158: the one read operation, from the first unserved byte to the last. -/
theorem controlRead_stream_of_unserved (br : Bridge) (r : ReadRequest) (off : Nat) (halign : r.address.toNat % 4 = 0)
    (hoff : off % 4 = 0) (h : ∃ n, n < 4 * r.beats ∧ ¬ Served (off + n)) :
    ∃ op first length, (br.controlRead r off).stream = br.stream ++ [op] ∧ op.request = br.accepted
      ∧ op.address = r.address.toNat + first ∧ op.kind = .read length 0 length first
      ∧ first % 4 = 0 ∧ length % 4 = 0 ∧ UnfilledStretch (br.controlPlaces off r.beats) first length := by
  obtain ⟨n, hn, hunserved⟩ := h
  obtain ⟨first, length, hstretch, hjoin⟩ := joinMixed_of_unfilled
    ((br.takePlace true).openAssembly br.accepted (br.controlPlaces off r.beats)) br.accepted r.address.toNat 0
    (br.controlPlaces off r.beats) (fun hall => hunserved ((filledAtHead_controlPlaces_iff br off r.beats).1 hall n hn))
  obtain ⟨hfirst, hlength⟩ := controlPlaces_stretch_aligned br off r.beats first length hoff hstretch
  unfold Bridge.controlRead
  rw [hjoin, joinRead_of_beats _ _ _ _ _ (by omega) hlength]
  exact ⟨_, first, length, rfl, rfl, rfl, by rw [Nat.zero_add], hfirst, hlength, hstretch⟩

/-- A read of the control region offered to an open port. -/
theorem exec_read_control (s : State) (r : ReadRequest) (off : Nat) (hopen : s.open = true)
    (ha : controlActive s.env.straps = true) (hw : r.wellFormed = true)
    (haddr : r.address.toNat = controlBase s.env.straps + off) (hfit : off + 4 * r.beats ≤ 0x2000) :
    exec (.read r) s = .next { s with bridge := s.bridge.controlRead r off } := by
  obtain ⟨-, hbeats, -⟩ := (readRequest_wellFormed_iff r).1 hw
  exact exec_read_of_open s r hw hopen _ (acceptRead_control s.env s.bridge r off hbeats ha haddr hfit)

end Sys2Proof.Machine
end

section
/-! PROOF. The served words (R177, R178, R203): the summary word, the view poll word, the rotation poll word and the counter
words, and the statement about served reads. -/

namespace Sys2Proof.Machine

open Laws

/-! ### Bytes of a word (R198) -/

theorem bytesOf_getElem? (n x i : Nat) (h : i < n) : (bytesOf n x)[i]? = some (BitVec.ofNat 8 (x / 256 ^ i)) := by
  induction n generalizing x i with
  | zero => omega
  | succ n ih =>
    cases i with
    | zero => simp [bytesOf]
    | succ i =>
      rw [bytesOf, List.getElem?_cons_succ, ih _ _ (by omega), Nat.div_div_eq_div_mul, ← Nat.pow_succ']

/-- A count of 16 bits as it stands in its word. -/
theorem bytesOf_count (c : Count16) : bytesOf 2 c.toNat = [c.setWidth 8, (c >>> 8).setWidth 8] := by
  have hlow : BitVec.ofNat 8 c.toNat = c.setWidth 8 := by simp
  have hhigh : BitVec.ofNat 8 (c.toNat / 256) = (c >>> 8).setWidth 8 := by
    apply BitVec.eq_of_toNat_eq
    simp [Nat.shiftRight_eq_div_pow]
  rw [bytesOf, bytesOf, bytesOf, hlow, hhigh]

/-! ### The summary word (R171) -/

theorem servedByte_summary (br : Bridge) (n b : Nat) (hn : n < 4) (hb : b < 8) :
    (br.servedByte n).getLsbD b = br.events.getLsbD (8 * n + b) := by
  have hbyte : br.servedByte n = BitVec.ofNat 8 (br.events.toNat / 256 ^ n) := by
    unfold Bridge.servedByte
    rw [if_pos hn, List.getD_eq_getElem?_getD, bytesOf_getElem? 4 _ n hn]
    rfl
  rw [hbyte, BitVec.getLsbD_ofNat, show (256 : Nat) = 2 ^ 8 from rfl, ← Nat.pow_mul, Nat.testBit_div_two_pow,
    Nat.add_comm, BitVec.testBit_toNat]
  simp [hb]

/-! ### The view poll word (R177) -/

theorem servedByte_poll (br : Bridge) (v : Fin 4) : br.servedByte (0xC + v.val) = (br.views.get v).pollByte := by
  have hv : (⟨0xC + v.val - 0xC, by omega⟩ : Fin 4) = v := Fin.ext (Nat.add_sub_cancel_left ..)
  unfold Bridge.servedByte
  rw [if_neg (by omega), dif_pos (by omega), hv]

theorem holding_iff (vw : View) :
    vw.holding = true ↔
      ∃ k sl m, vw.scan.presented = some k ∧ vw.slots[k]? = some sl ∧ MapEntry.held m ∈ sl.map := by
  have hheld (es : List MapEntry) : es.any MapEntry.isHeld = true ↔ ∃ m, MapEntry.held m ∈ es := by
    rw [List.any_eq_true]
    constructor
    · rintro ⟨e, he, hh⟩
      cases e with
      | live => exact nomatch hh
      | held m => exact ⟨m, he⟩
    · rintro ⟨m, hm⟩
      exact ⟨_, hm, rfl⟩
  unfold View.holding
  cases hp : vw.scan.presented with
  | none => simp
  | some k => cases hsl : vw.slots[k]? <;> simp [hheld, hsl]

theorem isLearning_iff (vw : View) :
    vw.isLearning = true ↔
      ∀ (n : Nat) t, vw.tiles[n]? = some t → vw.geometry.inGrid n = true → t.state = .learning := by
  unfold View.isLearning
  simp only [List.all_eq_true, List.mem_zipIdx_iff_getElem?, Prod.forall, Bool.or_eq_true, Bool.not_eq_true', beq_iff_eq]
  refine ⟨fun h n t ht hg => (h t n ht).resolve_left (by simp [hg]), fun h t n ht => ?_⟩
  cases hg : vw.geometry.inGrid n
  · exact .inl rfl
  · exact .inr (h n t ht hg)

/-- The value of the view poll byte of a configured view. -/
def View.pollValue (vw : View) : Nat :=
  vw.state.code + 4 * vw.intake.state.code + 16 * vw.whiteout.toNat + 32 * vw.holding.toNat
    + 64 * vw.scan.presented.isSome.toNat + 128 * vw.isLearning.toNat

theorem pollByte_of_configured (vw : View) (h : vw.state ≠ .unconfigured) : vw.pollByte = BitVec.ofNat 8 vw.pollValue :=
  if_neg h

/-- The six fields of the poll value do not reach into one another. -/
theorem pollValue_fields (vw : View) :
    vw.pollValue < 256 ∧ vw.pollValue % 4 = vw.state.code ∧ vw.pollValue / 4 % 4 = vw.intake.state.code
      ∧ vw.pollValue / 2 ^ 4 % 2 = vw.whiteout.toNat ∧ vw.pollValue / 2 ^ 5 % 2 = vw.holding.toNat
      ∧ vw.pollValue / 2 ^ 6 % 2 = vw.scan.presented.isSome.toNat
      ∧ vw.pollValue / 2 ^ 7 % 2 = vw.isLearning.toNat := by
  have hstate : vw.state.code < 4 := by cases vw.state <;> decide
  have hintake : vw.intake.state.code < 3 := by cases vw.intake.state <;> decide
  have hwhiteout := Bool.toNat_lt vw.whiteout
  have hholding := Bool.toNat_lt vw.holding
  have hpicture := Bool.toNat_lt vw.scan.presented.isSome
  have hlearning := Bool.toNat_lt vw.isLearning
  unfold View.pollValue
  omega

theorem pollByte_bit (vw : View) (h : vw.state ≠ .unconfigured) (n : Nat) (hn : n < 8) (c : Bool)
    (hc : vw.pollValue / 2 ^ n % 2 = c.toNat) : vw.pollByte.getLsbD n = c := by
  rw [pollByte_of_configured vw h, BitVec.getLsbD_ofNat, Nat.testBit_eq_decide_div_mod_eq, hc]
  cases c <;> simp [hn]

theorem pollByte_polled (vw : View) : vw.Polled vw.pollByte := by
  obtain ⟨hlt, hstate, hintake, hwhiteout, hholding, hpicture, hlearning⟩ := pollValue_fields vw
  have hvalue (h : vw.state ≠ .unconfigured) : vw.pollByte.toNat = vw.pollValue := by
    rw [pollByte_of_configured vw h, BitVec.toNat_ofNat, Nat.mod_eq_of_lt hlt]
  exact
    { unconfigured := fun h => if_pos h
      state := fun h => by
        rw [hvalue h, hstate]
        cases vw.state <;> rfl
      intake := fun h => by
        rw [hvalue h, hintake]
        cases vw.intake.state <;> rfl
      whiteout := fun h => pollByte_bit vw h 4 (by omega) _ hwhiteout
      holding := fun h => by rw [pollByte_bit vw h 5 (by omega) _ hholding, holding_iff]
      picture := fun h => pollByte_bit vw h 6 (by omega) _ hpicture
      learning := fun h => by rw [pollByte_bit vw h 7 (by omega) _ hlearning, isLearning_iff] }

/-! ### The rotation poll word and the counter words (R178, R203) -/

/-- The bytes of the served beat at offset `off`. -/
def Bridge.servedBeat (br : Bridge) (off : Nat) : List (Option Byte) :=
  (List.range 4).map (fun n => some (br.servedByte (off + n)))

theorem servedBeat_rotation (br : Bridge) :
    br.servedBeat 0x10 = [some (rotCode br.rota.state), some (rotCode br.rotb.state), some 0, some 0] := by
  have hcode (st : RotState) : BitVec.ofNat 8 st.code = rotCode st := by cases st <;> rfl
  rw [← hcode, ← hcode]
  rfl

theorem counterBeat_eq (lo hi : Count16) : counterBeat lo hi = (bytesOf 2 lo.toNat ++ bytesOf 2 hi.toNat).map some := by
  rw [bytesOf_count, bytesOf_count]
  rfl

theorem servedByte_counter (br : Bridge) (v : Fin 4) (k : Nat) (hk : k < 16) :
    br.servedByte (0x40 + 16 * v.val + k) = (br.views.get v).counters.block.getD k 0 := by
  have hv : (⟨(0x40 + 16 * v.val + k - 0x40) / 16, by omega⟩ : Fin 4) = v := Fin.ext (by dsimp only; omega)
  have hmod : (0x40 + 16 * v.val + k - 0x40) % 16 = k := by omega
  unfold Bridge.servedByte
  rw [if_neg (by omega), dif_neg (by omega), if_neg (by omega), if_neg (by omega), dif_pos (by omega), hv, hmod]

/-- R203: the four counter words of a view. -/
theorem servedBeat_counters (br : Bridge) (v : Fin 4) :
    br.servedBeat (0x40 + 16 * v.val)
        = counterBeat (br.views.get v).counters.foreign (br.views.get v).counters.stray
      ∧ br.servedBeat (0x44 + 16 * v.val)
        = counterBeat (br.views.get v).counters.fault (br.views.get v).counters.skip
      ∧ br.servedBeat (0x48 + 16 * v.val)
        = counterBeat (br.views.get v).counters.overtake (br.views.get v).counters.lost
      ∧ br.servedBeat (0x4C + 16 * v.val) = counterBeat (br.views.get v).counters.holdBreak 0 := by
  have hbeat (j off : Nat) (hj : j < 4) (hoff : off = 0x40 + 4 * j + 16 * v.val) : br.servedBeat off =
      (List.range 4).map (fun n => some ((br.views.get v).counters.block.getD (4 * j + n) 0)) := by
    refine List.map_congr_left fun n hn => ?_
    have hlt := List.mem_range.1 hn
    rw [← servedByte_counter br v (4 * j + n) (by omega), hoff]
    congr 2
    omega
  rw [hbeat 0 _ (by omega) (by omega), hbeat 1 _ (by omega) (by omega), hbeat 2 _ (by omega) (by omega),
    hbeat 3 _ (by omega) (by omega)]
  simp only [counterBeat_eq]
  exact ⟨rfl, rfl, rfl, rfl⟩

/-- R203: the two global counter words. -/
theorem servedBeat_global (br : Bridge) :
    br.servedBeat 0x80 = counterBeat br.glitchA br.glitchB ∧ br.servedBeat 0x84 = counterBeat br.outOfRange 0 := by
  simp only [counterBeat_eq]
  exact ⟨rfl, rfl⟩

/-- R171: the places of a read of one served beat. -/
theorem controlPlaces_of_servedBeat (br : Bridge) (off : Nat) (h : ∀ n, n < 4 → Served (off + n)) :
    br.controlPlaces off 1 = br.servedBeat off := by
  refine List.map_congr_left fun n hn => ?_
  rw [if_pos ((isServed_iff _).2 (h n (List.mem_range.1 hn)))]

theorem servedBeat_getElem? (br : Bridge) (off n : Nat) (hn : n < 4) :
    (br.servedBeat off)[n]? = some (some (br.servedByte (off + n))) := by
  simp [Bridge.servedBeat, List.getElem?_range hn]

/-- Settles O12: the accepted read (`exec_read_control`) with its places, whose served bytes are the live words
(`servedByte_summary`, `pollByte_polled`, `servedBeat_counters`), and its one operation
(`controlRead_stream_of_unserved`). -/
theorem servedReadsGiveLiveState : Obligations.ServedReadsGiveLiveState := by
  unfold Obligations.ServedReadsGiveLiveState
  refine ⟨fun s r off hopen ha hserved halign haddr hbeats => ?_, fun s r off hopen ha hw haddr hfit => ?_⟩
  · have hbase := controlBase_mod4 s.env.straps
    have hw : r.wellFormed = true := (readRequest_wellFormed_iff r).2 ⟨by omega, by omega, by omega⟩
    have hall (n : Nat) (hn : n < 4) : Served (off + n) := served_of_beat hserved (by omega)
    have hfit : off + 4 * r.beats ≤ 0x2000 := by
      unfold Served at hserved
      omega
    have hthrough := through_controlRead s.bridge r off
    have hassemblies := controlRead_assemblies s.bridge r off
    rw [hbeats, controlPlaces_of_servedBeat s.bridge off hall] at hassemblies
    refine ⟨_, _, exec_read_control s r off hopen ha hw haddr hfit,
      controlRead_stream_of_served s.bridge r off (by rwa [hbeats]), hassemblies, rfl, rfl, rfl, ?_, ?_, ?_, ?_, ?_, ?_,
      hthrough.passFrame _, hthrough.shadowsAgree _, hthrough.outOfRange⟩
    · rintro rfl n b hn hb
      refine ⟨_, servedBeat_getElem? s.bridge 0 n hn, ?_⟩
      rw [Nat.zero_add]
      exact servedByte_summary s.bridge n b hn hb
    · rintro rfl v
      refine ⟨_, servedBeat_getElem? s.bridge 0xC v.val v.isLt, ?_⟩
      rw [servedByte_poll]
      exact pollByte_polled _
    · rintro rfl
      exact servedBeat_rotation s.bridge
    · intro v
      obtain ⟨h0, h1, h2, h3⟩ := servedBeat_counters s.bridge v
      exact ⟨fun h => h ▸ h0, fun h => h ▸ h1, fun h => h ▸ h2, fun h => h ▸ h3⟩
    · rintro rfl
      exact (servedBeat_global s.bridge).1
    · rintro rfl
      exact (servedBeat_global s.bridge).2
  · have hbase := controlBase_mod4 s.env.straps
    obtain ⟨halign, -, -⟩ := (readRequest_wellFormed_iff r).1 hw
    have hthrough := through_controlRead s.bridge r off
    refine ⟨_, _, exec_read_control s r off hopen ha hw haddr hfit, controlRead_assemblies s.bridge r off, rfl, rfl,
      controlPlaces_length .., controlPlaces_of_served s.bridge off r.beats, controlPlaces_of_unserved s.bridge off r.beats,
      controlRead_stream_of_served s.bridge r off, fun hunserved => ?_, hthrough.passFrame _, hthrough.shadowsAgree _,
      hthrough.outOfRange⟩
    obtain ⟨op, first, length, hstream, hrequest, haddress, hkind, hfirst, hlength, hstretch⟩ :=
      controlRead_stream_of_unserved s.bridge r off halign (by omega) hunserved
    obtain ⟨hpos, hfits, hbegins, hends, hbefore, hbehind⟩ := hstretch
    rw [controlPlaces_length] at hfits hbehind
    refine ⟨op, first, length, hstream, hrequest, haddress, hkind, hfirst, hlength, hpos, hfits,
      unserved_of_controlPlaces s.bridge off r.beats first (by omega) hbegins, ?_,
      fun n hn => served_of_controlPlaces s.bridge off r.beats n (by omega) (hbefore n hn),
      fun n hn hlt => served_of_controlPlaces s.bridge off r.beats n hlt (hbehind n hn hlt)⟩
    have hlast := unserved_of_controlPlaces s.bridge off r.beats (first + length - 1) (by omega) hends
    rwa [show off + first + length - 1 = off + (first + length - 1) by omega]

end Sys2Proof.Machine
end

section
/-! PROOF. A write of a command entry (R145, R179, R180, R184): the bytes it leaves in the command shadow, and the take that it
makes available. -/

namespace Sys2Proof.Machine

open Laws

/-! ### The command shadow (R179) -/

theorem writeControlByte_command (br : Bridge) (k : Nat) (d : Byte) (hk : k < 256) :
    br.writeControlByte (0x800 + k) d = { br with commandShadow := br.commandShadow.set k d } := by
  unfold Bridge.writeControlByte
  rw [if_neg (by omega), if_neg (by omega), dif_neg (by omega), if_pos (by omega), Nat.add_sub_cancel_left]

/-- R179: a stretch of bytes written into the command ring, from place `first` of the shadow on. -/
theorem writeControl_command (base a : Nat) (bs : List WriteByte) (n : Nat) (br : Bridge) (first : Nat)
    (ha : a + n = base + 0x800 + first) (hfit : first + bs.length ≤ 256) :
    br.writeControl base ((bs.zipIdx n).map (fun p => (a + p.2, p.1))) =
      { br with commandShadow := writeEnabled br.commandShadow first bs } := by
  induction bs generalizing n br first with
  | nil => rfl
  | cons b bs ih =>
    simp only [List.length_cons] at hfit
    have hoff : a + n - base = 0x800 + first := by omega
    have hstep : (if b.enable then br.writeControlByte (a + n - base) b.data else br) =
        { br with commandShadow := if b.enable then br.commandShadow.set first b.data else br.commandShadow } := by
      split
      · rw [hoff]
        exact writeControlByte_command br first b.data (by omega)
      · rfl
    calc br.writeControl base (((b :: bs).zipIdx n).map (fun p => (a + p.2, p.1)))
        = (if b.enable then br.writeControlByte (a + n - base) b.data else br).writeControl base
            ((bs.zipIdx (n + 1)).map (fun p => (a + p.2, p.1))) := rfl
      _ = _ := by
        rw [ih (n + 1) _ (first + 1) (by omega) (by omega), hstep]
        rfl

/-- A write leaves every byte of a shadow outside its stretch. -/
theorem writeEnabled_outside (xs : List Byte) (first k : Nat) (bs : List WriteByte)
    (h : k < first ∨ first + bs.length ≤ k) : (writeEnabled xs first bs)[k]? = xs[k]? := by
  rcases h with h | h
  · exact writeEnabled_before xs first k bs h
  · obtain ⟨n, rfl⟩ : ∃ n, k = first + n := ⟨k - first, by omega⟩
    rw [writeEnabled_getElem?, enabledByte_eq_none bs n (by omega)]
    simp

/-! ### The acceptance (R145, R170) -/

/-- The bridge after a write into the command ring, from place `first` of the shadow on, before the take it may make
available. -/
def Bridge.commandWritten (br : Bridge) (w : WriteRequest) (first : Nat) : Bridge :=
  ({ br.forwardWrite w with commandShadow := writeEnabled br.commandShadow first w.bytes } : Bridge).freePlaces

/-- R145, R184: a write that lies whole in the command ring, and its take. -/
theorem acceptWrite_command (env : Env) (br : Bridge) (w : WriteRequest) (first : Nat)
    (ha : controlActive env.straps = true) (haddr : w.address.toNat = controlBase env.straps + 0x800 + first)
    (hw : w.bytes ≠ []) (hfit : first + w.bytes.length ≤ 256) :
    acceptWrite env br w = takeIfDue env (br.commandWritten w first) := by
  have hshadow : (br.forwardWrite w).writeControl (controlBase env.straps) (writeCells w) =
      { br.forwardWrite w with commandShadow := writeEnabled br.commandShadow first w.bytes } :=
    writeControl_command (controlBase env.straps) w.address.toNat w.bytes 0 (br.forwardWrite w) first haddr hfit
  rw [acceptWrite_control env br w (0x800 + first) ha (by omega) hw (by omega), hshadow]
  rfl

/-- R148: a write into the command ring changes no more than that shadow, beside its place and its operation. -/
theorem commandWritten_frame (s : State) (w : WriteRequest) (first : Nat) :
    s.Forwarded { s with bridge := s.bridge.commandWritten w first } w
      ∧ s.PassFrame { s with bridge := s.bridge.commandWritten w first } := by
  obtain ⟨op, hstream, hop⟩ := forwardWrite_stream s.bridge w
  exact ⟨⟨⟨op, hstream, hop⟩, rfl, rfl⟩,
    ⟨⟨rfl, rfl, rfl, rfl, rfl, rfl, rfl, rfl, rfl, rfl, rfl⟩, rfl, rfl, rfl, rfl, rfl⟩⟩

theorem commandWritten_shadowByte_self (br : Bridge) (w : WriteRequest) (i off : Nat)
    (hl : br.commandShadow.length = 256) (hi : i < 16) (ho : off < 16) :
    (br.commandWritten w (16 * i)).shadowByte i off = (w.enabled off).getD (br.shadowByte i off) := by
  have hx : 16 * i + off < br.commandShadow.length := by omega
  have hbyte : (br.commandWritten w (16 * i)).commandShadow[16 * i + off]? =
      (br.commandShadow[16 * i + off]?).map (fun x => (w.enabled off).getD x) := writeEnabled_getElem? ..
  unfold Bridge.shadowByte
  rw [hbyte, List.getElem?_eq_getElem hx]
  rfl

theorem commandWritten_shadowByte_other (br : Bridge) (w : WriteRequest) (i j off : Nat) (hlen : w.bytes.length = 16)
    (hj : j ≠ i) (ho : off < 16) : (br.commandWritten w (16 * i)).shadowByte j off = br.shadowByte j off := by
  have hbyte : (br.commandWritten w (16 * i)).commandShadow[16 * j + off]? = br.commandShadow[16 * j + off]? :=
    writeEnabled_outside _ _ _ _ (by omega)
  unfold Bridge.shadowByte
  rw [hbyte]

/-! ### The take (R180) -/

theorem ownerOf_eq_bridge_iff (d : Byte) : ownerOf d = .bridge ↔ d = 1 := by
  unfold ownerOf
  split <;> simp_all

/-- R180: with room for its own writes, a take is due exactly where the next entry is the bridge's and no command is in
flight. -/
theorem takeDue_iff (br : Bridge) (hfree : 3 ≤ br.ownFree) :
    takeDue br = true ↔ br.shadowByte br.nextIndex 15 = 1 ∧ br.inFlight = none := by
  rw [takeDue, entryByte_nextEntry br 15 (by omega), decide_eq_true hfree, Bool.and_true, Bool.and_eq_true, beq_iff_eq,
    ownerOf_eq_bridge_iff, Option.isNone_iff_eq_none]

theorem ownFree_of_open (s : State) (h : s.open = true) : 4 ≤ s.bridge.ownFree := by
  simp only [State.open, canAccept, Bool.and_eq_true, decide_eq_true_eq] at h
  obtain ⟨-, -, hfree⟩ := h
  exact hfree

/-- Settles O18: the write is accepted with its take (`acceptWrite_command`), which is that of the row of the command
(`exec_ringRow`). -/
theorem commandEntryWriteTakesTheCommand : Obligations.CommandEntryWriteTakesTheCommand := by
  unfold Obligations.CommandEntryWriteTakesTheCommand
  intro s w i hopen ha hl hi haddr hlen
  have hwell : (Request.write w).wellFormed = true := by
    have hbase := controlBase_mod4 s.env.straps
    simp [Request.wellFormed, WriteRequest.wellFormed, hlen, haddr]
    omega
  have hne : w.bytes ≠ [] := fun h => by simp [h] at hlen
  have haccept := acceptWrite_command s.env s.bridge w (16 * i) ha haddr hne (by omega)
  obtain ⟨hforwarded, hpass⟩ := commandWritten_frame s w (16 * i)
  have hfree : 3 ≤ (s.bridge.commandWritten w (16 * i)).ownFree := (Nat.le_succ 3).trans (ownFree_of_open s hopen)
  refine ⟨_, s.bridge.commandWritten w (16 * i), exec_controlWrite_of_open s w hwell hopen _ haccept,
    fun off => commandWritten_shadowByte_self s.bridge w i off hl hi,
    fun j off => commandWritten_shadowByte_other s.bridge w i j off hlen, hforwarded, hpass, rfl, rfl, rfl, rfl,
    takeDue_iff _ hfree, fun hnot => ?_, fun c k hc hdue => ?_⟩
  · rw [takeIfDue_of_not_due _ _ hnot]
  · obtain ⟨htake, -⟩ := takeNext_of_dueOf _ _ hdue
    rw [takeIfDue_of_due _ _ htake]
    exact exec_ringRow c k { s with bridge := s.bridge.commandWritten w (16 * i) } hc hdue

end Sys2Proof.Machine
end

section
/-! PROOF. Responses (R150, R166): the beats that are complete at the head of the oldest record, and no others, are returned. -/

namespace Sys2Proof.Machine

open Laws

/-! ### Complete beats (R166) -/

/-- Filled beats at the head are complete, and what follows them decides on the rest. -/
theorem completeBeats_append :
    ∀ (bytes : List Byte) (later : List (Option Byte)), bytes.length % 4 = 0 →
      completeBeats (bytes.map some ++ later) = bytes ++ completeBeats later
  | [], _, _ => rfl
  | [_], _, h => by simp at h
  | [_, _], _, h => by simp at h
  | [_, _, _], _, h => by simp at h
  | a :: b :: c :: d :: rest, later, h => by
    have hrest := completeBeats_append rest later (by simp only [List.length_cons] at h; omega)
    simp only [List.map_cons, List.cons_append, completeBeats, hrest]

theorem completeBeats_of_filled (bytes : List Byte) (h : bytes.length % 4 = 0) :
    completeBeats (bytes.map some) = bytes := by
  have happend := completeBeats_append bytes [] h
  have hnil : completeBeats [] = [] := rfl
  rwa [List.append_nil, hnil, List.append_nil] at happend

/-- A beat with an empty place ends the complete ones. -/
theorem completeBeats_of_unfilled (places : List (Option Byte)) (h : ∃ n, n < 4 ∧ places[n]? = some none) :
    completeBeats places = [] := by
  obtain ⟨n, hn, hnone⟩ := h
  unfold completeBeats
  split
  case h_1 a b c d rest =>
    have hplace : n = 0 ∨ n = 1 ∨ n = 2 ∨ n = 3 := by omega
    rcases hplace with rfl | rfl | rfl | rfl <;> simp at hnone
  case h_2 => rfl

/-! ### READ_RESPONSE (R144, R166) -/

theorem exec_readResponse_of_quiet (s : State) (hq : s.quiet = true) : exec .readResponse s = .next s.respond :=
  congrArg (fun s : State => Host.Outcome.next s.respond) (settle_of_quiet s hq)

/-- The beats of a record that a response returns (R166). -/
def Assembly.ready (a : Assembly) : List Byte := completeBeats (a.places.drop (4 * a.returned))

theorem respond_of_not_ready (s : State) (a : Assembly) (rest : List Assembly) (hs : s.bridge.assemblies = a :: rest)
    (h : a.ready = []) : s.respond = s := by
  unfold State.respond
  rw [hs]
  exact if_pos h

/-- R166: the last beat of the record is among those returned. -/
theorem respond_of_last (s : State) (a : Assembly) (rest : List Assembly) (hs : s.bridge.assemblies = a :: rest)
    (hne : a.ready ≠ []) (hlast : 4 * (a.returned + a.ready.length / 4) = a.places.length) :
    s.respond = { s with
      readData := a.ready
      bridge := ({ s.bridge with
        assemblies := rest
        requests := s.bridge.requests.map (fun p => if p.number = a.request then { p with answered := true } else p) } :
          Bridge).freePlaces } := by
  unfold State.respond
  rw [hs]
  exact (if_neg hne).trans (if_pos hlast)

/-- R166: the record goes on behind the beats returned. -/
theorem respond_of_more (s : State) (a : Assembly) (rest : List Assembly) (hs : s.bridge.assemblies = a :: rest)
    (hne : a.ready ≠ []) (hmore : 4 * (a.returned + a.ready.length / 4) ≠ a.places.length) :
    s.respond = { s with
      readData := a.ready
      bridge := { s.bridge with assemblies := { a with returned := a.returned + a.ready.length / 4 } :: rest } } := by
  unfold State.respond
  rw [hs]
  exact (if_neg hne).trans (if_neg hmore)

/-- Settles O31: what the oldest record has ready (`completeBeats_of_filled`, `completeBeats_append`,
`completeBeats_of_unfilled`) decides between its end (`respond_of_last`), its going on (`respond_of_more`) and nothing
(`respond_of_not_ready`). -/
theorem responsesKeepAcceptanceOrder : Obligations.ResponsesKeepAcceptanceOrder := by
  unfold Obligations.ResponsesKeepAcceptanceOrder
  intro s a rest hq hs hmod hlt
  rw [exec_readResponse_of_quiet s hq]
  refine ⟨fun bytes hbytes => ?_, fun bytes later hbytes hne hwhole hlater => ?_, fun ⟨n, hn, hnone⟩ => ?_⟩
  · have hlength : a.places.length - 4 * a.returned = bytes.length := by
      simpa using congrArg List.length hbytes
    have hready : a.ready = bytes := by
      rw [Assembly.ready, hbytes, completeBeats_of_filled bytes (by omega)]
    subst hready
    have hne : a.ready ≠ [] := by
      rw [← List.length_pos_iff_ne_nil]
      omega
    rw [respond_of_last s a rest hs hne (by omega)]
    exact ⟨_, rfl, rfl, rfl, rfl, rfl, rfl, rfl, ⟨rfl, rfl, rfl, rfl, rfl, rfl⟩, ⟨rfl, rfl, rfl, rfl⟩,
      ⟨rfl, rfl, rfl, rfl, rfl⟩, rfl, rfl⟩
  · have hlength : a.places.length - 4 * a.returned = bytes.length + later.length := by
      simpa using congrArg List.length hbytes
    have hready : a.ready = bytes := by
      rw [Assembly.ready, hbytes, completeBeats_append bytes later hwhole, completeBeats_of_unfilled later hlater,
        List.append_nil]
    have hpos : 0 < later.length := by
      obtain ⟨n, -, hnone⟩ := hlater
      exact Nat.zero_lt_of_lt (List.getElem?_eq_some_iff.1 hnone).1
    subst hready
    rw [respond_of_more s a rest hs hne (by omega)]
  · have hready : a.ready = [] :=
      completeBeats_of_unfilled _ ⟨n, hn, by rw [List.getElem?_drop, hnone]⟩
    rw [respond_of_not_ready s a rest hs hready]

end Sys2Proof.Machine
end

section
/-! PROOF. The form of the bridge while own writes are placed (R143, R159, R160, R179, R186): each piece of work keeps the sizes
of queues, rings and shadows, and takes no more than a fixed number of the own-write places that were free before it. -/

namespace Sys2Proof.Machine

open Laws

/-- The bridge has its form, and `n` places of the own-write queue at least are free (R159). -/
structure Bridge.Room (n : Nat) (br : Bridge) : Prop extends Bridge.Shaped br where
  room : br.ownWrites.length + n ≤ 16

theorem Bridge.Shaped.room {br : Bridge} (h : br.Shaped) (n : Nat) (hfree : n ≤ br.ownFree) : br.Room n where
  toShaped := h
  room := by
    have hplaces : Config.ownPlaces = 16 := rfl
    have hlength := h.ownWrites
    unfold Bridge.ownFree at hfree
    omega

namespace Bridge.Room

variable {n : Nat} {br : Bridge}

theorem mono {m : Nat} (h : br.Room n) (hm : m ≤ n) : br.Room m :=
  { h with room := (Nat.add_le_add_left hm _).trans h.room }

/-! ### The shared operations -/

theorem modView (h : br.Room n) (v : Fin 4) (f : View → View) : (br.modView v f).Room n := { h with }

theorem raise (h : br.Room n) (e : Event) : (br.raise e).Room n := { h with }

theorem raiseIf (h : br.Room n) (c : Bool) (e : Event) : (br.raiseIf c e).Room n := by
  cases c
  · exact h
  · exact h.raise e

theorem breakHolds (h : br.Room n) (v : Fin 4) (p : MapEntry → Bool) (also : Bool) : (br.breakHolds v p also).Room n :=
  (h.modView v _).raiseIf _ _

theorem reachParked (h : br.Room n) (v : Fin 4) : (br.reachParked v).Room n := (h.breakHolds v _ _).modView v _

theorem setRot (h : br.Room n) (i : RotId) (r : RotInput) : (br.setRot i r).Room n := by
  cases i <;> exact { h with }

theorem countGlitch (h : br.Room n) (i : RotId) : (br.countGlitch i).Room n := by
  cases i <;> exact { h with }

/-- An own write joins the tail with pass count 0 (R159). -/
theorem placeOwn (h : br.Room (n + 1)) (kind : OwnKind) (a : Nat) (bytes : List Byte) :
    (br.placeOwn kind a bytes).Room n :=
  have hroom : (br.placeOwn kind a bytes).ownWrites.length + n ≤ 16 := by
    have := h.room
    rw [placeOwn_ownWrites, List.length_append, List.length_singleton]
    omega
  { h with
    room := hroom
    ownWrites := (Nat.le_add_right _ n).trans hroom
    passes := List.forall_mem_append.2 ⟨h.passes, List.forall_mem_singleton.2 (Nat.zero_le 4)⟩ }

/-- A report takes one place at most (R187, R188). -/
theorem report (h : br.Room (n + 1)) (env : Env) (r : Report) : (br.report env r).Room n := by
  cases hfree : br.reportFree
  · rw [report_of_held env br r hfree]
    exact ((h.mono (Nat.le_succ n)).modView _ _).raise _
  · rw [report_of_free env br r hfree]
    exact
      { h.placeOwn .report (controlBase env.straps + 0x1000 + 32 * br.position) r.bytes with
        owners := List.length_set.trans h.owners
        position := Nat.mod_lt _ (by decide) }

/-! ### The solver queue (R70) -/

/-- Entries leave the queue. -/
theorem dequeue (h : br.Room n) {queue : List SolveEntry} (hq : queue.Sublist br.solverQueue) :
    ({ br with solverQueue := queue } : Bridge).Room n :=
  { h with waiting := h.waiting.sublist (hq.map _) }

theorem dropWaiting (h : br.Room n) (v : Fin 4) : (br.dropWaiting v).Room n := h.dequeue List.filter_sublist

theorem releaseAll (h : br.Room n) : br.releaseAll.Room n := { h with waiting := List.nodup_nil }

/-- An entry joins a queue without one of its view. -/
theorem enqueue (h : br.Room n) (e : SolveEntry) (hnone : ∀ q ∈ br.solverQueue, q.frame.view ≠ e.frame.view) :
    ({ br with solverQueue := br.solverQueue ++ [e] } : Bridge).Room n :=
  { h with
    waiting := by
      rw [List.map_append, List.nodup_append]
      refine ⟨h.waiting, List.nodup_singleton _, fun v hv u hu => ?_⟩
      obtain ⟨q, hq, rfl⟩ := List.mem_map.1 hv
      obtain rfl := List.mem_singleton.1 hu
      exact hnone q hq }

theorem skipWaiting (h : br.Room (n + 1)) (env : Env) (e : SolveEntry) (reason : Reason) :
    (br.skipWaiting env e reason).Room n := ((h.dropWaiting _).modView _ _).report env _

/-- The waiting entry that is superseded has a report (R41). -/
theorem supersede (h : br.Room (n + 1)) (env : Env) (v : Fin 4) : (br.supersede env v).Room n := by
  cases hw : br.waiting v with
  | none =>
    rw [supersede_of_none env br v hw]
    exact h.mono (Nat.le_succ n)
  | some e =>
    rw [supersede_of_some env br v e hw]
    exact (((h.dropWaiting v).modView v _).report env _).modView v _

/-- R41: the view's older entry has left the queue when the new one joins it. -/
theorem joinSolver (h : br.Room (n + 1)) (env : Env) (f : FrameId) (b : Fin 4) : (br.joinSolver env f b).Room n := by
  have hready : (br.readyToJoin env f).Room n := (h.modView f.view _).supersede env f.view
  rw [joinSolver_eq]
  refine (hready.modView f.view (fun vw => vw.modBuffer b (·.withRole .wait))).enqueue ⟨f, b⟩ fun q hq => ?_
  have hfilter := (supersede_solverQueue env (br.modView f.view (fun vw => vw.setState f.slot .solving)) f.view) ▸ hq
  simpa using List.of_mem_filter hfilter

/-! ### The intake monitor -/

theorem unsolvedCompletion (h : br.Room (n + 1)) (env : Env) (f : FrameId) (time : Stamp) (parked : Bool) :
    (br.unsolvedCompletion env f time parked).Room n := ((h.modView _ _).report env _).raise _

/-- A frame that is complete has one report at most: its own, or that of the entry it supersedes (R40 to R42). -/
theorem completeFrame (h : br.Room (n + 1)) (env : Env) (v : Fin 4) (k : Nat) : (br.completeFrame env v k).Room n := by
  have hbetween : (br.betweenFrames v).Room (n + 1) := h.modView v _
  cases hb : (br.views.get v).intake.buffer with
  | none =>
    rw [completeFrame_of_no_buffer env br v k hb]
    exact hbetween.unsolvedCompletion env _ _ _
  | some b =>
    rw [completeFrame_of_buffer env br v k b hb]
    exact hbetween.joinSolver env _ b

theorem acceptRun (h : br.Room (n + 1)) (env : Env) (v : Fin 4) (k : Nat) (run : List (Nat × Byte)) :
    (br.acceptRun env v k run).Room n := by
  have htake : (br.takeRun env v run).Room (n + 1) := h.modView v _
  rw [acceptRun_eq]
  split
  · exact htake.completeFrame env v k
  · exact htake.mono (Nat.le_succ n)

/-- A frame that ends with a fault has one report (R38, R39). -/
theorem intakeFault (h : br.Room (n + 1)) (env : Env) (v : Fin 4) (reason : Reason) :
    (br.intakeFault env v reason).Room n := by
  cases hk : (br.views.get v).intake.slot with
  | none =>
    rw [intakeFault_of_none env br v reason hk]
    exact (h.mono (Nat.le_succ n)).modView v _
  | some k =>
    rw [intakeFault_of_some env br v reason k hk]
    exact ((h.modView v _).report env _).raise _

theorem abandonFollowed (h : br.Room (n + 1)) (env : Env) (v : Fin 4) : (br.abandonFollowed env v).Room n := by
  unfold Bridge.abandonFollowed
  split
  · exact h.intakeFault env v _
  · exact h.mono (Nat.le_succ n)

theorem reopenSolve (h : br.Room n) (v : Fin 4) (k : Nat) : (br.reopenSolve v k).Room n := { h with }

theorem reopenSlot (h : br.Room (n + 1)) (env : Env) (v : Fin 4) (k : Nat) : (br.reopenSlot env v k).Room n := by
  by_cases hw : ∃ e, br.waiting v = some e ∧ e.frame.slot = k
  · obtain ⟨e, he, hk⟩ := hw
    rw [reopenSlot_of_waiting env br v k e he hk]
    exact (h.skipWaiting env e _).reopenSolve v k
  · rw [reopenSlot_of_other env br v k fun e he hk => hw ⟨e, he, hk⟩]
    exact (h.mono (Nat.le_succ n)).reopenSolve v k

theorem beginFrame (h : br.Room (n + 1)) (env : Env) (v : Fin 4) (k : Nat) (run : List (Nat × Byte)) :
    (br.beginFrame env v k run).Room n := by
  unfold Bridge.beginFrame
  rw [beginFrame_started]
  exact ((h.modView v _).raiseIf _ _).acceptRun env v k run

/-- A frame start has three reports at most: of the frame it abandons, of the waiting entry of its slot, and of its own
completion (R27, R39, R40). -/
theorem startFrame (h : br.Room (n + 3)) (env : Env) (v : Fin 4) (k : Nat) (run : List (Nat × Byte)) :
    (br.startFrame env v k run).Room n := by
  rw [startFrame_eq]
  exact (((h.abandonFollowed env v).breakHolds v _ _).reopenSlot env v k).beginFrame env v k run

theorem judgeRun (h : br.Room (n + 1)) (env : Env) (v : Fin 4) (k : Nat) (run : List (Nat × Byte)) :
    (br.judgeRun env v k run).Room n := by
  unfold Bridge.judgeRun
  dsimp only
  split_ifs
  · exact h.intakeFault env v _
  · exact h.intakeFault env v _
  · exact h.intakeFault env v _
  · exact h.acceptRun env v k run

theorem followRun (h : br.Room (n + 3)) (env : Env) (v : Fin 4) (k : Nat) (run : List (Nat × Byte)) :
    (br.followRun env v k run).Room n := by
  unfold Bridge.followRun
  split_ifs
  · exact h.startFrame env v k run
  · exact (h.mono (by omega)).judgeRun env v k run
  · exact (h.mono (by omega)).modView v _
  · exact h.mono (by omega)

theorem intakePiece (h : br.Room (n + 3)) (env : Env) (v : Fin 4) (k : Nat) (tag : Byte) (run : List (Nat × Byte)) :
    (br.intakePiece env v k tag run).Room n := by
  unfold Bridge.intakePiece
  dsimp only
  split
  · exact h.followRun env v k run
  · exact (h.mono (by omega)).modView v _

end Bridge.Room

end Sys2Proof.Machine
end

section
/-! PROOF. The form of the bridge at the port and in the command ring: an acceptance (R143, R145), the take of a command
(R180 to R183), and the completion of a solve (R73). -/

namespace Sys2Proof.Machine

open Laws

namespace Bridge.Room

variable {n : Nat} {br : Bridge}

/-! ### Shadows and report owners (R1, R170, R179, R186) -/

theorem writeControlByte (h : br.Room n) (off : Nat) (d : Byte) : (br.writeControlByte off d).Room n := by
  unfold Bridge.writeControlByte
  split_ifs
  · exact { h with }
  · exact { h with }
  · refine { h with descriptors := fun u => ?_ }
    rw [Four.get_set]
    split
    · exact List.length_set.trans (h.descriptors _)
    · exact h.descriptors u
  · exact h
  · exact { h with commandShadow := List.length_set.trans h.commandShadow }
  · exact { h with owners := List.length_set.trans h.owners }
  · exact h

theorem writeControl (h : br.Room n) (base : Nat) (cells : List (Nat × WriteByte)) : (br.writeControl base cells).Room n := by
  unfold Bridge.writeControl
  induction cells generalizing br with
  | nil => exact h
  | cons c cells ih =>
    refine ih ?_
    dsimp only
    split
    · exact h.writeControlByte _ _
    · exact h

/-! ### The pieces of a write (R31, R145) -/

/-- A piece that is not the write's intake piece places no own write. -/
theorem watchPiece_rest (h : br.Room n) (env : Env) (tag : Byte) (p : WritePiece) :
    (br.watchPiece env tag p false).Room n := by
  unfold Bridge.watchPiece
  split
  · exact h.writeControl _ _
  · exact h
  · exact h

theorem watchPiece_first (h : br.Room (n + 3)) (env : Env) (tag : Byte) (p : WritePiece) :
    (br.watchPiece env tag p true).Room n := by
  unfold Bridge.watchPiece
  split
  · exact (h.mono (by omega)).writeControl _ _
  · exact h.intakePiece env _ _ tag _
  · exact h.mono (by omega)

/-- The pieces behind the intake piece. -/
theorem watchPieces_rest (h : br.Room n) (env : Env) (tag : Byte) (ps : List WritePiece) :
    (br.watchPieces env tag true ps).Room n := by
  induction ps generalizing br with
  | nil => exact h
  | cons p ps ih =>
    unfold Bridge.watchPieces
    split
    · exact ih (h.watchPiece_rest env tag p)
    · exact ih (h.watchPiece_rest env tag p)

/-- R31: one piece of a write at most is its intake piece, so that a write takes three places at most. -/
theorem watchPieces (h : br.Room (n + 3)) (env : Env) (tag : Byte) (ps : List WritePiece) :
    (br.watchPieces env tag false ps).Room n := by
  induction ps generalizing br with
  | nil => exact h.mono (by omega)
  | cons p ps ih =>
    unfold Bridge.watchPieces
    split
    · exact (h.watchPiece_first env tag p).watchPieces_rest env tag ps
    · exact ih (h.watchPiece_rest env tag p)

/-! ### The port (R143, R144) -/

theorem takePlace (h : br.Room n) (hq : br.requests.length < 8) (isRead : Bool) : (br.takePlace isRead).Room n :=
  { h with requests := List.length_append.trans_le hq }

theorem freePlaces (h : br.Room n) : br.freePlaces.Room n :=
  { h with requests := (List.dropWhile_sublist _).length_le.trans h.requests }

theorem countOutOfRange (h : br.Room n) (env : Env) (regions : List Region) : (br.countOutOfRange env regions).Room n := by
  unfold Bridge.countOutOfRange
  split
  · exact { h with }
  · exact h

theorem joinWritePiece (h : br.Room n) (q : Nat) (p : WritePiece) : (br.joinWritePiece q p).Room n := by
  unfold Bridge.joinWritePiece
  split
  · exact h
  · exact h
  · exact { h with }

theorem joinWritePieces (h : br.Room n) (q : Nat) (ps : List WritePiece) :
    (ps.foldl (fun br p => br.joinWritePiece q p) br).Room n := by
  induction ps generalizing br with
  | nil => exact h
  | cons p ps ih => exact ih (h.joinWritePiece q p)

/-- R145: the acceptance of a write leaves the places that its own writes do not take, and then takes a command. -/
theorem acceptWrite (h : br.Room (n + 3)) (hq : br.requests.length < 8) (env : Env) (w : WriteRequest) :
    ∃ b : Bridge, b.Room n ∧ acceptWrite env br w = takeIfDue env b :=
  ⟨_, ((((h.takePlace hq false).countOutOfRange env _).joinWritePieces _ _).watchPieces env w.tag _).freePlaces, rfl⟩

theorem scanPiece (h : br.Room n) (tag : Byte) (p : ReadPiece) : (br.scanPiece tag p).Room n := by
  unfold Bridge.scanPiece
  split
  · exact h.modView _ _
  · exact h

theorem answerPieces (h : br.Room n) (env : Env) (tag : Byte) (ps : List ReadPiece) :
    (br.answerPieces env tag ps).1.Room n := by
  induction ps generalizing br with
  | nil => exact h
  | cons p ps ih => exact ih (h.scanPiece tag p)

theorem openAssembly (h : br.Room n) (q : Nat) (places : List (Option Byte)) : (br.openAssembly q places).Room n :=
  { h with }

theorem joinReads (h : br.Room n) (q place : Nat) (ps : List Part) : (br.joinReads q place ps).Room n := by
  obtain ⟨stream, births, hjoin⟩ := joinReads_eq br q place ps
  rw [hjoin]
  exact { h with }

theorem acceptRead (h : br.Room n) (hq : br.requests.length < 8) (env : Env) (r : ReadRequest) :
    (acceptRead env br r).Room n :=
  ((((h.takePlace hq true).countOutOfRange env _).answerPieces env r.tag _).openAssembly _ _).joinReads _ _ _

/-! ### Completions and waits (R182, R183) -/

/-- A completion takes the place of its status write. -/
theorem completeCommand (h : br.Room (n + 1)) (env : Env) (i : Nat) (entry : List Byte) (st : Status) (detail : Nat) :
    (br.completeCommand env i entry st detail).Room n :=
  { h.placeOwn .status (controlBase env.straps + 0x800 + 16 * i) (completedEntry entry st detail) with
    commandShadow := (overwrite_length ..).trans h.commandShadow
    nextIndex := Nat.mod_lt _ (by decide)
    inFlight := fun _ hf => nomatch hf }

theorem completeTaken (h : br.Room (n + 1)) (env : Env) (st : Status) (detail : Nat) :
    (br.completeTaken env st detail).Room n := h.completeCommand env _ _ st detail

/-- The command that waits is the entry at the next index (R179). -/
theorem waitTaken (h : br.Room n) (w : Wait) : (br.waitTaken w).Room n :=
  { h with
    inFlight := fun f hf => by
      cases hf
      exact ⟨rfl, commandEntry_length br _ h.commandShadow h.nextIndex⟩ }

/-! ### The takes (R181) -/

theorem takeConfigure (h : br.Room (n + 1)) (env : Env) : (takeConfigure env br).Room n := by
  unfold Machine.takeConfigure
  split
  · exact h.completeTaken env _ _
  · split
    · dsimp only
      split
      · exact h.completeTaken env _ _
      · exact (h.modView _ _).completeTaken env _ _
    · exact h.completeTaken env _ _

theorem takeTrack (h : br.Room (n + 1)) (env : Env) : (takeTrack env br).Room n := by
  unfold Machine.takeTrack
  split
  · exact h.completeTaken env _ _
  · split
    · exact (h.modView _ _).completeTaken env _ _
    · exact h.completeTaken env _ _

/-- The entry that PARK removes has a report (R14). -/
theorem parkWaiting (h : br.Room (n + 1)) (env : Env) (v : Fin 4) : (br.parkWaiting env v).Room n := by
  unfold Bridge.parkWaiting
  split
  · exact h.mono (Nat.le_succ n)
  · exact ((h.dropWaiting v).modView v _).unsolvedCompletion env _ _ _

theorem takePark (h : br.Room (n + 2)) (env : Env) : (takePark env br).Room n := by
  have hone : br.Room (n + 1) := h.mono (Nat.le_succ _)
  unfold Machine.takePark
  split
  · exact hone.completeTaken env _ _
  · rename_i v _
    have hstopped : ((br.parkWaiting env v).modView v View.dropAccum).Room (n + 1) := (h.parkWaiting env v).modView v _
    split
    · dsimp only
      split
      · exact ((hstopped.modView v _).waitTaken _).mono (Nat.le_succ n)
      · exact (hstopped.reachParked v).completeTaken env _ _
    · exact hone.completeTaken env _ _

theorem takeRelease (h : br.Room (n + 1)) (env : Env) : (takeRelease env br).Room n := by
  unfold Machine.takeRelease
  split
  · exact h.completeTaken env _ _
  · split
    · exact (h.modView _ _).completeTaken env _ _
    · exact h.completeTaken env _ _

theorem takeReleaseAll (h : br.Room (n + 1)) (env : Env) : (takeReleaseAll env br).Room n := by
  unfold Machine.takeReleaseAll
  split
  · exact (h.waitTaken _).mono (Nat.le_succ n)
  · exact h.releaseAll.completeTaken env _ _

theorem takeRebase (h : br.Room (n + 1)) (env : Env) : (takeRebase env br).Room n := by
  unfold Machine.takeRebase
  split
  · exact h.completeTaken env _ _
  · rename_i v _
    have hdrop : (br.modView v View.dropAccum).Room (n + 1) := h.modView v _
    split
    · dsimp only
      split
      · exact (hdrop.waitTaken _).mono (Nat.le_succ n)
      · exact (hdrop.modView v _).completeTaken env _ _
    · exact h.completeTaken env _ _

theorem takeTune (h : br.Room (n + 1)) (env : Env) : (takeTune env br).Room n := by
  unfold Machine.takeTune
  split
  · exact h.completeTaken env _ _
  · split
    · dsimp only
      split
      · exact (h.modView _ _).completeTaken env _ _
      · exact h.completeTaken env _ _
    · exact h.completeTaken env _ _

theorem takeZero (h : br.Room (n + 1)) (env : Env) : (takeZero env br).Room n := by
  have hzero : Bridge.Room (n + 1)
      { br with
        views := br.views.map (fun vw => vw.count (fun _ => ViewCounters.zero))
        glitchA := 0, glitchB := 0, outOfRange := 0 } := { h with }
  unfold Machine.takeZero
  split
  · exact (h.modView _ _).completeTaken env _ _
  · split
    · exact hzero.completeTaken env _ _
    · exact h.completeTaken env _ _

theorem takeEdge (h : br.Room (n + 1)) (env : Env) : (takeEdge env br).Room n := by
  unfold Machine.takeEdge
  split
  · exact h.completeTaken env _ _
  · split
    · exact h.completeTaken env _ _
    · exact (h.setRot _ _).completeTaken env _ _

/-- A take needs two places at most: of a report and of a status write. -/
theorem takeNext (h : br.Room (n + 2)) (env : Env) : (takeNext env br).Room n := by
  have hone : br.Room (n + 1) := h.mono (Nat.le_succ _)
  unfold Machine.takeNext
  split
  · exact hone.takeConfigure env
  · exact hone.takeTrack env
  · exact h.takePark env
  · exact hone.takeRelease env
  · exact hone.takeReleaseAll env
  · exact hone.takeRebase env
  · exact hone.takeTune env
  · exact hone.takeZero env
  · exact hone.takeEdge env
  · exact hone.completeTaken env _ _

/-! ### The solver (R71, R73, R89 to R93) -/

theorem solveResults (h : br.Room (n + 1)) (env : Env) (e : SolveEntry) (reopened : Bool) :
    (br.solveResults env e reopened).Room n :=
  have hstored : (br.solveStored e reopened).Room (n + 1) := (h.modView _ _).raiseIf _ _
  { (hstored.report env ((br.views.get e.frame.view).reportOf e reopened)).raise (.frame e.frame.view) with }

theorem finishWaiting (h : br.Room (n + 1)) (env : Env) (v : Fin 4) : (br.finishWaiting env v).Room n := by
  have hkept : br.Room n := h.mono (Nat.le_succ n)
  unfold Bridge.finishWaiting
  split
  · exact hkept
  · split
    · split
      · exact (h.reachParked _).completeCommand env _ _ _ _
      · exact hkept
    · split
      · exact (h.modView _ _).completeCommand env _ _ _ _
      · exact hkept
    · exact h.releaseAll.completeCommand env _ _ _ _

/-- The completion of a solve needs two places at most: of its report and of the status write of the command that waits. -/
theorem completeSolve (h : br.Room (n + 2)) (env : Env) : (br.completeSolve env).Room n := by
  cases hs : br.solver with
  | idle =>
    rw [Bridge.completeSolve, hs]
    exact h.mono (by omega)
  | busy e reopened ended =>
    rw [completeSolve_of_busy env br e reopened ended hs]
    exact (h.solveResults env e reopened).finishWaiting env _

theorem startSolve (h : br.Room n) : br.startSolve.Room n := by
  cases hc : canStartSolve br
  · rwa [startSolve_of_not br hc]
  · obtain ⟨-, hne, -⟩ := (canStartSolve_iff br).1 hc
    obtain ⟨e, rest, hq⟩ := List.exists_cons_of_ne_nil hne
    rw [startSolve_of_head br e rest hc hq]
    have hrest : ({ br with solverQueue := rest } : Bridge).Room n := h.dequeue (hq ▸ List.sublist_cons_self e rest)
    have hbusy : ({ br with solverQueue := rest, solver := .busy e false false } : Bridge).Room n := { hrest with }
    exact hbusy.modView _ _

end Bridge.Room

end Sys2Proof.Machine
end

section
/-! PROOF. Every step keeps queues, rings, shadows and DRAM in their form: urgent work does, and then each row of the table. -/

namespace Sys2Proof.Machine

open Laws

namespace Bridge.Shaped

variable {br : Bridge} (h : br.Shaped)
include h

/-! ### Urgent work (R73, R143, R180) -/

theorem completeSolve_of_due (env : Env) (hd : completionDue br = true) : (br.completeSolve env).Shaped := by
  have hfree : 3 ≤ br.ownFree := by
    unfold completionDue at hd
    split at hd
    · cases hd
    · exact of_decide_eq_true (Bool.and_eq_true_iff.1 hd).2
  exact ((h.room 3 hfree).completeSolve env).toShaped

theorem takeNext_of_due (env : Env) (hd : takeDue br = true) : (takeNext env br).Shaped := by
  have hfree : 3 ≤ br.ownFree := of_decide_eq_true (Bool.and_eq_true_iff.1 hd).2
  exact ((h.room 3 hfree).takeNext env).toShaped

theorem takeIfDue (env : Env) : (takeIfDue env br).Shaped :=
  takeIfDue_keeps Bridge.Shaped env br h (h.takeNext_of_due env)

/-- An accepted request finds a free place in each of the two queues (R143), and with four places for own writes its pieces
have enough; the take it makes available looks for room itself. -/
theorem acceptRequest (env : Env) (hc : canAccept env br = true) (r : Request) : (acceptRequest env br r).Shaped := by
  simp only [canAccept, Bool.and_eq_true, decide_eq_true_eq] at hc
  obtain ⟨⟨-, hq⟩, hfree⟩ := hc
  have hroom := h.room 4 hfree
  cases r with
  | write w =>
    obtain ⟨b, hb, haccept⟩ := hroom.acceptWrite hq env w
    rw [Machine.acceptRequest, haccept]
    exact hb.toShaped.takeIfDue env
  | read r => exact (hroom.acceptRead hq env r).toShaped

theorem offered (waiting : List Request) : ({ br with busWait := waiting } : Bridge).Shaped := { h with }

theorem acceptWaiting_of_due (env : Env) (hd : acceptDue env br = true) : (acceptWaiting env br).Shaped := by
  have hc : canAccept env br = true := (Bool.and_eq_true_iff.1 hd).2
  unfold acceptWaiting
  split
  · exact h
  · rename_i r rest _
    have hrest : ({ br with busWait := rest } : Bridge).Shaped := h.offered rest
    exact hrest.acceptRequest env hc r

theorem urgent (env : Env) (br' : Bridge) (hu : urgent env br = some br') : br'.Shaped :=
  urgent_keeps Bridge.Shaped env (fun _ h hd => h.completeSolve_of_due env hd) (fun _ h hd => h.takeNext_of_due env hd)
    (fun _ h hd => h.acceptWaiting_of_due env hd) br br' h hu

/-! ### Rotation and solver rows -/

theorem noRoom : br.Room 0 := ⟨h, h.ownWrites⟩

theorem rotationEdge (now : Stamp) (change : LevelChange) : (br.rotationEdge now change).Shaped :=
  have hset (r : RotInput) : (br.setRot change.input r).Room 0 := h.noRoom.setRot _ r
  rotationEdge_cases Bridge.Shaped now br change.input change.tsref (hset _).toShaped
    ((hset _).countGlitch _).toShaped (hset _).toShaped

theorem expireIfDue (now : Stamp) (i : RotId) : (br.expireIfDue now i).Shaped :=
  have hset : (br.setRot i (br.rot i).expired).Room 0 := h.noRoom.setRot i _
  expireIfDue_cases Bridge.Shaped now br i (fun _ => h) (fun _ _ => (hset.raise _).toShaped) (fun _ _ => hset.toShaped)

theorem endArithmetic : br.endArithmetic.Shaped := by
  unfold Bridge.endArithmetic
  split
  · exact h
  · exact { h with }

theorem startSolve : br.startSolve.Shaped := h.noRoom.startSolve.toShaped

end Bridge.Shaped

namespace State.Shaped

/-! ### The sequencer (chapter 8) -/

/-- R161: a pass raises a count of 3 at most. -/
theorem pass_passes (o : OwnWrite) (ho : o.passes ≤ 4) : o.pass.passes ≤ 4 := by
  unfold OwnWrite.pass
  dsimp only
  split <;> omega

variable {s : State} (h : s.Shaped)
include h

theorem issueUpstream : s.issueUpstream.Shaped := by
  unfold State.issueUpstream
  split
  · exact h
  · refine ⟨?_, wf_issue _ _ h.memory⟩
    exact
      { h.bridge with
        requests := (List.dropWhile_sublist _).length_le.trans h.bridge.requests
        ownWrites := List.length_map _ |>.trans_le h.bridge.ownWrites
        passes := fun o ho => by
          obtain ⟨u, hu, rfl⟩ := List.mem_map.1 ho
          exact pass_passes u (h.bridge.passes u hu) }

theorem issueOwn : s.issueOwn.Shaped := by
  unfold State.issueOwn
  split
  · exact h
  · rename_i o rest hown
    have hsub : rest.Sublist s.bridge.ownWrites := hown ▸ List.sublist_cons_self o rest
    exact ⟨{ h.bridge with
      ownWrites := hsub.length_le.trans h.bridge.ownWrites
      passes := fun u hu => h.bridge.passes u (hsub.subset hu) }, wf_issueOwn _ _ h.memory⟩

theorem returnData : s.returnData.Shaped := by
  unfold State.returnData
  split
  · exact h
  · exact ⟨{ h.bridge with }, h.memory⟩

theorem respond : s.respond.Shaped := by
  unfold State.respond
  split
  · exact h
  · dsimp only
    split_ifs
    · exact h
    · refine ⟨?_, h.memory⟩
      exact
        { h.bridge with
          requests := ((List.dropWhile_sublist _).length_le.trans_eq (List.length_map _)).trans h.bridge.requests }
    · exact ⟨{ h.bridge with }, h.memory⟩

/-! ### Urgent work and time -/

theorem settle : s.settle.Shaped :=
  ⟨settle_keeps Bridge.Shaped s (fun _ br' h => h.urgent s.env br') h.bridge, h.memory⟩

theorem settleTo (stop : Bridge → Bool) : (s.settleTo stop).Shaped :=
  ⟨settleTo_keeps Bridge.Shaped s stop (fun _ br' h => h.urgent s.env br') h.bridge, h.memory⟩

theorem tick : s.tick.Shaped := ⟨(h.bridge.expireIfDue _ .rota).expireIfDue _ .rotb, h.memory⟩

/-! ### Rows -/

theorem resetAssert (t : State) (ht : execResetAssert s = .next t) : t.Shaped := by
  unfold execResetAssert at ht
  split at ht <;> cases ht
  · exact h
  · exact ⟨reset_shaped .., wf_assertReset _ h.memory⟩

theorem resetRelease (t : State) (straps : Straps) (rota rotb : Bool)
    (ht : execResetRelease straps rota rotb s = .next t) : t.Shaped := by
  unfold execResetRelease at ht
  split at ht <;> cases ht
  · exact ⟨reset_shaped .., h.memory⟩
  · exact h

theorem timestampTick (t : State) (ht : execTimestampTick s = .next t) : t.Shaped := by
  unfold execTimestampTick at ht
  split at ht <;> cases ht
  · exact h
  · exact h.settle.tick

theorem offerRequest (t : State) (r : Request) (ht : offerRequest r s = .next t) : t.Shaped := by
  obtain ⟨-, rfl⟩ := offerRequest_next s t r ht
  unfold State.offer
  dsimp only
  split_ifs with _ hc
  · exact h.settle
  · exact ⟨h.settle.bridge.acceptRequest _ (Bool.and_eq_true_iff.1 hc).2 r, h.memory⟩
  · exact ⟨h.settle.bridge.offered _, h.memory⟩

theorem takeRow (t : State) (kind : CommandKind) (ht : takeRow kind (takeOf kind) s = .next t) : t.Shaped := by
  have hs := h.settleTo (takeDueOf kind)
  obtain ⟨hd, rfl⟩ | rfl := takeRow_cases kind _ s t ht
  · obtain ⟨hdue, hk⟩ := takeNext_of_dueOf _ _ hd
    have htaken := hs.bridge.takeNext_of_due s.env hdue
    rw [takeNext_eq_takeOf, hk] at htaken
    exact ⟨htaken, h.memory⟩
  · exact hs

theorem upstreamOperationIssue (t : State) (ht : execUpstreamOperationIssue s = .next t) : t.Shaped := by
  unfold execUpstreamOperationIssue at ht
  split at ht <;> cases ht
  · exact h.settle.issueUpstream
  · exact h.settle

theorem ownWriteIssue (t : State) (ht : execOwnWriteIssue s = .next t) : t.Shaped := by
  unfold execOwnWriteIssue at ht
  split at ht <;> cases ht
  · exact h.settle.issueOwn
  · exact h.settle

theorem solveCompletion (t : State) (ht : execSolveCompletion s = .next t) : t.Shaped := by
  have hs := h.settleTo completionDue
  unfold execSolveCompletion at ht
  dsimp only at ht
  split at ht <;> cases ht
  · rename_i hd
    exact ⟨hs.bridge.completeSolve_of_due _ hd, h.memory⟩
  · exact hs

theorem rotationEdge (t : State) (change : LevelChange) (ht : execRotationEdge change s = .next t) : t.Shaped := by
  unfold execRotationEdge at ht
  split at ht <;> cases ht
  · exact h
  · exact ⟨h.settle.bridge.rotationEdge _ change, h.memory⟩

theorem exec (t : State) (c : Instr) (ht : exec c s = .next t) : t.Shaped := by
  have hring (kind : CommandKind) (hc : (c, kind) ∈ ringRows) : t.Shaped :=
    h.takeRow t kind ((exec_eq_takeRow c kind s hc).symm.trans ht)
  cases c with
  | resetAssert => exact h.resetAssert t ht
  | resetRelease straps rota rotb => exact h.resetRelease t straps rota rotb ht
  | memoryInitializationComplete => cases ht; exact ⟨h.bridge, h.memory⟩
  | timestampTick => exact h.timestampTick t ht
  | write w => exact h.offerRequest t _ ht
  | controlWrite w => exact h.offerRequest t _ ht
  | acknowledge w => exact h.offerRequest t _ ht
  | mask w => exact h.offerRequest t _ ht
  | reportOwnerWrite w => exact h.offerRequest t _ ht
  | read r => exact h.offerRequest t _ ht
  | presentationRead r => exact h.offerRequest t _ ht
  | upstreamOperationIssue => exact h.upstreamOperationIssue t ht
  | ownWriteIssue => exact h.ownWriteIssue t ht
  | operationDataReturn => cases ht; exact h.settle.returnData
  | readResponse => cases ht; exact h.settle.respond
  | configure => exact hring .configure (by simp [ringRows, viewRows])
  | track => exact hring .track (by simp [ringRows, viewRows])
  | park => exact hring .park (by simp [ringRows, viewRows])
  | release => exact hring .release (by simp [ringRows, viewRows])
  | releaseAll => exact hring .releaseAll (by simp [ringRows])
  | rebase => exact hring .rebase (by simp [ringRows, viewRows])
  | tune => exact hring .tune (by simp [ringRows, viewRows])
  | zero => exact hring .zero (by simp [ringRows])
  | edge => exact hring .edge (by simp [ringRows])
  | badCode => exact hring .badCode (by simp [ringRows])
  | solveStart => cases ht; exact ⟨(h.settleTo _).bridge.startSolve, h.memory⟩
  | solveArithmeticEnd => cases ht; exact ⟨h.settle.bridge.endArithmetic, h.memory⟩
  | solveCompletion => exact h.solveCompletion t ht
  | rotationEdge change => exact h.rotationEdge t change ht
  | staleTimeout input => cases ht; exact ⟨h.settle.bridge.expireIfDue _ input, h.memory⟩

end State.Shaped

/-- Settles O57, by the row at the front of the queue (`State.Shaped.exec`), or urgent work where there is none; what each
piece of work needs of the own-write queue is counted by `Bridge.Room`. -/
theorem stepsKeepTheShape : Obligations.StepsKeepTheShape := by
  unfold Obligations.StepsKeepTheShape
  intro s t h ht
  unfold step at ht
  split at ht
  · cases ht
    exact h.settle
  · rename_i c rest _
    exact State.Shaped.exec (s := { s with pending := rest }) ⟨h.bridge, h.memory⟩ t c ht

end Sys2Proof.Machine
end

section
/-! PROOF. The arbiter (R161 to R163): promotion and hold as the model computes them, and its choice step by step. -/

namespace Sys2Proof.Machine

open Laws

/-! ### Promotion and hold (R162, R163) -/

theorem promotes_iff (op : UpOp) (own : List OwnWrite) : op.promotes own = true ↔ op.Marked own := by
  unfold UpOp.promotes UpOp.Marked
  cases op.mark with
  | none => simp
  | some n =>
    rw [List.any_eq_true]
    exact exists_congr fun o => and_congr_right fun _ => by rw [beq_iff_eq, Option.some.injEq, eq_comm]

/-- Two ranges that are not empty overlap exactly where they share an address: the greater of their first ones. -/
theorem spansMeet_iff (a n b m : Nat) (hn : 0 < n) (hm : 0 < m) :
    spansMeet a n b m = true ↔ ∃ x, a ≤ x ∧ x < a + n ∧ b ≤ x ∧ x < b + m := by
  rw [spansMeet, Bool.and_eq_true, decide_eq_true_eq, decide_eq_true_eq]
  constructor
  · rintro ⟨hab, hba⟩
    exact ⟨max a b, by omega, by omega, by omega, by omega⟩
  · rintro ⟨x, hax, hxa, hbx, hxb⟩
    exact ⟨by omega, by omega⟩

theorem isHeld_iff (o : OwnWrite) (stream : List UpOp) (ho : 0 < o.bytes.length) (hs : ∀ op ∈ stream, 0 < op.kind.size) :
    o.isHeld stream = true ↔ o.Held stream := by
  rw [OwnWrite.isHeld, List.any_eq_true]
  refine exists_congr fun op => and_congr_right fun hop => ?_
  rw [Bool.and_eq_true, decide_eq_true_eq, spansMeet_iff _ _ _ _ (hs op hop) ho]

/-! ### The choice (R161) -/

theorem arbiter_of_no_own (br : Bridge) (hs : br.stream ≠ []) (ho : br.ownWrites = []) : arbiter br = some .upstream := by
  obtain ⟨op, ops, hs⟩ := List.exists_cons_of_ne_nil hs
  simp only [arbiter, hs, ho]

theorem arbiter_of_no_stream (br : Bridge) (hs : br.stream = []) (ho : br.ownWrites ≠ []) : arbiter br = some .own := by
  obtain ⟨o, os, ho⟩ := List.exists_cons_of_ne_nil ho
  simp only [arbiter, hs, ho]

/-- The six steps, with log 27, while both streams hold an operation. -/
theorem arbiter_of_both (br : Bridge) (op : UpOp) (ops : List UpOp) (o : OwnWrite) (os : List OwnWrite)
    (hs : br.stream = op :: ops) (ho : br.ownWrites = o :: os) :
    arbiter br =
      if op.promotes br.ownWrites then some .own
      else if op.promoted then some .upstream
      else if o.isHeld br.stream then some .upstream
      else if 8 ≤ br.ownWrites.length then some .own
      else if o.passes = 4 then some .own
      else some .upstream := by
  simp only [arbiter, hs, ho]

/-- Settles O27: the cases of the streams, and of the six steps where neither is empty (`arbiter_of_both`), with marks and
holds in the words of the statement (`promotes_iff`, `isHeld_iff`). -/
theorem arbiterFollowsItsSteps : Obligations.ArbiterFollowsItsSteps := by
  unfold Obligations.ArbiterFollowsItsSteps
  intro br hsize hbytes
  refine ⟨fun hs ho => by simp only [arbiter, hs, ho], arbiter_of_no_own br, arbiter_of_no_stream br,
    fun op ops o os hs ho => ?_⟩
  have hheld : o.isHeld br.stream = true ↔ o.Held br.stream := isHeld_iff o _ (hbytes o (by simp [ho])) hsize
  rw [arbiter_of_both br op ops o os hs ho, ← promotes_iff, ← hheld]
  refine ⟨fun hm => if_pos hm, fun hm hp => ?_, fun hm hh => ?_, fun hm hp hh hl => ?_, fun hm hp hh h4 => ?_,
    fun hm hh hl h4 => ?_⟩
  · rw [if_neg hm, if_pos hp]
  · rw [if_neg hm, if_pos hh, ite_self]
  · rw [if_neg hm, if_neg (by simp [hp]), if_neg hh, if_pos hl]
  · rw [if_neg hm, if_neg (by simp [hp]), if_neg hh, if_pos h4, ite_self]
  · rw [if_neg hm, if_neg hh, if_neg (Nat.not_le.2 hl), if_neg h4, ite_self]

end Sys2Proof.Machine
end

section
/-! PROOF. The issues and the return of data (R157, R161 to R165): what an operation that the DRAM controller takes makes of its
bytes, and where returned data goes. -/

namespace Sys2Proof.Machine

open Laws

/-! ### The bytes of DRAM (R157) -/

/-- A byte of a write whose enable is set is in DRAM afterwards. -/
theorem readByte_writeBytes_of_enabled (m : List Host.Cell) (a n : Nat) (bytes : List WriteByte) (x : WriteByte)
    (hx : bytes[n]? = some x) (he : x.enable = true) : Memory.readByte (Memory.writeBytes m a bytes) (a + n) = x.data := by
  obtain ⟨hn, -⟩ := List.getElem?_eq_some_iff.1 hx
  rw [readByte_writeBytes, Nat.add_sub_cancel_left, hx, if_pos ⟨by omega, by omega, he⟩]
  rfl

/-- An address that no enabled byte of a write has keeps its byte. -/
theorem readByte_writeBytes_of_other (m : List Host.Cell) (a b : Nat) (bytes : List WriteByte)
    (h : ∀ n x, bytes[n]? = some x → x.enable = true → b ≠ a + n) :
    Memory.readByte (Memory.writeBytes m a bytes) b = Memory.readByte m b := by
  rw [readByte_writeBytes, if_neg]
  rintro ⟨hab, -, he⟩
  cases hx : bytes[b - a]? with
  | none => rw [hx] at he; cases he
  | some x =>
    rw [hx] at he
    exact h (b - a) x hx he (by omega)

/-! ### UPSTREAM_OPERATION_ISSUE (R161) -/

theorem exec_upstreamOperationIssue_of_chosen (s : State) (hq : s.quiet = true)
    (ha : arbiter s.bridge = some .upstream) : exec .upstreamOperationIssue s = .next s.issueUpstream := by
  simp only [exec, execUpstreamOperationIssue, settle_of_quiet s hq, if_pos ha]

theorem issueUpstream_of_head (s : State) (op : UpOp) (rest : List UpOp) (hs : s.bridge.stream = op :: rest) :
    s.issueUpstream = { s with
      bridge := ({ s.bridge with stream := rest, ownWrites := s.bridge.ownWrites.map OwnWrite.pass } : Bridge).freePlaces
      dram := s.dram.issue op } := by
  simp only [State.issueUpstream, hs]

theorem issue_of_write (d : Dram) (op : UpOp) (bytes : List WriteByte) (hk : op.kind = .write bytes) :
    d.issue op =
      { d.take op.address bytes.length false with cells := Memory.writeBytes d.cells op.address bytes } := by
  simp only [Dram.issue, hk]

theorem issue_of_read (d : Dram) (op : UpOp) (length skip count place : Nat)
    (hk : op.kind = .read length skip count place) :
    d.issue op =
      { d.take op.address length true with
        returning := d.returning ++
          [{ request := op.request, data := Memory.readBytes d.cells op.address length, skip := skip, count := count
             place := place }] } := by
  simp only [Dram.issue, hk]

/-- Settles O28: the head leaves the stream (`issueUpstream_of_head`), and DRAM takes it as a write (`issue_of_write`) or as
a read (`issue_of_read`). -/
theorem upstreamIssueReachesDram : Obligations.UpstreamIssueReachesDram := by
  unfold Obligations.UpstreamIssueReachesDram
  intro s op rest hq hs ha
  refine ⟨_, (exec_upstreamOperationIssue_of_chosen s hq ha).trans
      (congrArg Host.Outcome.next (issueUpstream_of_head s op rest hs)),
    rfl, rfl, rfl, rfl, ⟨rfl, rfl, rfl, rfl, rfl⟩, ⟨rfl, rfl, rfl, rfl, rfl, rfl⟩, ⟨rfl, rfl, rfl, rfl⟩, rfl, rfl, rfl,
    fun bytes hk => ?_, fun length skip count place hk => ?_⟩
  · rw [issue_of_write s.dram op bytes hk]
    exact ⟨fun n x hx he => readByte_writeBytes_of_enabled s.dram.cells op.address n bytes x hx he,
      fun a hother => readByte_writeBytes_of_other s.dram.cells op.address a bytes hother, rfl, _, rfl⟩
  · rw [issue_of_read s.dram op length skip count place hk]
    exact ⟨rfl, ⟨_, rfl⟩, _, rfl, rfl, rfl, rfl, rfl, readBytes_length .., fun n hn => readBytes_getElem? _ _ _ n hn⟩

/-! ### OWN_WRITE_ISSUE (R161, R162, R164) -/

theorem exec_ownWriteIssue_of_chosen (s : State) (hq : s.quiet = true) (ha : arbiter s.bridge = some .own) :
    exec .ownWriteIssue s = .next s.issueOwn := by
  simp only [exec, execOwnWriteIssue, settle_of_quiet s hq, if_pos ha]

theorem issueOwn_of_head (s : State) (o : OwnWrite) (rest : List OwnWrite) (ho : s.bridge.ownWrites = o :: rest) :
    s.issueOwn = { s with
      bridge := { s.bridge with ownWrites := rest, stream := promoteHead o.birth s.bridge.stream }
      dram := s.dram.issueOwn o } := by
  simp only [State.issueOwn, ho]

/-- R162: the head of the stream is promoted exactly where its mark names the own write. -/
theorem promoteHead_of_head (birth : Nat) (op : UpOp) (ops : List UpOp) :
    promoteHead birth (op :: ops) = { op with promoted := op.promoted || decide (op.mark = some birth) } :: ops := by
  rw [promoteHead_cons, beq_eq_decide]

/-- R164: an own write reaches DRAM whole. -/
theorem issueOwn_readByte (d : Dram) (o : OwnWrite) (n : Nat) (x : Byte) (hx : o.bytes[n]? = some x) :
    Memory.readByte (d.issueOwn o).cells (o.address + n) = x := by
  obtain ⟨hn, -⟩ := List.getElem?_eq_some_iff.1 hx
  rw [Dram.issueOwn, readByte_writeBytes_all, if_pos (by omega), Nat.add_sub_cancel_left, hx]
  rfl

theorem issueOwn_readByte_of_other (d : Dram) (o : OwnWrite) (a : Nat)
    (h : ¬ (o.address ≤ a ∧ a < o.address + o.bytes.length)) :
    Memory.readByte (d.issueOwn o).cells a = Memory.readByte d.cells a := by
  rw [Dram.issueOwn, readByte_writeBytes_all, if_neg h]

/-- Settles O29: the entry leaves its queue (`issueOwn_of_head`) and DRAM holds its bytes (`issueOwn_readByte`) and all others
as before (`issueOwn_readByte_of_other`). -/
theorem ownWriteReachesDramWhole : Obligations.OwnWriteReachesDramWhole := by
  unfold Obligations.OwnWriteReachesDramWhole
  intro s o rest hq ho ha
  refine ⟨_, (exec_ownWriteIssue_of_chosen s hq ha).trans (congrArg Host.Outcome.next (issueOwn_of_head s o rest ho)),
    issueOwn_readByte s.dram o, issueOwn_readByte_of_other s.dram o, rfl, fun hs => ?_, fun op ops hs => ?_, ⟨_, rfl⟩, rfl,
    rfl, rfl, rfl⟩
  · exact congrArg (promoteHead o.birth) hs
  · exact (congrArg (promoteHead o.birth) hs).trans (promoteHead_of_head ..)

/-! ### OPERATION_DATA_RETURN (R165, R171) -/

theorem exec_operationDataReturn_of_quiet (s : State) (hq : s.quiet = true) :
    exec .operationDataReturn s = .next s.returnData :=
  congrArg (fun s : State => Host.Outcome.next s.returnData) (settle_of_quiet s hq)

theorem returnData_of_head (s : State) (q : ReturningRead) (rest : List ReturningRead)
    (hs : s.dram.returning = q :: rest) :
    ∃ performing, s.returnData = { s with
      bridge := { s.bridge with assemblies := s.bridge.assemblies.map (fun a => a.fill q) }
      dram := { s.dram with returning := rest, performing := performing } } := by
  simp only [State.returnData, hs]
  exact ⟨_, rfl⟩

/-- R165: the bytes that the read operation takes of its data. -/
def ReturningRead.taken (q : ReturningRead) : List Byte := (q.data.drop q.skip).take q.count

theorem taken_getElem? (q : ReturningRead) (n : Nat) (hn : n < q.count) : q.taken[n]? = q.data[q.skip + n]? := by
  rw [ReturningRead.taken, List.getElem?_take_of_lt hn, List.getElem?_drop]

theorem taken_length (q : ReturningRead) (h : q.skip + q.count ≤ q.data.length) : q.taken.length = q.count := by
  rw [ReturningRead.taken, List.length_take, List.length_drop]
  omega

theorem fill_of_other (a : Assembly) (q : ReturningRead) (h : a.request ≠ q.request) : a.fill q = a := if_neg h

theorem fill_of_own (a : Assembly) (q : ReturningRead) (h : a.request = q.request) :
    a.fill q = { a with places := fillPlaces a.places q.place q.taken } := if_pos h

theorem fill_frame (a : Assembly) (q : ReturningRead) :
    (a.fill q).request = a.request ∧ (a.fill q).returned = a.returned ∧ (a.fill q).places.length = a.places.length := by
  by_cases h : a.request = q.request
  · rw [fill_of_own a q h]
    exact ⟨rfl, rfl, fillPlaces_length ..⟩
  · rw [fill_of_other a q h]
    exact ⟨rfl, rfl, rfl⟩

/-- An empty place that the data is for takes its byte. -/
theorem fillPlaces_of_empty (places : List (Option Byte)) (first n : Nat) (bytes : List Byte) (hn : n < bytes.length)
    (h : places[first + n]? = some none) : (fillPlaces places first bytes)[first + n]? = some bytes[n]? := by
  rw [fillPlaces_getElem?, if_pos (Nat.le_add_right first n), Nat.add_sub_cancel_left, h, List.getElem?_eq_getElem hn]
  rfl

/-- A filled place keeps its value (R171). -/
theorem fillPlaces_of_filled (places : List (Option Byte)) (first n : Nat) (bytes : List Byte) (x : Byte)
    (h : places[n]? = some (some x)) : (fillPlaces places first bytes)[n]? = some (some x) := by
  rw [fillPlaces_getElem?, h]
  split
  · split <;> rfl
  · rfl

theorem fillPlaces_of_outside (places : List (Option Byte)) (first n : Nat) (bytes : List Byte)
    (h : n < first ∨ first + bytes.length ≤ n) : (fillPlaces places first bytes)[n]? = places[n]? := by
  rw [fillPlaces_getElem?]
  split
  · rw [List.getElem?_eq_none (by omega)]
  · rfl

/-- Settles O30: every record is filled by the data that returns (`returnData_of_head`), which changes that of its request
alone (`fill_of_other`), and of it no more than the empty places it is for (`fillPlaces_of_empty`, `fillPlaces_of_filled`,
`fillPlaces_of_outside`). -/
theorem returnedDataFillsItsPlaces : Obligations.ReturnedDataFillsItsPlaces := by
  unfold Obligations.ReturnedDataFillsItsPlaces
  intro s q rest hq hs hcount
  obtain ⟨performing, hreturn⟩ := returnData_of_head s q rest hs
  refine ⟨_, (exec_operationDataReturn_of_quiet s hq).trans (congrArg Host.Outcome.next hreturn), rfl, rfl,
    List.length_map _, fun i a b ha hb => ?_, rfl, rfl, rfl, rfl, ⟨rfl, rfl, rfl, rfl, rfl, rfl⟩, ⟨rfl, rfl, rfl, rfl⟩,
    ⟨rfl, rfl, rfl, rfl, rfl⟩, rfl, rfl, rfl⟩
  obtain rfl : a.fill q = b := by
    rw [List.getElem?_map, ha] at hb
    exact Option.some.inj hb
  obtain ⟨hrequest, hreturned, hlength⟩ := fill_frame a q
  refine ⟨hrequest, hreturned, hlength, fill_of_other a q, fun hown => ?_⟩
  rw [fill_of_own a q hown]
  have htaken := taken_length q hcount
  refine ⟨fun n hn hempty => ?_, fun n x => fillPlaces_of_filled a.places q.place n q.taken x,
    fun n hout => fillPlaces_of_outside a.places q.place n q.taken (by omega)⟩
  rw [← taken_getElem? q n hn]
  exact fillPlaces_of_empty a.places q.place n q.taken (by omega) hempty

end Sys2Proof.Machine
end

section
/-! PROOF. The control region's event words (R173 to R175): writes of the acknowledge word and of the mask word, and ATTN. -/

namespace Sys2Proof.Machine

open Laws

/-! ### Lanes of a word (R198) -/

/-- R198: a byte in lane `lane` of a word is the eight bits from bit 8·lane on. -/
theorem laneWord_getLsbD (lane : Nat) (d : Byte) (n : Nat) (hn : n < 32) :
    (laneWord lane d).getLsbD n = (decide (n / 8 = lane) && d.getLsbD (n % 8)) := by
  rw [laneWord, BitVec.getLsbD_shiftLeft, BitVec.getLsbD_setWidth, decide_eq_true hn, Bool.true_and]
  by_cases hbelow : n < 8 * lane
  · have hlane : ¬ n / 8 = lane := by omega
    simp [hbelow, hlane]
  · by_cases hlane : n / 8 = lane
    · have hbit : n - 8 * lane = n % 8 := by omega
      have hlt : n % 8 < 32 := by omega
      simp [hbelow, hlane, hbit, hlt]
    · have habove : d.getLsbD (n - 8 * lane) = false := BitVec.getLsbD_of_ge _ _ (by omega)
      simp [hlane, habove]

/-- `put` gives lane `lane` of a shadow the byte `d` bit by bit: a bit of that lane becomes `bit` of its value and the bit
of `d`, and the bits of the other lanes stay. -/
def PutsLane {m : Nat} (put : BitVec m → Nat → Byte → BitVec m) (bit : Bool → Bool → Bool) : Prop :=
  ∀ (x : BitVec m) (lane : Nat) (d : Byte) (n : Nat), n < m →
    (put x lane d).getLsbD n = if n / 8 = lane then bit (x.getLsbD n) (d.getLsbD (n % 8)) else x.getLsbD n

/-- R173: a pending bit stays where the acknowledge byte of its lane holds 0. -/
theorem acknowledgeByte_putsLane : PutsLane acknowledgeByte (fun x b => x && !b) := by
  intro x lane d n hn
  have hlane := laneWord_getLsbD lane d n (by omega)
  rw [acknowledgeByte, BitVec.getLsbD_and, BitVec.getLsbD_not, BitVec.getLsbD_setWidth, hlane, decide_eq_true hn]
  by_cases h : n / 8 = lane <;> simp [h]

/-- R174: a bit of the mask takes the value of the mask byte of its lane. -/
theorem maskByte_putsLane : PutsLane maskByte (fun _ b => b) := by
  intro x lane d n hn
  have hones : (0xFF : Byte).getLsbD (n % 8) = true := by
    rw [show (0xFF : Byte) = BitVec.allOnes 8 from rfl, BitVec.getLsbD_allOnes, decide_eq_true (by omega)]
  rw [maskByte, BitVec.getLsbD_or, BitVec.getLsbD_and, BitVec.getLsbD_not, laneWord_getLsbD _ _ _ hn,
    laneWord_getLsbD _ _ _ hn, hones, decide_eq_true hn]
  by_cases h : n / 8 = lane <;> simp [h]

/-- A shadow with the enabled bytes of `bs` put into it, from lane `first` on. -/
def putLanes {m : Nat} (put : BitVec m → Nat → Byte → BitVec m) (x : BitVec m) (first : Nat) : List WriteByte → BitVec m
  | [] => x
  | b :: bs => putLanes put (if b.enable then put x first b.data else x) (first + 1) bs

/-- A bit of a lane below those written stays. -/
theorem putLanes_before {m : Nat} {put : BitVec m → Nat → Byte → BitVec m} {bit : Bool → Bool → Bool}
    (h : PutsLane put bit) (x : BitVec m) (first n : Nat) (bs : List WriteByte) (hn : n < m) (hlane : n / 8 < first) :
    (putLanes put x first bs).getLsbD n = x.getLsbD n := by
  induction bs generalizing x first with
  | nil => rfl
  | cons b bs ih =>
    rw [putLanes, ih _ _ (by omega)]
    split
    · rw [h x first b.data n hn, if_neg (by omega)]
    · rfl

/-- A bit of a lane from `first` on, after the write: it has changed where its byte is enabled. -/
theorem putLanes_getLsbD {m : Nat} {put : BitVec m → Nat → Byte → BitVec m} {bit : Bool → Bool → Bool}
    (h : PutsLane put bit) (x : BitVec m) (first n : Nat) (bs : List WriteByte) (hn : n < m) (hlane : first ≤ n / 8) :
    (putLanes put x first bs).getLsbD n =
      ((enabledByte bs (n / 8 - first)).map (fun d => bit (x.getLsbD n) (d.getLsbD (n % 8)))).getD (x.getLsbD n) := by
  induction bs generalizing x first with
  | nil => simp [putLanes, enabledByte]
  | cons b bs ih =>
    rw [putLanes]
    by_cases hfirst : n / 8 = first
    · rw [putLanes_before h _ _ _ _ hn (by omega), hfirst, Nat.sub_self]
      cases hb : b.enable
      · simp [enabledByte, hb]
      · simp [enabledByte, hb, h x first b.data n hn, hfirst]
    · have hkeep : (if b.enable then put x first b.data else x).getLsbD n = x.getLsbD n := by
        split
        · rw [h x first b.data n hn, if_neg hfirst]
        · rfl
      have hnext : n / 8 - first = n / 8 - (first + 1) + 1 := by omega
      rw [ih _ _ (by omega), hkeep, hnext]
      rfl

/-! ### Writes of the event words (R170, R173, R174) -/

/-- A stretch of bytes written into a word whose bytes act on one shadow, from lane `first` on: `hold x` is the bridge in
which that shadow is `x`, and `off` is the word's offset. -/
theorem writeControl_lanes {m : Nat} (hold : BitVec m → Bridge) (put : BitVec m → Nat → Byte → BitVec m) (off : Nat)
    (hput : ∀ x lane d, lane < 4 → (hold x).writeControlByte (off + lane) d = hold (put x lane d)) (base a : Nat)
    (bs : List WriteByte) (n : Nat) (x : BitVec m) (first : Nat) (ha : a + n = base + off + first)
    (hfit : first + bs.length ≤ 4) :
    (hold x).writeControl base ((bs.zipIdx n).map (fun p => (a + p.2, p.1))) = hold (putLanes put x first bs) := by
  induction bs generalizing n x first with
  | nil => rfl
  | cons b bs ih =>
    simp only [List.length_cons] at hfit
    have hoff : a + n - base = off + first := by omega
    have hstep : (if b.enable then (hold x).writeControlByte (a + n - base) b.data else hold x) =
        hold (if b.enable then put x first b.data else x) := by
      split
      · rw [hoff]
        exact hput x first b.data (by omega)
      · rfl
    calc (hold x).writeControl base (((b :: bs).zipIdx n).map (fun p => (a + p.2, p.1)))
        = (if b.enable then (hold x).writeControlByte (a + n - base) b.data else hold x).writeControl base
            ((bs.zipIdx (n + 1)).map (fun p => (a + p.2, p.1))) := rfl
      _ = hold (putLanes put x first (b :: bs)) := by
        rw [hstep]
        exact ih (n + 1) _ (first + 1) (by omega) (by omega)

theorem writeControlByte_acknowledge (br : Bridge) (lane : Nat) (d : Byte) (h : lane < 4) :
    br.writeControlByte (0x4 + lane) d = { br with events := acknowledgeByte br.events lane d } := by
  unfold Bridge.writeControlByte
  rw [if_pos (by omega), Nat.add_sub_cancel_left]

theorem writeControlByte_mask (br : Bridge) (lane : Nat) (d : Byte) (h : lane < 4) :
    br.writeControlByte (0x8 + lane) d = { br with mask := maskByte br.mask lane d } := by
  unfold Bridge.writeControlByte
  rw [if_neg (by omega), if_pos (by omega), Nat.add_sub_cancel_left]

/-- The bridge with a forwarded write, a pending event set and a mask. -/
def Bridge.eventsWritten (br : Bridge) (w : WriteRequest) (events : BitVec 19) (mask : BitVec 32) : Bridge :=
  { br.forwardWrite w with events := events, mask := mask }

/-- R143, R170: a write of one word of the control region that is offered to an open port and acts on the pending event set
and the mask alone. The command ring is as before, so the acceptance makes no take available. -/
theorem exec_write_eventsWritten (s : State) (w : WriteRequest) (off : Nat) (events : BitVec 19) (mask : BitVec 32)
    (hopen : s.open = true) (ha : controlActive s.env.straps = true)
    (haddr : w.address.toNat = controlBase s.env.straps + off) (hoff : off % 4 = 0) (hfit : off + 4 ≤ 0x2000)
    (hlen : w.bytes.length = 4)
    (hwrite : (s.bridge.forwardWrite w).writeControl (controlBase s.env.straps) (writeCells w) =
      s.bridge.eventsWritten w events mask) :
    exec (.write w) s = .next { s with bridge := (s.bridge.eventsWritten w events mask).freePlaces } := by
  have hwell : (Request.write w).wellFormed = true := by
    have hbase := controlBase_mod4 s.env.straps
    simp [Request.wellFormed, WriteRequest.wellFormed, hlen, haddr]
    omega
  have hdue : takeDue (s.bridge.eventsWritten w events mask).freePlaces = false := takeDue_of_open s hopen _ rfl rfl rfl
  refine exec_write_of_open s w hwell hopen _ ?_
  rw [acceptWrite_control s.env s.bridge w off ha haddr (bytes_ne_nil_of_wellFormed hwell) (by omega), hwrite,
    takeIfDue_of_not_due _ _ hdue]

/-- R148: such a write changes no more than the pending event set and the mask, beside its place and its operation. -/
theorem eventsWritten_frame (s : State) (w : WriteRequest) (events : BitVec 19) (mask : BitVec 32) :
    s.Forwarded { s with bridge := (s.bridge.eventsWritten w events mask).freePlaces } w
      ∧ s.PassFrame { s with bridge := (s.bridge.eventsWritten w events mask).freePlaces } := by
  obtain ⟨op, hstream, hop⟩ := forwardWrite_stream s.bridge w
  exact ⟨⟨⟨op, hstream, hop⟩, rfl, rfl⟩,
    ⟨⟨rfl, rfl, rfl, rfl, rfl, rfl, rfl, rfl, rfl, rfl, rfl⟩, rfl, rfl, rfl, rfl, rfl⟩⟩

/-- Settles O13: the write puts its enabled bytes into the pending event set (`writeControl_lanes`), where each clears the
bits it holds as 1 (`acknowledgeByte_putsLane`). -/
theorem acknowledgeClearsPendingBits : Obligations.AcknowledgeClearsPendingBits := by
  unfold Obligations.AcknowledgeClearsPendingBits
  intro s w hopen ha haddr hlen
  have hwrite := writeControl_lanes (fun x => s.bridge.eventsWritten w x s.bridge.mask) acknowledgeByte 0x4
    (fun _ lane d hlane => writeControlByte_acknowledge _ lane d hlane) (controlBase s.env.straps) w.address.toNat w.bytes 0
    s.bridge.events 0 haddr (by omega)
  obtain ⟨hforwarded, hpass⟩ :=
    eventsWritten_frame s w (putLanes acknowledgeByte s.bridge.events 0 w.bytes) s.bridge.mask
  refine ⟨_, exec_write_eventsWritten s w 0x4 _ _ hopen ha haddr rfl (by omega) hlen hwrite, fun n hn => ?_, hforwarded,
    hpass, rfl, rfl, rfl, rfl⟩
  refine (putLanes_getLsbD acknowledgeByte_putsLane s.bridge.events 0 n w.bytes hn (Nat.zero_le _)).trans ?_
  rw [Nat.sub_zero, ← enabled_eq_enabledByte]
  cases w.enabled (n / 8) <;> simp

/-- Settles O14: the write puts its enabled bytes into the mask (`writeControl_lanes`), where each replaces the bits of its
lane (`maskByte_putsLane`). -/
theorem maskWriteReplacesEnabledBytes : Obligations.MaskWriteReplacesEnabledBytes := by
  unfold Obligations.MaskWriteReplacesEnabledBytes
  intro s w hopen ha haddr hlen
  have hwrite := writeControl_lanes (fun x => s.bridge.eventsWritten w s.bridge.events x) maskByte 0x8
    (fun _ lane d hlane => writeControlByte_mask _ lane d hlane) (controlBase s.env.straps) w.address.toNat w.bytes 0
    s.bridge.mask 0 haddr (by omega)
  obtain ⟨hforwarded, hpass⟩ := eventsWritten_frame s w s.bridge.events (putLanes maskByte s.bridge.mask 0 w.bytes)
  refine ⟨_, exec_write_eventsWritten s w 0x8 _ _ hopen ha haddr rfl (by omega) hlen hwrite, fun n hn => ?_, hforwarded,
    hpass, rfl, rfl, rfl, rfl⟩
  exact putLanes_getLsbD maskByte_putsLane s.bridge.mask 0 n w.bytes hn (Nat.zero_le _)

/-! ### ATTN (R175) -/

theorem bitVec_ne_zero_iff {m : Nat} (x : BitVec m) : x ≠ 0 ↔ ∃ n, n < m ∧ x.getLsbD n = true := by
  rw [Ne, BitVec.eq_of_getLsbD_eq_iff]
  simp

/-- Settles O15: ATTN says that the pending events in the mask are not none, so that a bit of them is set
(`bitVec_ne_zero_iff`). -/
theorem attnIsACommonBit : Obligations.AttnIsACommonBit := by
  unfold Obligations.AttnIsACommonBit
  intro s
  rw [State.attn, Bridge.attn, bne_iff_ne, bitVec_ne_zero_iff]
  refine exists_congr fun n => and_congr_right fun hn => ?_
  rw [BitVec.getLsbD_and, BitVec.getLsbD_setWidth, decide_eq_true hn, Bool.true_and, Bool.and_eq_true]

end Sys2Proof.Machine
end

section
/-! PROOF. The refusal of an unknown command code (R181, R183). -/

namespace Sys2Proof.Machine

open Laws

/-- R159, R183: a completion queues one own write. -/
theorem completeTaken_ownWrites_length (br : Bridge) (env : Env) (st : Status) (detail : Nat) :
    (br.completeTaken env st detail).ownWrites.length = br.ownWrites.length + 1 :=
  List.length_append

/-- Settles O32: the take completes with BAD_CODE and has no other effect (`completedWith_spec`). -/
theorem badCodeIsRefused : Obligations.BadCodeIsRefused := by
  unfold Obligations.BadCodeIsRefused
  intro s hs hd
  obtain ⟨-, hkind⟩ := takeNext_of_dueOf _ _ hd
  have htake : takeNext s.env s.bridge = s.bridge.completeTaken s.env .badCode := by
    rw [takeNext_eq_takeOf, hkind]
    rfl
  have hexec := exec_ringRow .badCode .badCode s (by simp [ringRows]) hd
  rw [htake] at hexec
  have hw := completedWith_spec s hs s.bridge.views s.bridge.solverQueue .badCode 0
  exact ⟨_, hexec, hw.completed, hw.frame, hw.views, hw.timer, hw.queue, hw.events,
    completeTaken_ownWrites_length s.bridge s.env .badCode 0⟩

end Sys2Proof.Machine
end

section
/-! PROOF. The report ring (R186 to R188): the owner shadows as software's writes set them, and the placing of a report. -/

namespace Sys2Proof.Machine

open Laws

/-! ### The placing of a report (R187, R188) -/

theorem reportFree_iff (br : Bridge) : br.reportFree = true ↔ br.owners[br.position]? = some .bridge := by
  rw [Bridge.reportFree, beq_iff_eq]

/-- R188: an entry that software holds takes no report. -/
theorem reportFree_of_software (br : Bridge) (h : br.owners[br.position]? = some .software) :
    br.reportFree = false := by
  rw [Bool.eq_false_iff, Ne, reportFree_iff, h]
  simp

/-- R202: the last byte of a report is its owner, SOFTWARE. -/
theorem report_bytes_owner (r : Report) : r.bytes[31]? = some 0 := by
  simp [Report.bytes, bytesOf]

/-- R187: what a report leaves that finds a free entry. -/
theorem report_placed (env : Env) (br : Bridge) (r : Report) (h : br.reportFree = true) :
    (br.report env r).owners = br.owners.set br.position .software
      ∧ (br.report env r).position = (br.position + 1) % 32
      ∧ (br.report env r).views = br.views ∧ (br.report env r).events = br.events := by
  rw [report_of_free env br r h]
  exact ⟨rfl, rfl, rfl, rfl⟩

/-- R188: what a report leaves alone that is lost. -/
theorem report_lost_frame (env : Env) (br : Bridge) (r : Report) (h : br.reportFree = false) :
    (br.report env r).ownWrites = br.ownWrites ∧ (br.report env r).owners = br.owners
      ∧ (br.report env r).position = br.position := by
  rw [report_of_held env br r h]
  exact ⟨rfl, rfl, rfl⟩

/-- R188: a lost report is counted for its view. -/
theorem report_lost_count (env : Env) (br : Bridge) (r : Report) (h : br.reportFree = false) :
    ((br.report env r).views.get r.frame.view).counters.lost = (br.views.get r.frame.view).counters.lost + 1 := by
  rw [report_views_get, if_pos ⟨h, rfl⟩]
  rfl

/-- R188: a lost report raises the LOST event of its view. -/
theorem report_lost_event (env : Env) (br : Bridge) (r : Report) (h : br.reportFree = false) :
    (br.report env r).events.getLsbD (Event.lost r.frame.view).bit = true := by
  rw [report_bit, h]
  simp

/-- Settles O55: a free entry takes the report (`report_placed`, `report_ownWrites_of_free`), and one that software holds
loses it (`report_lost_frame`, `report_lost_count`, `report_lost_event`). -/
theorem reportIsPlacedOrLost : Obligations.ReportIsPlacedOrLost := by
  unfold Obligations.ReportIsPlacedOrLost
  intro env br r hpos hlen br'
  refine ⟨fun hbridge => ?_, fun hsoftware => ?_⟩
  · have hfree := (reportFree_iff br).2 hbridge
    obtain ⟨howners, hposition, hviews, hevents⟩ := report_placed env br r hfree
    refine ⟨⟨_, report_ownWrites_of_free env br r hfree, rfl, rfl, rfl, rfl, report_bytes_length r,
      report_bytes_owner r⟩, ?_, fun j hj => ?_, hposition, hviews, hevents⟩
    · rw [howners, List.getElem?_set_self (by omega)]
    · rw [howners, List.getElem?_set_ne hj.symm]
  · have hheld := reportFree_of_software br hsoftware
    obtain ⟨hwrites, howners, hposition⟩ := report_lost_frame env br r hheld
    exact ⟨hwrites, howners, hposition, report_lost_count env br r hheld, report_lost_event env br r hheld,
      (Bridge.OtherEvents.refl br _).report env r (List.mem_singleton.2 rfl),
      (Bridge.OtherViews.refl br _).report env r rfl⟩

/-! ### Writes of owner bytes (R170, R186) -/

/-- The owner shadows after a write that does (`some`) or does not enable the owner byte of entry `i`. -/
def ownersWith (owners : List Owner) (i : Nat) : Option Byte → List Owner
  | none => owners
  | some d => owners.set i (ownerOf d)

theorem ownersWith_of_ne (owners : List Owner) (i j : Nat) (d : Option Byte) (h : j ≠ i) :
    (ownersWith owners i d)[j]? = owners[j]? := by
  cases d with
  | none => rfl
  | some d => exact List.getElem?_set_ne h.symm

theorem ownersWith_some_self (owners : List Owner) (i : Nat) (d : Byte) (h : i < owners.length) :
    (ownersWith owners i (some d))[i]? = some (ownerOf d) :=
  List.getElem?_set_self h

/-- R186: the first 31 bytes of a report entry change no state of the bridge. -/
theorem writeControlByte_report_body (br : Bridge) (i k : Nat) (d : Byte) (hi : i < 32) (hk : k < 31) :
    br.writeControlByte (0x1000 + 32 * i + k) d = br := by
  unfold Bridge.writeControlByte
  rw [if_neg (by omega), if_neg (by omega), dif_neg (by omega), if_neg (by omega), if_neg (by omega)]

/-- R186: the last byte of a report entry sets its owner shadow. -/
theorem writeControlByte_report_owner (br : Bridge) (i : Nat) (d : Byte) (hi : i < 32) :
    br.writeControlByte (0x1000 + 32 * i + 31) d = { br with owners := br.owners.set i (ownerOf d) } := by
  have hentry : (0x1000 + 32 * i + 31 - 0x1000) / 32 = i := by omega
  unfold Bridge.writeControlByte
  rw [if_neg (by omega), if_neg (by omega), dif_neg (by omega), if_neg (by omega), if_pos (by omega), hentry]

/-- R186: a stretch of bytes written into report entry `i`, from its byte `first` on. -/
theorem writeControl_report (base a i : Nat) (hi : i < 32) (bs : List WriteByte) (n : Nat) (br : Bridge) (first : Nat)
    (ha : a + n = base + 0x1000 + 32 * i + first) (hfit : first + bs.length ≤ 32) (hfirst : first ≤ 31) :
    br.writeControl base ((bs.zipIdx n).map (fun p => (a + p.2, p.1))) =
      { br with owners := ownersWith br.owners i (enabledByte bs (31 - first)) } := by
  induction bs generalizing n br first with
  | nil => rfl
  | cons b bs ih =>
    simp only [List.length_cons] at hfit
    have hoff : a + n - base = 0x1000 + 32 * i + first := by omega
    have hcons : br.writeControl base (((b :: bs).zipIdx n).map (fun p => (a + p.2, p.1))) =
        (if b.enable then br.writeControlByte (a + n - base) b.data else br).writeControl base
          ((bs.zipIdx (n + 1)).map (fun p => (a + p.2, p.1))) := rfl
    rw [hcons, hoff]
    by_cases hlast : first = 31
    · obtain rfl : bs = [] := List.eq_nil_of_length_eq_zero (by omega)
      rw [hlast, writeControlByte_report_owner br i b.data hi]
      cases hb : b.enable <;> simp [Bridge.writeControl, enabledByte, hb, ownersWith]
    · have hbody : (if b.enable then br.writeControlByte (0x1000 + 32 * i + first) b.data else br) = br := by
        rw [writeControlByte_report_body br i first b.data hi (by omega), ite_self]
      have hnext : 31 - first = 31 - (first + 1) + 1 := by omega
      rw [hbody, ih (n + 1) br (first + 1) (by omega) (by omega) (by omega), hnext]
      rfl

/-- The bridge with a forwarded write and the owner shadows of the report ring. -/
def Bridge.ownersWritten (br : Bridge) (w : WriteRequest) (owners : List Owner) : Bridge :=
  { br.forwardWrite w with owners := owners }

/-- R148, R186: a write of the last beat of report entry `i` that is offered to an open port. The command ring is as before,
so the acceptance makes no take available. -/
theorem exec_reportOwnerWrite (s : State) (w : WriteRequest) (i : Nat) (hopen : s.open = true)
    (ha : controlActive s.env.straps = true) (hi : i < 32)
    (haddr : w.address.toNat = controlBase s.env.straps + 0x1000 + 32 * i + 28) (hlen : w.bytes.length = 4) :
    exec (.reportOwnerWrite w) s =
      .next { s with
        bridge := (s.bridge.ownersWritten w (ownersWith s.bridge.owners i (w.enabled 3))).freePlaces } := by
  have hwell : (Request.write w).wellFormed = true := by
    have hbase := controlBase_mod4 s.env.straps
    simp [Request.wellFormed, WriteRequest.wellFormed, hlen, haddr]
    omega
  have hshadow : (s.bridge.forwardWrite w).writeControl (controlBase s.env.straps) (writeCells w) =
      s.bridge.ownersWritten w (ownersWith s.bridge.owners i (w.enabled 3)) :=
    writeControl_report (controlBase s.env.straps) w.address.toNat i hi w.bytes 0 (s.bridge.forwardWrite w) 28 haddr
      (by omega) (by omega)
  have hdue : takeDue (s.bridge.ownersWritten w (ownersWith s.bridge.owners i (w.enabled 3))).freePlaces = false :=
    takeDue_of_open s hopen _ (by simp [Bridge.ownersWritten, Bridge.forwardWrite])
      (by simp [Bridge.ownersWritten, Bridge.forwardWrite]) (by simp [Bridge.ownersWritten, Bridge.forwardWrite])
  refine exec_write_of_open s w hwell hopen _ ?_
  rw [acceptWrite_control s.env s.bridge w (0x1000 + 32 * i + 28) ha (by omega) (bytes_ne_nil_of_wellFormed hwell)
    (by omega), hshadow, takeIfDue_of_not_due _ _ hdue]

/-- R148: such a write changes no more than the owner shadows, beside its place and its operation. -/
theorem ownersWritten_frame (s : State) (w : WriteRequest) (owners : List Owner) :
    s.Forwarded { s with bridge := (s.bridge.ownersWritten w owners).freePlaces } w
      ∧ s.PassFrame { s with bridge := (s.bridge.ownersWritten w owners).freePlaces } := by
  obtain ⟨op, hstream, hop⟩ := forwardWrite_stream s.bridge w
  have haccept : s.AcceptFrame { s with bridge := (s.bridge.ownersWritten w owners).freePlaces } := by
    constructor <;> simp [Bridge.ownersWritten, Bridge.forwardWrite]
  refine ⟨⟨⟨op, ?_, hop⟩, ?_, ?_⟩, ⟨haccept, ?_, ?_, ?_, ?_, ?_⟩⟩
  · exact (freePlaces_stream _).trans hstream
  all_goals simp [Bridge.ownersWritten, Bridge.forwardWrite]

theorem ownersWritten_shadows (br : Bridge) (w : WriteRequest) (owners : List Owner) :
    (br.ownersWritten w owners).freePlaces.owners = owners
      ∧ (br.ownersWritten w owners).freePlaces.events = br.events
      ∧ (br.ownersWritten w owners).freePlaces.mask = br.mask
      ∧ (br.ownersWritten w owners).freePlaces.descriptors = br.descriptors
      ∧ (br.ownersWritten w owners).freePlaces.commandShadow = br.commandShadow := by
  simp [Bridge.ownersWritten, Bridge.forwardWrite]

/-- Settles O16: of the beat's bytes the last alone acts, on the owner shadow of its entry (`writeControl_report`). -/
theorem reportOwnerWriteSetsOneOwner : Obligations.ReportOwnerWriteSetsOneOwner := by
  unfold Obligations.ReportOwnerWriteSetsOneOwner
  intro s w i hopen ha howners hi haddr hlen
  obtain ⟨hforwarded, hpass⟩ := ownersWritten_frame s w (ownersWith s.bridge.owners i (w.enabled 3))
  obtain ⟨hafter, hshadows⟩ := ownersWritten_shadows s.bridge w (ownersWith s.bridge.owners i (w.enabled 3))
  refine ⟨_, exec_reportOwnerWrite s w i hopen ha hi haddr hlen, fun j hj => ?_, fun hnone => ?_, fun d hsome => ?_,
    hforwarded, hpass, hshadows⟩
  · rw [hafter, ownersWith_of_ne _ _ _ _ hj]
  · rw [hafter, hnone]
    rfl
  · rw [hafter, hsome, ownersWith_some_self _ _ _ (by omega)]
    rfl

end Sys2Proof.Machine
end

section
/-! PROOF. The ZERO command (R195): the counters its target selects, and its completion. -/

namespace Sys2Proof.Machine

open Laws

/-! ### The counters (R194) -/

/-- What ZERO can change: the views, whose counters it clears, and the three global counters. -/
structure CounterBank where
  views : Four View
  glitchA : Count16
  glitchB : Count16
  outOfRange : Count16

/-- The counters of the bridge. -/
def Bridge.bank (br : Bridge) : CounterBank := ⟨br.views, br.glitchA, br.glitchB, br.outOfRange⟩

/-- The bridge with other counters. -/
def Bridge.withBank (br : Bridge) (c : CounterBank) : Bridge :=
  { br with views := c.views, glitchA := c.glitchA, glitchB := c.glitchB, outOfRange := c.outOfRange }

theorem withBank_bank (br : Bridge) : br.withBank br.bank = br := rfl

/-- The view with its seven counters at 0 (R194). -/
def View.zeroed (vw : View) : View := vw.count (fun _ => ViewCounters.zero)

/-- R195: the bank with the counters of one view cleared. -/
def CounterBank.zeroView (c : CounterBank) (v : Fin 4) : CounterBank :=
  { c with views := c.views.set v (c.views.get v).zeroed }

/-- R195: the bank with every counter cleared. -/
def CounterBank.zeroAll (c : CounterBank) : CounterBank := ⟨c.views.map View.zeroed, 0, 0, 0⟩

/-! ### The take -/

theorem takeZero_of_view (env : Env) (br : Bridge) (v : Fin 4) (h : (br.shadowByte br.nextIndex 1).toNat = v.val) :
    takeZero env br = (br.withBank (br.bank.zeroView v)).completeTaken env .done := by
  simp only [takeZero, targetView_eq_some br v h]
  rfl

theorem takeZero_of_all (env : Env) (br : Bridge) (h : (br.shadowByte br.nextIndex 1).toNat = 255) :
    takeZero env br = (br.withBank br.bank.zeroAll).completeTaken env .done := by
  have hbyte : entryByte br.nextEntry 1 = 0xFF := by
    rw [entryByte_nextEntry br 1 (by omega)]
    exact BitVec.eq_of_toNat_eq h
  simp only [takeZero, targetView_eq_none br (by omega), if_pos hbyte]
  rfl

theorem takeZero_of_badTarget (env : Env) (br : Bridge) (h : 4 ≤ (br.shadowByte br.nextIndex 1).toNat)
    (hlt : (br.shadowByte br.nextIndex 1).toNat < 255) :
    takeZero env br = (br.withBank br.bank).completeTaken env .badTarget := by
  have hbyte : entryByte br.nextEntry 1 ≠ 0xFF := by
    rw [entryByte_nextEntry br 1 (by omega)]
    intro hff
    have : (br.shadowByte br.nextIndex 1).toNat = 255 := congrArg BitVec.toNat hff
    omega
  simp only [takeZero, targetView_eq_none br h, if_neg hbyte]
  rfl

/-- R195: what a ZERO with target byte `target` makes of the counters `old`, and the status it completes with. -/
structure CounterBank.ZeroedBy (old new : CounterBank) (target : Nat) (st : Status) : Prop where
  cleared : ∀ v : Fin 4, target = v.val ∨ target = 255 → new.views.get v = (old.views.get v).zeroed
  kept : ∀ v : Fin 4, target ≠ v.val → target ≠ 255 → new.views.get v = old.views.get v
  globalsCleared : target = 255 → new.glitchA = 0 ∧ new.glitchB = 0 ∧ new.outOfRange = 0
  globalsKept : target ≠ 255 →
    new.glitchA = old.glitchA ∧ new.glitchB = old.glitchB ∧ new.outOfRange = old.outOfRange
  done : target < 4 ∨ target = 255 → st = .done
  badTarget : 4 ≤ target → target < 255 → st = .badTarget

theorem zeroedBy_view (c : CounterBank) (v : Fin 4) : c.ZeroedBy (c.zeroView v) v.val .done where
  cleared := fun u hu => by
    obtain rfl : u = v := Fin.ext (by omega)
    exact Four.get_set_self ..
  kept := fun u hu _ => Four.get_set_ne _ _ _ _ (fun h => hu (congrArg Fin.val h.symm))
  globalsCleared := fun h => by omega
  globalsKept := fun _ => ⟨rfl, rfl, rfl⟩
  done := fun _ => rfl
  badTarget := fun h _ => by omega

theorem zeroedBy_all (c : CounterBank) : c.ZeroedBy c.zeroAll 255 .done where
  cleared := fun _ _ => Four.get_map ..
  kept := fun _ _ h => absurd rfl h
  globalsCleared := fun _ => ⟨rfl, rfl, rfl⟩
  globalsKept := fun h => absurd rfl h
  done := fun _ => rfl
  badTarget := fun _ h => absurd h (Nat.lt_irrefl 255)

theorem zeroedBy_refused (c : CounterBank) (target : Nat) (h : 4 ≤ target) (hlt : target < 255) :
    c.ZeroedBy c target .badTarget where
  cleared := fun _ hv => by omega
  kept := fun _ _ _ => rfl
  globalsCleared := fun h => by omega
  globalsKept := fun _ => ⟨rfl, rfl, rfl⟩
  done := fun h => by omega
  badTarget := fun _ _ => rfl

/-- R195: the take of ZERO clears what its target selects, and completes. -/
theorem takeZero_effect (env : Env) (br : Bridge) :
    ∃ c st, takeZero env br = (br.withBank c).completeTaken env st
      ∧ br.bank.ZeroedBy c (br.shadowByte br.nextIndex 1).toNat st := by
  have hbyte : (br.shadowByte br.nextIndex 1).toNat < 256 := BitVec.isLt _
  by_cases hview : (br.shadowByte br.nextIndex 1).toNat < 4
  · exact ⟨_, _, takeZero_of_view env br ⟨_, hview⟩ rfl, zeroedBy_view br.bank ⟨_, hview⟩⟩
  · by_cases hall : (br.shadowByte br.nextIndex 1).toNat = 255
    · exact ⟨_, _, takeZero_of_all env br hall, hall ▸ zeroedBy_all br.bank⟩
    · exact ⟨_, _, takeZero_of_badTarget env br (by omega) (by omega),
        zeroedBy_refused br.bank _ (by omega) (by omega)⟩

/-! ### The completion -/

/-- The state with other counters and its command completed. -/
def State.zeroCompleted (s : State) (c : CounterBank) (st : Status) : State :=
  { s with bridge := (s.bridge.withBank c).completeTaken s.env st }

theorem exec_zero_of_take (s : State) (hd : takeDueOf .zero s.bridge = true) (c : CounterBank) (st : Status)
    (htake : takeZero s.env s.bridge = (s.bridge.withBank c).completeTaken s.env st) :
    exec .zero s = .next (s.zeroCompleted c st) := by
  have hnext : takeNext s.env s.bridge = takeZero s.env s.bridge := by
    rw [takeNext_eq_takeOf, (takeNext_of_dueOf _ _ hd).2]
    rfl
  rw [exec_ringRow .zero .zero s (by simp [ringRows]) hd, hnext, htake]
  rfl

theorem zeroCompleted_takeFrame (s : State) (c : CounterBank) (st : Status) : s.TakeFrame (s.zeroCompleted c st) where
  env := rfl
  dram := rfl
  readData := rfl
  pending := rfl
  solver := rfl
  mask := rfl
  descriptors := rfl
  requests := rfl
  busWait := rfl
  accepted := rfl
  stream := rfl
  assemblies := rfl

theorem zeroCompleted_completed (s : State) (hs : s.Shaped) (c : CounterBank) (st : Status) :
    s.bridge.Completed (s.zeroCompleted c st).bridge s.env st 0 :=
  completeTaken_completed s.bridge (s.bridge.withBank c) s.env st 0 rfl rfl hs.bridge.commandShadow hs.bridge.nextIndex

/-- Settles O42: the effect of the take (`takeZero_effect`), and its completion, which leaves all but the counters and the
command ring (`zeroCompleted_takeFrame`, `completeTaken_otherEvents`). -/
theorem zeroClearsCounters : Obligations.ZeroClearsCounters := by
  unfold Obligations.ZeroClearsCounters
  intro s hs hd target
  obtain ⟨c, st, htake, hzeroed⟩ := takeZero_effect s.env s.bridge
  have hcompleted := zeroCompleted_completed s hs c st
  exact ⟨_, exec_zero_of_take s hd c st htake, zeroCompleted_takeFrame s c st, rfl, rfl, rfl, rfl, rfl,
    completeTaken_otherEvents (s.bridge.withBank c) s.env st 0,
    completeTaken_ownWrites_length (s.bridge.withBank c) s.env st 0, hzeroed.cleared, hzeroed.kept,
    hzeroed.globalsCleared, hzeroed.globalsKept, fun h => hzeroed.done h ▸ hcompleted,
    fun h hlt => hzeroed.badTarget h hlt ▸ hcompleted⟩

end Sys2Proof.Machine
end

section
/-! The step and the command at the front of the queue. -/

namespace Sys2Proof.Machine

theorem step_of_pending_cons (c : Instr) (rest : List Instr) (s : State) (hp : s.pending = c :: rest) :
    step s = exec c { s with pending := rest } := by
  rw [step, hp]

/-- Settles O1, by the step's equation for a queue that is not empty (`step_of_pending_cons`). -/
theorem stepRunsFrontCommand : Obligations.StepRunsFrontCommand := by
  unfold Obligations.StepRunsFrontCommand
  exact step_of_pending_cons

end Sys2Proof.Machine
end
